-- ==== Sys2Proof/Word.lean ====
section
/-! DEFINITION. The 16-bit word of the manual (00, Terms) and its plainest arithmetic. -/

namespace Sys2Proof

/-- A word: 16 bits. All sample data, control words and memory addresses are counted in words. -/
abbrev Word := BitVec 16

/-- The word that holds a number, its low 16 bits. -/
def word (n : Nat) : Word := BitVec.ofNat 16 n

/-- One step up that stops at 65535 (drop count R21, lost count R183, missed triggers R121). -/
def saturate16 (n : Nat) : Nat := min n 65535

end Sys2Proof
end

