-- ==== Sys2Proof/Syntax.lean ====
section
/-! DEFINITION. The commands: one constructor of `Instr` for each row of `spec/opcode_table.json`, with the row's operands.
A step of a port carries the port; a step that brings a word from a host carries the word. A step that is the grant of a
request carries no operand beyond its port, since the request that stands at the arbiter holds the rest (R64). -/

namespace Sys2Proof

/-- The four host ports. -/
inductive Port where
  | a | b | c | d
deriving DecidableEq, Repr

/-- The parallel ports, A and B (R154). -/
inductive ParPort where
  | a | b
deriving DecidableEq, Repr

/-- The serial ports, C and D (R166). -/
inductive SerPort where
  | c | d
deriving DecidableEq, Repr

/-- What a host asks of an address: a read, or a write of a word. -/
inductive BusAccess where
  | read
  | write (data : Word)
deriving DecidableEq, Repr

/-- The two moments of a serial data word that matter (R171, R173, R174, R176): its first bit, and its sixteenth bit, at which the
word clocked in is whole. -/
inductive DataBit where
  | first
  | last (dataIn : Word)
deriving DecidableEq, Repr

/-- The steps of the part, one constructor per row of the table. -/
inductive Instr where
  /-- DEVICE_RESET: the device reset input is asserted. -/
  | deviceReset
  /-- TIMEBASE_ADVANCE: one microsecond of the reference clock. -/
  | timebaseAdvance
  /-- LEASE_TICK: the tick that the divider has reached is taken. -/
  | leaseTick
  /-- LEASE_EXPIRY: the next expiry of the tick, the lowest attachment index first (R73). -/
  | leaseExpiry
  /-- PACER_EXPIRY of pacer `n`. -/
  | pacerExpiry (n : Fin 4)
  /-- STALL_TIMEOUT of a parallel port's waiting access. -/
  | stallTimeout (p : ParPort)
  /-- PARALLEL_CYCLE_START: strobe with select, the word address and the data word of a write. -/
  | parallelCycleStart (p : ParPort) (access : BusAccess) (addr : BitVec 12)
  /-- STROBE_RELEASE: the host releases the strobe or select. -/
  | strobeRelease (p : ParPort)
  /-- PORT_RESET: the port reset input is asserted. -/
  | portReset (p : ParPort)
  /-- WITHDRAWAL: the grant of a port's withdrawal. -/
  | withdrawal (p : Port)
  /-- SERIAL_FRAME_START: select is asserted. -/
  | serialFrameStart (p : SerPort)
  /-- STATUS_ONLY: a header with this op takes effect; the window and count fields are the header's (R191). -/
  | statusOnly (p : SerPort) (window : Fin 8) (count : BitVec 10)
  /-- STREAM_READ header. -/
  | streamRead (p : SerPort) (window : Fin 8) (count : BitVec 10)
  /-- STREAM_WRITE header. -/
  | streamWrite (p : SerPort) (window : Fin 8) (count : BitVec 10)
  /-- PAGE_READ header. -/
  | pageRead (p : SerPort) (window : Fin 8) (count : BitVec 10)
  /-- PAGE_WRITE header. -/
  | pageWrite (p : SerPort) (window : Fin 8) (count : BitVec 10)
  /-- CONTROL_READ header. -/
  | controlRead (p : SerPort) (window : Fin 8) (count : BitVec 10)
  /-- CONTROL_WRITE header. -/
  | controlWrite (p : SerPort) (window : Fin 8) (count : BitVec 10)
  /-- WITHDRAW_FRAME: a header with op WITHDRAW. -/
  | withdrawFrame (p : SerPort) (window : Fin 8) (count : BitVec 10)
  /-- SERIAL_WINDOW_CHECK: the grant of the header's window check. -/
  | serialWindowCheck (p : SerPort)
  /-- BEYOND_COUNT_WORD: a data word is begun past the header's count. -/
  | beyondCountWord (p : SerPort)
  /-- SERIAL_FRAME_END: select is released. -/
  | serialFrameEnd (p : SerPort)
  /-- PUSH: the grant of a port's stream write. -/
  | push (p : Port)
  /-- POP: the grant of a port's stream read. -/
  | pop (p : Port)
  /-- PAGE_WINDOW_READ: the grant of a port's page read. -/
  | pageWindowRead (p : Port)
  /-- PAGE_WINDOW_WRITE: the grant of a port's page write. -/
  | pageWindowWrite (p : Port)
  /-- WAITING_ACCESS_ANSWER: a re-examination takes the port's waiting access. -/
  | waitingAccessAnswer (p : ParPort)
  /-- TIMEBASE_LOW_READ: a read of the port's timebase low word. -/
  | timebaseLowRead (p : Port)
  /-- EVENT_ACKNOWLEDGE: a write of any value to the event acknowledge word. -/
  | eventAcknowledge (p : Port) (value : Word)
  /-- CONTROL_WORD_WRITE: a write of the control word at an offset of the control page. -/
  | controlWordWrite (p : Port) (offset : BitVec 8) (value : Word)
  /-- COMMAND_SUBMIT: a write of the command word. -/
  | commandSubmit (p : Port) (command : Word)
  /-- BAD_COMMAND: the grant of a command word that is no command code. -/
  | badCommand (p : Port)
  /-- CREATE_RING at its grant. -/
  | createRing (p : Port)
  /-- ATTACH at its grant. -/
  | attach (p : Port)
  /-- DETACH at its grant. -/
  | detach (p : Port)
  /-- RENEW at its grant. -/
  | renew (p : Port)
  /-- SET_THRESHOLD at its grant. -/
  | setThreshold (p : Port)
  /-- QUERY_RING at its grant. -/
  | queryRing (p : Port)
  /-- QUERY_ATTACH at its grant. -/
  | queryAttach (p : Port)
  /-- WITHDRAW: a submit of the WITHDRAW code. -/
  | withdraw (p : Port)
  /-- LOAD_MOVE at its grant. -/
  | loadMove (p : Port)
  /-- START_MOVE at its grant. -/
  | startMove (p : Port)
  /-- FIRE_MOVE at its grant. -/
  | fireMove (p : Port)
  /-- STOP_MOVE at its grant. -/
  | stopMove (p : Port)
  /-- UNLOAD_MOVE at its grant. -/
  | unloadMove (p : Port)
  /-- SET_PACER at its grant. -/
  | setPacer (p : Port)
  /-- START_CHECK: the grant of the move engine's start check. -/
  | startCheck
  /-- MOVE_FRAME_POP: the grant of a pop of the frame in flight. -/
  | moveFramePop
  /-- MOVE_FRAME_PUSH: the grant of a push of the frame in flight. -/
  | moveFramePush
  /-- DEFERRED_UNLOAD: the grant of the engine's unload request. -/
  | deferredUnload
  /-- SERIAL_ADDRESS_WORD: the sixteenth bit of a frame's address word. -/
  | serialAddressWord (p : SerPort) (address : Word)
  /-- SERIAL_DATA_WORD: a data word is begun (first bit) or completed (sixteenth bit). -/
  | serialDataWord (p : SerPort) (bit : DataBit)
  /-- PORT_RESET_RELEASE: the port reset input is released. -/
  | portResetRelease (p : ParPort)
  /-- DEVICE_RESET_RELEASE: the device reset input is released. -/
  | deviceResetRelease
deriving DecidableEq, Repr

end Sys2Proof
end

