-- ==== Sys2Proof/Config.lean ====
section
/-! DEFINITION. The sizes and fixed periods of the JF416. The manual leaves no value open, so no constant here is free. -/

namespace Sys2Proof.Config

/-- Words of one page (R57). -/
abbrev pageWords : Nat := 256
/-- Words of the sample memory (R57). -/
abbrev sampleWords : Nat := 32768
/-- Records one event queue holds (R183). -/
abbrev queueDepth : Nat := 16
/-- Microseconds between two lease ticks (R135). -/
abbrev leaseTickPeriod : Nat := 1000
/-- The stall limit after reset and after withdrawal, in microseconds (R154, R164). -/
abbrev stallLimitReset : Nat := 255
/-- A pacer's period register after device reset (R136). -/
abbrev pacerPeriodReset : Nat := 1000
/-- How deep one seal can pass down a chain of move entries: one entry halts at each level (R129), and there are 16. -/
abbrev sealDepth : Nat := 16

end Sys2Proof.Config
end

