-- ==== Sys2Proof/Machine/State.lean ====
section
/-! DEFINITION. The state of the JF416 as plain data: every record the manual gives the part (INVENTORY.md, State), the queue of
commands that are waiting, the two empty-or-unused stop types, and the state after device reset. -/

namespace Sys2Proof.Machine

/-! ### Tables by port -/

/-- One value for each of the four ports. -/
structure Four (α : Type) where
  a : α
  b : α
  c : α
  d : α
deriving DecidableEq, Repr

/-- One value for each of two ports, the parallel pair (A, B) or the serial pair (C, D). -/
structure Two (α : Type) where
  fst : α
  snd : α
deriving DecidableEq, Repr

/-! ### Names of attachments, rings -/

/-- The 8-bit name of an attachment: generation times 32 plus index (R20). -/
structure Handle where
  gen : Fin 8
  index : Fin 32
deriving DecidableEq, Repr

inductive RingState where
  | free
  | opened
  | sealed
deriving DecidableEq, Repr

inductive RingMode where
  | circular
  | onePass
deriving DecidableEq, Repr

/-- One port's entry of a ring's access list (R8). -/
inductive AccessRight where
  | nothing
  | read
  | write
  | readWrite
deriving DecidableEq, Repr

/-- Why production ended (R13). -/
inductive SealCause where
  | sealedByProducer
  | producerLost
  | sourceEnded
deriving DecidableEq, Repr

/-- The three reader slots of a ring, 1 to 3 (R9). -/
structure Slots where
  one : Option Handle
  two : Option Handle
  three : Option Handle
deriving DecidableEq, Repr

/-- A ring record (R1). -/
structure Ring where
  state : RingState
  mode : RingMode
  firstPage : Fin 128
  pageCount : Nat
  writePos : Nat
  valid : Nat
  reserved : Nat
  access : Four AccessRight
  producer : Option Handle
  slots : Slots
  sealCause : Option SealCause
deriving DecidableEq, Repr

/-! ### Attachments -/

/-- The part an attachment has in its ring; a free record reads READER, slot 0 (R21). -/
inductive Role where
  | producer
  | reader (slot : Fin 4)
deriving DecidableEq, Repr

/-- The party that holds an attachment (R22). -/
inductive Holder where
  | port (p : Port)
  | entry (e : Fin 16)
deriving DecidableEq, Repr

inductive Policy where
  | hold
  | lossy
deriving DecidableEq, Repr

inductive Order where
  | natural
  | reversedBlock
deriving DecidableEq, Repr

/-- An attachment record (R21). -/
structure Attachment where
  inUse : Bool
  gen : Fin 8
  ring : Fin 16
  role : Role
  holder : Holder
  policy : Policy
  order : Order
  blockExp : Nat
  fill : Nat
  skip : Nat
  progress : Nat
  dropCount : Nat
  lagReported : Bool
  endReported : Bool
  threshold : Nat
  leasePeriod : Nat
  leaseRemaining : Nat
deriving DecidableEq, Repr

/-! ### Sample memory -/

/-- The sample memory as the cells that do not hold 0, addresses rising; every unlisted word reads 0 (R57). -/
structure Memory where
  cells : List (Nat × Word)
deriving DecidableEq, Repr

/-! ### Events -/

/-- The eighteen kinds that can be posted (R180); the kind NONE is what an empty queue reads as (R184). -/
inductive EventKind where
  | commandDone
  | commandRefused
  | dataReady
  | spaceReady
  | endOfStream
  | lagged
  | peerLost
  | leaseExpired
  | stallTimeout
  | underrun
  | writeRefused
  | windowFault
  | unmappedAccess
  | cycleAbandoned
  | moveDone
  | moveHalted
  | triggerMissed
  | eventsLost
deriving DecidableEq, Repr

/-- An event record (R180); no handle is the word 0xFFFF. -/
structure Event where
  kind : EventKind
  ring : Option (Fin 16)
  handle : Option Handle
  detail : Word
  stamp : Word
deriving DecidableEq, Repr

/-! ### The command unit -/

inductive CommandState where
  | idle
  | inFlight
  | done
deriving DecidableEq, Repr

/-- The result codes (R189). -/
inductive ResultCode where
  | ok
  | badCommand
  | badArg
  | badRing
  | badHandle
  | noRing
  | noSpace
  | noAttach
  | roleTaken
  | noReaderSlot
  | notPermitted
  | ringSealed
  | notOwner
  | entryBusy
  | noEntry
deriving DecidableEq, Repr

/-- What waits at a port's command requester (R64, R86): nothing, a command word, or a withdrawal of the port, with whether it
is answered as the WITHDRAW command (R80, R95). -/
inductive InFlight where
  | nothing
  | command (w : Word)
  | withdrawal (asCommand : Bool)
deriving DecidableEq, Repr

/-- The six argument words (R86). -/
structure Args where
  w1 : Word
  w2 : Word
  w3 : Word
  w4 : Word
  w5 : Word
  w6 : Word
deriving DecidableEq, Repr

/-- The four result words (R86). -/
structure Results where
  w1 : Word
  w2 : Word
  w3 : Word
  w4 : Word
deriving DecidableEq, Repr

/-- A port's command unit (R86). -/
structure CommandUnit where
  state : CommandState
  args : Args
  argCopy : Args
  inFlight : InFlight
  commandWord : Word
  resultCode : ResultCode
  results : Results
deriving DecidableEq, Repr

/-! ### Port units -/

inductive WindowKind where
  | stream
  | page
deriving DecidableEq, Repr

inductive WaitPolicy where
  | wait
  | nowait
deriving DecidableEq, Repr

/-- A window entry (R140). -/
structure Window where
  enabled : Bool
  base : BitVec 12
  sizeExp : BitVec 4
  kind : WindowKind
  handleWord : Word
  waitPolicy : WaitPolicy
deriving DecidableEq, Repr

/-- A port's pending data request at the arbiter (R64): the window check of a serial header, or one access of a window word. -/
inductive DataRequest where
  | check
  | access (window : Fin 8) (acc : BusAccess) (offset : Nat)
deriving DecidableEq, Repr

/-- What every port unit holds: window table, fill word, latched high word, mask, command unit, event queue, pending data
request and the word last driven to the host. -/
structure PortUnit where
  windows : Vector Window 8
  fillWord : Word
  latchedHigh : Word
  mask0 : Word
  mask1 : Word
  cmd : CommandUnit
  queue : List Event
  lostCount : Nat
  dataReq : Option DataRequest
  dataOut : Word
deriving DecidableEq, Repr

/-- The state of a parallel port's bus cycle (R154). -/
inductive CycleState where
  | idle
  | control
  | requested
  | waiting
  | answered
deriving DecidableEq, Repr

/-- The window cycle in progress, as decoded at its start (R154). -/
structure Cycle where
  window : Fin 8
  acc : BusAccess
  offset : Nat
deriving DecidableEq, Repr

/-- What a parallel port unit holds beside `PortUnit` (R154), and the levels of its strobe and reset inputs. -/
structure ParallelUnit where
  cycleState : CycleState
  cycle : Option Cycle
  stallLimit : Nat
  stallTimer : Nat
  answer : Option Word
  strobeHeld : Bool
  resetHeld : Bool
deriving DecidableEq, Repr

inductive FramePhase where
  | idle
  | header
  | address
  | data
deriving DecidableEq, Repr

/-- The eight header operations (R168, R191). -/
inductive SerialOp where
  | statusOnly
  | streamRead
  | streamWrite
  | pageRead
  | pageWrite
  | controlRead
  | controlWrite
  | withdraw
deriving DecidableEq, Repr

/-- The serial conditions (R169, R191). -/
inductive Condition where
  | ok
  | empty
  | full
  | exhausted
  | ended
  | torn
  | noWindow
  | staleHandle
  | notHolder
  | wrongRole
  | outOfRing
  | badOp
  | overcount
deriving DecidableEq, Repr

/-- The status word of a serial port (R166). -/
structure StatusWord where
  condition : Condition
  completed : Nat
  eventPending : Bool
  commandBusy : Bool
deriving DecidableEq, Repr

/-- The data word being shifted: none, begun with no word of data behind it, or begun and answered with data (R171, R172). -/
inductive WordProgress where
  | none
  | noData
  | data
deriving DecidableEq, Repr

/-- What a serial port unit holds beside `PortUnit` (R166), the level of select, and whether the frame in progress is one that a
withdrawal's grant made inert (R177). -/
structure SerialUnit where
  phase : FramePhase
  op : Option SerialOp
  window : Fin 8
  count : Nat
  address : Word
  wordIndex : Nat
  inert : Bool
  condition : Condition
  completed : Nat
  status : StatusWord
  selectHeld : Bool
  wordNow : WordProgress
  withdrawn : Bool
deriving DecidableEq, Repr

/-- A waiting access of a parallel port (R157). -/
structure WaitingAccess where
  window : Fin 8
  handle : Handle
  acc : BusAccess
deriving DecidableEq, Repr

/-! ### Arbiter, move engine, pacers -/

/-- The nine requesters of the arbiter (R64). -/
inductive Requester where
  | data (p : Port)
  | move
  | command (p : Port)
deriving DecidableEq, Repr

inductive MoveState where
  | empty
  | loaded
  | armed
  | waiting
  | running
  | done
  | halted
deriving DecidableEq, Repr

inductive Trigger where
  | software
  | pacer (n : Fin 4)
  | sourceReady
deriving DecidableEq, Repr

inductive HaltReason where
  | stopped
  | sourceEnded
deriving DecidableEq, Repr

/-- A move entry (R114). -/
structure MoveEntry where
  state : MoveState
  owner : Option Port
  source : Option Handle
  dest : Option Handle
  frameLen : Nat
  phase : Nat
  stride : Nat
  framesPerRun : Nat
  runLimit : Nat
  runsDone : Nat
  trigger : Trigger
  pendingRuns : Nat
  framesDone : Nat
  missedTriggers : Nat
  propagateEnd : Bool
  stopPending : Bool
  unloadPending : Bool
  haltReason : Option HaltReason
deriving DecidableEq, Repr

/-- The frame in flight (R127): the RUNNING entry, the next position, and a word popped and not yet pushed. -/
structure Frame where
  entry : Fin 16
  position : Nat
  held : Option Word
deriving DecidableEq, Repr

/-- The move engine's pending request at the arbiter (R64, R70). -/
inductive MoveRequest where
  | startCheck
  | framePop
  | framePush
  | unload
deriving DecidableEq, Repr

/-- A pacer (R136). `due` says that the pacer has expired, its count reloaded, and that its triggers are still to be delivered (R138,
assumption 2). -/
structure Pacer where
  enabled : Bool
  period : Nat
  count : Nat
  due : Bool
deriving DecidableEq, Repr

/-! ### The state -/

/-- The state of the part, and the queue of commands that wait. `tickDue` says that a lease tick has fallen which the ring controller has
not taken yet (R135, assumption 2). -/
structure State where
  pending : List Instr
  rings : Vector Ring 16
  atts : Vector Attachment 32
  pageMap : Vector (Option (Fin 16)) 128
  mem : Memory
  arb : Requester
  waiting : Two (Option WaitingAccess)
  moves : Vector MoveEntry 16
  rotation : Fin 16
  frame : Option Frame
  moveReq : Option MoveRequest
  pacers : Vector Pacer 4
  timebase : BitVec 32
  divider : Nat
  tickDue : Bool
  ports : Four PortUnit
  par : Two ParallelUnit
  ser : Two SerialUnit
  deviceReset : Bool
deriving DecidableEq, Repr

/-- Why the part stops: nothing in the manual stops it, so there is no reason and nobody raises one (safe: no run is cut short). -/
inductive Fault where
deriving DecidableEq, Repr

/-- Why a command has no meaning. -/
inductive Refusal where
  /-- Raised by an arm of `exec` whose command has no meaning yet (safe: the run stops there). No arm raises it. -/
  | notModelled (mnemonic : String)
deriving DecidableEq, Repr

/-! ### Reset values -/

def Four.all {α : Type} (x : α) : Four α := ⟨x, x, x, x⟩

/-- A FREE ring record (R1, R18). -/
def Ring.freed : Ring where
  state := .free
  mode := .circular
  firstPage := 0
  pageCount := 0
  writePos := 0
  valid := 0
  reserved := 0
  access := Four.all .nothing
  producer := none
  slots := ⟨none, none, none⟩
  sealCause := none

/-- A free attachment record of a generation (R21). -/
def Attachment.freed (gen : Fin 8) : Attachment where
  inUse := false
  gen := gen
  ring := 0
  role := .reader 0
  holder := .port .a
  policy := .hold
  order := .natural
  blockExp := 0
  fill := 0
  skip := 0
  progress := 0
  dropCount := 0
  lagReported := false
  endReported := false
  threshold := 0
  leasePeriod := 0
  leaseRemaining := 0

/-- A window entry after reset or withdrawal (R140). -/
def Window.cleared : Window where
  enabled := false
  base := 0
  sizeExp := 0
  kind := .stream
  handleWord := 0
  waitPolicy := .wait

def Args.zero : Args := ⟨0, 0, 0, 0, 0, 0⟩

def Results.zero : Results := ⟨0, 0, 0, 0⟩

/-- The command unit after device reset (R86). -/
def CommandUnit.cleared : CommandUnit where
  state := .idle
  args := Args.zero
  argCopy := Args.zero
  inFlight := .nothing
  commandWord := 0
  resultCode := .ok
  results := Results.zero

/-- A port unit after device reset (R86, R134, R153, R187; `dataOut` is DESIGN CHOICE, assumption 9). -/
def PortUnit.cleared : PortUnit where
  windows := Vector.replicate 8 Window.cleared
  fillWord := 0
  latchedHigh := 0
  mask0 := 0xFFFE
  mask1 := 0x0007
  cmd := CommandUnit.cleared
  queue := []
  lostCount := 0
  dataReq := none
  dataOut := 0

/-- A parallel port unit after device reset (R154; the pins are DESIGN CHOICE, assumption 7). -/
def ParallelUnit.cleared : ParallelUnit where
  cycleState := .idle
  cycle := none
  stallLimit := Config.stallLimitReset
  stallTimer := 0
  answer := none
  strobeHeld := false
  resetHeld := false

/-- The status word after device reset (R166). -/
def StatusWord.cleared : StatusWord := ⟨.ok, 0, false, false⟩

/-- A serial port unit after device reset (R166; the pin is DESIGN CHOICE, assumption 7). -/
def SerialUnit.cleared : SerialUnit where
  phase := .idle
  op := none
  window := 0
  count := 0
  address := 0
  wordIndex := 0
  inert := false
  condition := .ok
  completed := 0
  status := StatusWord.cleared
  selectHeld := false
  wordNow := .none
  withdrawn := false

/-- An EMPTY move entry (R114). -/
def MoveEntry.cleared : MoveEntry where
  state := .empty
  owner := none
  source := none
  dest := none
  frameLen := 1
  phase := 0
  stride := 1
  framesPerRun := 1
  runLimit := 0
  runsDone := 0
  trigger := .software
  pendingRuns := 0
  framesDone := 0
  missedTriggers := 0
  propagateEnd := false
  stopPending := false
  unloadPending := false
  haltReason := none

/-- A pacer after device reset (R136). -/
def Pacer.cleared : Pacer := ⟨false, Config.pacerPeriodReset, 0, false⟩

/-- The machine right after device reset (R18, R44, R56, R57, R59, R65, R114, R133, R135, R136, R153, R154, R157, R166, R179,
R187), the device reset input released and no command waiting. -/
def State.reset : State where
  pending := []
  rings := Vector.replicate 16 Ring.freed
  atts := Vector.replicate 32 (Attachment.freed 0)
  pageMap := Vector.replicate 128 none
  mem := ⟨[]⟩
  arb := .command .d
  waiting := ⟨none, none⟩
  moves := Vector.replicate 16 MoveEntry.cleared
  rotation := 15
  frame := none
  moveReq := none
  pacers := Vector.replicate 4 Pacer.cleared
  timebase := 0
  divider := 0
  tickDue := false
  ports := Four.all PortUnit.cleared
  par := ⟨ParallelUnit.cleared, ParallelUnit.cleared⟩
  ser := ⟨SerialUnit.cleared, SerialUnit.cleared⟩
  deviceReset := false

end Sys2Proof.Machine
end

