-- ==== Sys2Proof/Machine/Access.lean ====
section
/-! DEFINITION. The one way to read and to write each piece of the state: tables by index, port units by port. -/

namespace Sys2Proof

/-- The port that a parallel port is. -/
def ParPort.toPort : ParPort → Port
  | .a => .a
  | .b => .b

/-- The port that a serial port is. -/
def SerPort.toPort : SerPort → Port
  | .c => .c
  | .d => .d

/-- A port is a parallel port or a serial port (00, Host Ports). -/
def Port.split : Port → ParPort ⊕ SerPort
  | .a => .inl .a
  | .b => .inl .b
  | .c => .inr .c
  | .d => .inr .d

namespace Machine

/-! ### Tables -/

/-- Entry `i` of a table. -/
def tableGet {α : Type} {n : Nat} (v : Vector α n) (i : Fin n) : α := v.get i

/-- A table with entry `i` replaced. -/
def tablePut {α : Type} {n : Nat} (v : Vector α n) (i : Fin n) (x : α) : Vector α n := v.set i.val x i.isLt

def Four.get {α : Type} (t : Four α) : Port → α
  | .a => t.a
  | .b => t.b
  | .c => t.c
  | .d => t.d

def Four.put {α : Type} (t : Four α) (p : Port) (x : α) : Four α :=
  match p with
  | .a => { t with a := x }
  | .b => { t with b := x }
  | .c => { t with c := x }
  | .d => { t with d := x }

def Two.getPar {α : Type} (t : Two α) : ParPort → α
  | .a => t.fst
  | .b => t.snd

def Two.putPar {α : Type} (t : Two α) (p : ParPort) (x : α) : Two α :=
  match p with
  | .a => { t with fst := x }
  | .b => { t with snd := x }

def Two.getSer {α : Type} (t : Two α) : SerPort → α
  | .c => t.fst
  | .d => t.snd

def Two.putSer {α : Type} (t : Two α) (p : SerPort) (x : α) : Two α :=
  match p with
  | .c => { t with fst := x }
  | .d => { t with snd := x }

/-! ### Reading the state -/

def State.ring (s : State) (r : Fin 16) : Ring := tableGet s.rings r

def State.att (s : State) (i : Fin 32) : Attachment := tableGet s.atts i

def State.move (s : State) (e : Fin 16) : MoveEntry := tableGet s.moves e

def State.pacer (s : State) (n : Fin 4) : Pacer := tableGet s.pacers n

def State.port (s : State) (p : Port) : PortUnit := s.ports.get p

def State.parUnit (s : State) (p : ParPort) : ParallelUnit := s.par.getPar p

def State.serUnit (s : State) (p : SerPort) : SerialUnit := s.ser.getSer p

def State.waitingAt (s : State) (p : ParPort) : Option WaitingAccess := s.waiting.getPar p

def State.window (s : State) (p : Port) (w : Fin 8) : Window := tableGet (s.port p).windows w

/-! ### Writing the state -/

def State.setRing (s : State) (r : Fin 16) (x : Ring) : State := { s with rings := tablePut s.rings r x }

def State.setAtt (s : State) (i : Fin 32) (x : Attachment) : State := { s with atts := tablePut s.atts i x }

def State.setMove (s : State) (e : Fin 16) (x : MoveEntry) : State := { s with moves := tablePut s.moves e x }

def State.setPacer (s : State) (n : Fin 4) (x : Pacer) : State := { s with pacers := tablePut s.pacers n x }

def State.setPort (s : State) (p : Port) (x : PortUnit) : State := { s with ports := s.ports.put p x }

def State.setPar (s : State) (p : ParPort) (x : ParallelUnit) : State := { s with par := s.par.putPar p x }

def State.setSer (s : State) (p : SerPort) (x : SerialUnit) : State := { s with ser := s.ser.putSer p x }

def State.setWaiting (s : State) (p : ParPort) (x : Option WaitingAccess) : State :=
  { s with waiting := s.waiting.putPar p x }

def State.setMem (s : State) (m : Memory) : State := { s with mem := m }

def State.setPageMap (s : State) (m : Vector (Option (Fin 16)) 128) : State := { s with pageMap := m }

def State.setArb (s : State) (q : Requester) : State := { s with arb := q }

def State.setRotation (s : State) (e : Fin 16) : State := { s with rotation := e }

def State.setFrame (s : State) (f : Option Frame) : State := { s with frame := f }

def State.setMoveReq (s : State) (q : Option MoveRequest) : State := { s with moveReq := q }

def State.setTimebase (s : State) (t : BitVec 32) : State := { s with timebase := t }

def State.setDivider (s : State) (n : Nat) : State := { s with divider := n }

def State.setTickDue (s : State) (due : Bool) : State := { s with tickDue := due }

def State.setDeviceReset (s : State) (held : Bool) : State := { s with deviceReset := held }

/-- The word last driven to the host of a port: the data bus of a parallel port (R155), the data out line of a serial port
(R167, R175). -/
def State.setDataOut (s : State) (p : Port) (w : Word) : State := s.setPort p { s.port p with dataOut := w }

def State.setDataReq (s : State) (p : Port) (q : Option DataRequest) : State := s.setPort p { s.port p with dataReq := q }

/-! ### Outputs that follow the state -/

/-- The notify output: asserted while the queue holds a record (R165, R179). -/
def PortUnit.notify (u : PortUnit) : Bool := !u.queue.isEmpty

/-- The ready output: asserted in CONTROL, which is answered within its own event, and in ANSWERED (R154, R155). -/
def ParallelUnit.ready (u : ParallelUnit) : Bool :=
  match u.cycleState with
  | .control => true
  | .answered => true
  | .idle => false
  | .requested => false
  | .waiting => false

/-- A withdrawal of the port waits at its command requester (R81, R94). -/
def State.withdrawalPending (s : State) (p : Port) : Bool :=
  match (s.port p).cmd.inFlight with
  | .withdrawal _ => true
  | .command _ => false
  | .nothing => false

end Machine

end Sys2Proof
end

