-- ==== Sys2Proof/Machine/Memory.lean ====
section
/-! DEFINITION. The sample memory (R57, R58): reading and writing one word, and the canonical form of its list. -/

namespace Sys2Proof.Machine

/-- What an address that the list does not hold reads as: 0, as after device reset (R57). -/
def unlistedWord : Word := 0

/-- The word at an address in a list of cells. -/
def cellsRead : List (Nat × Word) → Nat → Word
  | [], _ => unlistedWord
  | (k, v) :: rest, a => if k = a then v else cellsRead rest a

/-- A list of cells with the word at an address replaced, in canonical form: a cell is dropped where the word written is what an
unlisted address reads as. -/
def cellsWrite : List (Nat × Word) → Nat → Word → List (Nat × Word)
  | [], a, w => if w = unlistedWord then [] else [(a, w)]
  | (k, v) :: rest, a, w =>
    if a < k then
      if w = unlistedWord then (k, v) :: rest else (a, w) :: (k, v) :: rest
    else if a = k then
      if w = unlistedWord then rest else (a, w) :: rest
    else (k, v) :: cellsWrite rest a w

/-- A read of one word of the sample memory (R58). -/
def Memory.read (m : Memory) (a : Nat) : Word := cellsRead m.cells a

/-- A write of one word of the sample memory (R58). -/
def Memory.write (m : Memory) (a : Nat) (w : Word) : Memory := ⟨cellsWrite m.cells a w⟩

/-- Cells with rising addresses, all above a bound and below the end of the sample memory, none holding 0. -/
def cellsCanonicalFrom : Nat → List (Nat × Word) → Bool
  | _, [] => true
  | low, (k, v) :: rest =>
    decide (low ≤ k) && decide (k < Config.sampleWords) && decide (v ≠ unlistedWord) && cellsCanonicalFrom (k + 1) rest

/-- The canonical form of the sample memory: equal memories are equal data. -/
def Memory.wf (m : Memory) : Bool := cellsCanonicalFrom 0 m.cells

/-! ### A ring's place (R2) -/

/-- The capacity C: 256 times the page count. -/
def Ring.capacity (g : Ring) : Nat := Config.pageWords * g.pageCount

/-- The sample memory address of a ring index: 256 times the first page plus the index, a 15-bit address. -/
def Ring.address (g : Ring) (index : Nat) : Nat := (BitVec.ofNat 15 (Config.pageWords * g.firstPage.val + index)).toNat

/-- The word at an index of a ring. -/
def State.ringWord (s : State) (r : Fin 16) (index : Nat) : Word := s.mem.read ((s.ring r).address index)

/-- The state with the word at an index of a ring replaced. -/
def State.setRingWord (s : State) (r : Fin 16) (index : Nat) (w : Word) : State :=
  s.setMem (s.mem.write ((s.ring r).address index) w)

end Sys2Proof.Machine
end

