-- ==== Sys2Proof/Machine/Operands.lean ====
section
/-! DEFINITION. Every layout of the control page and word formats (13, R188 to R191): the words a host reads, the operand words
of the commands, the detail words of events, the serial header and the status word. -/

namespace Sys2Proof.Machine

/-- Bits `lo + width - 1` down to `lo` of a word, as a number. -/
def field (w : Word) (lo width : Nat) : Nat := w.toNat / 2 ^ lo % 2 ^ width

/-- Bit `n` of a word. -/
def bit (w : Word) (n : Nat) : Bool := w.getLsbD n

/-- 1 for set, 0 for clear. -/
def flag (b : Bool) : Nat := if b then 1 else 0

/-! ### Handles (R20, R188) -/

/-- The handle as a number: generation times 32 plus index. -/
def Handle.toNat (h : Handle) : Nat := h.gen.val * 32 + h.index.val

/-- The word that carries a handle, or 0xFFFF for no handle. -/
def handleWord : Option Handle → Word
  | some h => word h.toNat
  | none => 0xFFFF

/-- The handle a word names: none for 0xFFFF and every other word above 255 (R20). -/
def handleOfWord (w : Word) : Option Handle :=
  if w.toNat ≤ 255 then some ⟨Fin.ofNat 8 (w.toNat / 32), Fin.ofNat 32 (w.toNat % 32)⟩ else none

/-- The name of the attachment now at an index. -/
def State.handleAt (s : State) (i : Fin 32) : Handle := ⟨(s.att i).gen, i⟩

/-- A handle is current when the record at its index is in use at its generation (R20). -/
def State.current (s : State) (h : Handle) : Bool := (s.att h.index).inUse && (s.att h.index).gen == h.gen

/-- The attachment a handle word names when it is current (R20). -/
def State.currentIndex (s : State) (w : Word) : Option (Fin 32) :=
  match handleOfWord w with
  | some h => if s.current h then some h.index else none
  | none => none

/-! ### Codes -/

def RingState.code : RingState → Nat
  | .free => 0
  | .opened => 1
  | .sealed => 2

def RingMode.code : RingMode → Nat
  | .circular => 0
  | .onePass => 1

/-- Seal cause as the ring status word and END_OF_STREAM code it (R189, R190). -/
def sealCauseCode : Option SealCause → Nat
  | none => 0
  | some .sealedByProducer => 1
  | some .producerLost => 2
  | some .sourceEnded => 3

def CommandState.code : CommandState → Nat
  | .idle => 0
  | .inFlight => 1
  | .done => 2

/-- Result codes (R189). -/
def ResultCode.code : ResultCode → Nat
  | .ok => 0
  | .badCommand => 1
  | .badArg => 2
  | .badRing => 3
  | .badHandle => 4
  | .noRing => 5
  | .noSpace => 6
  | .noAttach => 7
  | .roleTaken => 8
  | .noReaderSlot => 9
  | .notPermitted => 10
  | .ringSealed => 11
  | .notOwner => 12
  | .entryBusy => 13
  | .noEntry => 14

/-- Event kind codes (R190). -/
def EventKind.code : EventKind → Nat
  | .commandDone => 1
  | .commandRefused => 2
  | .dataReady => 3
  | .spaceReady => 4
  | .endOfStream => 5
  | .lagged => 6
  | .peerLost => 7
  | .leaseExpired => 8
  | .stallTimeout => 9
  | .underrun => 10
  | .writeRefused => 11
  | .windowFault => 12
  | .unmappedAccess => 13
  | .cycleAbandoned => 14
  | .moveDone => 15
  | .moveHalted => 16
  | .triggerMissed => 17
  | .eventsLost => 18

/-- Serial condition codes (R191). -/
def Condition.code : Condition → Nat
  | .ok => 0
  | .empty => 1
  | .full => 2
  | .exhausted => 3
  | .ended => 4
  | .torn => 5
  | .noWindow => 6
  | .staleHandle => 7
  | .notHolder => 8
  | .wrongRole => 9
  | .outOfRing => 10
  | .badOp => 11
  | .overcount => 12

/-! ### Command codes (R189) -/

abbrev codeCreateRing : Word := 0x0001
abbrev codeAttach : Word := 0x0002
abbrev codeDetach : Word := 0x0003
abbrev codeRenew : Word := 0x0004
abbrev codeSetThreshold : Word := 0x0005
abbrev codeQueryRing : Word := 0x0006
abbrev codeQueryAttach : Word := 0x0007
abbrev codeLoadMove : Word := 0x0010
abbrev codeStartMove : Word := 0x0011
abbrev codeFireMove : Word := 0x0012
abbrev codeStopMove : Word := 0x0013
abbrev codeUnloadMove : Word := 0x0014
abbrev codeSetPacer : Word := 0x0018
abbrev codeWithdraw : Word := 0x001F

/-- The command codes; every other word is answered BAD_COMMAND (R189). -/
def commandCodes : List Word :=
  [codeCreateRing, codeAttach, codeDetach, codeRenew, codeSetThreshold, codeQueryRing, codeQueryAttach, codeLoadMove,
    codeStartMove, codeFireMove, codeStopMove, codeUnloadMove, codeSetPacer, codeWithdraw]

/-! ### Operand words (R96, R189) -/

/-- An access list entry from its two bits. -/
def accessRightOf (n : Nat) : AccessRight :=
  match n with
  | 0 => .nothing
  | 1 => .read
  | 2 => .write
  | _ => .readWrite

/-- The ring word: mode and access list, or none where it is not accepted (R96, R189). -/
def decodeRingWord (w : Word) : Option (RingMode × Four AccessRight) :=
  let access : Four AccessRight :=
    ⟨accessRightOf (field w 4 2), accessRightOf (field w 6 2), accessRightOf (field w 8 2), accessRightOf (field w 10 2)⟩
  if field w 2 2 = 0 ∧ field w 12 4 = 0 then
    match field w 0 2 with
    | 0 => some (.circular, access)
    | 1 => some (.onePass, access)
    | _ => none
  else none

/-- Where a reader starts (R24). -/
inductive Start where
  | fromNew
  | fromOldest
deriving DecidableEq, Repr

/-- What an attach word asks for (R96): a producer, or a reader with policy, order, block exponent and start. -/
inductive AttachWord where
  | producer
  | reader (policy : Policy) (order : Order) (blockExp : Nat) (start : Start)
deriving DecidableEq, Repr

/-- The attach word, or none where it is not accepted (R96, R189): a REVERSED_BLOCK order needs b from 1 to 8; a producer's and a
NATURAL reader's unused bits are ignored. -/
def decodeAttachWord (w : Word) : Option AttachWord :=
  if bit w 0 then some .producer
  else
    let policy : Policy := if bit w 1 then .lossy else .hold
    let start : Start := if bit w 3 then .fromOldest else .fromNew
    if bit w 2 then
      if 1 ≤ field w 4 4 ∧ field w 4 4 ≤ 8 then some (.reader policy .reversedBlock (field w 4 4) start) else none
    else some (.reader policy .natural 0 start)

/-- The operands of LOAD_MOVE words 4 to 6 (R118, R189). -/
structure MoveOperands where
  frameLen : Nat
  phase : Nat
  stride : Nat
  framesPerRun : Nat
  propagateEnd : Bool
  runLimit : Nat
  trigger : Trigger
deriving DecidableEq, Repr

/-- The trigger field of LOAD_MOVE word 6, or none where it names no trigger (R189). -/
def decodeTrigger (n : Nat) : Option Trigger :=
  match n with
  | 0 => some .software
  | 1 => some (.pacer 0)
  | 2 => some (.pacer 1)
  | 3 => some (.pacer 2)
  | 4 => some (.pacer 3)
  | 5 => some .sourceReady
  | _ => none

/-- LOAD_MOVE words 4, 5 and 6, or none where the argument check of R118 refuses them. -/
def decodeMoveOperands (w4 w5 w6 : Word) : Option MoveOperands :=
  let frameLen := field w4 0 8 + 1
  let phase := field w4 8 8
  let stride := field w5 0 8 + 1
  if phase < frameLen ∧ stride ≤ frameLen ∧ field w5 15 1 = 0 ∧ field w6 10 2 = 0 ∧ field w6 15 1 = 0 then
    match decodeTrigger (field w6 12 3) with
    | some trigger => some ⟨frameLen, phase, stride, field w5 8 6 + 1, bit w5 14, field w6 0 10, trigger⟩
    | none => none
  else none

/-- A ring id word: 0 to 15, or none (R96). -/
def ringOfWord (w : Word) : Option (Fin 16) := if w.toNat ≤ 15 then some (Fin.ofNat 16 w.toNat) else none

/-- A flag word: 0 clear, 1 set, or none (R96). -/
def flagOfWord (w : Word) : Option Bool := if w = 0 then some false else if w = 1 then some true else none

/-! ### Words of result (R189) -/

/-- The number of occupied reader slots. -/
def Slots.occupied (t : Slots) : Nat := flag t.one.isSome + flag t.two.isSome + flag t.three.isSome

/-- The ring status word of QUERY_RING (R108, R189); the seal cause reads as none unless the ring is SEALED. -/
def ringStatusWord (g : Ring) : Word :=
  word (g.state.code + 4 * g.mode.code + 16 * (if g.state = .sealed then sealCauseCode g.sealCause else 0)
    + 64 * flag g.producer.isSome + 256 * g.slots.occupied)

/-! ### Detail words (R190) -/

/-- COMMAND_DONE: result code over the low 8 bits of the command word. -/
def detailCommandDone (code : ResultCode) (command : Word) : Word := word (256 * code.code + field command 0 8)

/-- PEER_LOST: the role lost, and 1 in bit 8 for WITHDRAWN. -/
def detailPeerLost (role : Role) (withdrawn : Bool) : Word :=
  word ((match role with
    | .producer => 0
    | .reader slot => slot.val) + 256 * flag withdrawn)

/-- WRITE_REFUSED: window number, and 1 in bit 8 for EXHAUSTED. -/
def detailWriteRefused (window : Fin 8) (exhausted : Bool) : Word := word (window.val + 256 * flag exhausted)

/-- MOVE_HALTED: runs done, and 1 in bit 15 for SOURCE_ENDED. -/
def detailMoveHalted (reason : HaltReason) (runsDone : Nat) : Word :=
  word (runsDone % 1024 + 32768 * (match reason with
    | .stopped => 0
    | .sourceEnded => 1))

/-! ### The window entry's control words (R188) -/

/-- Control word `k` of a window entry as it reads. -/
def windowWord (x : Window) (k : Nat) : Word :=
  match k with
  | 0 => word (x.base.toNat + 4096 * x.sizeExp.toNat)
  | 1 => x.handleWord
  | 2 => word (flag x.enabled + 2 * flag (x.kind == .page) + 4 * flag (x.waitPolicy == .nowait))
  | _ => 0

/-- A window entry after a write of its control word `k`. -/
def windowWrite (x : Window) (k : Nat) (v : Word) : Window :=
  match k with
  | 0 => { x with base := BitVec.ofNat 12 (field v 0 12), sizeExp := BitVec.ofNat 4 (field v 12 4) }
  | 1 => { x with handleWord := v }
  | 2 =>
    { x with
      enabled := bit v 0
      kind := if bit v 1 then .page else .stream
      waitPolicy := if bit v 2 then .nowait else .wait }
  | _ => x

/-! ### Event head words (R184, R190) -/

/-- Word `k` of the head record of a queue; an empty queue reads 0xFF00, 0xFFFF, 0x0000, 0x0000. -/
def headWord (queue : List Event) (k : Nat) : Word :=
  match queue with
  | [] =>
    match k with
    | 0 => 0xFF00
    | 1 => 0xFFFF
    | _ => 0
  | e :: _ =>
    match k with
    | 0 => word (e.kind.code + 256 * (match e.ring with
        | some r => r.val
        | none => 0xFF))
    | 1 => handleWord e.handle
    | 2 => e.detail
    | _ => e.stamp

/-! ### The serial words (R191) -/

/-- The serial status word as it is shifted out. -/
def statusWordBits (t : StatusWord) : Word :=
  word (4096 * t.condition.code + 4 * t.completed + 2 * flag t.eventPending + flag t.commandBusy)

/-- The op number of a header, bits 15:13. -/
def SerialOp.code : SerialOp → Nat
  | .statusOnly => 0
  | .streamRead => 1
  | .streamWrite => 2
  | .pageRead => 3
  | .pageWrite => 4
  | .controlRead => 5
  | .controlWrite => 6
  | .withdraw => 7

/-- The header word of an op, a window number and a count. -/
def headerWord (op : SerialOp) (window : Fin 8) (count : BitVec 10) : Word :=
  word (8192 * op.code + 1024 * window.val + count.toNat)

/-- A header word read by its fields: every value of the op bits names an operation. -/
def decodeHeader (w : Word) : SerialOp × Fin 8 × BitVec 10 :=
  ((match field w 13 3 with
    | 0 => .statusOnly
    | 1 => .streamRead
    | 2 => .streamWrite
    | 3 => .pageRead
    | 4 => .pageWrite
    | 5 => .controlRead
    | 6 => .controlWrite
    | _ => .withdraw), Fin.ofNat 8 (field w 10 3), BitVec.ofNat 10 (field w 0 10))

end Sys2Proof.Machine
end

