-- ==== Sys2Proof/Machine/Flags.lean ====
section
/-! DEFINITION. The event unit (12): which flag subscribes a kind, how a record is offered, routed and acknowledged; and the
flags that turn a level into a record: the readiness thresholds, lag reported and end reported (02). -/

namespace Sys2Proof.Machine

/-! ### Subscription, offer, post -/

/-- The port's flag for a kind: bit n of mask word 0 for kinds 1 to 15, bit n - 16 of mask word 1 for 16 to 18 (R182, R190). -/
def PortUnit.subscribed (u : PortUnit) (k : EventKind) : Bool :=
  if k.code < 16 then bit u.mask0 k.code else bit u.mask1 (k.code - 16)

/-- A record offered to a port's queue: dropped by the mask, appended, or counted as lost when 16 are held (R182, R183). -/
def offered (u : PortUnit) (e : Event) : PortUnit :=
  if u.subscribed e.kind then
    if u.queue.length < Config.queueDepth then { u with queue := u.queue ++ [e] }
    else { u with lostCount := saturate16 (u.lostCount + 1) }
  else u

/-- The time stamp: the low 16 bits of the timebase count (R133, R180). -/
def State.stampNow (s : State) : Word := s.timebase.setWidth 16

/-- A record is posted to a port, stamped with the time of posting (R180, R183). -/
def post (p : Port) (kind : EventKind) (ring : Option (Fin 16)) (handle : Option Handle) (detail : Word) (s : State) : State :=
  s.setPort p (offered (s.port p) ⟨kind, ring, handle, detail, s.stampNow⟩)

/-- The port a holder's records go to: the port, or the owner port of the move entry as it is read at the posting (R181). -/
def State.holderPort (s : State) : Holder → Option Port
  | .port p => some p
  | .entry e => (s.move e).owner

/-- A record about an attachment is routed to its holder's port (R181). -/
def postHolder (h : Holder) (kind : EventKind) (ring : Fin 16) (handle : Handle) (detail : Word) (s : State) : State :=
  match s.holderPort h with
  | some p => post p kind (some ring) (some handle) detail s
  | none => s

/-- A record about the attachment at an index: its ring, its handle, to its holder's port. -/
def postAbout (i : Fin 32) (kind : EventKind) (detail : Word) (s : State) : State :=
  postHolder (s.att i).holder kind (s.att i).ring (s.handleAt i) detail s

/-! ### Acknowledge (R185) -/

/-- The queue after an acknowledge: the head removed, and EVENTS_LOST appended when records were lost. -/
def acknowledged (u : PortUnit) (stamp : Word) : PortUnit :=
  match u.queue with
  | [] => u
  | _ :: rest =>
    if u.lostCount = 0 then { u with queue := rest }
    else
      let lost : Event := ⟨.eventsLost, none, none, word u.lostCount, stamp⟩
      { u with
        queue := if u.subscribed .eventsLost then rest ++ [lost] else rest
        lostCount := 0 }

/-- A write to the event acknowledge word of a port (R185). -/
def acknowledge (p : Port) (s : State) : State := s.setPort p (acknowledged (s.port p) s.stampNow)

/-! ### Readiness (R38, R39) -/

/-- A level crosses a threshold upward: from below T to T or above, T above 0. -/
def crosses (threshold before after : Nat) : Bool :=
  decide (0 < threshold) && decide (before < threshold) && decide (threshold ≤ after)

/-- The readiness record of an attachment's role (R38). -/
def readyKind : Role → EventKind
  | .producer => .spaceReady
  | .reader _ => .dataReady

/-- A readiness record is posted when the level of the attachment at an index crosses its threshold; its detail is the level after
the crossing (R38, R39). -/
def postCrossing (i : Fin 32) (before after : Nat) (s : State) : State :=
  if crosses (s.att i).threshold before after then postAbout i (readyKind (s.att i).role) (word after) s else s

/-! ### Lag reported and end reported (R30, R34) -/

/-- LAGGED is posted for the first drop of a spell and sets lag reported; its detail is the drop count after the drop (R30). -/
def reportLag (i : Fin 32) (s : State) : State :=
  if (s.att i).lagReported then s
  else postAbout i .lagged (word (s.att i).dropCount) (s.setAtt i { s.att i with lagReported := true })

/-- END_OF_STREAM is posted to a reader once, with its ring's seal cause, and sets end reported (R34). -/
def reportEnd (i : Fin 32) (s : State) : State :=
  if (s.att i).endReported then s
  else
    postAbout i .endOfStream (word (sealCauseCode (s.ring (s.att i).ring).sealCause))
      (s.setAtt i { s.att i with endReported := true })

end Sys2Proof.Machine
end

