-- ==== Sys2Proof/Machine/Ops.lean ====
section
/-! DEFINITION. The shared operations of the ring controller (01 to 05): readers of a ring, producer space, push, pop, retry
notices, the re-examination of waiting accesses, detach, seal with the source-ended checks, freeing, pages, and the making of an
attachment. -/

namespace Sys2Proof.Machine

/-! ### The parties of a ring -/

/-- The occupied slots' handles in slot order 1, 2, 3. -/
def Slots.handles (t : Slots) : List Handle := t.one.toList ++ t.two.toList ++ t.three.toList

/-- The lowest-numbered empty slot (R9). -/
def Slots.lowestEmpty (t : Slots) : Option (Fin 4) :=
  if t.one.isNone then some 1 else if t.two.isNone then some 2 else if t.three.isNone then some 3 else none

/-- The slots with a handle put in slot 1, 2 or 3. -/
def Slots.fill (t : Slots) (slot : Fin 4) (h : Handle) : Slots :=
  match slot with
  | 1 => { t with one := some h }
  | 2 => { t with two := some h }
  | 3 => { t with three := some h }
  | _ => t

/-- The slots with the one that holds a handle emptied. -/
def Slots.remove (t : Slots) (h : Handle) : Slots :=
  ⟨if t.one = some h then none else t.one, if t.two = some h then none else t.two,
    if t.three = some h then none else t.three⟩

/-- The readers of a ring, by attachment index in slot order. -/
def State.readers (s : State) (r : Fin 16) : List (Fin 32) := (s.ring r).slots.handles.map (·.index)

/-- The attachments of a ring: the producer first, then the readers in slot order (R77, step 2). -/
def State.parties (s : State) (r : Fin 16) : List (Fin 32) := (s.ring r).producer.toList.map (·.index) ++ s.readers r

/-- The attachment count: formed from the producer field and the slots, not stored (R1). -/
def Ring.attachmentCount (g : Ring) : Nat := flag g.producer.isSome + g.slots.occupied

/-! ### Producer space (R27) -/

/-- The largest fill among a ring's HOLD readers, 0 with none. -/
def State.largestHoldFill (s : State) (r : Fin 16) : Nat :=
  (s.readers r).foldl (fun m i => if (s.att i).policy = .hold then max m (s.att i).fill else m) 0

/-- The producer space of a ring (R27). -/
def State.space (s : State) (r : Fin 16) : Nat :=
  match (s.ring r).mode with
  | .circular => (s.ring r).capacity - s.largestHoldFill r - (s.ring r).reserved
  | .onePass => (s.ring r).capacity - (s.ring r).writePos

/-! ### Retry notices (R125) -/

/-- A retry notice for an entry: a WAITING entry becomes ARMED. -/
def retryNotice (e : Fin 16) (s : State) : State :=
  if (s.move e).state = .waiting then s.setMove e { s.move e with state := .armed } else s

/-- The notice that goes to the move entry which holds an attachment, if one does. -/
def retryHolder (i : Fin 32) (s : State) : State :=
  match (s.att i).holder with
  | .entry e => retryNotice e s
  | .port _ => s

/-- After an act has changed the producer space of a ring from `before`: SPACE_READY on a crossing (R39), and a retry notice to the
entry that holds the producer when the space has risen (R125). -/
def spaceChanged (r : Fin 16) (before : Nat) (s : State) : State :=
  match (s.ring r).producer with
  | some h =>
    if before < s.space r then retryHolder h.index (postCrossing h.index before (s.space r) s) else s
  | none => s

/-! ### Lease renewal (R74) -/

/-- The lease remaining is loaded with the full lease period. -/
def renewLease (i : Fin 32) (s : State) : State :=
  s.setAtt i { s.att i with leaseRemaining := (s.att i).leasePeriod }

/-! ### Push (R28, R29) -/

/-- What the ring controller decides of a push before it stores it (R28, R31). -/
inductive PushAnswer where
  | stored
  | blocked
  | exhausted
deriving DecidableEq, Repr

/-- A push outside a move frame is stored, blocked or refused (R6, R28). -/
def State.judgePush (s : State) (r : Fin 16) : PushAnswer :=
  match (s.ring r).mode with
  | .onePass => if (s.ring r).writePos = (s.ring r).capacity then .exhausted else .stored
  | .circular =>
    if (s.readers r).any (fun i => (s.att i).policy == .hold && (s.att i).fill + (s.ring r).reserved == (s.ring r).capacity)
    then .blocked else .stored

/-- The ring record after a stored push: the write position and valid move (R4, R5), and a push of a move frame draws on the
reservation (R7, R29). -/
def Ring.afterPush (g : Ring) (ofFrame : Bool) : Ring :=
  { g with
    writePos := match g.mode with
      | .circular => if g.writePos + 1 = g.capacity then 0 else g.writePos + 1
      | .onePass => g.writePos + 1
    valid := match g.mode with
      | .circular => if g.valid = g.capacity then g.valid else g.valid + 1
      | .onePass => g.valid + 1
    reserved := if ofFrame then g.reserved - 1 else g.reserved }

/-- The block size B of a reader (R45). -/
def Attachment.blockSize (x : Attachment) : Nat := 2 ^ x.blockExp

/-- Does a stored push make a reader drop: skip 0, fill at C, LOSSY (R29, R30, R52). -/
def Attachment.dropsAt (x : Attachment) (capacity : Nat) : Bool :=
  x.skip == 0 && !decide (x.fill < capacity) && x.policy == .lossy

/-- A reader's record after a stored push on a ring of a capacity (R29, R51, R52). -/
def Attachment.afterPush (x : Attachment) (capacity : Nat) : Attachment :=
  if 0 < x.skip then { x with skip := x.skip - 1 }
  else if x.fill < capacity then { x with fill := x.fill + 1 }
  else
    match x.policy, x.order with
    | .lossy, .natural => { x with dropCount := saturate16 (x.dropCount + 1) }
    | .lossy, .reversedBlock =>
      { x with
        fill := x.fill - x.blockSize + 1
        dropCount := saturate16 (x.dropCount + x.blockSize)
        progress := 0 }
    | .hold, _ => x

/-- One reader is brought up to date by a push: its cursor, then its LAGGED, then its DATA_READY, and a retry notice to the entry
whose source fill has risen (R29, R40, R125). -/
def pushReader (capacity : Nat) (s : State) (i : Fin 32) : State :=
  let before := s.att i
  let after := before.afterPush capacity
  let s1 := s.setAtt i after
  let s2 := if before.dropsAt capacity then reportLag i s1 else s1
  let s3 := postCrossing i before.fill after.fill s2
  if before.fill < after.fill then retryHolder i s3 else s3

/-- A push that may be stored, taken as one act up to its re-examination (R29): the word, the ring record, the readers in slot
order, SPACE_READY, the producer's lease. -/
def storePush (r : Fin 16) (ofFrame : Bool) (w : Word) (s : State) : State :=
  let s1 := (s.setRingWord r (s.ring r).writePos w).setRing r ((s.ring r).afterPush ofFrame)
  let s2 := (s.readers r).foldl (pushReader (s.ring r).capacity) s1
  let s3 := spaceChanged r (s.space r) s2
  match (s.ring r).producer with
  | some h => renewLease h.index s3
  | none => s3

/-! ### Pop (R32, R33, R47 to R49) -/

inductive PopAnswer where
  | data (w : Word)
  | empty
  | ended
deriving DecidableEq, Repr

/-- The read index of a reader: the write position minus fill, modulo C on a CIRCULAR ring (R26). -/
def Ring.readIndex (g : Ring) (fill : Nat) : Nat :=
  match g.mode with
  | .circular => (g.writePos + g.capacity - fill) % g.capacity
  | .onePass => g.writePos - fill

/-- rev_b: the number whose b binary digits are those of p in the opposite order (R46). -/
def reverseBits : Nat → Nat → Nat
  | 0, _ => 0
  | b + 1, p => p % 2 * 2 ^ b + reverseBits b (p / 2)

/-- A pop by the reader can be answered with a word now (R32, R47). -/
def Attachment.canPop (x : Attachment) : Bool :=
  match x.order with
  | .natural => decide (0 < x.fill)
  | .reversedBlock => decide (0 < x.progress) || decide (x.blockSize ≤ x.fill)

/-- The ring index a pop by the reader reads (R26, R46). -/
def Attachment.popIndex (x : Attachment) (g : Ring) : Nat :=
  match x.order with
  | .natural => g.readIndex x.fill
  | .reversedBlock => g.readIndex x.fill + reverseBits x.blockExp x.progress

/-- A reader's record after a pop answered with a word: the cursor, lag reported cleared, the lease renewed (R32, R47, R48). -/
def Attachment.afterPop (x : Attachment) : Attachment :=
  { x with
    fill := match x.order with
      | .natural => x.fill - 1
      | .reversedBlock => if x.progress + 1 = x.blockSize then x.fill - x.blockSize else x.fill
    progress := match x.order with
      | .natural => x.progress
      | .reversedBlock => if x.progress + 1 = x.blockSize then 0 else x.progress + 1
    lagReported := false
    leaseRemaining := x.leasePeriod }

/-- What a pop by the reader at an index is answered (R32, R33, R47, R49). -/
def State.judgePop (s : State) (i : Fin 32) : PopAnswer :=
  if (s.att i).canPop then .data (s.ringWord (s.att i).ring ((s.att i).popIndex (s.ring (s.att i).ring)))
  else if (s.ring (s.att i).ring).state = .sealed then .ended
  else .empty

/-- The effects of a pop up to its re-examination: the cursor and SPACE_READY when answered with a word (R32, R39), END_OF_STREAM
when answered END (R34), nothing when answered EMPTY. -/
def takePop (i : Fin 32) (s : State) : State :=
  match s.judgePop i with
  | .data _ => spaceChanged (s.att i).ring (s.space (s.att i).ring) (s.setAtt i (s.att i).afterPop)
  | .ended => reportEnd i s
  | .empty => s

/-! ### The end of a parallel access (R155, R156, R158 to R160) -/

/-- Ready is asserted: a read drives a word, the stall timer is cancelled, the state becomes ANSWERED. -/
def answerCycle (p : ParPort) (acc : BusAccess) (readWord : Word) (s : State) : State :=
  let u := s.parUnit p
  match acc with
  | .read =>
    (s.setPar p { u with cycleState := .answered, stallTimer := 0, answer := some readWord }).setDataOut p.toPort readWord
  | .write _ => s.setPar p { u with cycleState := .answered, stallTimer := 0, answer := none }

/-- A cycle ends without data: a read drives the fill word as it stands, the word of a write is discarded (R142). -/
def answerFill (p : ParPort) (acc : BusAccess) (s : State) : State := answerCycle p acc (s.port p.toPort).fillWord s

/-- The waiting access of a port ends without data: it leaves the list, and its cycle ends (R159, R160). -/
def endWaiting (p : ParPort) (s : State) : State :=
  match s.waitingAt p with
  | some x => answerFill p x.acc (s.setWaiting p none)
  | none => s

/-- The waiting accesses of an attachment that is gone end without data (R79, R160). -/
def endWaitingOf (h : Handle) (s : State) : State :=
  let endAt (p : ParPort) (s : State) : State :=
    match s.waitingAt p with
    | some x => if x.handle = h then endWaiting p s else s
    | none => s
  endAt .b (endAt .a s)

/-! ### Re-examination (R158) -/

/-- An attachment whose lease has run out and whose expiry is still to be taken (R72). -/
def Attachment.expired (x : Attachment) : Bool := x.inUse && decide (0 < x.leasePeriod) && x.leaseRemaining == 0

/-- One waiting access is judged: a pop answered with a word or END, or a push that would be stored, is taken there and then and
leaves the list; any other stays (R158, R160). DESIGN CHOICE, assumption 26: the access of an attachment whose lease ran out at a tick
already taken is left for its own expiry, which ends it as R79 gives (R76), though a lower index of the same tick may call for this
re-examination (R77, step 4). -/
def examineWaiting (r : Fin 16) (p : ParPort) (s : State) : State :=
  match s.waitingAt p with
  | none => s
  | some x =>
    let i := x.handle.index
    if s.current x.handle && (s.att i).ring == r && !(s.att i).expired then
      match x.acc with
      | .read =>
        match s.judgePop i with
        | .data w => answerCycle p .read w (takePop i (s.setWaiting p none))
        | .ended => answerFill p .read (takePop i (s.setWaiting p none))
        | .empty => s
      | .write w =>
        match s.judgePush r with
        | .stored => answerCycle p (.write w) 0 (storePush r false w (s.setWaiting p none))
        | .blocked => s
        | .exhausted => s
    else s

/-- The re-examination of a ring's waiting accesses: port A, then port B, repeated until neither is satisfiable. Each answer takes one
of the two out of the list, so a third examination, of port A again, is the last that can find one (R66, R158). -/
def reexamine (r : Fin 16) (s : State) : State :=
  examineWaiting r .a (examineWaiting r .b (examineWaiting r .a s))

/-- A push with its re-examination. -/
def pushAct (r : Fin 16) (ofFrame : Bool) (w : Word) (s : State) : State := reexamine r (storePush r ofFrame w s)

/-- A pop with its re-examination, which only a word delivered calls for (R32, R33, R158). -/
def popAct (i : Fin 32) (s : State) : State :=
  match s.judgePop i with
  | .data _ => reexamine (s.att i).ring (takePop i s)
  | .ended => takePop i s
  | .empty => s

/-! ### Freeing (R15, R62) -/

/-- The page map with the entries of pages `q` to `q + n - 1` set to an owner: a ring that claims them (R60), or free (R62). -/
def markPages (owner : Option (Fin 16)) (q n : Nat) (m : Vector (Option (Fin 16)) 128) : Vector (Option (Fin 16)) 128 :=
  m.mapIdx (fun k old => if q ≤ k ∧ k < q + n then owner else old)

/-- A ring without attachments is freed and its pages go back to the allocator (R15, R62). -/
def freeIfEmpty (r : Fin 16) (s : State) : State :=
  let g := s.ring r
  if g.state ≠ .free ∧ g.attachmentCount = 0 then
    (s.setPageMap (markPages none g.firstPage.val g.pageCount s.pageMap)).setRing r Ring.freed
  else s

/-! ### Detach (R41, R42) -/

/-- An attachment record is freed, its generation advanced from 7 to 0 (R20, R41). -/
def freeRecord (i : Fin 32) (s : State) : State := s.setAtt i (Attachment.freed ((s.att i).gen + 1))

/-- A reader's detach in the order of R41. -/
def detachReader (i : Fin 32) (s : State) : State :=
  let r := (s.att i).ring
  let h := s.handleAt i
  let g := s.ring r
  let s1 := freeRecord i (s.setRing r { g with slots := g.slots.remove h })
  let s2 := endWaitingOf h (spaceChanged r (s.space r) s1)
  freeIfEmpty r (reexamine r s2)

/-- The producer leaves its ring: its handle goes from the producer field, its record is freed, its waiting push ends (R42). -/
def removeProducer (i : Fin 32) (s : State) : State :=
  let r := (s.att i).ring
  let h := s.handleAt i
  endWaitingOf h (freeRecord i (s.setRing r { s.ring r with producer := none }))

/-- A producer's detach without the seal flag, or by UNLOAD_MOVE: the ring stays OPEN, or is freed with its last attachment (R11,
R13, R42). -/
def detachProducerOpen (i : Fin 32) (s : State) : State :=
  freeIfEmpty (s.att i).ring (reexamine (s.att i).ring (removeProducer i s))

/-! ### Seal, source-ended check, end propagation (R12, R129) -/

/-- The ring a move entry's source reader reads. -/
def State.sourceRing (s : State) (e : Fin 16) : Option (Fin 16) := (s.move e).source.map (fun h => (s.att h.index).ring)

/-- A record of a move entry: its owner's queue, its source ring, its source handle (R130). -/
def postMove (e : Fin 16) (kind : EventKind) (detail : Word) (s : State) : State :=
  match (s.move e).owner with
  | some p => post p kind (s.sourceRing e) (s.move e).source detail s
  | none => s

/-- An entry halts: the state, the reason, and MOVE_HALTED with the reason and runs done (R123, R128, R129, R130). -/
def haltEntry (e : Fin 16) (reason : HaltReason) (s : State) : State :=
  postMove e .moveHalted (detailMoveHalted reason (s.move e).runsDone)
    (s.setMove e { s.move e with state := .halted, haltReason := some reason })

/-- The source of an entry has ended: its ring is SEALED and its fill below S (R129). -/
def State.sourceHasEnded (s : State) (e : Fin 16) : Bool :=
  match (s.move e).source with
  | some h =>
    (s.ring (s.att h.index).ring).state == .sealed && decide ((s.att h.index).fill < (s.move e).frameLen)
  | none => false

/-- The source-ended check of an entry (R129): the fill discarded, the entry halted, and with propagate end set its destination
producer detached by `sealDest`, which seals or frees the destination ring. -/
def sourceEndedCheckWith (sealDest : Fin 32 → State → State) (e : Fin 16) (s : State) : State :=
  if s.sourceHasEnded e then
    let s1 := match (s.move e).source with
      | some h => s.setAtt h.index { s.att h.index with fill := 0 }
      | none => s
    let s2 := haltEntry e .sourceEnded s1
    if (s.move e).propagateEnd then
      match (s.move e).dest with
      | some h => sealDest h.index (s2.setMove e { s2.move e with dest := none })
      | none => s2
    else s2
  else s

/-- END_OF_STREAM of a seal: to each reader whose fill and skip are both 0, in slot order (R12, step 3). -/
def sealReader (s : State) (i : Fin 32) : State :=
  if (s.att i).fill = 0 ∧ (s.att i).skip = 0 then reportEnd i s else s

/-- The source reader of an entry reads a ring: its handle is current, and its attachment is on the ring. An entry whose source reader
its own unload has detached reads none (R84, R129). -/
def State.entryReads (s : State) (e r : Fin 16) : Bool :=
  match (s.move e).source with
  | some h => s.current h && (s.att h.index).ring == r
  | none => false

/-- The entries that a seal of a ring checks: those whose source reader reads it and that are ARMED or WAITING (R12, step 5; R129). -/
def State.checkedAtSeal (s : State) (r e : Fin 16) : Bool :=
  s.entryReads e r && ((s.move e).state == .armed || (s.move e).state == .waiting)

/-- A producer departs and its ring is sealed, or freed when it was the last attachment (R12, R13). The first argument bounds how deep
the seal may pass down a chain of entries (R129); `Config.sealDepth` levels are enough, since every level halts an entry. -/
def sealProducer : Nat → SealCause → Fin 32 → State → State
  | depth, cause, i, s =>
    let r := (s.att i).ring
    let s1 := removeProducer i s
    if (s1.ring r).attachmentCount = 0 then freeIfEmpty r s1
    else
      let s2 := s1.setRing r { s1.ring r with state := .sealed, sealCause := some cause }
      let s3 := (s2.readers r).foldl sealReader s2
      let s4 := reexamine r s3
      match depth with
      | 0 => s4
      | depth + 1 =>
        (List.finRange 16).foldl
          (fun s e =>
            if s.checkedAtSeal r e then sourceEndedCheckWith (fun i s => sealProducer depth .sourceEnded i s) e s else s) s4

/-- A producer departs and its ring is sealed with a cause. -/
def sealBy (cause : SealCause) (i : Fin 32) (s : State) : State := sealProducer Config.sealDepth cause i s

/-- The source-ended check at a frame's end and at START_MOVE (R120, R128). -/
def sourceEndedCheck (e : Fin 16) (s : State) : State := sourceEndedCheckWith (sealBy .sourceEnded) e s

/-! ### Involuntary detach (R77, R83) -/

/-- PEER_LOST to the holder of every other attachment of the ring that `remains`: the producer first, then the readers in slot order
(R77, step 2; R78; R83). -/
def postPeerLost (lost : Fin 32) (withdrawn : Bool) (remains : Attachment → Bool) (s : State) : State :=
  let detail := detailPeerLost (s.att lost).role withdrawn
  (s.parties (s.att lost).ring).foldl
    (fun s i => if i ≠ lost ∧ remains (s.att i) then postAbout i .peerLost detail s else s) s

/-- An attachment is lost: a reader is detached (R41), a producer's departure seals its ring with PRODUCER_LOST (R13). -/
def detachLost (i : Fin 32) (s : State) : State :=
  match (s.att i).role with
  | .reader _ => detachReader i s
  | .producer => sealBy .producerLost i s

/-- A lease expiry as one act in the order of R77. -/
def expireLease (i : Fin 32) (s : State) : State :=
  detachLost i
    (postPeerLost i false (fun _ => true) (postAbout i .leaseExpired (word (s.att i).leasePeriod) s))

/-! ### Pages (R60) -/

/-- Pages `q` to `q + n - 1` all exist and are all free. -/
def runIsFree (m : Vector (Option (Fin 16)) 128) (n q : Nat) : Bool :=
  decide (q + n ≤ 128) && (List.range n).all (fun k => m[q + k]? == some none)

/-- First fit: the lowest first page of a free run of n pages (R60), or none (R61). -/
def firstFit (m : Vector (Option (Fin 16)) 128) (n : Nat) : Option (Fin 128) :=
  (List.finRange 128).find? (fun q => runIsFree m n q.val)

/-! ### Making an attachment (R23) -/

/-- The lowest free attachment record (R19). -/
def State.lowestFree (s : State) : Option (Fin 32) := (List.finRange 32).find? (fun i => !(s.att i).inUse)

/-- The number of free attachment records. -/
def State.freeRecords (s : State) : Nat := (List.finRange 32).countP (fun i => !(s.att i).inUse)

/-- What is asked of a new attachment beside its ring: role, holder, threshold, lease period. -/
structure AttachRequest where
  what : AttachWord
  holder : Holder
  threshold : Nat
  leasePeriod : Nat
deriving DecidableEq, Repr

/-- The natural fill a start gives (R24). -/
def Ring.startFill (g : Ring) (start : Start) : Nat :=
  match start with
  | .fromNew => 0
  | .fromOldest => min g.valid (g.capacity - g.reserved)

/-- The distance from the natural start forward to the next block boundary (R50, step 2). -/
def Ring.alignGap (g : Ring) (fill0 blockSize : Nat) : Nat :=
  (blockSize - g.readIndex fill0 % blockSize) % blockSize

/-- Fill and skip of a new reader: R24 for NATURAL, R50 for REVERSED_BLOCK. -/
def Ring.startCursor (g : Ring) (order : Order) (blockExp : Nat) (start : Start) : Nat × Nat :=
  match order with
  | .natural => (g.startFill start, 0)
  | .reversedBlock =>
    let fill0 := g.startFill start
    let gap := g.alignGap fill0 (2 ^ blockExp)
    if gap ≤ fill0 then (fill0 - gap, 0) else (0, gap - fill0)

/-- The record of a new attachment at a generation, in a slot when it is a reader (R23, steps 1 to 6). -/
def newRecord (gen : Fin 8) (r : Fin 16) (g : Ring) (slot : Fin 4) (q : AttachRequest) : Attachment :=
  let base : Attachment :=
    { Attachment.freed gen with
      inUse := true
      ring := r
      holder := q.holder
      threshold := q.threshold
      leasePeriod := q.leasePeriod
      leaseRemaining := q.leasePeriod }
  match q.what with
  | .producer => { base with role := .producer }
  | .reader policy order blockExp start =>
    { base with
      role := .reader slot
      policy := policy
      order := order
      blockExp := match order with
        | .natural => 0
        | .reversedBlock => blockExp
      fill := (g.startCursor order blockExp start).1
      skip := (g.startCursor order blockExp start).2 }

/-- The level of an attachment: a reader's fill, a producer's space (R38, R39). -/
def State.level (s : State) (i : Fin 32) : Nat :=
  match (s.att i).role with
  | .producer => s.space (s.att i).ring
  | .reader _ => (s.att i).fill

/-- An attachment is made in record `i` of a ring (R23): the record, the ring's producer field or slot, the threshold comparison with
level 0 before (R38), and the re-examination. -/
def makeAttachment (i : Fin 32) (r : Fin 16) (q : AttachRequest) (s : State) : State :=
  let g := s.ring r
  let slot := g.slots.lowestEmpty.getD 0
  let h := s.handleAt i
  let g' : Ring := match q.what with
    | .producer => { g with producer := some h }
    | .reader _ _ _ _ => { g with slots := g.slots.fill slot h }
  let s1 := (s.setAtt i (newRecord (s.att i).gen r g slot q)).setRing r g'
  reexamine r (postCrossing i 0 (s1.level i) s1)

end Sys2Proof.Machine
end

