-- ==== Sys2Proof/Machine/Engine.lean ====
section
/-! DEFINITION. The operations of the move engine (07): work, the start check's selection, the frame, its end, triggers, unloads,
and the start check that the engine places at the arbiter. -/

namespace Sys2Proof.Machine

/-! ### Work and the start of a frame (R115, R125, R126) -/

/-- D, the number of words a frame pushes: the smallest whole number not below (S - p)/k (R115). -/
def MoveEntry.pushCount (m : MoveEntry) : Nat := (m.frameLen - m.phase + m.stride - 1) / m.stride

/-- Position j of a frame is pushed: p, p + k, p + 2k and so on (R115). -/
def MoveEntry.pushes (m : MoveEntry) (j : Nat) : Bool := decide (m.phase ≤ j) && (j - m.phase) % m.stride == 0

/-- An entry that start checks examine: ARMED or WAITING. -/
def MoveEntry.started (m : MoveEntry) : Bool := m.state == .armed || m.state == .waiting

/-- An entry has work (R125). -/
def MoveEntry.hasWork (m : MoveEntry) : Bool :=
  m.started && (m.trigger == .sourceReady || decide (0 < m.framesDone) || decide (0 < m.pendingRuns))

/-- The frame of an entry can start: source fill of S or more, destination space of D or more (R125). -/
def State.frameCanStart (s : State) (e : Fin 16) : Bool :=
  match (s.move e).source, (s.move e).dest with
  | some src, some dst =>
    decide ((s.move e).frameLen ≤ (s.att src.index).fill)
      && decide ((s.move e).pushCount ≤ s.space (s.att dst.index).ring)
  | _, _ => false

/-- The start of the chosen entry's frame (R126, steps 1 to 4), after which the engine issues the frame's first pop. -/
def startFrame (e : Fin 16) (s : State) : State :=
  let m := s.move e
  let runs := if m.framesDone = 0 ∧ m.trigger ≠ .sourceReady then m.pendingRuns - 1 else m.pendingRuns
  let s1 := (s.setMove e { m with state := .running, pendingRuns := runs }).setRotation e
  let s2 := match m.dest with
    | some h => s1.setRing (s1.att h.index).ring { s1.ring (s1.att h.index).ring with reserved := m.pushCount }
    | none => s1
  (s2.setFrame (some ⟨e, 0, none⟩)).setMoveReq (some .framePop)

/-- One entry is examined by a selection: passed over, made WAITING, or chosen; once one is chosen the rest are not examined (R126). -/
def examineEntry (acc : State × Bool) (e : Fin 16) : State × Bool :=
  let s := acc.1
  if acc.2 then acc
  else if !(s.move e).hasWork then acc
  else if s.frameCanStart e then (startFrame e s, true)
  else (s.setMove e { s.move e with state := .waiting }, false)

/-- The entries in the order of a selection: from the one after the rotation pointer round to the pointer (R126). -/
def selectionOrder (rotation : Fin 16) : List (Fin 16) := (List.finRange 16).map (fun k => rotation + 1 + k)

/-- The grant of a start check (R126). -/
def startCheckAct (s : State) : State := ((selectionOrder s.rotation).foldl examineEntry (s.setMoveReq none, false)).1

/-- The engine places a start check when no frame is in flight, it holds no request and some entry is ARMED with work (R125). A frame
in flight covers the deferred unload, whose frame stays until it is granted (R132). -/
def placeStartCheck (s : State) : State :=
  if s.frame.isNone && s.moveReq.isNone
      && (List.finRange 16).any (fun e => (s.move e).state == .armed && (s.move e).hasWork)
  then s.setMoveReq (some .startCheck) else s

/-! ### The end of a frame (R128, R132) -/

/-- The run and frame counts after one more frame (R128, step 1). -/
def MoveEntry.countFrame (m : MoveEntry) : MoveEntry :=
  if m.framesDone + 1 = m.framesPerRun then
    { m with framesDone := 0, runsDone := if m.runLimit = 0 then min (m.runsDone + 1) 1023 else m.runsDone + 1 }
  else { m with framesDone := m.framesDone + 1 }

/-- The end of the frame of an entry (R128); with unload pending the frame stays and the engine issues the unload (R132). -/
def frameEnd (e : Fin 16) (s : State) : State :=
  if (s.move e).unloadPending then
    (s.setFrame (some ⟨e, (s.move e).frameLen, none⟩)).setMoveReq (some .unload)
  else
    let m := (s.move e).countFrame
    let s1 := (s.setFrame none).setMoveReq none
    if m.runLimit ≠ 0 ∧ m.runsDone = m.runLimit then
      postMove e .moveDone (word m.runsDone) (s1.setMove e { m with state := .done, stopPending := false })
    else if m.stopPending then
      haltEntry e .stopped (s1.setMove e { m with stopPending := false })
    else
      sourceEndedCheck e (s1.setMove e { m with state := .armed })

/-- The engine goes on after a request of the frame: the next pop, or the frame's end at position S (R127). -/
def advanceFrame (e : Fin 16) (position : Nat) (s : State) : State :=
  if position = (s.move e).frameLen then frameEnd e s
  else (s.setFrame (some ⟨e, position, none⟩)).setMoveReq (some .framePop)

/-- The grant of a pop of the frame in flight (R127): the pop with its re-examination, then the frame goes on or ends, in this order by
DESIGN CHOICE, assumption 30. The word is held for its push when its position is pushed, and dropped otherwise. The start check makes every
such pop answerable; one that is not answered with a word leaves all as it was. -/
def framePopAct (s : State) : State :=
  match s.frame with
  | none => s
  | some f =>
    match (s.move f.entry).source with
    | none => s
    | some h =>
      match s.judgePop h.index with
      | .data w =>
        let s1 := popAct h.index s
        if (s1.move f.entry).pushes f.position then
          (s1.setFrame (some ⟨f.entry, f.position + 1, some w⟩)).setMoveReq (some .framePush)
        else advanceFrame f.entry (f.position + 1) s1
      | .empty => s
      | .ended => s

/-- The grant of a push of the frame in flight: the held word, drawing on the reservation (R127, R28). DESIGN CHOICE, assumption 30: the
push's own re-examination of waiting accesses (R29) comes before the steps of the frame's end (R128), though R158 calls a
re-examination the last part of its act. -/
def framePushAct (s : State) : State :=
  match s.frame with
  | none => s
  | some f =>
    match f.held, (s.move f.entry).dest with
    | some w, some h => advanceFrame f.entry f.position (pushAct (s.att h.index).ring true w s)
    | _, _ => s

/-! ### Unloading (R124, R132) -/

/-- A move entry is unloaded voluntarily: source reader, then destination producer when present, then EMPTY (R124). -/
def unloadVoluntary (e : Fin 16) (s : State) : State :=
  let m := s.move e
  let s1 := match m.source with
    | some h => detachReader h.index s
    | none => s
  let s2 := match m.dest with
    | some h => detachProducerOpen h.index s1
    | none => s1
  s2.setMove e MoveEntry.cleared

/-- An attachment is detached by withdrawal: PEER_LOST with cause WITHDRAWN to those that remain, then the detach (R83). -/
def withdrawAttachment (remains : Attachment → Bool) (i : Fin 32) (s : State) : State :=
  detachLost i (postPeerLost i true remains s)

/-- A move entry of a withdrawn port is unloaded: source reader first, destination producer second, each with cause WITHDRAWN, then
EMPTY (R84, R132). -/
def unloadWithdrawn (remains : Attachment → Bool) (e : Fin 16) (s : State) : State :=
  let s1 := match (s.move e).source with
    | some h => withdrawAttachment remains h.index s
    | none => s
  let s2 := match (s1.move e).dest with
    | some h => withdrawAttachment remains h.index s1
    | none => s1
  s2.setMove e MoveEntry.cleared

/-- The grant of the engine's deferred unload (R132): PEER_LOST goes to the attachments in use at this grant (R84). -/
def unloadAct (s : State) : State :=
  match s.frame with
  | none => s.setMoveReq none
  | some f => ((unloadWithdrawn (fun _ => true) f.entry s).setFrame none).setMoveReq none

/-! ### Triggers (R121, R138) -/

/-- One trigger is delivered to an entry (R121). -/
def deliverTrigger (e : Fin 16) (s : State) : State :=
  let m := s.move e
  if m.started then
    if m.pendingRuns < 3 then s.setMove e { m with pendingRuns := m.pendingRuns + 1 }
    else
      let missed := saturate16 (m.missedTriggers + 1)
      postMove e .triggerMissed (word missed) (s.setMove e { m with missedTriggers := missed })
  else s

/-- The expiry of a pacer: a trigger to every entry that names it, in ascending order, then the reload (R138). The advance at which the
count ran out has already reloaded it (R136), and no SET_PACER comes between (assumption 2), so the count stays. -/
def expirePacer (n : Fin 4) (s : State) : State :=
  let s1 := (List.finRange 16).foldl (fun s e => if (s.move e).trigger = .pacer n then deliverTrigger e s else s) s
  s1.setPacer n { s1.pacer n with count := (s1.pacer n).period, due := false }

end Sys2Proof.Machine
end

