-- ==== Sys2Proof/Machine/Withdraw.lean ====
section
/-! DEFINITION. Withdrawal of a port (05, R80 to R85): what the port unit does when a withdrawal arises, and what its grant does. -/

namespace Sys2Proof.Machine

/-! ### The arising (R69, R81, R94, R162) -/

/-- A parallel cycle ends without an answer: ready is deasserted, the answer is none, the stall timer cancelled (R155, R161, R162). -/
def ParallelUnit.cycleEnded (u : ParallelUnit) : ParallelUnit :=
  { u with cycleState := .idle, cycle := none, stallTimer := 0, answer := none }

/-- The cycle in progress when a withdrawal arises: REQUESTED, WAITING and ANSWERED end; CONTROL ends only when the cause is the port
reset input, and is answered as usual when it is the WITHDRAW command's own submit (R162). -/
def ParallelUnit.atArising (u : ParallelUnit) (byReset : Bool) : ParallelUnit :=
  match u.cycleState with
  | .idle => u
  | .control => if byReset then u.cycleEnded else u
  | .requested => u.cycleEnded
  | .waiting => u.cycleEnded
  | .answered => u.cycleEnded

/-- The command unit when a withdrawal arises: a command that was pending is discarded and keeps its command word, and a withdrawal
that is already pending is joined (R69, R93, R94). DESIGN CHOICE, assumption 28: a submit of WITHDRAW from IDLE or DONE leaves the
argument copy as it was. -/
def CommandUnit.atArising (c : CommandUnit) (asCommand : Bool) : CommandUnit :=
  { c with
    state := .inFlight
    inFlight := match c.inFlight with
      | .withdrawal asBefore => .withdrawal (asBefore || asCommand)
      | .command _ => .withdrawal asCommand
      | .nothing => .withdrawal asCommand
    commandWord := if asCommand then codeWithdraw else c.commandWord }

/-- A withdrawal of a port arises (R69, R81): its data request and waiting access are withdrawn, its cycle ends, and the withdrawal
stands at its command requester. -/
def ariseWithdrawal (p : Port) (asCommand byReset : Bool) (s : State) : State :=
  let u := s.port p
  let s1 := s.setPort p { u with dataReq := none, cmd := u.cmd.atArising asCommand }
  match p.split with
  | .inl q => (s1.setWaiting q none).setPar q ((s1.parUnit q).atArising byReset)
  | .inr _ => s1

/-! ### The grant (R82) -/

/-- An attachment that goes with the withdrawal of a port within its act: held by the port, or by an entry it owns with no frame in
flight, which is R83's list. Such an attachment receives no PEER_LOST. DESIGN CHOICE, assumption 27: the destination producer of
another port's entry, which an end propagated later in the same act detaches, is not on that list and is told. -/
def State.goesWith (s : State) (p : Port) (x : Attachment) : Bool :=
  match x.holder with
  | .port q => q == p
  | .entry e => (s.move e).owner == some p && (s.move e).state != .running

/-- Step 1: every attachment that the port holds is detached, in ascending index order (R82, R83). -/
def withdrawAttachments (p : Port) (s : State) : State :=
  (List.finRange 32).foldl
    (fun t i =>
      if (t.att i).inUse ∧ (t.att i).holder = .port p then withdrawAttachment (fun x => !s.goesWith p x) i t else t) s

/-- Step 2: every entry that the port owns is unloaded, or marked for unloading when its frame is in flight (R82, R132). -/
def withdrawEntries (p : Port) (s : State) : State :=
  (List.finRange 16).foldl
    (fun t e =>
      if (t.move e).owner = some p then
        if (t.move e).state = .running then t.setMove e { t.move e with unloadPending := true }
        else unloadWithdrawn (fun x => !s.goesWith p x) e t
      else t) s

/-- The command unit after the grant of a withdrawal (R95). -/
def CommandUnit.afterWithdrawal (asCommand : Bool) : CommandUnit :=
  if asCommand then { CommandUnit.cleared with state := .done, commandWord := codeWithdraw } else CommandUnit.cleared

/-- Steps 3 to 5 for what every port unit holds: windows, fill word, latch, mask, command unit, queue, lost count (R82, R95, R134, R153,
R187). The word last driven stays. -/
def PortUnit.afterWithdrawal (u : PortUnit) (asCommand : Bool) : PortUnit :=
  { PortUnit.cleared with cmd := CommandUnit.afterWithdrawal asCommand, dataReq := u.dataReq, dataOut := u.dataOut }

/-- Step 3 for a serial port unit: its reset values, save that a frame in progress keeps its phase and goes on inert to its release,
and that the status word's flags follow the queue and the command unit (R177). -/
def SerialUnit.afterWithdrawal (u : SerialUnit) (eventPending : Bool) : SerialUnit :=
  { SerialUnit.cleared with
    phase := u.phase
    selectHeld := u.selectHeld
    inert := u.phase != .idle
    withdrawn := u.phase != .idle
    status := { StatusWord.cleared with eventPending := eventPending } }

/-- The withdrawal that stands at a port's command requester is answered as the WITHDRAW command (R80, R95). -/
def PortUnit.answeredAsWithdraw (u : PortUnit) : Bool :=
  match u.cmd.inFlight with
  | .withdrawal asCommand => asCommand
  | .command _ => false
  | .nothing => false

/-- Steps 3 to 6 on the port's private state (R82). -/
def resetPrivate (p : Port) (asCommand : Bool) (s : State) : State :=
  let s1 := s.setPort p ((s.port p).afterWithdrawal asCommand)
  let s2 := if asCommand then post p .commandDone none none (detailCommandDone .ok codeWithdraw) s1 else s1
  match p.split with
  | .inl q => s2.setPar q { s2.parUnit q with stallLimit := Config.stallLimitReset }
  | .inr q => s2.setSer q ((s2.serUnit q).afterWithdrawal (s2.port p).notify)

/-- The grant of a withdrawal, taken whole (R82). -/
def withdrawalAct (p : Port) (s : State) : State :=
  resetPrivate p (s.port p).answeredAsWithdraw (withdrawEntries p (withdrawAttachments p s))

end Sys2Proof.Machine
end

