-- ==== Sys2Proof/Machine/Commands.lean ====
section
/-! DEFINITION. What each command does at its grant (06, R96 to R109; 07, R117 to R124; 08, R137): its checks in order, its effects
and its results. The grant itself, which sets the command unit and posts COMMAND_DONE (R90 to R92), is `finishCommand`. -/

namespace Sys2Proof.Machine

/-- What a command answers at its grant: the state its effects leave, its results, and the ring and handle of its COMMAND_DONE. -/
structure CommandAnswer where
  after : State
  code : ResultCode
  results : Results
  ring : Option (Fin 16)
  handle : Option Handle

/-- A command answered with a code other than OK leaves everything as it was, and its result words read 0xFFFF (R91, R92). -/
def failWith (code : ResultCode) (s : State) : CommandAnswer :=
  ⟨s, code, ⟨0xFFFF, 0xFFFF, 0xFFFF, 0xFFFF⟩, none, none⟩

/-- A command answered OK. -/
def answerOk (results : Results) (ring : Option (Fin 16)) (handle : Option Handle) (s : State) : CommandAnswer :=
  ⟨s, .ok, results, ring, handle⟩

/-- The end of a command's grant: result code and words, DONE, nothing in flight, and COMMAND_DONE as the act's last record (R90, R91,
R92). -/
def finishCommand (p : Port) (x : CommandAnswer) : State :=
  let u := x.after.port p
  let c := { u.cmd with state := .done, inFlight := .nothing, resultCode := x.code, results := x.results }
  post p .commandDone x.ring x.handle (detailCommandDone x.code u.cmd.commandWord) (x.after.setPort p { u with cmd := c })

/-! ### Shared checks -/

/-- A role is permitted by an access list entry: PRODUCER needs WRITE or READ_WRITE, READER needs READ or READ_WRITE (R8). -/
def permits (x : AccessRight) (what : AttachWord) : Bool :=
  match what with
  | .producer => x == .write || x == .readWrite
  | .reader _ _ _ _ => x == .read || x == .readWrite

/-- The attachment a handle word names, when it is current and held by the port (R96, R104, R106, R107, R109). -/
def State.ownHandle (s : State) (p : Port) (w : Word) : Option (Fin 32) :=
  match s.currentIndex w with
  | some i => if (s.att i).holder = .port p then some i else none
  | none => none

/-- The operands of CREATE_RING, or none where its argument check answers BAD_ARG (R97). -/
def decodeCreate (p : Port) (x : Args) : Option ((RingMode × Four AccessRight) × AttachWord) :=
  match decodeRingWord x.w2, decodeAttachWord x.w3 with
  | some g, some what =>
    if 1 ≤ x.w1.toNat ∧ x.w1.toNat ≤ 128 ∧ x.w4.toNat ≤ 32768 ∧ x.w5.toNat ≤ 16383 ∧ permits (g.2.get p) what = true
    then some (g, what) else none
  | _, _ => none

/-! ### Ring and attachment commands -/

/-- The lowest FREE ring record (R10). -/
def State.lowestFreeRing (s : State) : Option (Fin 16) := (List.finRange 16).find? (fun r => (s.ring r).state == .free)

/-- The creation of a ring on a run of pages (R10, R60). -/
def openRing (r : Fin 16) (q : Fin 128) (n : Nat) (mode : RingMode) (access : Four AccessRight) (s : State) : State :=
  (s.setPageMap (markPages (some r) q.val n s.pageMap)).setRing r
    { Ring.freed with state := .opened, mode := mode, firstPage := q, pageCount := n, access := access }

/-- CREATE_RING (R97 to R99). -/
def runCreateRing (p : Port) (x : Args) (s : State) : CommandAnswer :=
  match decodeCreate p x with
  | none => failWith .badArg s
  | some (g, what) =>
    match s.lowestFreeRing with
    | none => failWith .noRing s
    | some r =>
      match s.lowestFree with
      | none => failWith .noAttach s
      | some i =>
        match firstFit s.pageMap x.w1.toNat with
        | none => failWith .noSpace s
        | some q =>
          let t := makeAttachment i r ⟨what, .port p, x.w4.toNat, x.w5.toNat⟩ (openRing r q x.w1.toNat g.1 g.2 s)
          answerOk ⟨word r.val, word (s.handleAt i).toNat, 0, 0⟩ (some r) (some (s.handleAt i)) t

/-- The ring and room checks of an attach in the order of R101 and R102; none where all pass. -/
def attachFault (p : Port) (what : AttachWord) (r : Fin 16) (s : State) : Option ResultCode :=
  let g := s.ring r
  if g.state = .free then some .badRing
  else if permits (g.access.get p) what = false then some .notPermitted
  else if what = .producer ∧ g.state = .sealed then some .ringSealed
  else if what = .producer ∧ g.producer.isSome = true then some .roleTaken
  else if what ≠ .producer ∧ g.slots.lowestEmpty = none then some .noReaderSlot
  else none

/-- ATTACH (R100 to R103). -/
def runAttach (p : Port) (x : Args) (s : State) : CommandAnswer :=
  match decodeAttachWord x.w2 with
  | none => failWith .badArg s
  | some what =>
    if x.w3.toNat ≤ 32768 ∧ x.w4.toNat ≤ 16383 then
      match ringOfWord x.w1 with
      | none => failWith .badRing s
      | some r =>
        match attachFault p what r s with
        | some code => failWith code s
        | none =>
          match s.lowestFree with
          | none => failWith .noAttach s
          | some i =>
            let t := makeAttachment i r ⟨what, .port p, x.w3.toNat, x.w4.toNat⟩ s
            let slot := match (t.att i).role with
              | .producer => 0
              | .reader slot => slot.val
            answerOk ⟨word (s.handleAt i).toNat, word slot, word (t.level i), word (t.att i).skip⟩ (some r)
              (some (s.handleAt i)) t
    else failWith .badArg s

/-- A voluntary detach of an attachment (R105). -/
def detachVoluntary (sealFlag : Bool) (i : Fin 32) (s : State) : State :=
  match (s.att i).role with
  | .reader _ => detachReader i s
  | .producer => if sealFlag then sealBy .sealedByProducer i s else detachProducerOpen i s

/-- DETACH (R104, R105). -/
def runDetach (p : Port) (x : Args) (s : State) : CommandAnswer :=
  match flagOfWord x.w2 with
  | none => failWith .badArg s
  | some sealFlag =>
    match s.ownHandle p x.w1 with
    | none => failWith .badHandle s
    | some i =>
      let r := (s.att i).ring
      let t := detachVoluntary sealFlag i s
      answerOk ⟨word r.val, word (flag ((t.ring r).state == .free)), 0, 0⟩ (some r) (some (s.handleAt i)) t

/-- The attachments in use that a port holds. -/
def State.heldBy (s : State) (p : Port) : List (Fin 32) :=
  (List.finRange 32).filter (fun i => (s.att i).inUse && (s.att i).holder == .port p)

/-- RENEW (R75, R106). -/
def runRenew (p : Port) (x : Args) (s : State) : CommandAnswer :=
  match flagOfWord x.w1 with
  | none => failWith .badArg s
  | some true =>
    answerOk ⟨word (s.heldBy p).length, 0, 0, 0⟩ none none ((s.heldBy p).foldl (fun s i => renewLease i s) s)
  | some false =>
    match s.ownHandle p x.w2 with
    | none => failWith .badHandle s
    | some i => answerOk ⟨1, 0, 0, 0⟩ (some (s.att i).ring) (some (s.handleAt i)) (renewLease i s)

/-- SET_THRESHOLD (R38, R107). -/
def runSetThreshold (p : Port) (x : Args) (s : State) : CommandAnswer :=
  if x.w2.toNat ≤ 32768 then
    match s.ownHandle p x.w1 with
    | none => failWith .badHandle s
    | some i =>
      let ready := crosses x.w2.toNat 0 (s.level i)
      let t := postCrossing i 0 (s.level i) (s.setAtt i { s.att i with threshold := x.w2.toNat })
      answerOk ⟨word (s.level i), word (flag ready), 0, 0⟩ (some (s.att i).ring) (some (s.handleAt i)) t
  else failWith .badArg s

/-- QUERY_RING (R108). -/
def runQueryRing (x : Args) (s : State) : CommandAnswer :=
  match ringOfWord x.w1 with
  | none => failWith .badRing s
  | some r =>
    let g := s.ring r
    answerOk ⟨ringStatusWord g, word g.pageCount, word g.valid, word g.writePos⟩ (some r) none s

/-- QUERY_ATTACH (R109). -/
def runQueryAttach (p : Port) (x : Args) (s : State) : CommandAnswer :=
  match s.ownHandle p x.w1 with
  | none => failWith .badHandle s
  | some i =>
    let a := s.att i
    let results : Results := match a.role with
      | .producer => ⟨word (s.level i), 0, word a.leaseRemaining, 0⟩
      | .reader _ => ⟨word (s.level i), word a.dropCount, word a.leaseRemaining, word a.skip⟩
    answerOk results (some a.ring) (some (s.handleAt i)) s

/-! ### Move commands -/

/-- The entry a move command names, or none above 15 (R117, check 1). -/
def entryOfWord (w : Word) : Option (Fin 16) := if w.toNat ≤ 15 then some (Fin.ofNat 16 w.toNat) else none

/-- Check 2 of R117: the entry is not EMPTY and its owner is not the issuing port. -/
def MoveEntry.ownedByOther (m : MoveEntry) (p : Port) : Bool := m.state != .empty && m.owner != some p

/-- A move command answered OK carries the entry's source ring and source handle, as they stood before it (R117). -/
def answerMove (e : Fin 16) (before after : State) : CommandAnswer :=
  answerOk Results.zero (before.sourceRing e) (before.move e).source after

/-- The ring checks of LOAD_MOVE in the order of R119; none where all pass. -/
def loadFault (p : Port) (src dst : Fin 16) (s : State) : Option ResultCode :=
  if (s.ring src).state = .free ∨ (s.ring dst).state = .free then some .badRing
  else if permits ((s.ring src).access.get p) (.reader .hold .natural 0 .fromNew) = false
      ∨ permits ((s.ring dst).access.get p) .producer = false then some .notPermitted
  else if (s.ring dst).state = .sealed then some .ringSealed
  else if (s.ring dst).producer.isSome = true then some .roleTaken
  else if (s.ring src).slots.lowestEmpty = none then some .noReaderSlot
  else if s.freeRecords < 2 then some .noAttach
  else none

/-- The move entry that LOAD_MOVE makes (R119). -/
def loadedEntry (p : Port) (src dst : Handle) (x : MoveOperands) : MoveEntry :=
  { MoveEntry.cleared with
    state := .loaded
    owner := some p
    source := some src
    dest := some dst
    frameLen := x.frameLen
    phase := x.phase
    stride := x.stride
    framesPerRun := x.framesPerRun
    runLimit := x.runLimit
    trigger := x.trigger
    propagateEnd := x.propagateEnd }

/-- LOAD_MOVE (R117 to R119). -/
def runLoadMove (p : Port) (x : Args) (s : State) : CommandAnswer :=
  match entryOfWord x.w1 with
  | none => failWith .noEntry s
  | some e =>
    if (s.move e).ownedByOther p then failWith .notOwner s
    else if (s.move e).state ≠ .empty then failWith .entryBusy s
    else
      match decodeMoveOperands x.w4 x.w5 x.w6 with
      | none => failWith .badArg s
      | some operands =>
        if x.w2 = x.w3 then failWith .badArg s
        else
          match ringOfWord x.w2, ringOfWord x.w3 with
          | some src, some dst =>
            match loadFault p src dst s with
            | some code => failWith code s
            | none =>
              match s.lowestFree with
              | none => failWith .noAttach s
              | some i =>
                let s1 := makeAttachment i src ⟨.reader .hold .natural 0 .fromNew, .entry e, 0, 0⟩ s
                match s1.lowestFree with
                | none => failWith .noAttach s
                | some j =>
                  let s2 := makeAttachment j dst ⟨.producer, .entry e, 0, 0⟩ s1
                  let t := s2.setMove e (loadedEntry p (s.handleAt i) (s1.handleAt j) operands)
                  answerOk ⟨word (s.handleAt i).toNat, word (s1.handleAt j).toNat, 0, 0⟩ (some src) (some (s.handleAt i)) t
          | _, _ => failWith .badRing s

/-- START_MOVE (R117, R120). -/
def runStartMove (p : Port) (x : Args) (s : State) : CommandAnswer :=
  match entryOfWord x.w1 with
  | none => failWith .noEntry s
  | some e =>
    let m := s.move e
    if m.ownedByOther p then failWith .notOwner s
    else if m.unloadPending = false ∧ (m.state = .loaded ∨ m.state = .done ∨ m.state = .halted) ∧ m.dest.isSome = true then
      answerMove e s
        (sourceEndedCheck e
          (s.setMove e
            { m with
              state := .armed
              runsDone := 0
              pendingRuns := 0
              framesDone := 0
              stopPending := false
              haltReason := none }))
    else failWith .entryBusy s

/-- FIRE_MOVE (R117, R122). -/
def runFireMove (p : Port) (x : Args) (s : State) : CommandAnswer :=
  match entryOfWord x.w1 with
  | none => failWith .noEntry s
  | some e =>
    let m := s.move e
    if m.ownedByOther p then failWith .notOwner s
    else if m.unloadPending = false ∧ m.trigger = .software ∧ m.started = true then answerMove e s (deliverTrigger e s)
    else failWith .entryBusy s

/-- STOP_MOVE (R117, R123). -/
def runStopMove (p : Port) (x : Args) (s : State) : CommandAnswer :=
  match entryOfWord x.w1 with
  | none => failWith .noEntry s
  | some e =>
    let m := s.move e
    if m.ownedByOther p then failWith .notOwner s
    else if m.unloadPending = true then failWith .entryBusy s
    else
      match m.state with
      | .empty => failWith .entryBusy s
      | .armed => answerMove e s (haltEntry e .stopped s)
      | .waiting => answerMove e s (haltEntry e .stopped s)
      | .running => answerMove e s (s.setMove e { m with stopPending := true })
      | .loaded => answerMove e s s
      | .done => answerMove e s s
      | .halted => answerMove e s s

/-- UNLOAD_MOVE (R117, R124). -/
def runUnloadMove (p : Port) (x : Args) (s : State) : CommandAnswer :=
  match entryOfWord x.w1 with
  | none => failWith .noEntry s
  | some e =>
    let m := s.move e
    if m.ownedByOther p then failWith .notOwner s
    else if m.unloadPending = true ∨ m.state = .empty ∨ m.state = .running then failWith .entryBusy s
    else answerMove e s (unloadVoluntary e s)

/-! ### SET_PACER -/

/-- A pacer after SET_PACER (R137). No expiry of it is outstanding, since what is due is taken before the grant (assumption 2). -/
def Pacer.program (x : Pacer) (period : Nat) (enable : Bool) : Pacer :=
  if enable then ⟨true, period, if x.enabled then x.count else period, false⟩ else ⟨false, period, 0, false⟩

/-- SET_PACER (R137). -/
def runSetPacer (x : Args) (s : State) : CommandAnswer :=
  match flagOfWord x.w3 with
  | none => failWith .badArg s
  | some enable =>
    if x.w1.toNat ≤ 3 ∧ x.w2.toNat ≠ 0 then
      let n := Fin.ofNat 4 x.w1.toNat
      answerOk Results.zero none none (s.setPacer n ((s.pacer n).program x.w2.toNat enable))
    else failWith .badArg s

/-- A command word that is no command code (R90). -/
def runBadCommand (s : State) : CommandAnswer := failWith .badCommand s

end Sys2Proof.Machine
end

