-- ==== Sys2Proof/Machine/ControlPage.lean ====
section
/-! DEFINITION. The control page (13, R188): what each control word reads, what a write of it does, and the submit of a command
(06, R88, R89, R93, R94). A parallel cycle, a serial control frame and the rows of the control words all use these. -/

namespace Sys2Proof.Machine

/-! ### Reading (R188) -/

/-- The port status word: the command state and the number of records held. -/
def portStatusWord (u : PortUnit) : Word := word (u.cmd.state.code + 256 * u.queue.length)

/-- The stall limit word: 0 on a serial port (R164). -/
def State.stallLimitWord (s : State) (p : Port) : Word :=
  match p.split with
  | .inl q => word (s.parUnit q).stallLimit
  | .inr _ => 0

/-- Argument word `k` of 1 to 6. -/
def Args.get (x : Args) (k : Nat) : Word :=
  match k with
  | 1 => x.w1
  | 2 => x.w2
  | 3 => x.w3
  | 4 => x.w4
  | 5 => x.w5
  | 6 => x.w6
  | _ => 0

/-- The arguments with word `k` of 1 to 6 replaced. -/
def Args.put (x : Args) (k : Nat) (v : Word) : Args :=
  match k with
  | 1 => { x with w1 := v }
  | 2 => { x with w2 := v }
  | 3 => { x with w3 := v }
  | 4 => { x with w4 := v }
  | 5 => { x with w5 := v }
  | 6 => { x with w6 := v }
  | _ => x

/-- Result word `k` of 1 to 4. -/
def Results.get (x : Results) (k : Nat) : Word :=
  match k with
  | 1 => x.w1
  | 2 => x.w2
  | 3 => x.w3
  | 4 => x.w4
  | _ => 0

/-- The window that a control offset from 0x20 to 0x3F belongs to. -/
def windowOfOffset (offset : Nat) : Fin 8 := Fin.ofNat 8 ((offset - 0x20) / 4)

/-- What the control word at an offset reads (R188): 0 where the map lists no word, or a word that is only written; and 0 from offset
256 (R176). -/
def State.controlWord (s : State) (p : Port) (offset : Nat) : Word :=
  let u := s.port p
  if 0x20 ≤ offset ∧ offset ≤ 0x3F then windowWord (tableGet u.windows (windowOfOffset offset)) ((offset - 0x20) % 4)
  else
    match offset with
    | 0x00 => 0x4A16
    | 0x01 => 0x0100
    | 0x02 => portStatusWord u
    | 0x03 => word u.lostCount
    | 0x04 => u.fillWord
    | 0x05 => s.stallLimitWord p
    | 0x06 => u.mask0
    | 0x07 => u.mask1
    | 0x08 => headWord u.queue 0
    | 0x09 => headWord u.queue 1
    | 0x0A => headWord u.queue 2
    | 0x0B => headWord u.queue 3
    | 0x10 => u.cmd.commandWord
    | 0x11 => u.cmd.args.w1
    | 0x12 => u.cmd.args.w2
    | 0x13 => u.cmd.args.w3
    | 0x14 => u.cmd.args.w4
    | 0x15 => u.cmd.args.w5
    | 0x16 => u.cmd.args.w6
    | 0x17 => word u.cmd.resultCode.code
    | 0x18 => u.cmd.results.w1
    | 0x19 => u.cmd.results.w2
    | 0x1A => u.cmd.results.w3
    | 0x1B => u.cmd.results.w4
    | 0x40 => s.stampNow
    | 0x41 => u.latchedHigh
    | 0x44 => word (s.pacer 0).period
    | 0x45 => word (s.pacer 1).period
    | 0x46 => word (s.pacer 2).period
    | 0x47 => word (s.pacer 3).period
    | _ => 0

/-- The latched high word is loaded with the high 16 bits of the count (R134). -/
def latchHigh (p : Port) (s : State) : State :=
  s.setPort p { s.port p with latchedHigh := (s.timebase >>> 16).setWidth 16 }

/-- The state after a read of the control word at an offset: only the timebase low word has an effect (R134, R188). -/
def controlReadAct (p : Port) (offset : Nat) (s : State) : State := if offset = 0x40 then latchHigh p s else s

/-! ### Submits (R88, R89, R93, R94) -/

/-- An accepted submit of a command (R88). -/
def CommandUnit.accept (c : CommandUnit) (w : Word) : CommandUnit :=
  { c with state := .inFlight, argCopy := c.args, inFlight := .command w, commandWord := w }

/-- A submit of WITHDRAW joined to the withdrawal that is pending (R94). -/
def CommandUnit.join (c : CommandUnit) : CommandUnit :=
  { c with inFlight := .withdrawal true, commandWord := codeWithdraw }

/-- A refused submit: COMMAND_REFUSED with the word written (R89). -/
def refuseSubmit (p : Port) (w : Word) (s : State) : State := post p .commandRefused none none w s

/-- A write of the command word (R88, R89, R93). -/
def submit (p : Port) (w : Word) (s : State) : State :=
  let u := s.port p
  match u.cmd.inFlight with
  | .nothing =>
    if w = codeWithdraw then ariseWithdrawal p true false s else s.setPort p { u with cmd := u.cmd.accept w }
  | .command _ => refuseSubmit p w s
  | .withdrawal _ => if w = codeWithdraw then s.setPort p { u with cmd := u.cmd.join } else refuseSubmit p w s

/-! ### Writing (R188) -/

/-- A write of the stall limit word: 1 to 1023 on a parallel port, no effect otherwise (R164). -/
def writeStallLimit (p : Port) (v : Word) (s : State) : State :=
  match p.split with
  | .inl q =>
    if 1 ≤ v.toNat ∧ v.toNat ≤ 1023 then s.setPar q { s.parUnit q with stallLimit := v.toNat } else s
  | .inr _ => s

/-- A write of the window table word at an offset from 0x20 to 0x3F (R141, R188). -/
def writeWindow (p : Port) (offset : Nat) (v : Word) (s : State) : State :=
  let u := s.port p
  let w := windowOfOffset offset
  s.setPort p
    { u with windows := tablePut u.windows w (windowWrite (tableGet u.windows w) ((offset - 0x20) % 4) v) }

/-- A write of argument word `k` (R87). -/
def writeArgument (p : Port) (k : Nat) (v : Word) (s : State) : State :=
  let u := s.port p
  s.setPort p { u with cmd := { u.cmd with args := u.cmd.args.put k v } }

/-- A write of a control word (R188): nothing where the map lists no word or a read-only word, and from offset 256 (R176). -/
def controlWriteAct (p : Port) (offset : Nat) (v : Word) (s : State) : State :=
  let u := s.port p
  if 0x20 ≤ offset ∧ offset ≤ 0x3F then writeWindow p offset v s
  else if 0x11 ≤ offset ∧ offset ≤ 0x16 then writeArgument p (offset - 0x10) v s
  else
    match offset with
    | 0x04 => s.setPort p { u with fillWord := v }
    | 0x05 => writeStallLimit p v s
    | 0x06 => s.setPort p { u with mask0 := v &&& 0xFFFE }
    | 0x07 => s.setPort p { u with mask1 := v &&& 0x0007 }
    | 0x0C => acknowledge p s
    | 0x10 => submit p v s
    | _ => s

end Sys2Proof.Machine
end

