-- ==== Sys2Proof/Machine/Windows.lean ====
section
/-! DEFINITION. Windows (09): parallel decode, the access checks, and the grant of a window access on a parallel port (10, R156,
R157) and on a serial port (11, R170 to R174), with the end of a serial frame (R167, R172). -/

namespace Sys2Proof.Machine

/-! ### Decode (R143) -/

/-- The rounded base of a window: the low s bits ignored. -/
def Window.start (x : Window) : Nat := x.base.toNat / 2 ^ x.sizeExp.toNat * 2 ^ x.sizeExp.toNat

/-- An enabled window of a size exponent up to 11 contains an address when address and base agree above the low s bits. -/
def Window.contains (x : Window) (addr : Nat) : Bool :=
  x.enabled && decide (x.sizeExp.toNat ≤ 11) && addr / 2 ^ x.sizeExp.toNat == x.base.toNat / 2 ^ x.sizeExp.toNat

/-- What a parallel address decodes to: a control word by its offset, a window with the offset in it, or nothing. -/
inductive Decoded where
  | control (offset : Nat)
  | unmapped
  | window (w : Fin 8) (offset : Nat)
deriving DecidableEq, Repr

/-- The decode of a word address against a port's window table (R143). -/
def decodeAddress (u : PortUnit) (addr : BitVec 12) : Decoded :=
  if 0xF00 ≤ addr.toNat then .control (addr.toNat - 0xF00)
  else
    match (List.finRange 8).find? (fun w => (tableGet u.windows w).contains addr.toNat) with
    | some w => .window w (addr.toNat - (tableGet u.windows w).start)
    | none => .unmapped

/-! ### The access checks (R146) -/

/-- The fault reasons of R146. -/
inductive WindowReason where
  | noWindow
  | staleHandle
  | notHolder
  | wrongRole
  | outOfRing
deriving DecidableEq, Repr

/-- The reason's code in a WINDOW_FAULT detail (R190). NO_WINDOW is not met on a parallel port (R146) and is coded by its place. -/
def WindowReason.code : WindowReason → Nat
  | .noWindow => 1
  | .staleHandle => 2
  | .notHolder => 3
  | .wrongRole => 4
  | .outOfRing => 5

/-- The reason as a serial condition (R169). -/
def WindowReason.condition : WindowReason → Condition
  | .noWindow => .noWindow
  | .staleHandle => .staleHandle
  | .notHolder => .notHolder
  | .wrongRole => .wrongRole
  | .outOfRing => .outOfRing

/-- The role suits the access: a STREAM read needs a READER, a STREAM write and a PAGE write need the PRODUCER, a PAGE read accepts
either (R146, check 4). -/
def roleSuits (role : Role) (kind : WindowKind) (acc : BusAccess) : Bool :=
  match role, kind, acc with
  | .producer, .stream, .read => false
  | .producer, .stream, .write _ => true
  | .producer, .page, .read => true
  | .producer, .page, .write _ => true
  | .reader _, .stream, .read => true
  | .reader _, .stream, .write _ => false
  | .reader _, .page, .read => true
  | .reader _, .page, .write _ => false

/-- Checks 2 to 4 of R146: the attachment a window's access uses, or the first reason that fails. -/
def checkBinding (p : Port) (x : Window) (kind : WindowKind) (acc : BusAccess) (s : State) : Except WindowReason (Fin 32) :=
  match s.currentIndex x.handleWord with
  | none => .error .staleHandle
  | some i =>
    if (s.att i).holder ≠ .port p then .error .notHolder
    else if roleSuits (s.att i).role kind acc = false then .error .wrongRole
    else .ok i

/-- All checks of R146 for one access. -/
def checkAccess (p : Port) (w : Fin 8) (kind : WindowKind) (acc : BusAccess) (offset : Nat) (s : State) :
    Except WindowReason (Fin 32) :=
  if (s.window p w).enabled = false then .error .noWindow
  else
    match checkBinding p (s.window p w) kind acc s with
    | .error reason => .error reason
    | .ok i =>
      if kind = .page ∧ (s.ring (s.att i).ring).capacity ≤ offset then .error .outOfRing else .ok i

/-! ### What a granted access does on the ring (R148 to R150) -/

/-- What the ring controller answers an access that passes its checks. -/
inductive AccessAnswer where
  | fault (reason : WindowReason)
  | word (i : Fin 32) (w : Word)
  | empty (i : Fin 32)
  | ended (i : Fin 32)
  | stored (i : Fin 32)
  | blocked (i : Fin 32)
  | exhausted (i : Fin 32)
deriving DecidableEq, Repr

/-- The answer of an access through a window of a kind (R146, R148 to R150). -/
def judgeAccess (p : Port) (w : Fin 8) (kind : WindowKind) (acc : BusAccess) (offset : Nat) (s : State) : AccessAnswer :=
  match checkAccess p w kind acc offset s with
  | .error reason => .fault reason
  | .ok i =>
    match kind, acc with
    | .stream, .read =>
      match s.judgePop i with
      | .data d => .word i d
      | .empty => .empty i
      | .ended => .ended i
    | .stream, .write _ =>
      match s.judgePush (s.att i).ring with
      | .stored => .stored i
      | .blocked => .blocked i
      | .exhausted => .exhausted i
    | .page, .read => .word i (s.ringWord (s.att i).ring offset)
    | .page, .write _ => .stored i

/-- The effects of that access on rings, attachments and waiting accesses: a pop or push with its re-examination (R148), a page read
that renews the lease (R149), a page write that stores its word and renews the lease (R150); none for a fault (R147). -/
def applyAccess (kind : WindowKind) (acc : BusAccess) (offset : Nat) (answer : AccessAnswer) (s : State) : State :=
  match answer with
  | .fault _ => s
  | .word i _ =>
    match kind with
    | .stream => popAct i s
    | .page => renewLease i s
  | .empty i => popAct i s
  | .ended i => popAct i s
  | .stored i =>
    match kind, acc with
    | .stream, .write d => pushAct (s.att i).ring false d s
    | .page, .write d => renewLease i (s.setRingWord (s.att i).ring offset d)
    | _, .read => s
  | .blocked _ => s
  | .exhausted _ => s

/-! ### The grant on a parallel port (R147, R151, R156, R157) -/

/-- WINDOW_FAULT: the ring when the handle word is current, the handle when the word is 255 or less, window number and reason (R147). -/
def postWindowFault (p : Port) (w : Fin 8) (reason : WindowReason) (s : State) : State :=
  let x := s.window p w
  post p .windowFault ((s.currentIndex x.handleWord).map (fun i => (s.att i).ring)) (handleOfWord x.handleWord)
    (word (w.val + 256 * reason.code)) s

/-- A stream access becomes the port's waiting access, and the stall timer is loaded (R157). -/
def placeWaiting (p : ParPort) (w : Fin 8) (i : Fin 32) (acc : BusAccess) (s : State) : State :=
  let u := s.parUnit p
  (s.setWaiting p (some ⟨w, s.handleAt i, acc⟩)).setPar p { u with cycleState := .waiting, stallTimer := u.stallLimit }

/-- The port unit acts on the answer of its access, whose effects have been taken (R156). The record of the port's own cycle is posted
after the records of the access. -/
def finishParallel (p : ParPort) (w : Fin 8) (acc : BusAccess) (policy : WaitPolicy) (answer : AccessAnswer) (s : State) :
    State :=
  match answer with
  | .fault reason => answerFill p acc (postWindowFault p.toPort w reason s)
  | .word _ d => answerCycle p acc d s
  | .stored _ => answerCycle p acc 0 s
  | .ended _ => answerFill p acc s
  | .exhausted i =>
    answerFill p acc
      (post p.toPort .writeRefused (some (s.att i).ring) (some (s.handleAt i)) (detailWriteRefused w true) s)
  | .empty i =>
    match policy with
    | .wait => placeWaiting p w i acc s
    | .nowait =>
      answerFill p acc (post p.toPort .underrun (some (s.att i).ring) (some (s.handleAt i)) (word w.val) s)
  | .blocked i =>
    match policy with
    | .wait => placeWaiting p w i acc s
    | .nowait =>
      answerFill p acc
        (post p.toPort .writeRefused (some (s.att i).ring) (some (s.handleAt i)) (detailWriteRefused w false) s)

/-- The grant of a parallel port's window access (R156), against the window entry as it stands at the grant. -/
def grantParallel (p : ParPort) (w : Fin 8) (acc : BusAccess) (offset : Nat) (s : State) : State :=
  let x := s.window p.toPort w
  let answer := judgeAccess p.toPort w x.kind acc offset s
  finishParallel p w acc x.waitPolicy answer
    (applyAccess x.kind acc offset answer (s.setDataReq p.toPort none))

/-! ### Serial frames: condition, end (R167, R169, R172) -/

/-- The first condition of a frame stays (R169). -/
def SerialUnit.meet (u : SerialUnit) (c : Condition) : SerialUnit :=
  if u.condition = .ok then { u with condition := c } else u

/-- A condition that ends the frame's reach: the remaining data words are inert. -/
def SerialUnit.failed (u : SerialUnit) (c : Condition) : SerialUnit := { u.meet c with inert := true }

/-- The end of a frame (R167): a read word cut short after its access was answered with data is torn (R172), the status word is formed,
the phase is IDLE. A frame whose header was not whole leaves the status word as it was, unless a withdrawal's grant has made it
inert (R177). -/
def endFrame (p : SerPort) (s : State) : State :=
  let u0 := s.serUnit p
  let u := if u0.wordNow = .data then u0.meet .torn else u0
  let status : StatusWord :=
    ⟨u.condition, u.completed, (s.port p.toPort).notify, (s.port p.toPort).cmd.state == .inFlight⟩
  s.setSer p
    { u with
      phase := .idle
      op := none
      wordNow := .none
      withdrawn := false
      status := if u.phase = .header ∧ u.withdrawn = false then u.status else status }

/-- A frame whose select was released while its data request was pending ends at that request's grant (R167). -/
def endIfReleased (p : SerPort) (s : State) : State :=
  if (s.serUnit p).selectHeld = false ∧ (s.serUnit p).phase ≠ .idle then endFrame p s else s

/-- The kind of window an op reaches, with the direction its check is judged with (R168, R170); none for the other ops. -/
def opKind : SerialOp → Option (WindowKind × BusAccess)
  | .streamRead => some (.stream, .read)
  | .streamWrite => some (.stream, .write 0)
  | .pageRead => some (.page, .read)
  | .pageWrite => some (.page, .write 0)
  | .statusOnly => none
  | .controlRead => none
  | .controlWrite => none
  | .withdraw => none

/-! ### The grants on a serial port (R170, R171, R173, R174) -/

/-- The header's window check: enabled, the op suits the kind, then checks 2 to 4 of R146 (R170). -/
def judgeHeader (p : SerPort) (s : State) : Condition :=
  let u := s.serUnit p
  let x := s.window p.toPort u.window
  match u.op with
  | none => .ok
  | some op =>
    match opKind op with
    | none => .ok
    | some (kind, acc) =>
      if x.enabled = false then .noWindow
      else if x.kind ≠ kind then .badOp
      else
        match checkBinding p.toPort x kind acc s with
        | .error reason => reason.condition
        | .ok _ => .ok

/-- The grant of a header's window check (R170). -/
def grantCheck (p : SerPort) (s : State) : State :=
  let c := judgeHeader p s
  let s1 := s.setDataReq p.toPort none
  endIfReleased p (if c = .ok then s1 else s1.setSer p ((s1.serUnit p).failed c))

/-- A read word of a frame is answered with a word: it is shifted out, and is data until it is whole or torn (R171, R174). -/
def shiftData (p : SerPort) (d : Word) (s : State) : State :=
  (s.setSer p { s.serUnit p with wordNow := .data }).setDataOut p.toPort d

/-- A word of a frame is not answered with data: its condition, if first, and inert; a read word shifts the fill word as it stands
(R171, R173, R174, R175). -/
def failWord (p : SerPort) (acc : BusAccess) (c : Condition) (s : State) : State :=
  let s1 := s.setSer p ((s.serUnit p).failed c)
  match acc with
  | .read => s1.setDataOut p.toPort (s1.port p.toPort).fillWord
  | .write _ => s1

/-- The serial port unit acts on the answer of its access, whose effects have been taken (R171, R173, R174). -/
def finishSerial (p : SerPort) (acc : BusAccess) (answer : AccessAnswer) (s : State) : State :=
  match answer with
  | .word _ d => shiftData p d s
  | .stored _ => s.setSer p { s.serUnit p with completed := (s.serUnit p).completed + 1 }
  | .fault reason => failWord p acc reason.condition s
  | .empty _ => failWord p acc .empty s
  | .ended _ => failWord p acc .ended s
  | .blocked _ => failWord p acc .full s
  | .exhausted _ => failWord p acc .exhausted s

/-- The grant of a serial port's word access; a stream op pops or pushes, a page op reads or writes by offset. -/
def grantSerial (p : SerPort) (kind : WindowKind) (w : Fin 8) (acc : BusAccess) (offset : Nat) (s : State) : State :=
  let answer := judgeAccess p.toPort w kind acc offset s
  endIfReleased p
    (finishSerial p acc answer (applyAccess kind acc offset answer (s.setDataReq p.toPort none)))

/-! ### The grant of a data requester (R64) -/

/-- The kind of access a port's pending data request is: by its window's kind on a parallel port, by its frame's op on a serial port. -/
def State.requestKind (s : State) (p : Port) (w : Fin 8) : Option WindowKind :=
  match p.split with
  | .inl _ => some (s.window p w).kind
  | .inr q =>
    match (s.serUnit q).op with
    | none => none
    | some op => (opKind op).map (·.1)

/-- The grant of whatever a port's data requester holds. -/
def grantData (p : Port) (s : State) : State :=
  match (s.port p).dataReq with
  | none => s
  | some .check =>
    match p.split with
    | .inl _ => s.setDataReq p none
    | .inr q => grantCheck q s
  | some (.access w acc offset) =>
    match p.split with
    | .inl q => grantParallel q w acc offset s
    | .inr q =>
      match s.requestKind p w with
      | some kind => grantSerial q kind w acc offset s
      | none => s.setDataReq p none

end Sys2Proof.Machine
end

