-- ==== Sys2Proof/Machine/Arbiter.lean ====
section
/-! DEFINITION. The arbiter (04, R64 to R67): the rotation, what each requester's grant takes, and the grants that a serial port's
pending request is sure of before its next word. -/

namespace Sys2Proof.Machine

/-- The next requester in the cyclic order: data A to D, move engine, command A to D, and data A again (R65). -/
def Requester.next : Requester → Requester
  | .data .a => .data .b
  | .data .b => .data .c
  | .data .c => .data .d
  | .data .d => .move
  | .move => .command .a
  | .command .a => .command .b
  | .command .b => .command .c
  | .command .c => .command .d
  | .command .d => .data .a

/-- Something waits at a port's command requester. -/
def CommandUnit.requests (c : CommandUnit) : Bool :=
  match c.inFlight with
  | .nothing => false
  | .command _ => true
  | .withdrawal _ => true

/-- A requester has a request pending (R64). -/
def State.requests (s : State) : Requester → Bool
  | .data p => (s.port p).dataReq.isSome
  | .move => s.moveReq.isSome
  | .command p => (s.port p).cmd.requests

/-- The first requester with a request pending among `n` from one on. -/
def State.firstRequest (s : State) : Nat → Requester → Option Requester
  | 0, _ => none
  | n + 1, q => if s.requests q then some q else s.firstRequest n q.next

/-- The requester that the arbiter grants next, or none (R65). -/
def State.nextGrant (s : State) : Option Requester := s.firstRequest 9 s.arb.next

/-! ### What a grant takes -/

/-- A command word in flight, taken with the argument copy (R90, step 1 to 3). -/
def runCommand (p : Port) (w : Word) (x : Args) (s : State) : CommandAnswer :=
  if w = codeCreateRing then runCreateRing p x s
  else if w = codeAttach then runAttach p x s
  else if w = codeDetach then runDetach p x s
  else if w = codeRenew then runRenew p x s
  else if w = codeSetThreshold then runSetThreshold p x s
  else if w = codeQueryRing then runQueryRing x s
  else if w = codeQueryAttach then runQueryAttach p x s
  else if w = codeLoadMove then runLoadMove p x s
  else if w = codeStartMove then runStartMove p x s
  else if w = codeFireMove then runFireMove p x s
  else if w = codeStopMove then runStopMove p x s
  else if w = codeUnloadMove then runUnloadMove p x s
  else if w = codeSetPacer then runSetPacer x s
  else runBadCommand s

/-- The grant of a command requester (R69, R90). -/
def grantCommand (p : Port) (s : State) : State :=
  match (s.port p).cmd.inFlight with
  | .nothing => s
  | .command w => finishCommand p (runCommand p w (s.port p).cmd.argCopy s)
  | .withdrawal _ => withdrawalAct p s

/-- The grant of the move engine (R70). -/
def grantMove (s : State) : State :=
  match s.moveReq with
  | none => s
  | some .startCheck => startCheckAct s
  | some .framePop => framePopAct s
  | some .framePush => framePushAct s
  | some .unload => unloadAct s

/-- A requester is granted: the rotation pointer names it, and its request is taken whole (R65, R66). -/
def grantRequest (q : Requester) (s : State) : State :=
  match q with
  | .data p => grantData p (s.setArb q)
  | .move => grantMove (s.setArb q)
  | .command p => grantCommand p (s.setArb q)

/-- One grant, when a request is pending, and the start check that the engine then places (R65, R125). -/
def grantNext (s : State) : State :=
  match s.nextGrant with
  | some q => placeStartCheck (grantRequest q s)
  | none => s

/-! ### Serial requests are answered in time (R67) -/

/-- Grants in the rotation until the port has no data request pending, at most `n`. -/
def serveFor (p : SerPort) : Nat → State → State
  | 0, s => s
  | n + 1, s => if (s.port p.toPort).dataReq.isSome then serveFor p n (grantNext s) else s

/-- The grants that come before the next word of a serial port: a full rotation, nine requests, is sure to hold the port's own. -/
def serve (p : SerPort) (s : State) : State := serveFor p 9 s

end Sys2Proof.Machine
end

