-- ==== Sys2Proof/Machine/Time.lean ====
section
/-! DEFINITION. Time (08; 05, R72, R73; 10, R159): the advance of the timebase, the events it makes due, and the rule that a due
event is taken before any later act (assumption 2). -/

namespace Sys2Proof.Machine

/-! ### The lease tick and its expiries (R72, R73, R135) -/

/-- A tick lowers the lease remaining of an attachment with a lease by 1 (R72, R73). -/
def Attachment.ticked (x : Attachment) : Attachment :=
  if x.inUse ∧ 0 < x.leasePeriod then { x with leaseRemaining := x.leaseRemaining - 1 } else x

/-- The tick that has fallen is taken: every running lease is lowered (R72, R73). -/
def takeTick (s : State) : State := { s.setTickDue false with atts := s.atts.map Attachment.ticked }

/-- The next expiry of a tick: the lowest attachment index (R73). Nothing renews a lease that has run out before its expiry is taken,
since a re-examination leaves the waiting access of such an attachment alone (assumption 26), so every attachment that reached 0 at
the tick expires in its turn (R72). -/
def State.dueExpiry (s : State) : Option (Fin 32) := (List.finRange 32).find? (fun i => (s.att i).expired)

/-- Expiries taken one after another, at most `n`. -/
def takeExpiries : Nat → State → State
  | 0, s => s
  | n + 1, s =>
    match s.dueExpiry with
    | some i => takeExpiries n (expireLease i s)
    | none => s

/-- All the expiries that are due. -/
def settleExpiries (s : State) : State := takeExpiries 32 s

/-! ### Pacers and stall limits (R138, R159) -/

/-- A pacer has expired and its triggers are still to be delivered. -/
def State.pacerDue (s : State) (n : Fin 4) : Bool := (s.pacer n).enabled && (s.pacer n).due

/-- A waiting access has reached its stall limit, and the expiry is still to be taken. -/
def State.stallDue (s : State) (p : ParPort) : Bool :=
  (s.parUnit p).cycleState == .waiting && (s.parUnit p).stallTimer == 0

/-- A stall limit expires (R159): the waiting access leaves the list, the cycle ends without data, STALL_TIMEOUT is posted. -/
def expireStall (p : ParPort) (s : State) : State :=
  match s.waitingAt p with
  | some x =>
    endWaiting p
      (post p.toPort .stallTimeout (some (s.att x.handle.index).ring) (some x.handle) (word x.window.val) s)
  | none => s

/-! ### Due events come before any later act -/

/-- Nothing is due. -/
def State.quiet (s : State) : Bool :=
  !s.tickDue && s.dueExpiry.isNone && (List.finRange 4).all (fun n => !s.pacerDue n) && !s.stallDue .a && !s.stallDue .b

/-- The due tick with its expiries. -/
def settleTick (s : State) : State := if s.tickDue then settleExpiries (takeTick s) else s

/-- The due pacer expiries. -/
def settlePacers (s : State) : State :=
  (List.finRange 4).foldl (fun t n => if t.pacerDue n then expirePacer n t else t) s

/-- The due stall limit of a port. -/
def settleStall (p : ParPort) (s : State) : State := if s.stallDue p then expireStall p s else s

/-- Everything that is due is taken (R73, R138, R159): expiries, tick, pacers, stall limits. -/
def settle (s : State) : State :=
  if s.quiet then s
  else placeStartCheck (settleStall .b (settleStall .a (settlePacers (settleTick (settleExpiries s)))))

/-! ### The advance (R133) -/

/-- A pacer after one microsecond: the count of an enabled pacer falls by 1, and where that brings it to 0 the pacer expires and the
count is reloaded within the same event, never left at 0 (R136, R138). The delivery of its triggers is handed on as its own event. -/
def Pacer.advanced (x : Pacer) : Pacer :=
  if x.enabled then
    if x.count ≤ 1 then { x with count := x.period, due := true } else { x with count := x.count - 1 }
  else x

/-- A parallel port unit after one microsecond (R159). -/
def ParallelUnit.advanced (u : ParallelUnit) : ParallelUnit :=
  match u.cycleState with
  | .waiting => { u with stallTimer := u.stallTimer - 1 }
  | .idle => u
  | .control => u
  | .requested => u
  | .answered => u

/-- The lease divider after one microsecond: on reaching 1000 it returns to 0 and the lease tick falls, which is handed to the ring
controller as its own event (R135). -/
def advanceDivider (s : State) : State :=
  if s.divider + 1 < Config.leaseTickPeriod then s.setDivider (s.divider + 1) else (s.setDivider 0).setTickDue true

/-- One advance of the timebase: the count, the lease divider, the enabled pacers, the stall timers of waiting accesses (R133, R135,
R138, R159). -/
def advanceTime (s : State) : State :=
  let s1 := { (advanceDivider s).setTimebase (s.timebase + 1) with pacers := s.pacers.map Pacer.advanced }
  (s1.setPar .a (s1.parUnit .a).advanced).setPar .b (s1.parUnit .b).advanced

/-! ### Acts -/

/-- The outcome of every command: a next state. -/
abbrev Out := Host.Outcome State Fault Refusal

/-- An act of the part: nothing while the device reset input is held (assumption 8); otherwise what is due is taken first, then the act,
then the move engine places a start check where one is called for (R125). -/
def act (f : State → State) (s : State) : Out :=
  if s.deviceReset then .next s else .next (placeStartCheck (f (settle s)))

/-- An act that follows from a pin: the pin's new level is taken in any case (assumption 8). -/
def pinAct (pin : State → State) (f : State → State) (s : State) : Out :=
  if s.deviceReset then .next (pin s) else .next (placeStartCheck (f (settle s)))

/-- An event of the part's own that is due (assumption 2): taken without settling the others that are due at the same advance. -/
def dueAct (f : State → State) (s : State) : Out :=
  if s.deviceReset then .next s else .next (placeStartCheck (f s))

end Sys2Proof.Machine
end

