-- ==== Sys2Proof/Machine/ParallelBus.lean ====
section
/-! DEFINITION. The bus of a parallel port (10): PARALLEL_CYCLE_START, STROBE_RELEASE, PORT_RESET, PORT_RESET_RELEASE. -/

namespace Sys2Proof.Machine

/-! ### Pins -/

/-- The strobe of a parallel port stands at a level. -/
def setStrobe (p : ParPort) (held : Bool) (s : State) : State := s.setPar p { s.parUnit p with strobeHeld := held }

/-- The port reset input of a parallel port stands at a level. -/
def setResetPin (p : ParPort) (held : Bool) (s : State) : State := s.setPar p { s.parUnit p with resetHeld := held }

/-! ### Cycles (R155) -/

/-- A control page cycle: the port unit answers it within its own event, and the state is CONTROL (R155). -/
def controlCycle (p : ParPort) (acc : BusAccess) (offset : Nat) (s : State) : State :=
  let u := s.parUnit p
  match acc with
  | .read =>
    let w := s.controlWord p.toPort offset
    controlReadAct p.toPort offset ((s.setPar p { u with cycleState := .control, answer := some w }).setDataOut p.toPort w)
  | .write v => controlWriteAct p.toPort offset v (s.setPar p { u with cycleState := .control })

/-- A cycle that no enabled window contains (R144). -/
def unmappedCycle (p : ParPort) (acc : BusAccess) (addr : BitVec 12) (s : State) : State :=
  answerFill p acc (post p.toPort .unmappedAccess none none (word addr.toNat) s)

/-- A window cycle: recorded, and placed as the port's data request (R155); answered at once, with no record, while a withdrawal of the
port waits for its grant (R162). -/
def windowCycle (p : ParPort) (acc : BusAccess) (w : Fin 8) (offset : Nat) (s : State) : State :=
  let s1 := s.setPar p { s.parUnit p with cycleState := .requested, cycle := some ⟨w, acc, offset⟩ }
  if s.withdrawalPending p.toPort then answerFill p acc s1
  else s1.setDataReq p.toPort (some (.access w acc offset))

/-- A cycle begins: the address is decoded against the window table as it stands (R143, R155). -/
def startCycle (p : ParPort) (acc : BusAccess) (addr : BitVec 12) (s : State) : State :=
  match decodeAddress (s.port p.toPort) addr with
  | .control offset => controlCycle p acc offset s
  | .unmapped => unmappedCycle p acc addr s
  | .window w offset => windowCycle p acc w offset s

/-- The port takes a new cycle: its strobe was released before, no cycle is in progress, its reset input is not held (R155, R163). -/
def ParallelUnit.takesCycle (u : ParallelUnit) : Bool := !u.strobeHeld && !u.resetHeld && u.cycleState == .idle

/-- PARALLEL_CYCLE_START (R155, R144, R162, R163). -/
def execParallelCycleStart (p : ParPort) (acc : BusAccess) (addr : BitVec 12) (s : State) : Out :=
  pinAct (setStrobe p true)
    (fun s =>
      if (s.parUnit p).takesCycle then startCycle p acc addr (setStrobe p true s) else setStrobe p true s) s

/-- The window number of the cycle in progress. -/
def ParallelUnit.cycleWindow (u : ParallelUnit) : Fin 8 :=
  match u.cycle with
  | some x => x.window
  | none => 0

/-- A waiting access is withdrawn by its host (R161). -/
def abandonWaiting (p : ParPort) (s : State) : State :=
  match s.waitingAt p with
  | some x =>
    post p.toPort .cycleAbandoned (some (s.att x.handle.index).ring) (some x.handle) (word x.window.val) (s.setWaiting p none)
  | none => s

/-- The strobe or select of a parallel port is released (R155, R161). -/
def releaseStrobe (p : ParPort) (s : State) : State :=
  let u := s.parUnit p
  let s1 := s.setPar p { u.cycleEnded with strobeHeld := false }
  match u.cycleState with
  | .idle => setStrobe p false s
  | .control => s1
  | .answered => s1
  | .requested => post p.toPort .cycleAbandoned none none (word u.cycleWindow.val) (s1.setDataReq p.toPort none)
  | .waiting => abandonWaiting p s1

/-- STROBE_RELEASE (R155, R161). -/
def execStrobeRelease (p : ParPort) (s : State) : Out := pinAct (setStrobe p false) (releaseStrobe p) s

/-! ### The port reset input (R163) -/

/-- PORT_RESET: an assertion of the input is a cause of withdrawal (R80, R81, R162, R163). -/
def execPortReset (p : ParPort) (s : State) : Out :=
  pinAct (setResetPin p true)
    (fun s =>
      if (s.parUnit p).resetHeld then s else ariseWithdrawal p.toPort false true (setResetPin p true s)) s

/-- PORT_RESET_RELEASE: causes no withdrawal and changes no state of the port (R163). -/
def execPortResetRelease (p : ParPort) (s : State) : Out := pinAct (setResetPin p false) (setResetPin p false) s

end Sys2Proof.Machine
end

