-- ==== Sys2Proof/Machine/ControlWords.lean ====
section
/-! DEFINITION. The accesses of control words as commands of their own (assumption 4): TIMEBASE_LOW_READ, EVENT_ACKNOWLEDGE,
CONTROL_WORD_WRITE, COMMAND_SUBMIT, WITHDRAW. Such a command is one whole access of the port's control page; the same access made
through PARALLEL_CYCLE_START or within a serial control frame has its effect there. -/

namespace Sys2Proof.Machine

/-- A header op that moves data through a window. -/
def SerialOp.isData (op : SerialOp) : Bool := (opKind op).isSome

/-- The host of a port can make an access of the control page now: on a parallel port no cycle is in progress, the strobe is not held and
the reset input is not held (R154, R155, R163); on a serial port no data frame is in progress (R170), nor one that a withdrawal has
made inert (R177). -/
def State.controlOpen (s : State) (p : Port) : Bool :=
  match p.split with
  | .inl q => (s.parUnit q).takesCycle
  | .inr q =>
    !(s.serUnit q).withdrawn &&
      match (s.serUnit q).op with
      | none => true
      | some op => !op.isData

/-- The earlier data request of a serial port is granted before its next frame (R67); a parallel port has none with no cycle. -/
def serveBefore (p : Port) (s : State) : State :=
  match p.split with
  | .inl _ => s
  | .inr q => serve q s

/-- An access of a port's control page, where its host can make one. -/
def controlAccess (p : Port) (f : State → State) (s : State) : State :=
  if (serveBefore p s).controlOpen p then f (serveBefore p s) else serveBefore p s

/-- TIMEBASE_LOW_READ (R134): the low word is returned, and the high word latched. -/
def execTimebaseLowRead (p : Port) (s : State) : Out :=
  act (controlAccess p (fun s => latchHigh p (s.setDataOut p s.stampNow))) s

/-- EVENT_ACKNOWLEDGE (R185): any value written is an acknowledge. -/
def execEventAcknowledge (p : Port) (_value : Word) (s : State) : Out := act (controlAccess p (acknowledge p)) s

/-- CONTROL_WORD_WRITE (R87, R141, R142, R164, R182, R188). -/
def execControlWordWrite (p : Port) (offset : BitVec 8) (value : Word) (s : State) : Out :=
  act (controlAccess p (controlWriteAct p offset.toNat value)) s

/-- COMMAND_SUBMIT (R88, R89). -/
def execCommandSubmit (p : Port) (command : Word) (s : State) : Out := act (controlAccess p (submit p command)) s

/-- WITHDRAW (R80, R88, R94): the submit of the WITHDRAW code. -/
def execWithdraw (p : Port) (s : State) : Out := act (controlAccess p (submit p codeWithdraw)) s

end Sys2Proof.Machine
end

