-- ==== Sys2Proof/Machine/WindowGrants.lean ====
section
/-! DEFINITION. The grants of the data requesters, one command for each thing a data request can be (R64): SERIAL_WINDOW_CHECK, PUSH,
POP, PAGE_WINDOW_READ, PAGE_WINDOW_WRITE; and WAITING_ACCESS_ANSWER. A grant is made only to the requester that the rotation reaches
next (R65); otherwise nothing changes (assumption 1). -/

namespace Sys2Proof.Machine

/-- The grant of a requester whose pending request is of a certain sort, when it is the one that the rotation reaches next. -/
def grantWhen (q : Requester) (sort : State → Bool) (s : State) : State :=
  if s.nextGrant = some q ∧ sort s = true then grantRequest q s else s

/-- An access is a write. -/
def storesWord : BusAccess → Bool
  | .read => false
  | .write _ => true

/-- The pending data request of a port is an access of a kind and direction. -/
def accessPending (p : Port) (kind : WindowKind) (isWrite : Bool) (s : State) : Bool :=
  match (s.port p).dataReq with
  | none => false
  | some .check => false
  | some (.access w acc _) => s.requestKind p w == some kind && storesWord acc == isWrite

/-- The pending data request of a port is a header's window check. -/
def checkPending (p : Port) (s : State) : Bool := (s.port p).dataReq == some .check

/-- SERIAL_WINDOW_CHECK (R170). -/
def execSerialWindowCheck (p : SerPort) (s : State) : Out := act (grantWhen (.data p.toPort) (checkPending p.toPort)) s

/-- PUSH (R28 to R31, R148, R151, R156, R173). -/
def execPush (p : Port) (s : State) : Out := act (grantWhen (.data p) (accessPending p .stream true)) s

/-- POP (R32, R33, R47 to R49, R148, R151, R156, R171). -/
def execPop (p : Port) (s : State) : Out := act (grantWhen (.data p) (accessPending p .stream false)) s

/-- PAGE_WINDOW_READ (R149, R156, R174). -/
def execPageWindowRead (p : Port) (s : State) : Out := act (grantWhen (.data p) (accessPending p .page false)) s

/-- PAGE_WINDOW_WRITE (R150, R156, R174). -/
def execPageWindowWrite (p : Port) (s : State) : Out := act (grantWhen (.data p) (accessPending p .page true)) s

/-- A re-examination that begins with a port's waiting access (R158). -/
def answerWaiting (p : ParPort) (s : State) : State :=
  match s.waitingAt p with
  | some x => reexamine (s.att x.handle.index).ring (examineWaiting (s.att x.handle.index).ring p s)
  | none => s

/-- WAITING_ACCESS_ANSWER (R158). Every act that can satisfy a waiting access re-examines it within itself, so this command finds
something to take only in a state that no act leaves (assumption 11). -/
def execWaitingAccessAnswer (p : ParPort) (s : State) : Out := act (answerWaiting p) s

end Sys2Proof.Machine
end

