-- ==== Sys2Proof/Machine/EngineGrants.lean ====
section
/-! DEFINITION. The grants of the move engine (07, R70): START_CHECK, MOVE_FRAME_POP, MOVE_FRAME_PUSH, DEFERRED_UNLOAD. -/

namespace Sys2Proof.Machine

/-- The move engine's pending request is of a sort. -/
def movePending (q : MoveRequest) (s : State) : Bool := s.moveReq == some q

/-- START_CHECK (R126). -/
def execStartCheck (s : State) : Out := act (grantWhen .move (movePending .startCheck)) s

/-- MOVE_FRAME_POP (R127, R128). -/
def execMoveFramePop (s : State) : Out := act (grantWhen .move (movePending .framePop)) s

/-- MOVE_FRAME_PUSH (R127, R128). -/
def execMoveFramePush (s : State) : Out := act (grantWhen .move (movePending .framePush)) s

/-- DEFERRED_UNLOAD (R132). -/
def execDeferredUnload (s : State) : Out := act (grantWhen .move (movePending .unload)) s

end Sys2Proof.Machine
end

