-- ==== Sys2Proof/Machine/RingCommands.lean ====
section
/-! DEFINITION. The grants of the command requesters that hold a ring or attachment command (06), a word that is no command code, or
a withdrawal: BAD_COMMAND, CREATE_RING, ATTACH, DETACH, RENEW, SET_THRESHOLD, QUERY_RING, QUERY_ATTACH, WITHDRAWAL. -/

namespace Sys2Proof.Machine

/-- A command with a code waits at a port's command requester. -/
def commandPending (p : Port) (code : Word) (s : State) : Bool := (s.port p).cmd.inFlight == .command code

/-- A word that is no command code waits at a port's command requester (R90, step 1). -/
def badCommandPending (p : Port) (s : State) : Bool :=
  match (s.port p).cmd.inFlight with
  | .nothing => false
  | .command w => !commandCodes.contains w
  | .withdrawal _ => false

/-- BAD_COMMAND (R90, R91). -/
def execBadCommand (p : Port) (s : State) : Out := act (grantWhen (.command p) (badCommandPending p)) s

/-- CREATE_RING (R97 to R99). -/
def execCreateRing (p : Port) (s : State) : Out := act (grantWhen (.command p) (commandPending p codeCreateRing)) s

/-- ATTACH (R100 to R103). -/
def execAttach (p : Port) (s : State) : Out := act (grantWhen (.command p) (commandPending p codeAttach)) s

/-- DETACH (R104, R105). -/
def execDetach (p : Port) (s : State) : Out := act (grantWhen (.command p) (commandPending p codeDetach)) s

/-- RENEW (R75, R106). -/
def execRenew (p : Port) (s : State) : Out := act (grantWhen (.command p) (commandPending p codeRenew)) s

/-- SET_THRESHOLD (R107). -/
def execSetThreshold (p : Port) (s : State) : Out := act (grantWhen (.command p) (commandPending p codeSetThreshold)) s

/-- QUERY_RING (R108). -/
def execQueryRing (p : Port) (s : State) : Out := act (grantWhen (.command p) (commandPending p codeQueryRing)) s

/-- QUERY_ATTACH (R109). -/
def execQueryAttach (p : Port) (s : State) : Out := act (grantWhen (.command p) (commandPending p codeQueryAttach)) s

/-- WITHDRAWAL (R82 to R85, R95). -/
def execWithdrawal (p : Port) (s : State) : Out := act (grantWhen (.command p) (fun s => s.withdrawalPending p)) s

end Sys2Proof.Machine
end

