-- ==== Sys2Proof/Machine/MoveCommands.lean ====
section
/-! DEFINITION. The grants of the command requesters that hold a move or pacer command (07, 08): LOAD_MOVE, START_MOVE, FIRE_MOVE,
STOP_MOVE, UNLOAD_MOVE, SET_PACER. -/

namespace Sys2Proof.Machine

/-- LOAD_MOVE (R117 to R119). -/
def execLoadMove (p : Port) (s : State) : Out := act (grantWhen (.command p) (commandPending p codeLoadMove)) s

/-- START_MOVE (R117, R120). -/
def execStartMove (p : Port) (s : State) : Out := act (grantWhen (.command p) (commandPending p codeStartMove)) s

/-- FIRE_MOVE (R117, R122). -/
def execFireMove (p : Port) (s : State) : Out := act (grantWhen (.command p) (commandPending p codeFireMove)) s

/-- STOP_MOVE (R117, R123). -/
def execStopMove (p : Port) (s : State) : Out := act (grantWhen (.command p) (commandPending p codeStopMove)) s

/-- UNLOAD_MOVE (R117, R124). -/
def execUnloadMove (p : Port) (s : State) : Out := act (grantWhen (.command p) (commandPending p codeUnloadMove)) s

/-- SET_PACER (R137). -/
def execSetPacer (p : Port) (s : State) : Out := act (grantWhen (.command p) (commandPending p codeSetPacer)) s

end Sys2Proof.Machine
end

