-- ==== Sys2Proof/Machine/ResetTime.lean ====
section
/-! DEFINITION. The commands of device reset and of time: DEVICE_RESET, DEVICE_RESET_RELEASE, TIMEBASE_ADVANCE, LEASE_TICK,
LEASE_EXPIRY, PACER_EXPIRY, STALL_TIMEOUT. -/

namespace Sys2Proof.Machine

/-- A parallel port unit at device reset: its reset values; the levels of its input pins are the board's. -/
def ParallelUnit.atDeviceReset (u : ParallelUnit) : ParallelUnit :=
  { ParallelUnit.cleared with strobeHeld := u.strobeHeld, resetHeld := u.resetHeld }

/-- A serial port unit at device reset: its reset values; the level of select is the host's. -/
def SerialUnit.atDeviceReset (u : SerialUnit) : SerialUnit := { SerialUnit.cleared with selectHeld := u.selectHeld }

/-- The part at the assertion of device reset: every field at its reset value, the input held. -/
def resetAll (s : State) : State :=
  { State.reset with
    pending := s.pending
    par := ⟨s.par.fst.atDeviceReset, s.par.snd.atDeviceReset⟩
    ser := ⟨s.ser.fst.atDeviceReset, s.ser.snd.atDeviceReset⟩
    deviceReset := true }

/-- DEVICE_RESET (R18, R44, R57, R65, R133, R154, R166). -/
def execDeviceReset (s : State) : Out := .next (resetAll s)

/-- DEVICE_RESET_RELEASE (R133, R179): the part runs again, and nothing else changes. -/
def execDeviceResetRelease (s : State) : Out := .next (s.setDeviceReset false)

/-- TIMEBASE_ADVANCE (R133, R135, R138, R159). -/
def execTimebaseAdvance (s : State) : Out := act advanceTime s

/-- LEASE_TICK (R72, R73, R135): the tick that has fallen is taken, after any expiry still due. -/
def execLeaseTick (s : State) : Out := dueAct (fun s => if s.tickDue then takeTick (settleExpiries s) else s) s

/-- LEASE_EXPIRY (R77): the lowest attachment whose lease has run out. -/
def execLeaseExpiry (s : State) : Out :=
  dueAct (fun s =>
    match s.dueExpiry with
    | some i => expireLease i s
    | none => s) s

/-- PACER_EXPIRY (R138): taken when the pacer's count has run out, after any lease expiry still due. -/
def execPacerExpiry (n : Fin 4) (s : State) : Out :=
  dueAct (fun s => if s.pacerDue n then expirePacer n (settleExpiries s) else s) s

/-- STALL_TIMEOUT (R159): taken when the stall timer of the waiting access has reached 0, after any lease expiry still due; an expiry
may itself end the access (R160). -/
def execStallTimeout (p : ParPort) (s : State) : Out :=
  dueAct (fun s => settleStall p (if s.stallDue p then settleExpiries s else s)) s

end Sys2Proof.Machine
end

