-- ==== Sys2Proof/Machine/SerialFrames.lean ====
section
/-! DEFINITION. The frames of a serial port (11): SERIAL_FRAME_START, the eight headers, SERIAL_ADDRESS_WORD, SERIAL_DATA_WORD,
BEYOND_COUNT_WORD, SERIAL_FRAME_END. A word of a frame finds the port's earlier request granted (R67), so each word first lets the
arbiter serve it. -/

namespace Sys2Proof.Machine

/-! ### The frame's start (R167) -/

/-- The select of a serial port stands at a level. -/
def setSelect (p : SerPort) (held : Bool) (s : State) : State := s.setSer p { s.serUnit p with selectHeld := held }

/-- A frame begins: the status word, as it stands, is shifted out with the header (R167). -/
def beginFrame (p : SerPort) (s : State) : State :=
  let u := s.serUnit p
  if u.phase = .idle then
    (s.setSer p { u with phase := .header, selectHeld := true }).setDataOut p.toPort (statusWordBits u.status)
  else setSelect p true s

/-- SERIAL_FRAME_START (R167, R179): only an assertion of select that follows a release. -/
def execSerialFrameStart (p : SerPort) (s : State) : Out :=
  pinAct (setSelect p true) (fun s => if (s.serUnit p).selectHeld then s else beginFrame p (serve p s)) s

/-! ### The header (R167, R168, R170, R177) -/

/-- The phase that follows the header of an op (R168). -/
def SerialOp.phaseAfterHeader : SerialOp → FramePhase
  | .statusOnly => .data
  | .streamRead => .data
  | .streamWrite => .data
  | .pageRead => .address
  | .pageWrite => .address
  | .controlRead => .address
  | .controlWrite => .address
  | .withdraw => .data

/-- The header is recorded (R167): op, window, count, and a fresh frame. -/
def SerialUnit.withHeader (u : SerialUnit) (op : SerialOp) (w : Fin 8) (count : Nat) : SerialUnit :=
  { u with
    phase := op.phaseAfterHeader
    op := some op
    window := w
    count := count
    wordIndex := 0
    inert := false
    condition := .ok
    completed := 0
    wordNow := .none }

/-- A header takes effect in the HEADER phase of a frame that no withdrawal has made inert (R167, R177). -/
def SerialUnit.takesHeader (u : SerialUnit) : Bool := u.phase == .header && !u.withdrawn

/-- The count of an op's frame: STATUS_ONLY and WITHDRAW ignore the field and treat it as 0 (R168). -/
def SerialOp.countOf (op : SerialOp) (count : BitVec 10) : Nat :=
  match op with
  | .statusOnly => 0
  | .withdraw => 0
  | .streamRead => count.toNat
  | .streamWrite => count.toNat
  | .pageRead => count.toNat
  | .pageWrite => count.toNat
  | .controlRead => count.toNat
  | .controlWrite => count.toNat

/-- The window check of a stream or page frame is placed (R170); while a withdrawal waits for its grant there is none, and the frame is
inert with condition NO_WINDOW (R177). -/
def placeCheck (p : SerPort) (s : State) : State :=
  if s.withdrawalPending p.toPort then s.setSer p ((s.serUnit p).failed .noWindow)
  else s.setDataReq p.toPort (some .check)

/-- What a header calls for once it is recorded: the window check of a stream or page op, the withdrawal that op WITHDRAW causes, or
nothing (R168, R170, R177). -/
def headerCalls (p : SerPort) (op : SerialOp) (s : State) : State :=
  match op with
  | .statusOnly => s
  | .streamRead => placeCheck p s
  | .streamWrite => placeCheck p s
  | .pageRead => placeCheck p s
  | .pageWrite => placeCheck p s
  | .controlRead => s
  | .controlWrite => s
  | .withdraw => ariseWithdrawal p.toPort false false s

/-- The sixteenth bit of a header word: the port unit decodes its op, window number and count, records them, and does what the op
calls for (R167, R191). -/
def takeHeader (p : SerPort) (header : Word) (s : State) : State :=
  let (op, w, count) := decodeHeader header
  if (s.serUnit p).takesHeader then headerCalls p op (s.setSer p ((s.serUnit p).withHeader op w (op.countOf count))) else s

/-- Bits clocked in while select is not asserted are ignored (R167). -/
def clocked (p : SerPort) (f : State → State) (s : State) : State := if (s.serUnit p).selectHeld then f s else s

/-- The host clocks in the header word of an op, a window number and a count (R191). -/
def clockHeader (p : SerPort) (op : SerialOp) (w : Fin 8) (count : BitVec 10) (s : State) : State :=
  clocked p (takeHeader p (headerWord op w count)) s

/-- STATUS_ONLY (R168, R191). -/
def execStatusOnly (p : SerPort) (w : Fin 8) (count : BitVec 10) (s : State) : Out := act (clockHeader p .statusOnly w count) s

/-- STREAM_READ (R168, R170, R191). -/
def execStreamRead (p : SerPort) (w : Fin 8) (count : BitVec 10) (s : State) : Out := act (clockHeader p .streamRead w count) s

/-- STREAM_WRITE (R168, R170, R191). -/
def execStreamWrite (p : SerPort) (w : Fin 8) (count : BitVec 10) (s : State) : Out := act (clockHeader p .streamWrite w count) s

/-- PAGE_READ (R168, R170, R191). -/
def execPageRead (p : SerPort) (w : Fin 8) (count : BitVec 10) (s : State) : Out := act (clockHeader p .pageRead w count) s

/-- PAGE_WRITE (R168, R170, R191). -/
def execPageWrite (p : SerPort) (w : Fin 8) (count : BitVec 10) (s : State) : Out := act (clockHeader p .pageWrite w count) s

/-- CONTROL_READ (R168, R176, R191). -/
def execControlRead (p : SerPort) (w : Fin 8) (count : BitVec 10) (s : State) : Out := act (clockHeader p .controlRead w count) s

/-- CONTROL_WRITE (R168, R176, R191). -/
def execControlWrite (p : SerPort) (w : Fin 8) (count : BitVec 10) (s : State) : Out := act (clockHeader p .controlWrite w count) s

/-- WITHDRAW_FRAME (R168, R177, R191): a header whose three op bits are all set. -/
def execWithdrawFrame (p : SerPort) (w : Fin 8) (count : BitVec 10) (s : State) : Out := act (clockHeader p .withdraw w count) s

/-! ### The address word (R167) -/

/-- The sixteenth bit of the address word; 0x0000 is shifted out with it. In a frame that a withdrawal has made inert it is one more word
that shifts 0x0000 and has no effect, whatever phase the frame keeps (R177). -/
def takeAddress (p : SerPort) (address : Word) (s : State) : State :=
  let u := s.serUnit p
  if u.phase ≠ .idle ∧ u.withdrawn = true then s.setDataOut p.toPort 0
  else if u.phase = .address then (s.setSer p { u with phase := .data, address := address }).setDataOut p.toPort 0
  else s

/-- SERIAL_ADDRESS_WORD (R167, R174, R176). -/
def execSerialAddressWord (p : SerPort) (address : Word) (s : State) : Out := act (clocked p (takeAddress p address)) s

/-! ### Data words (R171, R173 to R176) -/

/-- A word beyond the count (R175): 0x0000 is shifted out and OVERCOUNT is met. -/
def beyondWord (p : SerPort) (s : State) : State :=
  let u := s.serUnit p
  (s.setSer p { u.meet .overcount with wordIndex := u.count + 1 }).setDataOut p.toPort 0

/-- A read word of a stream or page frame at its first bit: its request is placed, or, in an inert frame, the fill word is shifted
(R171, R174, R175). -/
def beginRead (p : SerPort) (offset : Nat) (s : State) : State :=
  let u := s.serUnit p
  let s1 := s.setSer p { u with wordIndex := u.wordIndex + 1, wordNow := .noData }
  if u.inert || s.withdrawalPending p.toPort then s1.setDataOut p.toPort (s.port p.toPort).fillWord
  else s1.setDataReq p.toPort (some (.access u.window .read offset))

/-- A read word of a control frame at its first bit (R176). -/
def beginControlRead (p : SerPort) (s : State) : State :=
  let u := s.serUnit p
  let offset := u.address.toNat + u.wordIndex
  controlReadAct p.toPort offset
    ((s.setSer p { u with wordIndex := u.wordIndex + 1, wordNow := .data }).setDataOut p.toPort
      (s.controlWord p.toPort offset))

/-- A write word at its first bit: 0x0000 is shifted out (R173, R174, R175). -/
def beginWrite (p : SerPort) (s : State) : State :=
  let u := s.serUnit p
  (s.setSer p { u with wordIndex := u.wordIndex + 1, wordNow := .noData }).setDataOut p.toPort 0

/-- A data word up to the count is begun, by the frame's op. -/
def beginCounted (p : SerPort) (s : State) : State :=
  let u := s.serUnit p
  match u.op with
  | none => s
  | some .statusOnly => s
  | some .withdraw => s
  | some .streamRead => beginRead p 0 s
  | some .pageRead => beginRead p (u.address.toNat + u.wordIndex) s
  | some .controlRead => beginControlRead p s
  | some .streamWrite => beginWrite p s
  | some .pageWrite => beginWrite p s
  | some .controlWrite => beginWrite p s

/-- The first bit of a data word. -/
def beginWord (p : SerPort) (s : State) : State :=
  let u := s.serUnit p
  if u.phase ≠ .idle ∧ u.withdrawn = true then s.setDataOut p.toPort 0
  else if u.phase = .data ∧ u.wordNow = .none then
    if u.count ≤ u.wordIndex then beyondWord p s else beginCounted p s
  else s

/-- A read word is whole: it is completed when its access was answered with data (R169, R171, R174, R176). -/
def completeRead (p : SerPort) (s : State) : State :=
  let u := s.serUnit p
  s.setSer p
    { u with wordNow := .none, completed := if u.wordNow = .data then u.completed + 1 else u.completed }

/-- A write word of a stream or page frame is whole: its request is placed, or, in an inert frame, it is discarded (R173, R174). -/
def completeWrite (p : SerPort) (w : Word) (offset : Nat) (s : State) : State :=
  let u := s.serUnit p
  let s1 := s.setSer p { u with wordNow := .none }
  if u.inert || s.withdrawalPending p.toPort then s1
  else s1.setDataReq p.toPort (some (.access u.window (.write w) offset))

/-- A write word of a control frame is whole (R176). -/
def completeControlWrite (p : SerPort) (w : Word) (s : State) : State :=
  let u := s.serUnit p
  controlWriteAct p.toPort (u.address.toNat + (u.wordIndex - 1)) w
    (s.setSer p { u with wordNow := .none, completed := u.completed + 1 })

/-- The sixteenth bit of a data word that was begun within the count. -/
def completeCounted (p : SerPort) (w : Word) (s : State) : State :=
  let u := s.serUnit p
  match u.op with
  | none => s
  | some .statusOnly => s
  | some .withdraw => s
  | some .streamRead => completeRead p s
  | some .pageRead => completeRead p s
  | some .controlRead => completeRead p s
  | some .streamWrite => completeWrite p w 0 s
  | some .pageWrite => completeWrite p w (u.address.toNat + (u.wordIndex - 1)) s
  | some .controlWrite => completeControlWrite p w s

/-- The sixteenth bit of a data word; nothing follows from it for a word beyond the count or in a withdrawn frame. -/
def completeWord (p : SerPort) (w : Word) (s : State) : State :=
  let u := s.serUnit p
  if u.phase = .data ∧ u.withdrawn = false ∧ u.wordNow ≠ .none then completeCounted p w s else s

/-- A moment of a data word. -/
def dataWord (p : SerPort) (moment : DataBit) (s : State) : State :=
  match moment with
  | .first => beginWord p s
  | .last w => completeWord p w s

/-- SERIAL_DATA_WORD (R171, R173 to R176). -/
def execSerialDataWord (p : SerPort) (moment : DataBit) (s : State) : Out :=
  act (fun s => clocked p (dataWord p moment) (serve p s)) s

/-- A data word of a frame whose count is used up is begun; in a withdrawn frame it shifts 0x0000 and meets nothing (R175, R177). -/
def beginBeyond (p : SerPort) (s : State) : State :=
  let u := s.serUnit p
  if u.phase ≠ .idle ∧ u.withdrawn = true then s.setDataOut p.toPort 0
  else if u.phase = .data ∧ u.wordNow = .none ∧ u.count ≤ u.wordIndex then beyondWord p s
  else s

/-- BEYOND_COUNT_WORD (R175). -/
def execBeyondCountWord (p : SerPort) (s : State) : Out := act (fun s => clocked p (beginBeyond p) (serve p s)) s

/-! ### The frame's end (R167, R172) -/

/-- Select is released: the frame ends now, or, with a data request pending, at that request's grant (R167). -/
def releaseSelect (p : SerPort) (s : State) : State :=
  let s1 := setSelect p false s
  if (s1.port p.toPort).dataReq.isSome then s1 else endIfReleased p s1

/-- SERIAL_FRAME_END (R167, R172). -/
def execSerialFrameEnd (p : SerPort) (s : State) : Out := pinAct (setSelect p false) (releaseSelect p) s

end Sys2Proof.Machine
end

