-- ==== Sys2Proof/Machine/Dispatch.lean ====
section
/-! DEFINITION. One arm for each command of the table. -/

namespace Sys2Proof.Machine

def exec (i : Instr) (s : State) : Host.Outcome State Fault Refusal :=
  match i with
  | .deviceReset => Sys2Proof.Machine.execDeviceReset s
  | .timebaseAdvance => Sys2Proof.Machine.execTimebaseAdvance s
  | .leaseTick => Sys2Proof.Machine.execLeaseTick s
  | .leaseExpiry => Sys2Proof.Machine.execLeaseExpiry s
  | .pacerExpiry n => Sys2Proof.Machine.execPacerExpiry n s
  | .stallTimeout p => Sys2Proof.Machine.execStallTimeout p s
  | .parallelCycleStart p access addr => Sys2Proof.Machine.execParallelCycleStart p access addr s
  | .strobeRelease p => Sys2Proof.Machine.execStrobeRelease p s
  | .portReset p => Sys2Proof.Machine.execPortReset p s
  | .withdrawal p => Sys2Proof.Machine.execWithdrawal p s
  | .serialFrameStart p => Sys2Proof.Machine.execSerialFrameStart p s
  | .statusOnly p window count => Sys2Proof.Machine.execStatusOnly p window count s
  | .streamRead p window count => Sys2Proof.Machine.execStreamRead p window count s
  | .streamWrite p window count => Sys2Proof.Machine.execStreamWrite p window count s
  | .pageRead p window count => Sys2Proof.Machine.execPageRead p window count s
  | .pageWrite p window count => Sys2Proof.Machine.execPageWrite p window count s
  | .controlRead p window count => Sys2Proof.Machine.execControlRead p window count s
  | .controlWrite p window count => Sys2Proof.Machine.execControlWrite p window count s
  | .withdrawFrame p window count => Sys2Proof.Machine.execWithdrawFrame p window count s
  | .serialWindowCheck p => Sys2Proof.Machine.execSerialWindowCheck p s
  | .beyondCountWord p => Sys2Proof.Machine.execBeyondCountWord p s
  | .serialFrameEnd p => Sys2Proof.Machine.execSerialFrameEnd p s
  | .push p => Sys2Proof.Machine.execPush p s
  | .pop p => Sys2Proof.Machine.execPop p s
  | .pageWindowRead p => Sys2Proof.Machine.execPageWindowRead p s
  | .pageWindowWrite p => Sys2Proof.Machine.execPageWindowWrite p s
  | .waitingAccessAnswer p => Sys2Proof.Machine.execWaitingAccessAnswer p s
  | .timebaseLowRead p => Sys2Proof.Machine.execTimebaseLowRead p s
  | .eventAcknowledge p value => Sys2Proof.Machine.execEventAcknowledge p value s
  | .controlWordWrite p offset value => Sys2Proof.Machine.execControlWordWrite p offset value s
  | .commandSubmit p command => Sys2Proof.Machine.execCommandSubmit p command s
  | .badCommand p => Sys2Proof.Machine.execBadCommand p s
  | .createRing p => Sys2Proof.Machine.execCreateRing p s
  | .attach p => Sys2Proof.Machine.execAttach p s
  | .detach p => Sys2Proof.Machine.execDetach p s
  | .renew p => Sys2Proof.Machine.execRenew p s
  | .setThreshold p => Sys2Proof.Machine.execSetThreshold p s
  | .queryRing p => Sys2Proof.Machine.execQueryRing p s
  | .queryAttach p => Sys2Proof.Machine.execQueryAttach p s
  | .withdraw p => Sys2Proof.Machine.execWithdraw p s
  | .loadMove p => Sys2Proof.Machine.execLoadMove p s
  | .startMove p => Sys2Proof.Machine.execStartMove p s
  | .fireMove p => Sys2Proof.Machine.execFireMove p s
  | .stopMove p => Sys2Proof.Machine.execStopMove p s
  | .unloadMove p => Sys2Proof.Machine.execUnloadMove p s
  | .setPacer p => Sys2Proof.Machine.execSetPacer p s
  | .startCheck => Sys2Proof.Machine.execStartCheck s
  | .moveFramePop => Sys2Proof.Machine.execMoveFramePop s
  | .moveFramePush => Sys2Proof.Machine.execMoveFramePush s
  | .deferredUnload => Sys2Proof.Machine.execDeferredUnload s
  | .serialAddressWord p address => Sys2Proof.Machine.execSerialAddressWord p address s
  | .serialDataWord p bit => Sys2Proof.Machine.execSerialDataWord p bit s
  | .portResetRelease p => Sys2Proof.Machine.execPortResetRelease p s
  | .deviceResetRelease => Sys2Proof.Machine.execDeviceResetRelease s

end Sys2Proof.Machine
end

