-- ==== Sys2Proof/Safety.lean ====
section
/-! DEFINITION. What a safe state is, and the words the statements are written in: when the part runs with nothing due, when a
request is the next grant, which commands store nothing, the bounds of what a port unit holds, and when the tables agree. -/

namespace Sys2Proof

namespace Machine

/-! ### Premises on the state -/

/-- The part runs (device reset is released) and no event of its own is due. -/
abbrev State.calm (s : State) : Prop := s.deviceReset = false ∧ s.quiet = true

/-- A command word waits at a port's command requester, and the rotation reaches that requester next. -/
abbrev State.commandGranted (s : State) (p : Port) (code : Word) : Prop :=
  s.calm ∧ s.nextGrant = some (.command p) ∧ (s.port p).cmd.inFlight = .command code

/-- A window access waits at a port's data requester, and the rotation reaches that requester next. -/
abbrev State.accessGranted (s : State) (p : Port) (w : Fin 8) (acc : BusAccess) (offset : Nat) : Prop :=
  s.calm ∧ s.nextGrant = some (.data p) ∧ (s.port p).dataReq = some (.access w acc offset)

/-- A request of the move engine waits, and the rotation reaches the engine next. -/
abbrev State.moveGranted (s : State) (q : MoveRequest) : Prop := s.calm ∧ s.nextGrant = some .move ∧ s.moveReq = some q

/-- The state in which a granted data request is carried out: the pointer names its requester, whose slot is empty (R65, R66). -/
def State.dataTaken (s : State) (p : Port) : State := (s.setArb (.data p)).setDataReq p none

/-- The state in which a granted command is carried out: the pointer names its requester (R65). -/
def State.commandTaken (s : State) (p : Port) : State := s.setArb (.command p)

/-- A window is enabled, of a kind, and bound to an attachment that is current and held by the port (R146, checks 1 to 3). -/
abbrev State.bound (s : State) (p : Port) (w : Fin 8) (kind : WindowKind) (i : Fin 32) : Prop :=
  (s.window p w).enabled = true ∧ (s.window p w).kind = kind ∧ s.currentIndex (s.window p w).handleWord = some i ∧
    (s.att i).holder = .port p

end Machine

/-! ### Which commands do what -/

/-- The commands whose own act never stores a word, whatever they find: all but the grants of a push or page write, device reset, and
the words of a serial port, before which other grants may be made (R67). -/
def Instr.storesNothing : Instr → Bool
  | .push _ => false
  | .pageWindowWrite _ => false
  | .moveFramePush => false
  | .deviceReset => false
  | .serialFrameStart _ => false
  | .serialDataWord _ _ => false
  | .beyondCountWord _ => false
  | .timebaseLowRead p => p == .a || p == .b
  | .eventAcknowledge p _ => p == .a || p == .b
  | .controlWordWrite p _ _ => p == .a || p == .b
  | .commandSubmit p _ => p == .a || p == .b
  | .withdraw p => p == .a || p == .b
  | .timebaseAdvance => true
  | .leaseTick => true
  | .leaseExpiry => true
  | .pacerExpiry _ => true
  | .stallTimeout _ => true
  | .parallelCycleStart _ _ _ => true
  | .strobeRelease _ => true
  | .portReset _ => true
  | .withdrawal _ => true
  | .statusOnly _ _ _ => true
  | .streamRead _ _ _ => true
  | .streamWrite _ _ _ => true
  | .pageRead _ _ _ => true
  | .pageWrite _ _ _ => true
  | .controlRead _ _ _ => true
  | .controlWrite _ _ _ => true
  | .withdrawFrame _ _ _ => true
  | .serialWindowCheck _ => true
  | .serialFrameEnd _ => true
  | .pop _ => true
  | .pageWindowRead _ => true
  | .waitingAccessAnswer _ => true
  | .badCommand _ => true
  | .createRing _ => true
  | .attach _ => true
  | .detach _ => true
  | .renew _ => true
  | .setThreshold _ => true
  | .queryRing _ => true
  | .queryAttach _ => true
  | .loadMove _ => true
  | .startMove _ => true
  | .fireMove _ => true
  | .stopMove _ => true
  | .unloadMove _ => true
  | .setPacer _ => true
  | .startCheck => true
  | .moveFramePop => true
  | .deferredUnload => true
  | .serialAddressWord _ _ => true
  | .portResetRelease _ => true
  | .deviceResetRelease => true

/-- The port a command names, when it names one. -/
def Instr.portOf : Instr → Option Port
  | .stallTimeout p => some p.toPort
  | .parallelCycleStart p _ _ => some p.toPort
  | .strobeRelease p => some p.toPort
  | .portReset p => some p.toPort
  | .withdrawal p => some p
  | .serialFrameStart p => some p.toPort
  | .statusOnly p _ _ => some p.toPort
  | .streamRead p _ _ => some p.toPort
  | .streamWrite p _ _ => some p.toPort
  | .pageRead p _ _ => some p.toPort
  | .pageWrite p _ _ => some p.toPort
  | .controlRead p _ _ => some p.toPort
  | .controlWrite p _ _ => some p.toPort
  | .withdrawFrame p _ _ => some p.toPort
  | .serialWindowCheck p => some p.toPort
  | .beyondCountWord p => some p.toPort
  | .serialFrameEnd p => some p.toPort
  | .push p => some p
  | .pop p => some p
  | .pageWindowRead p => some p
  | .pageWindowWrite p => some p
  | .waitingAccessAnswer p => some p.toPort
  | .timebaseLowRead p => some p
  | .eventAcknowledge p _ => some p
  | .controlWordWrite p _ _ => some p
  | .commandSubmit p _ => some p
  | .badCommand p => some p
  | .createRing p => some p
  | .attach p => some p
  | .detach p => some p
  | .renew p => some p
  | .setThreshold p => some p
  | .queryRing p => some p
  | .queryAttach p => some p
  | .withdraw p => some p
  | .loadMove p => some p
  | .startMove p => some p
  | .fireMove p => some p
  | .stopMove p => some p
  | .unloadMove p => some p
  | .setPacer p => some p
  | .serialAddressWord p _ => some p.toPort
  | .serialDataWord p _ => some p.toPort
  | .portResetRelease p => some p.toPort
  | .deviceReset => none
  | .deviceResetRelease => none
  | .timebaseAdvance => none
  | .leaseTick => none
  | .leaseExpiry => none
  | .pacerExpiry _ => none
  | .startCheck => none
  | .moveFramePop => none
  | .moveFramePush => none
  | .deferredUnload => none

namespace Machine

/-! ### Bounds -/

/-- A port unit within its bounds: at most 16 records, a lost count of at most 65535 (R183), and no mask bit set that names no kind
(R190). -/
def PortUnit.legal (u : PortUnit) : Bool :=
  decide (u.queue.length ≤ Config.queueDepth) && decide (u.lostCount ≤ 65535) && (u.mask0 &&& 0x0001 == 0) && (u.mask1 &&& 0xFFF8 == 0)

/-- A parallel port unit within its bounds: a stall limit of 1 to 1023, a stall timer of at most 1023 (R154). -/
def ParallelUnit.legal (u : ParallelUnit) : Bool :=
  decide (1 ≤ u.stallLimit) && decide (u.stallLimit ≤ 1023) && decide (u.stallTimer ≤ 1023)

/-- A pacer within its bounds (R136): a period register and a count of at most 65535, the register never 0, the count never 0 while the
pacer is enabled, and 0 while it is disabled. -/
def Pacer.legal (x : Pacer) : Bool :=
  decide (1 ≤ x.period) && decide (x.period ≤ 65535) && decide (x.count ≤ 65535)
    && (if x.enabled then decide (1 ≤ x.count) else x.count == 0 && !x.due)

/-! ### The tables agree -/

/-- A ring record in itself: FREE exactly while it has no attachment, and then at its reset values (R15, R18); a SEALED ring has no
producer (R9); a ring in use has its run of pages within the map (R2, R59); on a CIRCULAR ring valid is at most C, and in use its write
position is below C (R4); on a ONE_PASS ring the write position is valid (R5; that both stay within C rests on the checks of each push and on
the engine's reservation, and is not part of this). -/
abbrev Ring.legal (g : Ring) : Prop :=
  (g.state = .free ↔ g.attachmentCount = 0) ∧ (g.state = .free → g = Ring.freed) ∧ (g.state = .sealed → g.producer = none) ∧
    (g.state ≠ .free → 1 ≤ g.pageCount ∧ g.firstPage.val + g.pageCount ≤ 128) ∧
    (g.mode = .circular → g.valid ≤ g.capacity ∧ (g.state ≠ .free → g.writePos < g.capacity)) ∧
    (g.mode = .onePass → g.writePos = g.valid)

/-- The page map shows each page as its ring's, or free (R59). -/
abbrev State.pagesAgree (s : State) : Prop :=
  ∀ (q : Fin 128) (r : Fin 16), tableGet s.pageMap q = some r ↔
    (s.ring r).state ≠ .free ∧ (s.ring r).firstPage.val ≤ q.val ∧ q.val < (s.ring r).firstPage.val + (s.ring r).pageCount

/-- A handle that stands in a ring record names an attachment in use, at its generation, of that role on that ring (R9, R19). -/
abbrev State.names (s : State) (r : Fin 16) (role : Role) (h : Handle) : Prop :=
  (s.att h.index).inUse = true ∧ (s.att h.index).gen = h.gen ∧ (s.att h.index).ring = r ∧ (s.att h.index).role = role

/-- The producer field and the slots of each ring name its attachments (R9, R19). -/
abbrev State.ringsName (s : State) : Prop :=
  ∀ r : Fin 16, (∀ h ∈ (s.ring r).producer.toList, s.names r .producer h) ∧ (∀ h ∈ (s.ring r).slots.one.toList, s.names r (.reader 1) h) ∧
    (∀ h ∈ (s.ring r).slots.two.toList, s.names r (.reader 2) h) ∧ ∀ h ∈ (s.ring r).slots.three.toList, s.names r (.reader 3) h

/-- The place of a ring record that holds an attachment's handle: the producer field, or the slot that its role names (R9). -/
def Ring.place (g : Ring) : Role → Option Handle
  | .producer => g.producer
  | .reader 1 => g.slots.one
  | .reader 2 => g.slots.two
  | .reader 3 => g.slots.three
  | .reader _ => none

/-- A reader's cursor (R35): fill at most valid and at most C; skip above 0 only at fill 0; block progress above 0 only with a whole
block, and 0 for a NATURAL reader. -/
abbrev Attachment.cursorLegal (x : Attachment) (g : Ring) : Prop :=
  x.fill ≤ g.valid ∧ x.fill ≤ g.capacity ∧ (0 < x.skip → x.fill = 0) ∧ (0 < x.progress → x.order = .reversedBlock ∧ x.blockSize ≤ x.fill)

/-- A free attachment record keeps only its generation (R19, R21). Each record in use stands in its ring's record by its handle (R19), with
its cursor in bounds (R35); one that a move entry holds has no lease (R119). -/
abbrev State.attachmentsStand (s : State) : Prop :=
  ∀ i : Fin 32, ((s.att i).inUse = false → s.att i = Attachment.freed (s.att i).gen) ∧
    ((s.att i).inUse = true →
      (s.ring (s.att i).ring).place (s.att i).role = some ⟨(s.att i).gen, i⟩ ∧ (s.att i).cursorLegal (s.ring (s.att i).ring) ∧
        ∀ e : Fin 16, (s.att i).holder = .entry e → (s.att i).leasePeriod = 0)

/-- An attachment that a move entry names: in use, at its generation, held by that entry (R114). -/
abbrev State.heldByEntry (s : State) (e : Fin 16) (h : Handle) : Prop :=
  (s.att h.index).inUse = true ∧ (s.att h.index).gen = h.gen ∧ (s.att h.index).holder = .entry e

/-- Each move entry: EMPTY at its reset values; any other owned, its source a NATURAL reader and its destination, while present, a
producer, both held by it (R114, R119). The entry of the frame in flight is RUNNING (R127). -/
abbrev State.entriesHold (s : State) : Prop :=
  (∀ e : Fin 16, ((s.move e).state = .empty → s.move e = MoveEntry.cleared) ∧
    ((s.move e).state ≠ .empty → (s.move e).owner ≠ none ∧ (s.move e).source ≠ none) ∧
    (∀ h ∈ (s.move e).source.toList, s.heldByEntry e h ∧ (s.att h.index).role ≠ .producer ∧ (s.att h.index).order = .natural) ∧
    ∀ h ∈ (s.move e).dest.toList, s.heldByEntry e h ∧ (s.att h.index).role = .producer) ∧
  ∀ f ∈ s.frame.toList, (s.move f.entry).state = .running

/-- The ring table, the attachment table, the page map and the move list agree. -/
def State.tablesAgree (s : State) : Bool :=
  decide (∀ r : Fin 16, (s.ring r).legal) && decide s.pagesAgree && decide s.ringsName && decide s.attachmentsStand
    && decide s.entriesHold

/-- Every port unit and every pacer is within its bounds. -/
def State.legal (s : State) : Bool :=
  (s.port .a).legal && (s.port .b).legal && (s.port .c).legal && (s.port .d).legal
    && (s.parUnit .a).legal && (s.parUnit .b).legal && (List.finRange 4).all (fun n => (s.pacer n).legal)

/-- The control settings of a port, which only its own host's accesses and its own withdrawal reach: windows, fill word, latched high
word, mask, argument words. -/
def PortUnit.settings (u : PortUnit) : Vector Window 8 × Word × Word × Word × Word × Args :=
  (u.windows, u.fillWord, u.latchedHigh, u.mask0, u.mask1, u.cmd.args)

end Machine

end Sys2Proof
end

