-- ==== Sys2Proof/Certificates/Slice0/Obligations.lean ====
section
/-! DEFINITION. The statements for the provers. Premises on the state are `State.calm`, `State.commandGranted`,
`State.accessGranted`, `State.moveGranted` (Safety.lean). A conclusion `exec c s = .next (placeStartCheck t)` gives the whole next
state: `t` is built from `s` by the updates written out, so every field they do not name is as it was; `placeStartCheck` only places
the move engine's start check (R125, `Obligations.StartCheckChoosesTheFirstThatCanStart`). -/

open Sys2Proof Sys2Proof.Machine

/-! ### The queue, the outcome -/

/-- The command at the front of the queue is the one a step runs, with the rest left; an empty queue idles (assumption 3). -/
def Obligations.StepTakesTheFrontCommand : Prop :=
  ∀ (c : Instr) (s : State),
    step { s with pending := c :: s.pending } = exec c s ∧
      (∀ rest, s.pending = c :: rest → step s = exec c { s with pending := rest }) ∧ (s.pending = [] → step s = .next s)

/-- Every command has a next state in every state, and leaves the queue of waiting commands as it was. -/
def Obligations.EveryCommandCompletesAndKeepsTheQueue : Prop :=
  ∀ (c : Instr) (s : State), ∃ t, exec c s = .next t ∧ t.pending = s.pending

/-! ### Reset and time -/

/-- DEVICE_RESET gives every field its reset value, whatever it held. DEVICE_RESET_RELEASE changes nothing but the input. The reset
values written out are the manual's (R18, R21, R44, R57, R59, R65, R86, R114, R133 to R136, R140, R154, R166, R182, R187). The model's
choices in it: the queue and the levels of the input pins stay (assumption 7), and `dataOut`, to which the manual gives no reset value,
is 0 in State.reset (assumption 9). While the input is held a command changes no more than the level of a pin (assumption 8). -/
def Obligations.DeviceResetReturnsEveryField : Prop :=
  (∀ s : State,
      exec .deviceReset s = .next
          { State.reset with
            pending := s.pending
            par :=
              ⟨{ ParallelUnit.cleared with
                  strobeHeld := (s.parUnit .a).strobeHeld, resetHeld := (s.parUnit .a).resetHeld },
                { ParallelUnit.cleared with
                  strobeHeld := (s.parUnit .b).strobeHeld, resetHeld := (s.parUnit .b).resetHeld }⟩
            ser :=
              ⟨{ SerialUnit.cleared with selectHeld := (s.serUnit .c).selectHeld },
                { SerialUnit.cleared with selectHeld := (s.serUnit .d).selectHeld }⟩
            deviceReset := true } ∧
        exec .deviceResetRelease s = .next { s with deviceReset := false }) ∧
  (∀ (c : Instr) (s : State), s.deviceReset = true → c ≠ .deviceReset → c ≠ .deviceResetRelease →
    ∃ t, exec c s = .next t ∧ t =
      { s with
        par :=
          ⟨{ s.par.fst with strobeHeld := t.par.fst.strobeHeld, resetHeld := t.par.fst.resetHeld },
            { s.par.snd with strobeHeld := t.par.snd.strobeHeld, resetHeld := t.par.snd.resetHeld }⟩
        ser :=
          ⟨{ s.ser.fst with selectHeld := t.ser.fst.selectHeld }, { s.ser.snd with selectHeld := t.ser.snd.selectHeld }⟩ }) ∧
  (∀ r, (State.reset.ring r).state = .free ∧ (State.reset.ring r).mode = .circular ∧ (State.reset.ring r).firstPage = 0 ∧
      (State.reset.ring r).pageCount = 0 ∧ (State.reset.ring r).writePos = 0 ∧ (State.reset.ring r).valid = 0 ∧
      (State.reset.ring r).reserved = 0 ∧ (∀ p, (State.reset.ring r).access.get p = .nothing) ∧
      (State.reset.ring r).producer = none ∧ (State.reset.ring r).slots.handles = [] ∧ (State.reset.ring r).sealCause = none) ∧
    (∀ i, State.reset.att i = Attachment.freed 0) ∧ (∀ a, State.reset.mem.read a = 0) ∧
    (∀ q : Fin 128, tableGet State.reset.pageMap q = none) ∧ State.reset.arb = .command .d ∧
    (∀ q, State.reset.requests q = false) ∧ (∀ e, State.reset.move e = MoveEntry.cleared) ∧ State.reset.rotation = 15 ∧
    State.reset.frame = none ∧ State.reset.timebase = 0 ∧ State.reset.divider = 0 ∧
    State.reset.tickDue = false ∧
    (∀ n, State.reset.pacer n = ⟨false, 1000, 0, false⟩) ∧ (∀ p, State.reset.waitingAt p = none) ∧
    (∀ p, (State.reset.port p).queue = [] ∧ (State.reset.port p).lostCount = 0 ∧ (State.reset.port p).mask0 = 0xFFFE ∧
      (State.reset.port p).mask1 = 0x0007 ∧ (State.reset.port p).fillWord = 0 ∧ (State.reset.port p).latchedHigh = 0 ∧
      (State.reset.port p).cmd = CommandUnit.cleared ∧ ∀ w, State.reset.window p w = Window.cleared) ∧
    (∀ p, (State.reset.parUnit p).cycleState = .idle ∧ (State.reset.parUnit p).cycle = none ∧
      (State.reset.parUnit p).stallLimit = 255 ∧ (State.reset.parUnit p).stallTimer = 0 ∧ (State.reset.parUnit p).answer = none) ∧
    (∀ p, (State.reset.serUnit p).phase = .idle ∧ (State.reset.serUnit p).op = none ∧
      statusWordBits (State.reset.serUnit p).status = 0) ∧
    (∀ g, Attachment.freed g = ⟨false, g, 0, .reader 0, .port .a, .hold, .natural, 0, 0, 0, 0, 0, false, false, 0, 0, 0⟩) ∧
    MoveEntry.cleared = ⟨.empty, none, none, none, 1, 0, 1, 1, 0, 0, .software, 0, 0, 0, false, false, false, none⟩ ∧
    Window.cleared = ⟨false, 0, 0, .stream, 0, .wait⟩ ∧
    CommandUnit.cleared = ⟨.idle, ⟨0, 0, 0, 0, 0, 0⟩, ⟨0, 0, 0, 0, 0, 0⟩, .nothing, 0, .ok, ⟨0, 0, 0, 0⟩⟩

/-- TIMEBASE_ADVANCE (R133, R135, R138, R159): the count moves by 1; the lease divider moves by 1, or from 999 returns to 0 and the tick
falls; the count of each enabled pacer falls by 1, or from 1 is reloaded from the period register as the pacer expires (R136); the stall
timer of each waiting access falls by 1; nothing else changes. While device reset is held the count stands still. What an advance makes
due: a tick, a lease at 0, a pacer's triggers, a waiting access whose stall timer is 0. That it only counts, that what is due is taken
before any later act, whatever the act, and in which order, is the model's choice (assumption 2): outstanding expiries, the lowest index
first; the tick, with its expiries; pacers 0 to 3; the stall limits of A and B. A due event's own command (LEASE_TICK, LEASE_EXPIRY,
PACER_EXPIRY, STALL_TIMEOUT) takes the outstanding expiries before it, and one whose event is not due changes nothing. -/
def Obligations.TimebaseAdvanceMovesTheClocks : Prop :=
  (∀ s : State,
    s.quiet = true ↔ s.tickDue = false ∧
      (∀ i, ¬((s.att i).inUse = true ∧ 0 < (s.att i).leasePeriod ∧ (s.att i).leaseRemaining = 0)) ∧
      (∀ n, ¬((s.pacer n).enabled = true ∧ (s.pacer n).due = true)) ∧
      ∀ p, ¬((s.parUnit p).cycleState = .waiting ∧ (s.parUnit p).stallTimer = 0)) ∧
  (∀ s : State,
    let lapsed (j : Fin 32) : Prop := (s.att j).inUse = true ∧ 0 < (s.att j).leasePeriod ∧ (s.att j).leaseRemaining = 0
    (∀ i, s.dueExpiry = some i ↔ lapsed i ∧ ∀ j, j < i → ¬lapsed j) ∧
      settleExpiries s = (fun u => match u.dueExpiry with
        | some i => expireLease i u
        | none => u)^[32] s) ∧
  (∀ s : State,
    let ticked (u : State) : State :=
      { u with
        tickDue := false
        atts := u.atts.map (fun x =>
          if x.inUse = true ∧ 0 < x.leasePeriod then { x with leaseRemaining := x.leaseRemaining - 1 } else x) }
    let tick (u : State) : State := if u.tickDue = true then settleExpiries (ticked u) else u
    let pacers (u : State) : State :=
      (List.finRange 4).foldl (fun u n => if (u.pacer n).enabled = true ∧ (u.pacer n).due = true then expirePacer n u else u) u
    let stall (p : ParPort) (u : State) : State :=
      if (u.parUnit p).cycleState = .waiting ∧ (u.parUnit p).stallTimer = 0 then expireStall p u else u
    settle s = (if s.quiet = true then s else placeStartCheck (stall .b (stall .a (pacers (tick (settleExpiries s)))))) ∧
    (s.deviceReset = false →
      exec .leaseTick s = .next (placeStartCheck (if s.tickDue = true then ticked (settleExpiries s) else s)) ∧
      exec .leaseExpiry s = .next (placeStartCheck (match s.dueExpiry with
        | some i => expireLease i s
        | none => s)) ∧
      (∀ n, exec (.pacerExpiry n) s = .next (placeStartCheck
        (if (s.pacer n).enabled = true ∧ (s.pacer n).due = true then expirePacer n (settleExpiries s) else s))) ∧
      ∀ p, exec (.stallTimeout p) s = .next (placeStartCheck
        (if (s.parUnit p).cycleState = .waiting ∧ (s.parUnit p).stallTimer = 0 then stall p (settleExpiries s) else s)))) ∧
  (∀ (c : Instr) (s : State), s.deviceReset = false → c ≠ .deviceReset → c ≠ .deviceResetRelease → c ≠ .leaseTick →
    c ≠ .leaseExpiry → (∀ n, c ≠ .pacerExpiry n) → (∀ p, c ≠ .stallTimeout p) →
    (∀ u, u.deviceReset = false → settle s = settle u → exec c s = exec c u) ∧
      ((settle s).deviceReset = false → (settle s).quiet = true → exec c s = exec c (settle s))) ∧
  ∀ s : State,
    (s.deviceReset = true → exec .timebaseAdvance s = .next s) ∧
      (s.calm → exec .timebaseAdvance s = .next (placeStartCheck
        { s with
          timebase := s.timebase + 1
          divider := if s.divider < 999 then s.divider + 1 else 0
          tickDue := decide (999 ≤ s.divider)
          pacers := s.pacers.map (fun x =>
            if x.enabled then
              if x.count ≤ 1 then { x with count := x.period, due := true } else { x with count := x.count - 1 }
            else x)
          par :=
            ⟨if s.par.fst.cycleState = .waiting then { s.par.fst with stallTimer := s.par.fst.stallTimer - 1 } else s.par.fst,
              if s.par.snd.cycleState = .waiting then { s.par.snd with stallTimer := s.par.snd.stallTimer - 1 }
              else s.par.snd⟩ }))

/-- LEASE_TICK (R72, R73): the tick that has fallen, with no expiry outstanding, lowers every running lease by 1. LEASE_EXPIRY (R73, R77):
the lowest index whose lease has run out is taken: LEASE_EXPIRED to its holder with the period that ran out, PEER_LOST to the others,
then the detach, which for a producer seals with PRODUCER_LOST (R13). PEER_LOST (R77, R78, R83), at an expiry or a withdrawal: the producer
first, then the readers in slot order, each but the lost one told through its own holder's port, or its entry's owner, with its own ring
and handle, the role lost and the cause. A waiting access of an attachment that is due to expire is left for its expiry (R76, R79,
assumption 26). That a tick and an expiry are taken by commands of their own is assumption 2. -/
def Obligations.LeaseTickAndExpiryInTheirOrder : Prop :=
  (∀ s : State, s.deviceReset = false → s.tickDue = true → s.dueExpiry = none →
     exec .leaseTick s = .next (placeStartCheck
       { s with
         tickDue := false
         atts := s.atts.map (fun x =>
           if x.inUse = true ∧ 0 < x.leasePeriod then { x with leaseRemaining := x.leaseRemaining - 1 } else x) })) ∧
  (∀ (s : State) (i : Fin 32),
    let told (x : Attachment) (j : Fin 32) (k : EventKind) (d : Word) (u : State) : State :=
      match (match x.holder with
        | .port q => some q
        | .entry e => (s.move e).owner) with
      | some q => post q k (some x.ring) (some ⟨x.gen, j⟩) d u
      | none => u
    s.deviceReset = false → (s.att i).inUse = true → 0 < (s.att i).leasePeriod → (s.att i).leaseRemaining = 0 →
    (∀ j, j < i → ¬((s.att j).inUse = true ∧ 0 < (s.att j).leasePeriod ∧ (s.att j).leaseRemaining = 0)) →
    let u := postPeerLost i false (fun _ => true) (told (s.att i) i .leaseExpired (word (s.att i).leasePeriod) s)
    exec .leaseExpiry s = .next (placeStartCheck (match (s.att i).role with
      | .reader _ => detachReader i u
      | .producer => sealBy .producerLost i u))) ∧
  (∀ (s : State) (i : Fin 32) (withdrawn : Bool) (remains : Attachment → Bool),
    let told (x : Attachment) (j : Fin 32) (k : EventKind) (d : Word) (u : State) : State :=
      match (match x.holder with
        | .port q => some q
        | .entry e => (s.move e).owner) with
      | some q => post q k (some x.ring) (some ⟨x.gen, j⟩) d u
      | none => u
    let g := s.ring (s.att i).ring
    let detail := word ((match (s.att i).role with
      | .producer => 0
      | .reader slot => slot.val) + if withdrawn = true then 256 else 0)
    postPeerLost i withdrawn remains s =
      ((g.producer.toList ++ g.slots.one.toList ++ g.slots.two.toList ++ g.slots.three.toList).map (·.index)).foldl
        (fun u j => if j = i ∨ remains (s.att j) = false then u else told (s.att j) j .peerLost detail u) s) ∧
  (∀ (s : State) (p : ParPort) (x : WaitingAccess) (r : Fin 16), s.waitingAt p = some x →
    (s.att x.handle.index).inUse = true → 0 < (s.att x.handle.index).leasePeriod →
    (s.att x.handle.index).leaseRemaining = 0 → examineWaiting r p s = s)

/-- PACER_EXPIRY (R136, R138, R121) of a pacer that has expired: every entry that names the pacer is judged by its own state, the pacer has
its period for its count, and rings, attachments, memory, timebase and the other pacers stay. A trigger that finds three runs pending is
counted as missed and TRIGGER_MISSED goes to the entry's owner, with its source ring and source handle, in ascending entry order (R130). -/
def Obligations.PacerExpiryDeliversAndReloads : Prop :=
  ∀ (s : State) (n : Fin 4), s.deviceReset = false → s.dueExpiry = none → (s.pacer n).enabled = true → (s.pacer n).due = true →
    ∃ t, exec (.pacerExpiry n) s = .next t ∧ t.pacer n = { s.pacer n with count := (s.pacer n).period, due := false } ∧
      (∀ m, m ≠ n → t.pacer m = s.pacer m) ∧
      (∀ e, t.move e =
        if (s.move e).trigger = .pacer n ∧ ((s.move e).state = .armed ∨ (s.move e).state = .waiting) then
          if (s.move e).pendingRuns < 3 then { s.move e with pendingRuns := (s.move e).pendingRuns + 1 }
          else { s.move e with missedTriggers := min ((s.move e).missedTriggers + 1) 65535 }
        else s.move e) ∧
      t.ports = ((List.finRange 16).foldl
        (fun u e =>
          if (s.move e).trigger = .pacer n ∧ ((s.move e).state = .armed ∨ (s.move e).state = .waiting) ∧ 3 ≤ (s.move e).pendingRuns then
            match (s.move e).owner with
            | some p => post p .triggerMissed ((s.move e).source.map (fun h => (s.att h.index).ring)) (s.move e).source
                (word (min ((s.move e).missedTriggers + 1) 65535)) u
            | none => u
          else u) s).ports ∧
      t.rings = s.rings ∧ t.atts = s.atts ∧ t.pageMap = s.pageMap ∧ t.mem = s.mem ∧ t.arb = s.arb ∧ t.timebase = s.timebase ∧
      t.divider = s.divider ∧ t.waiting = s.waiting ∧ t.par = s.par ∧ t.ser = s.ser ∧ t.frame = s.frame ∧
      t.rotation = s.rotation

/-- STALL_TIMEOUT (R159): the access leaves the list, nothing is pushed or popped, no lease is renewed, a read gets the fill word,
STALL_TIMEOUT is offered to the port. -/
def Obligations.StallTimeoutEndsTheWaitingAccess : Prop :=
  ∀ (s : State) (p : ParPort) (x : WaitingAccess), s.deviceReset = false → s.dueExpiry = none →
    (s.parUnit p).cycleState = .waiting → (s.parUnit p).stallTimer = 0 → s.waitingAt p = some x →
    ∃ t, exec (.stallTimeout p) s = .next t ∧ t.waitingAt p = none ∧ (t.parUnit p).cycleState = .answered ∧
      (t.parUnit p).stallTimer = 0 ∧
      (t.parUnit p).answer = (if x.acc = .read then some (s.port p.toPort).fillWord else none) ∧
      (x.acc = .read → (t.port p.toPort).dataOut = (s.port p.toPort).fillWord) ∧
      (t.port p.toPort).queue =
        (offered (s.port p.toPort)
          ⟨.stallTimeout, some (s.att x.handle.index).ring, some x.handle, word x.window.val, s.stampNow⟩).queue ∧
      t.rings = s.rings ∧ t.atts = s.atts ∧ t.mem = s.mem ∧ t.pageMap = s.pageMap ∧ t.moves = s.moves ∧ t.arb = s.arb ∧
      t.pacers = s.pacers ∧ t.timebase = s.timebase ∧ t.ser = s.ser ∧ (∀ q, q ≠ p.toPort → t.port q = s.port q)

/-! ### The parallel bus -/

/-- PARALLEL_CYCLE_START on a port that takes a cycle (R155, R143, R144, R162): a control page cycle is answered within its own event; an
unmapped one is answered with the fill word and UNMAPPED_ACCESS; a window cycle becomes the port's data request, or, while a withdrawal
waits for its grant, is answered at once with no record. How a cycle is answered (R142, R155): a read drives its word, the stall timer is
cancelled, the state is ANSWERED; without data a read drives the fill word and a write drives nothing. A port takes a cycle when the state
is IDLE, the strobe was not held before and the reset input is not held (R155, R163). Ready is asserted exactly in CONTROL and ANSWERED
(R154, R155). -/
def Obligations.ParallelCycleStartByItsAddress : Prop :=
  (∀ (s : State) (p : ParPort) (acc : BusAccess) (addr : BitVec 12), s.calm → (s.parUnit p).takesCycle = true →
    (∀ offset, decodeAddress (s.port p.toPort) addr = .control offset → acc = .read →
      exec (.parallelCycleStart p acc addr) s = .next (placeStartCheck (controlReadAct p.toPort offset
        ((s.setPar p { s.parUnit p with
            strobeHeld := true, cycleState := .control, answer := some (s.controlWord p.toPort offset) }).setDataOut p.toPort
          (s.controlWord p.toPort offset))))) ∧
    (∀ offset v, decodeAddress (s.port p.toPort) addr = .control offset → acc = .write v →
      exec (.parallelCycleStart p acc addr) s = .next (placeStartCheck (controlWriteAct p.toPort offset v
        (s.setPar p { s.parUnit p with strobeHeld := true, cycleState := .control })))) ∧
    (decodeAddress (s.port p.toPort) addr = .unmapped →
      exec (.parallelCycleStart p acc addr) s = .next (placeStartCheck (answerFill p acc
        (post p.toPort .unmappedAccess none none (word addr.toNat)
          (s.setPar p { s.parUnit p with strobeHeld := true }))))) ∧
    (∀ w offset, decodeAddress (s.port p.toPort) addr = .window w offset → s.withdrawalPending p.toPort = false →
      exec (.parallelCycleStart p acc addr) s = .next (placeStartCheck
        ((s.setPar p { s.parUnit p with
            strobeHeld := true, cycleState := .requested, cycle := some ⟨w, acc, offset⟩ }).setDataReq p.toPort
          (some (.access w acc offset))))) ∧
    (∀ w offset, decodeAddress (s.port p.toPort) addr = .window w offset → s.withdrawalPending p.toPort = true →
      exec (.parallelCycleStart p acc addr) s = .next (placeStartCheck (answerFill p acc
        (s.setPar p { s.parUnit p with
          strobeHeld := true, cycleState := .requested, cycle := some ⟨w, acc, offset⟩ }))))) ∧
  (∀ (s : State) (p : ParPort) (d v : Word),
    let u := s.parUnit p
    answerCycle p .read d s =
        (s.setPar p { u with cycleState := .answered, stallTimer := 0, answer := some d }).setDataOut p.toPort d ∧
      answerCycle p (.write v) d s = s.setPar p { u with cycleState := .answered, stallTimer := 0, answer := none } ∧
      answerFill p .read s = answerCycle p .read (s.port p.toPort).fillWord s ∧
      answerFill p (.write v) s = s.setPar p { u with cycleState := .answered, stallTimer := 0, answer := none }) ∧
  (∀ u : ParallelUnit, (u.takesCycle = true ↔ u.cycleState = .idle ∧ u.strobeHeld = false ∧ u.resetHeld = false) ∧
    (u.ready = true ↔ u.cycleState = .control ∨ u.cycleState = .answered)) ∧
  (∀ (s : State) (p : Port), s.withdrawalPending p = true ↔ ∃ b, (s.port p).cmd.inFlight = .withdrawal b)

/-- The decode of R143: the control page from 0xF00; below it the lowest-numbered enabled window of size exponent up to 11 whose base
agrees with the address above its low s bits, with the offset from the rounded base; otherwise unmapped. -/
def Obligations.DecodeTakesTheLowestContainingWindow : Prop :=
  ∀ (u : PortUnit) (addr : BitVec 12),
    (0xF00 ≤ addr.toNat → decodeAddress u addr = .control (addr.toNat - 0xF00)) ∧
    (addr.toNat < 0xF00 → ∀ w : Fin 8,
      (∀ v : Fin 8, v < w → ¬((tableGet u.windows v).enabled = true ∧ (tableGet u.windows v).sizeExp.toNat ≤ 11 ∧
        addr.toNat / 2 ^ (tableGet u.windows v).sizeExp.toNat =
          (tableGet u.windows v).base.toNat / 2 ^ (tableGet u.windows v).sizeExp.toNat)) →
      (tableGet u.windows w).enabled = true → (tableGet u.windows w).sizeExp.toNat ≤ 11 →
      addr.toNat / 2 ^ (tableGet u.windows w).sizeExp.toNat =
        (tableGet u.windows w).base.toNat / 2 ^ (tableGet u.windows w).sizeExp.toNat →
      decodeAddress u addr = .window w (addr.toNat % 2 ^ (tableGet u.windows w).sizeExp.toNat)) ∧
    (addr.toNat < 0xF00 →
      (∀ v : Fin 8, ¬((tableGet u.windows v).enabled = true ∧ (tableGet u.windows v).sizeExp.toNat ≤ 11 ∧
        addr.toNat / 2 ^ (tableGet u.windows v).sizeExp.toNat =
          (tableGet u.windows v).base.toNat / 2 ^ (tableGet u.windows v).sizeExp.toNat)) →
      decodeAddress u addr = .unmapped)

/-- STROBE_RELEASE (R155, R161): a cycle that ready has answered ends with no record; a REQUESTED cycle's request is withdrawn and a
WAITING cycle's access leaves the list, each with CYCLE_ABANDONED; with no cycle only the pin moves. -/
def Obligations.StrobeReleaseEndsTheCycle : Prop :=
  ∀ (s : State) (p : ParPort), s.calm →
    let u := s.parUnit p
    let ended := s.setPar p
      { u with cycleState := .idle, cycle := none, stallTimer := 0, answer := none, strobeHeld := false }
    (u.cycleState = .idle →
      exec (.strobeRelease p) s = .next (placeStartCheck (s.setPar p { u with strobeHeld := false }))) ∧
    (u.cycleState = .control ∨ u.cycleState = .answered →
      exec (.strobeRelease p) s = .next (placeStartCheck ended)) ∧
    (∀ x, u.cycleState = .requested → u.cycle = some x →
      exec (.strobeRelease p) s = .next (placeStartCheck
        (post p.toPort .cycleAbandoned none none (word x.window.val) (ended.setDataReq p.toPort none)))) ∧
    (∀ x, u.cycleState = .waiting → s.waitingAt p = some x →
      exec (.strobeRelease p) s = .next (placeStartCheck
        (post p.toPort .cycleAbandoned (some (s.att x.handle.index).ring) (some x.handle) (word x.window.val)
          (ended.setWaiting p none))))

/-- PORT_RESET (R69, R81, R94, R162, R163): the data request and the waiting access are gone, the cycle has ended without a record, the
withdrawal stands at the command requester; PORT_RESET_RELEASE changes nothing but the input. That an assertion joined to a withdrawal
already pending ends a cycle answered since then too is the model's reading (assumption 20). -/
def Obligations.PortResetRaisesAWithdrawal : Prop :=
  ∀ (s : State) (p : ParPort), s.calm →
    ((s.parUnit p).resetHeld = false →
      ∃ t, exec (.portReset p) s = .next t ∧ (t.port p.toPort).dataReq = none ∧ t.waitingAt p = none ∧
        (t.parUnit p).cycleState = .idle ∧ (t.parUnit p).resetHeld = true ∧
        (t.parUnit p).strobeHeld = (s.parUnit p).strobeHeld ∧ (t.parUnit p).stallLimit = (s.parUnit p).stallLimit ∧
        (t.port p.toPort).cmd.state = .inFlight ∧
        (t.port p.toPort).cmd.commandWord = (s.port p.toPort).cmd.commandWord ∧
        (t.port p.toPort).cmd.inFlight =
          .withdrawal (decide ((s.port p.toPort).cmd.inFlight = .withdrawal true)) ∧
        (t.port p.toPort).queue = (s.port p.toPort).queue ∧ (t.port p.toPort).settings = (s.port p.toPort).settings ∧
        t.rings = s.rings ∧ t.atts = s.atts ∧ t.mem = s.mem ∧ t.moves = s.moves ∧ t.arb = s.arb ∧
        t.timebase = s.timebase ∧ t.pacers = s.pacers ∧ t.ser = s.ser ∧ (∀ q, q ≠ p.toPort → t.port q = s.port q)) ∧
    exec (.portResetRelease p) s = .next (placeStartCheck (s.setPar p { s.parUnit p with resetHeld := false }))

/-! ### Serial frames -/

/-- SERIAL_FRAME_START shifts out the status word and opens the HEADER phase; SERIAL_ADDRESS_WORD records the address and shifts 0
(R167). The eight headers (R167, R168, R170, R177): op, window, count and a fresh frame; the window check of a stream or page frame, or
NO_WINDOW and inert while a withdrawal waits; the withdrawal that a WITHDRAW header causes. Clocked in while select is not asserted, a
header or an address word is ignored. The layout by which the port unit decodes a header word (R191): op number in bits 15:13, window in
12:10, count in 9:0. -/
def Obligations.SerialFrameOpens : Prop :=
  (∀ (s : State) (p : SerPort), s.calm →
     ((s.serUnit p).selectHeld = false → (s.serUnit p).phase = .idle → (s.port p.toPort).dataReq = none →
       exec (.serialFrameStart p) s = .next (placeStartCheck
         ((s.setSer p { s.serUnit p with phase := .header, selectHeld := true }).setDataOut p.toPort
           (statusWordBits (s.serUnit p).status)))) ∧
     (∀ address, (s.serUnit p).selectHeld = true → (s.serUnit p).phase = .address → (s.serUnit p).withdrawn = false →
       exec (.serialAddressWord p address) s = .next (placeStartCheck
         ((s.setSer p { s.serUnit p with phase := .data, address := address }).setDataOut p.toPort 0))) ∧
     (∀ address w count, (s.serUnit p).selectHeld = false → ∀ c : Instr,
       c = .serialAddressWord p address ∨ c = .statusOnly p w count ∨ c = .streamRead p w count ∨ c = .streamWrite p w count ∨
         c = .pageRead p w count ∨ c = .pageWrite p w count ∨ c = .controlRead p w count ∨ c = .controlWrite p w count ∨
         c = .withdrawFrame p w count →
       exec c s = .next (placeStartCheck s))) ∧
  (∀ (s : State) (p : SerPort) (w : Fin 8) (count : BitVec 10), s.calm → (s.serUnit p).selectHeld = true →
     (s.serUnit p).phase = .header → (s.serUnit p).withdrawn = false →
     let fresh (op : SerialOp) (n : Nat) (phase : FramePhase) : SerialUnit :=
       { s.serUnit p with
         phase := phase, op := some op, window := w, count := n, wordIndex := 0, inert := false, condition := .ok,
         completed := 0, wordNow := .none }
     let checked (op : SerialOp) (phase : FramePhase) : State :=
       if s.withdrawalPending p.toPort = true then
         s.setSer p { fresh op count.toNat phase with condition := .noWindow, inert := true }
       else (s.setSer p (fresh op count.toNat phase)).setDataReq p.toPort (some .check)
     exec (.statusOnly p w count) s = .next (placeStartCheck (s.setSer p (fresh .statusOnly 0 .data))) ∧
     exec (.streamRead p w count) s = .next (placeStartCheck (checked .streamRead .data)) ∧
     exec (.streamWrite p w count) s = .next (placeStartCheck (checked .streamWrite .data)) ∧
     exec (.pageRead p w count) s = .next (placeStartCheck (checked .pageRead .address)) ∧
     exec (.pageWrite p w count) s = .next (placeStartCheck (checked .pageWrite .address)) ∧
     exec (.controlRead p w count) s = .next (placeStartCheck (s.setSer p (fresh .controlRead count.toNat .address))) ∧
     exec (.controlWrite p w count) s = .next (placeStartCheck (s.setSer p (fresh .controlWrite count.toNat .address))) ∧
     exec (.withdrawFrame p w count) s = .next (placeStartCheck
       ((s.setSer p (fresh .withdraw 0 .data)).setPort p.toPort
         { s.port p.toPort with
           dataReq := none
           cmd := { (s.port p.toPort).cmd with
             state := .inFlight
             inFlight := .withdrawal (decide ((s.port p.toPort).cmd.inFlight = .withdrawal true)) } }))) ∧
  (∀ (header : Word) (n : Fin 8) (op : SerialOp) (w : Fin 8) (count : BitVec 10),
     [SerialOp.statusOnly, .streamRead, .streamWrite, .pageRead, .pageWrite, .controlRead, .controlWrite, .withdraw][n.val]? =
       some op →
     (decodeHeader header = (op, w, count) ↔ header.toNat = 8192 * n.val + 1024 * w.val + count.toNat))

/-- SERIAL_DATA_WORD, first bit, of a word within the count (R171, R173 to R176): a read word of a stream or page frame places its
request, or shifts the fill word in an inert frame; a control read shifts the control word; a write word shifts 0.
BEYOND_COUNT_WORD (R175), and a data word begun when the count is used up: 0x0000 is shifted out, OVERCOUNT is met if the condition
is OK, no request is placed, nothing is completed. Clocked in while select is not asserted, either is ignored (R167). In a frame that a
withdrawal has made inert each word after the header shifts 0x0000, places no request and meets no condition (R177), also in a frame
withdrawn in its HEADER phase, whose header is ignored (assumption 12). The port's earlier request is granted before its next word, in the
rotation (R67): that a word, a frame's start or a control access makes those grants first, nine at most, is the model's form
(assumption 6). -/
def Obligations.SerialDataWordBegins : Prop :=
  (∀ (s : State) (p : SerPort), s.calm → (s.port p.toPort).dataReq = none → (s.serUnit p).selectHeld = true →
     (s.serUnit p).phase = .data → (s.serUnit p).withdrawn = false → (s.serUnit p).wordNow = .none →
     (s.serUnit p).wordIndex < (s.serUnit p).count →
     let u := s.serUnit p
     let begun : State := s.setSer p { u with wordIndex := u.wordIndex + 1, wordNow := .noData }
     (∀ op, u.op = some op → op = .streamRead ∨ op = .pageRead → u.inert = false → s.withdrawalPending p.toPort = false →
       exec (.serialDataWord p .first) s = .next (placeStartCheck (begun.setDataReq p.toPort
         (some (.access u.window .read (if op = .pageRead then u.address.toNat + u.wordIndex else 0)))))) ∧
     (u.op = some .streamRead ∨ u.op = some .pageRead → u.inert = true ∨ s.withdrawalPending p.toPort = true →
       exec (.serialDataWord p .first) s = .next (placeStartCheck (begun.setDataOut p.toPort (s.port p.toPort).fillWord))) ∧
     (u.op = some .controlRead →
       exec (.serialDataWord p .first) s = .next (placeStartCheck (controlReadAct p.toPort (u.address.toNat + u.wordIndex)
         ((s.setSer p { u with wordIndex := u.wordIndex + 1, wordNow := .data }).setDataOut p.toPort
           (s.controlWord p.toPort (u.address.toNat + u.wordIndex)))))) ∧
     (u.op = some .streamWrite ∨ u.op = some .pageWrite ∨ u.op = some .controlWrite →
       exec (.serialDataWord p .first) s = .next (placeStartCheck (begun.setDataOut p.toPort 0)))) ∧
  (∀ (s : State) (p : SerPort), s.calm → (s.port p.toPort).dataReq = none → (s.serUnit p).selectHeld = false →
     exec (.beyondCountWord p) s = .next (placeStartCheck s) ∧
       exec (.serialDataWord p .first) s = .next (placeStartCheck s)) ∧
  (∀ (s : State) (p : SerPort), s.calm → (s.port p.toPort).dataReq = none → (s.serUnit p).selectHeld = true →
     (s.serUnit p).phase = .data → (s.serUnit p).withdrawn = false → (s.serUnit p).wordNow = .none →
     (s.serUnit p).count ≤ (s.serUnit p).wordIndex →
     let u := s.serUnit p
     let t := (s.setSer p
       { u with
         wordIndex := u.count + 1
         condition := if u.condition = .ok then .overcount else u.condition }).setDataOut p.toPort 0
     exec (.beyondCountWord p) s = .next (placeStartCheck t) ∧
       exec (.serialDataWord p .first) s = .next (placeStartCheck t)) ∧
  (∀ (s : State) (p : SerPort), s.calm → (s.serUnit p).selectHeld = true → (s.serUnit p).phase ≠ .idle →
     (s.serUnit p).withdrawn = true →
     (∀ c : Instr, (c = .beyondCountWord p ∨ c = .serialDataWord p .first) ∧ (s.port p.toPort).dataReq = none ∨
         (∃ address, c = .serialAddressWord p address) →
       exec c s = .next (placeStartCheck (s.setDataOut p.toPort 0))) ∧
     ∀ (c : Instr) (w : Fin 8) (count : BitVec 10),
       c = .statusOnly p w count ∨ c = .streamRead p w count ∨ c = .streamWrite p w count ∨ c = .pageRead p w count ∨
         c = .pageWrite p w count ∨ c = .controlRead p w count ∨ c = .controlWrite p w count ∨ c = .withdrawFrame p w count →
       exec c s = .next (placeStartCheck s)) ∧
  (∀ (s : State) (p : SerPort),
     serve p s = (fun u =>
       if (u.port p.toPort).dataReq = none then u
       else match u.nextGrant with
         | some q => placeStartCheck (grantRequest q u)
         | none => u)^[9] s) ∧
  (∀ (s : State) (p : SerPort) (c : Instr), s.calm →
     let t := serve p s
     t.calm → (t.port p.toPort).dataReq = none →
     (∃ moment, c = .serialDataWord p moment) ∨ c = .beyondCountWord p ∨ c = .timebaseLowRead p.toPort ∨
       (∃ v, c = .eventAcknowledge p.toPort v) ∨ (∃ offset v, c = .controlWordWrite p.toPort offset v) ∨
       (∃ w, c = .commandSubmit p.toPort w) ∨ c = .withdraw p.toPort ∨
       (c = .serialFrameStart p ∧ (s.serUnit p).selectHeld = false ∧ (t.serUnit p).selectHeld = false) →
     exec c s = exec c t)

/-- SERIAL_DATA_WORD, sixteenth bit (R169, R171, R173, R174, R176): a read word answered with data is completed; a write word of a stream
or page frame places its request, or is discarded in an inert frame; a control write is taken and completed. A sixteenth bit clocked in
while select is not asserted is ignored (R167), and so is that of a word beyond the count (R175) and of any word of a frame that a
withdrawal has made inert (R177). -/
def Obligations.SerialDataWordEnds : Prop :=
  ∀ (s : State) (p : SerPort) (d : Word), s.calm → (s.port p.toPort).dataReq = none →
    ((s.serUnit p).selectHeld = false ∨ (s.serUnit p).withdrawn = true ∨ (s.serUnit p).phase ≠ .data ∨ (s.serUnit p).wordNow = .none →
      exec (.serialDataWord p (.last d)) s = .next (placeStartCheck s)) ∧
    ((s.serUnit p).selectHeld = true → (s.serUnit p).phase = .data → (s.serUnit p).withdrawn = false →
    (s.serUnit p).wordNow ≠ .none →
    let u := s.serUnit p
    let whole : State := s.setSer p { u with wordNow := .none }
    (u.op = some .streamRead ∨ u.op = some .pageRead ∨ u.op = some .controlRead →
      exec (.serialDataWord p (.last d)) s = .next (placeStartCheck
        (s.setSer p
          { u with wordNow := .none, completed := if u.wordNow = .data then u.completed + 1 else u.completed }))) ∧
    (∀ op, u.op = some op → op = .streamWrite ∨ op = .pageWrite → u.inert = false → s.withdrawalPending p.toPort = false →
      exec (.serialDataWord p (.last d)) s = .next (placeStartCheck (whole.setDataReq p.toPort
        (some (.access u.window (.write d)
          (if op = .pageWrite then u.address.toNat + (u.wordIndex - 1) else 0)))))) ∧
    (u.op = some .streamWrite ∨ u.op = some .pageWrite → u.inert = true ∨ s.withdrawalPending p.toPort = true →
      exec (.serialDataWord p (.last d)) s = .next (placeStartCheck whole)) ∧
    (u.op = some .controlWrite →
      exec (.serialDataWord p (.last d)) s = .next (placeStartCheck (controlWriteAct p.toPort
        (u.address.toNat + (u.wordIndex - 1)) d
        (s.setSer p { u with wordNow := .none, completed := u.completed + 1 })))))

/-- SERIAL_FRAME_END (R167, R169, R172, R177): the status word is formed from the frame, a read word cut short after data is TORN; a frame
whose header was not whole leaves the status word, unless a withdrawal has made it inert: that R177 holds for such a frame too is the
model's reading (assumption 12); with a request pending the frame goes on to its grant; with no frame only the pin moves. The layout of
the status word and its condition codes (R191). -/
def Obligations.SerialFrameEndFormsTheStatusWord : Prop :=
  (∀ (s : State) (p : SerPort), s.calm →
    let u := s.serUnit p
    let q := p.toPort
    ((s.port q).dataReq = none → u.phase = .data ∨ u.phase = .address ∨ (u.phase = .header ∧ u.withdrawn = true) →
      let c : Condition := if u.wordNow = .data ∧ u.condition = .ok then .torn else u.condition
      exec (.serialFrameEnd p) s = .next (placeStartCheck (s.setSer p
        { u with
          selectHeld := false, phase := .idle, op := none, wordNow := .none, withdrawn := false, condition := c,
          status := ⟨c, u.completed, !(s.port q).queue.isEmpty, (s.port q).cmd.state == .inFlight⟩ }))) ∧
    ((s.port q).dataReq = none → u.phase = .header → u.withdrawn = false → u.wordNow = .none →
      exec (.serialFrameEnd p) s = .next (placeStartCheck (s.setSer p
        { u with selectHeld := false, phase := .idle, op := none }))) ∧
    (u.phase = .idle ∨ (s.port q).dataReq ≠ none →
      exec (.serialFrameEnd p) s = .next (placeStartCheck (s.setSer p { u with selectHeld := false })))) ∧
  (∀ (c : Condition) (completed : Nat) (eventPending commandBusy : Bool),
    statusWordBits ⟨c, completed, eventPending, commandBusy⟩ =
      word (4096 * c.code + 4 * completed + (if eventPending = true then 2 else 0) + if commandBusy = true then 1 else 0)) ∧
  [Condition.ok, .empty, .full, .exhausted, .ended, .torn, .noWindow, .staleHandle, .notHolder, .wrongRole, .outOfRing, .badOp,
    .overcount].map Condition.code = List.range 13

/-! ### Grants of the data requesters -/

/-- SERIAL_WINDOW_CHECK (R170): the window enabled, the op suited to its kind, the handle current, the holder this port, the role suited;
the first that fails is the condition, and the frame is inert. No record, no access to memory. When select was released while the check
was pending, the frame ends at this grant and its status word is formed (R167). The kind and direction of each op (R170), and the roles that
suit them (R146). -/
def Obligations.SerialWindowCheckInItsOrder : Prop :=
  (∀ (s : State) (p : SerPort) (op : SerialOp) (kind : WindowKind) (acc : BusAccess), s.calm →
    s.nextGrant = some (.data p.toPort) → (s.port p.toPort).dataReq = some .check → (s.serUnit p).op = some op →
    opKind op = some (kind, acc) → (s.serUnit p).phase = .data ∨ (s.serUnit p).phase = .address →
    let q := p.toPort
    let u := s.serUnit p
    let closed (y : SerialUnit) (t : State) : State :=
      let c : Condition := if y.wordNow = .data ∧ y.condition = .ok then .torn else y.condition
      if u.selectHeld = true then t.setSer p y
      else t.setSer p
        { y with
          phase := .idle, op := none, wordNow := .none, withdrawn := false, condition := c,
          status := ⟨c, y.completed, !(t.port q).queue.isEmpty, (t.port q).cmd.state == .inFlight⟩ }
    let x := s.window q u.window
    let answers (y : SerialUnit) : Prop :=
      exec (.serialWindowCheck p) s = .next (placeStartCheck (closed y (s.dataTaken q)))
    let fails (c : Condition) : Prop := answers { u with inert := true, condition := if u.condition = .ok then c else u.condition }
    (x.enabled = false → fails .noWindow) ∧
    (x.enabled = true → x.kind ≠ kind → fails .badOp) ∧
    (x.enabled = true → x.kind = kind → s.currentIndex x.handleWord = none → fails .staleHandle) ∧
    (∀ i, x.enabled = true → x.kind = kind → s.currentIndex x.handleWord = some i →
      ((s.att i).holder ≠ .port q → fails .notHolder) ∧
      ((s.att i).holder = .port q → roleSuits (s.att i).role kind acc = false → fails .wrongRole) ∧
      ((s.att i).holder = .port q → roleSuits (s.att i).role kind acc = true → answers u))) ∧
  (∀ (role : Role) (kind : WindowKind) (acc : BusAccess), roleSuits role kind acc = true ↔
    (role = .producer ∧ (acc ≠ .read ∨ kind = .page)) ∨ (role ≠ .producer ∧ acc = .read)) ∧
  (opKind .streamRead = some (.stream, .read) ∧ opKind .pageRead = some (.page, .read) ∧
    (∃ d, opKind .streamWrite = some (.stream, .write d)) ∧ (∃ d, opKind .pageWrite = some (.page, .write d)) ∧
    ∀ op : SerialOp, op = .statusOnly ∨ op = .controlRead ∨ op = .controlWrite ∨ op = .withdraw → opKind op = none)

/-- POP through a parallel port's window bound to a reader (R32, R33, R148, R151, R156, R157): DATA is driven; END drives the fill word;
EMPTY waits under WAIT, and under NOWAIT drives the fill word with UNDERRUN. -/
def Obligations.ParallelPopByItsAnswer : Prop :=
  ∀ (s : State) (p : ParPort) (w : Fin 8) (offset : Nat) (i : Fin 32) (slot : Fin 4),
    s.accessGranted p.toPort w .read offset → s.bound p.toPort w .stream i → (s.att i).role = .reader slot →
    let q := p.toPort
    let t := s.dataTaken q
    (∀ d, s.judgePop i = .data d →
      exec (.pop q) s = .next (placeStartCheck (answerCycle p .read d (popAct i t)))) ∧
    (s.judgePop i = .ended → exec (.pop q) s = .next (placeStartCheck (answerFill p .read (reportEnd i t)))) ∧
    (s.judgePop i = .empty → (s.window q w).waitPolicy = .wait →
      exec (.pop q) s = .next (placeStartCheck
        ((t.setWaiting p (some ⟨w, ⟨(s.att i).gen, i⟩, .read⟩)).setPar p
          { s.parUnit p with cycleState := .waiting, stallTimer := (s.parUnit p).stallLimit }))) ∧
    (s.judgePop i = .empty → (s.window q w).waitPolicy = .nowait →
      exec (.pop q) s = .next (placeStartCheck (answerFill p .read
        (post q .underrun (some (s.att i).ring) (some ⟨(s.att i).gen, i⟩) (word w.val) t))))

/-- PUSH through a parallel port's window bound to the producer (R28, R148, R151, R156, R157): STORED; EXHAUSTED with WRITE_REFUSED;
BLOCKED waits under WAIT, and under NOWAIT is discarded with WRITE_REFUSED. When a push is which (R6, R28): EXHAUSTED exactly on a ONE_PASS
ring at write position C, BLOCKED exactly on a CIRCULAR ring with a HOLD reader of fill plus reserved equal to C, else STORED. -/
def Obligations.ParallelPushByItsAnswer : Prop :=
  (∀ (s : State) (p : ParPort) (w : Fin 8) (offset : Nat) (d : Word) (i : Fin 32),
    s.accessGranted p.toPort w (.write d) offset → s.bound p.toPort w .stream i → (s.att i).role = .producer →
    let q := p.toPort
    let r := (s.att i).ring
    let t := s.dataTaken q
    (s.judgePush r = .stored →
      exec (.push q) s = .next (placeStartCheck (answerCycle p (.write d) 0 (pushAct r false d t)))) ∧
    (s.judgePush r = .exhausted →
      exec (.push q) s = .next (placeStartCheck (answerFill p (.write d)
        (post q .writeRefused (some r) (some ⟨(s.att i).gen, i⟩) (word (w.val + 256)) t)))) ∧
    (s.judgePush r = .blocked → (s.window q w).waitPolicy = .wait →
      exec (.push q) s = .next (placeStartCheck
        ((t.setWaiting p (some ⟨w, ⟨(s.att i).gen, i⟩, .write d⟩)).setPar p
          { s.parUnit p with cycleState := .waiting, stallTimer := (s.parUnit p).stallLimit }))) ∧
    (s.judgePush r = .blocked → (s.window q w).waitPolicy = .nowait →
      exec (.push q) s = .next (placeStartCheck (answerFill p (.write d)
        (post q .writeRefused (some r) (some ⟨(s.att i).gen, i⟩) (word w.val) t))))) ∧
  (∀ (s : State) (r : Fin 16),
    let g := s.ring r
    let spent : Prop := g.mode = .onePass ∧ g.writePos = g.capacity
    let held : Prop := g.mode = .circular ∧
      ∃ h, (g.slots.one = some h ∨ g.slots.two = some h ∨ g.slots.three = some h) ∧ (s.att h.index).policy = .hold ∧
        (s.att h.index).fill + g.reserved = g.capacity
    (s.judgePush r = .exhausted ↔ spent) ∧ (s.judgePush r = .blocked ↔ held) ∧ (s.judgePush r = .stored ↔ ¬spent ∧ ¬held))

/-- PAGE_WINDOW_READ and PAGE_WINDOW_WRITE on a parallel port (R146, R147, R149, R150, R156): below the capacity the ring word is read or
stored and the attachment's lease renewed, with no cursor moved and no record; at or above it the access faults. -/
def Obligations.ParallelPageAccessByItsOffset : Prop :=
  ∀ (s : State) (p : ParPort) (w : Fin 8) (offset : Nat) (i : Fin 32), s.bound p.toPort w .page i →
    let q := p.toPort
    let r := (s.att i).ring
    let t := s.dataTaken q
    let renewed (t : State) : State := t.setAtt i { s.att i with leaseRemaining := (s.att i).leasePeriod }
    let faulted (t : State) : State :=
      post q .windowFault (some r) (some ⟨(s.att i).gen, i⟩) (word (w.val + 256 * 5)) t
    (s.accessGranted q w .read offset → offset < (s.ring r).capacity →
      exec (.pageWindowRead q) s = .next (placeStartCheck
        (answerCycle p .read (s.mem.read ((s.ring r).address offset)) (renewed t)))) ∧
    (s.accessGranted q w .read offset → (s.ring r).capacity ≤ offset →
      exec (.pageWindowRead q) s = .next (placeStartCheck (answerFill p .read (faulted t)))) ∧
    (∀ d, s.accessGranted q w (.write d) offset → (s.att i).role = .producer → offset < (s.ring r).capacity →
      exec (.pageWindowWrite q) s = .next (placeStartCheck
        (answerCycle p (.write d) 0 (renewed (t.setMem (s.mem.write ((s.ring r).address offset) d)))))) ∧
    (∀ d, s.accessGranted q w (.write d) offset → (s.att i).role = .producer → (s.ring r).capacity ≤ offset →
      exec (.pageWindowWrite q) s = .next (placeStartCheck (answerFill p (.write d) (faulted t))))

/-- POP, PUSH and the page accesses on a serial port (R169, R171, R173, R174): a word answered with data is shifted out, a word stored is
completed; EMPTY, END, FULL, EXHAUSTED and the window faults (R146) become the condition, if it is the frame's first, and make the frame
inert, a read then shifting the fill word. When select was released while the access was pending, the frame ends at this grant, a read
word answered with data is TORN, and the status word is formed (R167, R172). -/
def Obligations.SerialWordAccessByItsAnswer : Prop :=
  ∀ (s : State) (p : SerPort) (w : Fin 8) (offset : Nat), (s.serUnit p).phase = .data →
    let q := p.toPort
    let u := s.serUnit p
    let t := s.dataTaken q
    let closed (y : SerialUnit) (t : State) : State :=
      let c : Condition := if y.wordNow = .data ∧ y.condition = .ok then .torn else y.condition
      if u.selectHeld = true then t.setSer p y
      else t.setSer p
        { y with
          phase := .idle, op := none, wordNow := .none, withdrawn := false, condition := c,
          status := ⟨c, y.completed, !(t.port q).queue.isEmpty, (t.port q).cmd.state == .inFlight⟩ }
    let shifted (d : Word) (t : State) : State := closed { u with wordNow := .data } (t.setDataOut q d)
    let stored (t : State) : State := closed { u with completed := u.completed + 1 } t
    let failed (c : Condition) (t : State) : State :=
      closed { u with inert := true, condition := if u.condition = .ok then c else u.condition } t
    (∀ i, s.accessGranted q w .read offset → s.bound q w .stream i → u.op = some .streamRead →
      (∃ n, (s.att i).role = .reader n) →
      (∀ d, s.judgePop i = .data d → exec (.pop q) s = .next (placeStartCheck (shifted d (popAct i t)))) ∧
      (s.judgePop i = .empty →
        exec (.pop q) s = .next (placeStartCheck (failed .empty (t.setDataOut q (s.port q).fillWord)))) ∧
      (s.judgePop i = .ended →
        exec (.pop q) s = .next (placeStartCheck (failed .ended ((reportEnd i t).setDataOut q (s.port q).fillWord))))) ∧
    (∀ i d, s.accessGranted q w (.write d) offset → s.bound q w .stream i → u.op = some .streamWrite →
      (s.att i).role = .producer →
      (s.judgePush (s.att i).ring = .stored →
        exec (.push q) s = .next (placeStartCheck (stored (pushAct (s.att i).ring false d t)))) ∧
      (s.judgePush (s.att i).ring = .blocked → exec (.push q) s = .next (placeStartCheck (failed .full t))) ∧
      (s.judgePush (s.att i).ring = .exhausted → exec (.push q) s = .next (placeStartCheck (failed .exhausted t)))) ∧
    (∀ i, s.accessGranted q w .read offset → s.bound q w .page i → u.op = some .pageRead →
      offset < (s.ring (s.att i).ring).capacity →
      exec (.pageWindowRead q) s = .next (placeStartCheck
        (shifted (s.ringWord (s.att i).ring offset) (t.setAtt i { s.att i with leaseRemaining := (s.att i).leasePeriod })))) ∧
    (∀ i d, s.accessGranted q w (.write d) offset → s.bound q w .page i → u.op = some .pageWrite →
      (s.att i).role = .producer → offset < (s.ring (s.att i).ring).capacity →
      exec (.pageWindowWrite q) s = .next (placeStartCheck
        (stored ((t.setMem (s.mem.write ((s.ring (s.att i).ring).address offset) d)).setAtt i
          { s.att i with leaseRemaining := (s.att i).leasePeriod })))) ∧
    (∀ (c : Instr) (op : SerialOp) (kind : WindowKind) (acc : BusAccess) (reason : Condition),
      s.accessGranted q w acc offset → u.op = some op →
      (c = .pop q ∧ op = .streamRead ∧ kind = .stream ∧ acc = .read) ∨
        (c = .push q ∧ op = .streamWrite ∧ kind = .stream ∧ acc ≠ .read) ∨
        (c = .pageWindowRead q ∧ op = .pageRead ∧ kind = .page ∧ acc = .read) ∨
        (c = .pageWindowWrite q ∧ op = .pageWrite ∧ kind = .page ∧ acc ≠ .read) →
      (reason = .noWindow ∧ (s.window q w).enabled = false) ∨
        (reason = .staleHandle ∧ (s.window q w).enabled = true ∧ s.currentIndex (s.window q w).handleWord = none) ∨
        (∃ i, (s.window q w).enabled = true ∧ s.currentIndex (s.window q w).handleWord = some i ∧
          ((reason = .notHolder ∧ (s.att i).holder ≠ .port q) ∨
            (reason = .wrongRole ∧ (s.att i).holder = .port q ∧ roleSuits (s.att i).role kind acc = false) ∨
            (reason = .outOfRing ∧ (s.att i).holder = .port q ∧ roleSuits (s.att i).role kind acc = true ∧ kind = .page ∧
              (s.ring (s.att i).ring).capacity ≤ offset))) →
      exec c s = .next (placeStartCheck
        (failed reason (if acc = .read then t.setDataOut q (s.port q).fillWord else t))))

/-- A window access that fails a check on a parallel port (R146, R147): the reasons in their order, the fill word or nothing, and
WINDOW_FAULT; no ring, attachment, memory word or lease is reached. R190 codes STALE_HANDLE 2, NOT_HOLDER 3, WRONG_ROLE 4; the reason
NO_WINDOW, which R146 says is not met on a parallel port and R190 does not list, is the model's own code 1 (assumption 25). What a handle
word names (R20, R188): attachment i exactly when the word is 32 times its generation plus i and record i is in use; a word above 255 is
stale. -/
def Obligations.ParallelWindowFaultReachesNoRing : Prop :=
  (∀ (s : State) (p : ParPort) (w : Fin 8) (acc : BusAccess) (offset : Nat) (c : Instr) (reason : WindowReason),
    s.accessGranted p.toPort w acc offset →
    let x := s.window p.toPort w
    ((c = .pop p.toPort ∧ acc = .read ∧ x.kind = .stream) ∨
      (c = .push p.toPort ∧ acc ≠ .read ∧ x.kind = .stream) ∨
      (c = .pageWindowRead p.toPort ∧ acc = .read ∧ x.kind = .page) ∨
      (c = .pageWindowWrite p.toPort ∧ acc ≠ .read ∧ x.kind = .page)) →
    ((reason = .noWindow ∧ x.enabled = false) ∨
      (reason = .staleHandle ∧ x.enabled = true ∧ s.currentIndex x.handleWord = none) ∨
      (∃ i, x.enabled = true ∧ s.currentIndex x.handleWord = some i ∧
        ((reason = .notHolder ∧ (s.att i).holder ≠ .port p.toPort) ∨
          (reason = .wrongRole ∧ (s.att i).holder = .port p.toPort ∧ roleSuits (s.att i).role x.kind acc = false)))) →
    exec c s = .next (placeStartCheck (answerFill p acc
      (post p.toPort .windowFault
        ((s.currentIndex x.handleWord).map (fun i => (s.att i).ring)) (handleOfWord x.handleWord)
        (word (w.val + 256 * reason.code)) (s.dataTaken p.toPort))))) ∧
  (∀ (s : State) (v : Word) (i : Fin 32),
    (s.currentIndex v = some i ↔ (s.att i).inUse = true ∧ v.toNat = 32 * (s.att i).gen.val + i.val) ∧
      (255 < v.toNat → s.currentIndex v = none)) ∧
  (∀ (s : State) (h : Handle), s.current h = true ↔ (s.att h.index).inUse = true ∧ (s.att h.index).gen = h.gen) ∧
  (∀ (v : Word) (h : Handle), handleOfWord v = some h ↔ v.toNat = 32 * h.gen.val + h.index.val) ∧
  (WindowReason.code .staleHandle = 2 ∧ WindowReason.code .notHolder = 3 ∧ WindowReason.code .wrongRole = 4 ∧
    WindowReason.code .outOfRing = 5)

/-- WAITING_ACCESS_ANSWER (R158): a satisfiable waiting access is taken there and then as a pop or push, leaves the list, its cycle is
ANSWERED with the word, and the examination goes on. The examination of one port's access: judged when its attachment is current, is on
the ring, and is not due to expire (assumption 26); a pop answered END ends with the fill word (R160); an access that cannot be answered
stays. The re-examination (R66, R158): port A, then port B, until neither is satisfiable; a push stored and a pop delivered end with it. The
waiting accesses of an attachment that goes (R79, R160) leave the list without data: no record, no lease renewed, nothing stored. -/
def Obligations.WaitingAccessIsAnsweredWhenSatisfiable : Prop :=
  (∀ (s : State) (p : ParPort) (x : WaitingAccess), s.calm → s.waitingAt p = some x → s.current x.handle = true →
    let i := x.handle.index
    let r := (s.att i).ring
    (∀ d, x.acc = .read → s.judgePop i = .data d →
      exec (.waitingAccessAnswer p) s = .next (placeStartCheck
        (reexamine r (answerCycle p .read d (takePop i (s.setWaiting p none)))))) ∧
    (∀ d, x.acc = .write d → s.judgePush r = .stored →
      exec (.waitingAccessAnswer p) s = .next (placeStartCheck
        (reexamine r (answerCycle p (.write d) 0 (storePush r false d (s.setWaiting p none))))))) ∧
  (∀ (s : State) (r : Fin 16) (p : ParPort),
    (s.waitingAt p = none → examineWaiting r p s = s) ∧
    (∀ x, s.waitingAt p = some x →
      let i := x.handle.index
      let taken := s.setWaiting p none
      let judged : Prop := s.current x.handle = true ∧ (s.att i).ring = r ∧
        ¬((s.att i).inUse = true ∧ 0 < (s.att i).leasePeriod ∧ (s.att i).leaseRemaining = 0)
      (¬judged → examineWaiting r p s = s) ∧
      (judged → x.acc = .read →
        (∀ d, s.judgePop i = .data d → examineWaiting r p s = answerCycle p .read d (takePop i taken)) ∧
        (s.judgePop i = .ended → examineWaiting r p s = answerFill p .read (reportEnd i taken)) ∧
        (s.judgePop i = .empty → examineWaiting r p s = s)) ∧
      (∀ d, judged → x.acc = .write d →
        (s.judgePush r = .stored → examineWaiting r p s = answerCycle p (.write d) 0 (storePush r false d taken)) ∧
        (s.judgePush r ≠ .stored → examineWaiting r p s = s)))) ∧
  (∀ (s : State) (r : Fin 16),
    reexamine r s = examineWaiting r .a (examineWaiting r .b (examineWaiting r .a s)) ∧
      ∀ p, examineWaiting r p (reexamine r s) = reexamine r s) ∧
  (∀ (s : State) (r : Fin 16) (ofFrame : Bool) (d : Word) (i : Fin 32),
    pushAct r ofFrame d s = reexamine r (storePush r ofFrame d s) ∧
      (∀ v, s.judgePop i = .data v → popAct i s = reexamine (s.att i).ring (takePop i s)) ∧
      (s.judgePop i = .ended → popAct i s = reportEnd i s) ∧ (s.judgePop i = .empty → popAct i s = s)) ∧
  (∀ (s : State) (h : Handle),
    endWaitingOf h s = [ParPort.a, .b].foldl
      (fun u p =>
        match u.waitingAt p with
        | some x => if x.handle = h then answerFill p x.acc (u.setWaiting p none) else u
        | none => u) s)

/-- A stored push (R4, R5, R29, R58): exactly one word of the sample memory changes, the one at the write position; the ring's position,
valid and reserved move; ring state, pages, producer and slots, the page map, the arbiter, the timebase and the
pacers stay. Ring index n is word n of the run of pages, and a ring word the sample memory word there (R2, R58). That
the memory keeps the model's canonical form, and that an address is cut to 15 bits, is the model's choice (assumption 10). -/
def Obligations.StoredPushWritesOneWord : Prop :=
  (∀ (s : State) (r : Fin 16) (n : Nat),
    (s.ring r).address n = (256 * (s.ring r).firstPage.val + n) % 32768 ∧ s.ringWord r n = s.mem.read ((s.ring r).address n)) ∧
  ∀ (s : State) (r : Fin 16) (ofFrame : Bool) (d : Word), s.mem.wf = true →
    let g := s.ring r
    let t := storePush r ofFrame d s
    t.mem.read (g.address g.writePos) = d ∧ (∀ a, a ≠ g.address g.writePos → t.mem.read a = s.mem.read a) ∧
      t.mem.wf = true ∧
      t.ring r =
        { g with
          writePos := if g.mode = .circular ∧ g.writePos + 1 = g.capacity then 0 else g.writePos + 1
          valid := if g.mode = .circular ∧ g.valid = g.capacity then g.valid else g.valid + 1
          reserved := if ofFrame = true then g.reserved - 1 else g.reserved } ∧
      (∀ r', r' ≠ r → t.ring r' = s.ring r') ∧ t.pageMap = s.pageMap ∧ t.arb = s.arb ∧ t.waiting = s.waiting ∧
      t.timebase = s.timebase ∧ t.pacers = s.pacers ∧ t.par = s.par ∧ t.ser = s.ser ∧
      (∀ i, i ∉ s.readers r → (s.ring r).producer.map (·.index) ≠ some i → t.att i = s.att i)

/-- A pop (R26, R32, R33, R47 to R49): the word at the read index, or at its bit-reversed place in a block; the cursor, lag reported and the
lease of the reader; SPACE_READY to the producer's holder on a crossing (R39); END on a SEALED ring and EMPTY on any other when there is
nothing to deliver. END_OF_STREAM (R34): to the reader's holder, or its entry's owner, once, with the reader's ring and handle and the seal
cause. A retry notice (R125): the WAITING entry that holds the producer is ARMED when the space rises. Ring records, memory, the other
attachments and the other entries stay. -/
def Obligations.PopMovesOnlyItsReader : Prop :=
  ∀ (s : State) (i : Fin 32),
    let told (x : Attachment) (j : Fin 32) (k : EventKind) (d : Word) (u : State) : State :=
      match (match x.holder with
        | .port q => some q
        | .entry e => (s.move e).owner) with
      | some q => post q k (some x.ring) (some ⟨x.gen, j⟩) d u
      | none => u
    let x := s.att i
    let g := s.ring x.ring
    let t := takePop i s
    let start := if g.mode = .circular then (g.writePos + g.capacity - x.fill) % g.capacity else g.writePos - x.fill
    let takes : Prop :=
      (x.order = .natural ∧ 0 < x.fill) ∨ (x.order = .reversedBlock ∧ (0 < x.progress ∨ 2 ^ x.blockExp ≤ x.fill))
    let ended : State :=
      if x.endReported = true then s
      else told x i .endOfStream
        (match g.sealCause with
          | none => 0
          | some .sealedByProducer => 1
          | some .producerLost => 2
          | some .sourceEnded => 3) (s.setAtt i { x with endReported := true })
    (x.order = .natural → 0 < x.fill →
      s.judgePop i = .data (s.mem.read (g.address start)) ∧
        t.att i = { x with fill := x.fill - 1, lagReported := false, leaseRemaining := x.leasePeriod }) ∧
    (x.order = .reversedBlock → 0 < x.progress ∨ 2 ^ x.blockExp ≤ x.fill →
      s.judgePop i = .data (s.mem.read (g.address (start + reverseBits x.blockExp x.progress))) ∧
        t.att i =
          { x with
            fill := if x.progress + 1 = 2 ^ x.blockExp then x.fill - 2 ^ x.blockExp else x.fill
            progress := if x.progress + 1 = 2 ^ x.blockExp then 0 else x.progress + 1
            lagReported := false
            leaseRemaining := x.leasePeriod }) ∧
    (∀ h, takes → g.producer = some h → h.index ≠ i → (s.att h.index).role = .producer →
      t.ports =
        (if s.space x.ring < (s.att h.index).threshold ∧ (s.att h.index).threshold ≤ t.space x.ring then
          told (s.att h.index) h.index .spaceReady (word (t.space x.ring)) s
        else s).ports) ∧
    (takes → g.producer = none → t.ports = s.ports) ∧
    (takes → ∀ e, t.move e =
      if (s.move e).state = .waiting ∧ s.space x.ring < t.space x.ring ∧
          (∃ h, g.producer = some h ∧ (s.att h.index).holder = .entry e) then { s.move e with state := .armed }
      else s.move e) ∧
    (¬takes → t.moves = s.moves) ∧
    (¬takes →
      (g.state = .sealed → s.judgePop i = .ended ∧ t = ended ∧ t.att i = { x with endReported := true }) ∧
      (g.state ≠ .sealed → s.judgePop i = .empty ∧ t = s)) ∧
    reportEnd i s = ended ∧
    t.rings = s.rings ∧ t.mem = s.mem ∧ t.pageMap = s.pageMap ∧ t.waiting = s.waiting ∧ t.par = s.par ∧ t.ser = s.ser ∧
    (∀ j, j ≠ i → t.att j = s.att j)

/-- A stored push brings each reader of the ring up to date (R29, R30, R51, R52): skip falls first; then fill rises up to C; at C a LOSSY
NATURAL reader drops one word, a LOSSY REVERSED_BLOCK reader its oldest block, and lag reported is set. Its records (R38 to R40): for each
reader in slot order, LAGGED for the first drop of a spell with the drop count after it, or DATA_READY when the fill crosses the
threshold, to its holder or its entry's owner, with its own ring and handle; then SPACE_READY to the producer's on a crossing. A retry
notice (R125): a WAITING entry is ARMED when its source reader's fill or its destination's space rises; the other entries stay. -/
def Obligations.PushBringsEachReaderUpToDate : Prop :=
  (∀ (s : State) (r : Fin 16) (ofFrame : Bool) (d : Word) (i : Fin 32), i ∈ s.readers r → (s.readers r).Nodup →
    (∀ h, (s.ring r).producer = some h → h.index ≠ i) →
    let x := s.att i
    let full : Prop := x.skip = 0 ∧ (s.ring r).capacity ≤ x.fill
    let y := (storePush r ofFrame d s).att i
    (0 < x.skip → y = { x with skip := x.skip - 1 }) ∧
    (x.skip = 0 → x.fill < (s.ring r).capacity → y = { x with fill := x.fill + 1 }) ∧
    (full → x.policy = .hold → y = x) ∧
    (full → x.policy = .lossy → x.order = .natural →
      y = { x with dropCount := min (x.dropCount + 1) 65535, lagReported := true }) ∧
    (full → x.policy = .lossy → x.order = .reversedBlock →
      y =
        { x with
          fill := x.fill - 2 ^ x.blockExp + 1
          dropCount := min (x.dropCount + 2 ^ x.blockExp) 65535
          progress := 0
          lagReported := true })) ∧
  (∀ (s : State) (r : Fin 16) (ofFrame : Bool) (d : Word), (s.readers r).Nodup → 0 < (s.ring r).capacity →
    (∀ i ∈ s.readers r, (s.att i).role ≠ .producer) →
    (∀ h, (s.ring r).producer = some h → h.index ∉ s.readers r ∧ (s.att h.index).role = .producer) →
    let told (x : Attachment) (j : Fin 32) (k : EventKind) (d : Word) (u : State) : State :=
      match (match x.holder with
        | .port q => some q
        | .entry e => (s.move e).owner) with
      | some q => post q k (some x.ring) (some ⟨x.gen, j⟩) d u
      | none => u
    let t := storePush r ofFrame d s
    let reader (u : State) (j : Fin 32) : State :=
      let x := s.att j
      if 0 < x.skip then u
      else if x.fill < (s.ring r).capacity then
        if x.threshold = x.fill + 1 then told x j .dataReady (word (x.fill + 1)) u else u
      else if x.policy = .lossy ∧ x.lagReported = false then
        told x j .lagged (word (min (x.dropCount + if x.order = .natural then 1 else 2 ^ x.blockExp) 65535)) u
      else u
    let u := (s.readers r).foldl reader s
    (∀ h, (s.ring r).producer = some h →
      t.ports =
        (if s.space r < (s.att h.index).threshold ∧ (s.att h.index).threshold ≤ t.space r then
          told (s.att h.index) h.index .spaceReady (word (t.space r)) u
        else u).ports) ∧
    ((s.ring r).producer = none → t.ports = u.ports) ∧
    (∀ e, t.move e =
      if (s.move e).state = .waiting ∧
          ((∃ j ∈ s.readers r, (s.att j).holder = .entry e ∧ (s.att j).skip = 0 ∧ (s.att j).fill < (s.ring r).capacity) ∨
            (s.space r < t.space r ∧ ∃ h, (s.ring r).producer = some h ∧ (s.att h.index).holder = .entry e)) then
        { s.move e with state := .armed }
      else s.move e))

/-- The producer space (R27): on a CIRCULAR ring C less the largest fill among its HOLD readers (0 with none) and less reserved; on a
ONE_PASS ring C less the write position. The readers of a ring are those in its slots, in slot order. A threshold T above 0 is crossed by
a level from below T to T or above (R38, R39): DATA_READY or SPACE_READY by the role, to the holder or its entry's owner, with the level
after it. When the space has risen from what it was, the producer's threshold is judged, and the WAITING entry that holds the producer is
ARMED (R39, R125). -/
def Obligations.ProducerSpaceIsFormed : Prop :=
  (∀ (s : State) (r : Fin 16),
    let g := s.ring r
    (g.mode = .onePass → s.space r = g.capacity - g.writePos) ∧
    (g.mode = .circular →
      ∃ m, s.space r = g.capacity - m - g.reserved ∧
        (∀ i ∈ s.readers r, (s.att i).policy = .hold → (s.att i).fill ≤ m) ∧
        (m = 0 ∨ ∃ i ∈ s.readers r, (s.att i).policy = .hold ∧ (s.att i).fill = m)) ∧
    g.capacity = 256 * g.pageCount ∧
    s.readers r = (g.slots.one.toList ++ g.slots.two.toList ++ g.slots.three.toList).map (·.index) ∧
    g.slots.occupied = (s.readers r).length) ∧
  (∀ (s : State) (i : Fin 32) (before after : Nat),
    let told (x : Attachment) (j : Fin 32) (k : EventKind) (d : Word) (u : State) : State :=
      match (match x.holder with
        | .port q => some q
        | .entry e => (s.move e).owner) with
      | some q => post q k (some x.ring) (some ⟨x.gen, j⟩) d u
      | none => u
    postCrossing i before after s =
      if before < (s.att i).threshold ∧ (s.att i).threshold ≤ after then
        told (s.att i) i (if (s.att i).role = .producer then .spaceReady else .dataReady) (word after) s
      else s) ∧
  (∀ (s : State) (r : Fin 16) (before : Nat),
    ((s.ring r).producer = none ∨ s.space r ≤ before → spaceChanged r before s = s) ∧
    (∀ h, (s.ring r).producer = some h → before < s.space r →
      let u := postCrossing h.index before (s.space r) s
      spaceChanged r before s =
        match (s.att h.index).holder with
        | .entry e => if (s.move e).state = .waiting then u.setMove e { s.move e with state := .armed } else u
        | .port _ => u))

/-- The departure of a producer that seals (R12, R13, R15, R62). With readers left, in the order of R12: the record freed and the field
emptied, SEALED with the cause, END_OF_STREAM to readers with nothing left, the re-examination, and the source-ended check of each ARMED or
WAITING entry whose source reads the ring, in ascending order. With no entry started the ring is SEALED and keeps its pages; with no access
waiting either, the records are an END_OF_STREAM to each reader of fill and skip 0 that was not told before, in slot order. With no reader
left the ring is freed and its pages go back. The record is free at its next generation. A seal that an ended source passes on is the
same operation; the number that bounds how often it does is the model's own (R129). -/
def Obligations.ProducerDepartureSealsOrFrees : Prop :=
  (∀ (depth : Nat) (s : State) (cause : SealCause) (i : Fin 32),
    let r := (s.att i).ring
    let g := s.ring r
    let gone := endWaitingOf ⟨(s.att i).gen, i⟩
      ((s.setRing r { g with producer := none }).setAtt i (Attachment.freed ((s.att i).gen + 1)))
    let told := (s.readers r).foldl (fun u j => if (u.att j).fill = 0 ∧ (u.att j).skip = 0 then reportEnd j u else u)
      (gone.setRing r { g with producer := none, state := .sealed, sealCause := some cause })
    (g.slots.occupied ≠ 0 →
      sealProducer (depth + 1) cause i s = (List.finRange 16).foldl
        (fun u e =>
          if (∃ h, (u.move e).source = some h ∧ u.current h = true ∧ (u.att h.index).ring = r) ∧
              ((u.move e).state = .armed ∨ (u.move e).state = .waiting) then
            sourceEndedCheckWith (sealProducer depth .sourceEnded) e u
          else u) (reexamine r told)) ∧
    (g.slots.occupied = 0 → sealProducer depth cause i s = freeIfEmpty r gone) ∧
    sealBy cause i s = sealProducer Config.sealDepth cause i s ∧ Config.sealDepth = 16) ∧
  (∀ (s : State) (cause : SealCause) (i : Fin 32),
    let told (x : Attachment) (j : Fin 32) (k : EventKind) (d : Word) (u : State) : State :=
      match (match x.holder with
        | .port q => some q
        | .entry e => (s.move e).owner) with
      | some q => post q k (some x.ring) (some ⟨x.gen, j⟩) d u
      | none => u
    (∀ e, (s.move e).state ≠ .armed ∧ (s.move e).state ≠ .waiting) →
    let r := (s.att i).ring
    let g := s.ring r
    let t := sealBy cause i s
    (t.att i).inUse = false ∧ (t.att i).gen = (s.att i).gen + 1 ∧
    (g.slots.occupied ≠ 0 →
      (t.ring r).state = .sealed ∧ (t.ring r).sealCause = some cause ∧ (t.ring r).producer = none ∧
        (t.ring r).slots = g.slots ∧ (t.ring r).mode = g.mode ∧ (t.ring r).access = g.access ∧
        (t.ring r).firstPage = g.firstPage ∧ (t.ring r).pageCount = g.pageCount ∧ t.pageMap = s.pageMap) ∧
    (g.slots.occupied ≠ 0 → s.waiting = ⟨none, none⟩ → (s.readers r).Nodup → i ∉ s.readers r →
      (∀ j ∈ s.readers r, (s.att j).ring = r) →
      t.ports = ((s.readers r).foldl
        (fun u j =>
          if (s.att j).fill = 0 ∧ (s.att j).skip = 0 ∧ (s.att j).endReported = false then
            told (s.att j) j .endOfStream
              (match cause with
                | .sealedByProducer => 1
                | .producerLost => 2
                | .sourceEnded => 3) u
          else u) s).ports) ∧
    (g.slots.occupied = 0 → g.state ≠ .free →
      t.ring r = Ring.freed ∧ t.mem = s.mem ∧
        ∀ q : Fin 128, tableGet t.pageMap q =
          if g.firstPage.val ≤ q.val ∧ q.val < g.firstPage.val + g.pageCount then none else tableGet s.pageMap q))

/-! ### Control words -/

/-- EVENT_ACKNOWLEDGE (R185) and the offer of a record (R182, R183): the head goes, EVENTS_LOST with the lost count is appended when records
were lost and its kind is subscribed, the lost count returns to 0; a record that is subscribed is appended below 16 and counted as
lost at 16. A kind is subscribed while its flag is set: bit n of mask word 0 for codes 1 to 15, bit n - 16 of mask word 1 for 16 to 18
(R182, R190). Notify is asserted exactly while the queue holds a record (R165, R179). -/
def Obligations.EventQueueOfferAndAcknowledge : Prop :=
  (∀ (s : State) (p : Port) (v : Word) (h : Event) (rest : List Event), s.calm → s.controlOpen p = true →
    (s.port p).dataReq = none → (s.port p).queue = h :: rest →
    let u := s.port p
    let lost : Event := ⟨.eventsLost, none, none, word u.lostCount, s.timebase.setWidth 16⟩
    exec (.eventAcknowledge p v) s = .next (placeStartCheck (s.setPort p
      { u with
        queue := if 0 < u.lostCount ∧ u.mask1.getLsbD 2 = true then rest ++ [lost] else rest
        lostCount := 0 }))) ∧
  (∀ (s : State) (p : Port) (v : Word), s.calm → s.controlOpen p = true → (s.port p).dataReq = none →
    (s.port p).queue = [] → exec (.eventAcknowledge p v) s = .next (placeStartCheck s)) ∧
  (∀ (s : State) (p : Port) (k : EventKind) (ring : Option (Fin 16)) (h : Option Handle) (d : Word),
    post p k ring h d s = s.setPort p
      (if (s.port p).subscribed k = false then s.port p
      else if (s.port p).queue.length < 16 then
        { s.port p with queue := (s.port p).queue ++ [⟨k, ring, h, d, s.timebase.setWidth 16⟩] }
      else { s.port p with lostCount := min ((s.port p).lostCount + 1) 65535 })) ∧
  (∀ (u : PortUnit) (k : EventKind),
    u.subscribed k = (if k.code ≤ 15 then u.mask0.getLsbD k.code else u.mask1.getLsbD (k.code - 16)) ∧ 1 ≤ k.code ∧ k.code ≤ 18) ∧
  (∀ u : PortUnit, u.notify = true ↔ u.queue ≠ [])

/-- TIMEBASE_LOW_READ (R134): the low word is returned, the port's latch takes the high word of the same count, the latches of the other
ports and everything else stay; a read of the high word returns the latch. CONTROL_WORD_WRITE (R87, R141, R142, R164, R182, R188): each
word that the map lets a host write takes the value, as its rule stores it; every other offset changes nothing, and so for the same write
in a cycle or a frame. When a host can make such an access: on a parallel port when it takes a cycle (R155), on a serial port outside the
four data frames (R170) and a frame made inert by a withdrawal (R177); that such an access is a command of its own, outside the cycle or
frame that carries it, is the model's choice (assumption 4). A read in a cycle or a frame latches as TIMEBASE_LOW_READ does, and has
no other effect. What each control word reads (R184, R188, R190), 0 at every offset not listed; and the layout of a window entry's four
words (R140, R188). -/
def Obligations.ControlWordsReadAndWrite : Prop :=
  (∀ (s : State) (p : Port), s.calm → s.controlOpen p = true → (s.port p).dataReq = none →
     ∃ t, exec (.timebaseLowRead p) s = .next (placeStartCheck t) ∧
       t = s.setPort p
         { s.port p with dataOut := s.timebase.setWidth 16, latchedHigh := (s.timebase >>> 16).setWidth 16 } ∧
       t.controlWord p 0x41 = (s.timebase >>> 16).setWidth 16) ∧
  (∀ (s : State) (p : Port) (v : Word), s.calm → s.controlOpen p = true → (s.port p).dataReq = none →
     let u := s.port p
     let writes (offset : BitVec 8) (t : State) : Prop :=
       controlWriteAct p offset.toNat v s = t ∧ exec (.controlWordWrite p offset v) s = .next (placeStartCheck t)
     writes 0x04 (s.setPort p { u with fillWord := v }) ∧
     (∀ q, p = ParPort.toPort q → 1 ≤ v.toNat → v.toNat ≤ 1023 →
       writes 0x05 (s.setPar q { s.parUnit q with stallLimit := v.toNat })) ∧
     ((v = 0 ∨ 1023 < v.toNat) ∨ p = .c ∨ p = .d → writes 0x05 s) ∧
     writes 0x06 (s.setPort p { u with mask0 := v &&& 0xFFFE }) ∧
     writes 0x07 (s.setPort p { u with mask1 := v &&& 0x0007 }) ∧
     (∀ k, 1 ≤ k → k ≤ 6 →
       writes (BitVec.ofNat 8 (0x10 + k)) (s.setPort p { u with cmd := { u.cmd with args := u.cmd.args.put k v } })) ∧
     (∀ w : Fin 8, ∀ k : Fin 4,
       writes (BitVec.ofNat 8 (0x20 + 4 * w.val + k.val))
         (s.setPort p { u with windows := tablePut u.windows w (windowWrite (tableGet u.windows w) k.val v) })) ∧
     (∀ offset : BitVec 8, offset.toNat < 0x04 ∨ (0x08 ≤ offset.toNat ∧ offset.toNat < 0x0C) ∨
       (0x0D ≤ offset.toNat ∧ offset.toNat < 0x10) ∨ (0x17 ≤ offset.toNat ∧ offset.toNat < 0x20) ∨ 0x40 ≤ offset.toNat →
       writes offset s) ∧
     ∀ n, 256 ≤ n → controlWriteAct p n v s = s ∧ s.controlWord p n = 0) ∧
  (∀ (s : State) (p : Port),
     let u := s.port p
     s.controlWord p 0x00 = 0x4A16 ∧ s.controlWord p 0x01 = 0x0100 ∧
     (∀ k, (u.cmd.state = .idle ∧ k = 0) ∨ (u.cmd.state = .inFlight ∧ k = 1) ∨ (u.cmd.state = .done ∧ k = 2) →
       s.controlWord p 0x02 = word (k + 256 * u.queue.length)) ∧
     s.controlWord p 0x03 = word u.lostCount ∧ s.controlWord p 0x04 = u.fillWord ∧
     (∀ q, p = ParPort.toPort q → s.controlWord p 0x05 = word (s.parUnit q).stallLimit) ∧
     (p = .c ∨ p = .d → s.controlWord p 0x05 = 0) ∧
     s.controlWord p 0x06 = u.mask0 ∧ s.controlWord p 0x07 = u.mask1 ∧
     (u.queue = [] → s.controlWord p 0x08 = 0xFF00 ∧ s.controlWord p 0x09 = 0xFFFF ∧ s.controlWord p 0x0A = 0 ∧
       s.controlWord p 0x0B = 0) ∧
     (∀ x rest, u.queue = x :: rest →
       s.controlWord p 0x08 = word (x.kind.code + 256 * (match x.ring with
         | some r => r.val
         | none => 255)) ∧
       s.controlWord p 0x09 = (match x.handle with
         | some h => word (32 * h.gen.val + h.index.val)
         | none => 0xFFFF) ∧
       s.controlWord p 0x0A = x.detail ∧ s.controlWord p 0x0B = x.stamp) ∧
     s.controlWord p 0x0C = 0 ∧ s.controlWord p 0x10 = u.cmd.commandWord ∧
     (s.controlWord p 0x11 = u.cmd.args.w1 ∧ s.controlWord p 0x12 = u.cmd.args.w2 ∧ s.controlWord p 0x13 = u.cmd.args.w3 ∧
       s.controlWord p 0x14 = u.cmd.args.w4 ∧ s.controlWord p 0x15 = u.cmd.args.w5 ∧ s.controlWord p 0x16 = u.cmd.args.w6) ∧
     s.controlWord p 0x17 = word u.cmd.resultCode.code ∧
     (s.controlWord p 0x18 = u.cmd.results.w1 ∧ s.controlWord p 0x19 = u.cmd.results.w2 ∧
       s.controlWord p 0x1A = u.cmd.results.w3 ∧ s.controlWord p 0x1B = u.cmd.results.w4) ∧
     (∀ w : Fin 8, ∀ k : Fin 4, s.controlWord p (0x20 + 4 * w.val + k.val) = windowWord (tableGet u.windows w) k.val) ∧
     s.controlWord p 0x40 = s.timebase.setWidth 16 ∧ s.controlWord p 0x41 = u.latchedHigh ∧
     (∀ n : Fin 4, s.controlWord p (0x44 + n.val) = word (s.pacer n).period) ∧
     (∀ n, (0x0D ≤ n ∧ n ≤ 0x0F) ∨ (0x1C ≤ n ∧ n ≤ 0x1F) ∨ n = 0x42 ∨ n = 0x43 ∨ 0x48 ≤ n → s.controlWord p n = 0)) ∧
  (∀ (s : State) (p : Port) (n : Nat),
     controlReadAct p n s =
       (if n = 0x40 then s.setPort p { s.port p with latchedHigh := (s.timebase >>> 16).setWidth 16 } else s) ∧
     (∀ q, p = ParPort.toPort q → (s.controlOpen p = true ↔ (s.parUnit q).takesCycle = true)) ∧
     ∀ q, p = SerPort.toPort q → (s.controlOpen p = true ↔ (s.serUnit q).withdrawn = false ∧
       ∀ op, (s.serUnit q).op = some op → op ≠ .streamRead ∧ op ≠ .streamWrite ∧ op ≠ .pageRead ∧ op ≠ .pageWrite)) ∧
  (∀ (x : Window) (v : Word),
     windowWord x 0 = word (x.base.toNat + 4096 * x.sizeExp.toNat) ∧ windowWord x 1 = x.handleWord ∧
     windowWord x 2 = word ((if x.enabled = true then 1 else 0) + (if x.kind = .page then 2 else 0)
       + if x.waitPolicy = .nowait then 4 else 0) ∧
     windowWord x 3 = 0 ∧
     windowWrite x 0 v = { x with base := v.setWidth 12, sizeExp := (v >>> 12).setWidth 4 } ∧
     windowWrite x 1 v = { x with handleWord := v } ∧
     windowWrite x 2 v =
       { x with
         enabled := v.getLsbD 0
         kind := if v.getLsbD 1 = true then .page else .stream
         waitPolicy := if v.getLsbD 2 = true then .nowait else .wait } ∧
     windowWrite x 3 v = x) ∧
  [EventKind.commandDone, .commandRefused, .dataReady, .spaceReady, .endOfStream, .lagged, .peerLost, .leaseExpired, .stallTimeout,
    .underrun, .writeRefused, .windowFault, .unmappedAccess, .cycleAbandoned, .moveDone, .moveHalted, .triggerMissed,
    .eventsLost].map EventKind.code = (List.range 18).map (· + 1)

/-- COMMAND_SUBMIT and WITHDRAW (R88, R89, R93, R94): accepted with nothing in flight; refused with COMMAND_REFUSED while a command is in
flight, and any word but WITHDRAW while a withdrawal is; WITHDRAW raises the withdrawal or is joined to the one pending. -/
def Obligations.SubmitIsAcceptedRefusedOrJoined : Prop :=
  ∀ (s : State) (p : Port) (w : Word), s.calm → s.controlOpen p = true → (s.port p).dataReq = none →
    let u := s.port p
    let refused (w : Word) : State := post p .commandRefused none none w s
    (u.cmd.inFlight = .nothing → w ≠ 0x001F →
      exec (.commandSubmit p w) s = .next (placeStartCheck (s.setPort p
        { u with
          cmd := { u.cmd with state := .inFlight, argCopy := u.cmd.args, inFlight := .command w, commandWord := w } }))) ∧
    (∀ c, u.cmd.inFlight = .command c →
      exec (.commandSubmit p w) s = .next (placeStartCheck (refused w)) ∧
        exec (.withdraw p) s = .next (placeStartCheck (refused 0x001F))) ∧
    (∀ b, u.cmd.inFlight = .withdrawal b →
      (w ≠ 0x001F → exec (.commandSubmit p w) s = .next (placeStartCheck (refused w))) ∧
        exec (.withdraw p) s = .next (placeStartCheck (s.setPort p
          { u with cmd := { u.cmd with inFlight := .withdrawal true, commandWord := 0x001F } }))) ∧
    (u.cmd.inFlight = .nothing →
      ∃ t, exec (.withdraw p) s = .next t ∧ (t.port p).cmd.state = .inFlight ∧ (t.port p).cmd.inFlight = .withdrawal true ∧
        (t.port p).cmd.commandWord = 0x001F ∧ (t.port p).cmd.args = u.cmd.args ∧ (t.port p).cmd.results = u.cmd.results ∧
        (t.port p).queue = u.queue ∧ t.rings = s.rings ∧ t.atts = s.atts ∧ t.mem = s.mem ∧ t.moves = s.moves ∧
        t.arb = s.arb ∧ t.timebase = s.timebase ∧ ∀ q, q ≠ p → t.port q = s.port q)

/-! ### Withdrawal -/

/-- WITHDRAWAL at its grant (R82, R95, R154, R166, R177): the port's private state returns to its reset values, with COMMAND_DONE as the one
record of the emptied queue when it is answered as WITHDRAW; a serial frame in progress keeps its phase and goes on inert, and a parallel
cycle answered since the withdrawal arose stays (R162); timebase, pacers, divider and the other ports' settings stay. The pointer names
the port's command requester, as R65 sets it at every grant; that R82 leaves it where this grant set it is the model's reading
(assumption 29). -/
def Obligations.WithdrawalResetsThePortsPrivateState : Prop :=
  ∀ (s : State) (p : Port) (asCommand : Bool), s.calm → s.nextGrant = some (.command p) →
    (s.port p).cmd.inFlight = .withdrawal asCommand →
    ∃ t, exec (.withdrawal p) s = .next t ∧ (∀ w, t.window p w = Window.cleared) ∧ (t.port p).fillWord = 0 ∧
      (t.port p).latchedHigh = 0 ∧ (t.port p).mask0 = 0xFFFE ∧ (t.port p).mask1 = 0x0007 ∧ (t.port p).lostCount = 0 ∧
      (t.port p).queue =
        (if asCommand = true then [⟨.commandDone, none, none, 0x001F, s.timebase.setWidth 16⟩] else []) ∧
      (t.port p).cmd =
        (if asCommand = true then { CommandUnit.cleared with state := .done, commandWord := 0x001F } else CommandUnit.cleared) ∧
      (∀ q, p = ParPort.toPort q → (t.parUnit q).stallLimit = 255 ∧
        (s.waitingAt q = none → t.parUnit q = { s.parUnit q with stallLimit := 255 })) ∧
      (∀ q, p = SerPort.toPort q → (t.serUnit q).op = none ∧ (t.serUnit q).window = 0 ∧ (t.serUnit q).count = 0 ∧
        (t.serUnit q).address = 0 ∧ (t.serUnit q).wordIndex = 0 ∧ (t.serUnit q).condition = .ok ∧
        (t.serUnit q).completed = 0 ∧ (t.serUnit q).status = ⟨.ok, 0, asCommand, false⟩ ∧
        (t.serUnit q).phase = (s.serUnit q).phase ∧ (t.serUnit q).selectHeld = (s.serUnit q).selectHeld ∧
        ((t.serUnit q).inert = true ↔ (s.serUnit q).phase ≠ .idle)) ∧
      t.arb = .command p ∧ t.timebase = s.timebase ∧ t.divider = s.divider ∧ t.tickDue = s.tickDue ∧ t.pacers = s.pacers ∧
      (∀ q, q ≠ p → (t.port q).settings = (s.port q).settings)

/-- After the grant of a withdrawal the port holds no attachment (R82, step 1; R44), from any state, and of its entries each that was not
RUNNING is EMPTY and each that was RUNNING has unload pending (R82, step 2; R84, R132). The grant's first two steps, written out: the port's
attachments in ascending index order, then its entries in ascending entry order, source reader before destination producer; each loss
tells PEER_LOST with cause WITHDRAWN to those that do not go with the withdrawal as R83 lists them (assumption 27), then detaches a reader,
or seals a producer's ring with PRODUCER_LOST. -/
def Obligations.WithdrawalLeavesThePortNoAttachment : Prop :=
  (∀ (s t : State) (p : Port), s.calm → s.nextGrant = some (.command p) → s.withdrawalPending p = true →
    exec (.withdrawal p) s = .next t →
    (∀ i, ¬((t.att i).inUse = true ∧ (t.att i).holder = .port p)) ∧
    (∀ e, (s.move e).owner = some p → (s.move e).state ≠ .running → t.move e = MoveEntry.cleared) ∧
    (∀ e, (s.move e).owner = some p → (s.move e).state = .running → t.move e = { s.move e with unloadPending := true })) ∧
  (∀ (s : State) (p : Port), s.calm → s.nextGrant = some (.command p) → s.withdrawalPending p = true →
    let goes (v : State) (x : Attachment) : Bool :=
      match x.holder with
      | .port q => q == p
      | .entry e => (v.move e).owner == some p && (v.move e).state != .running
    let lose (v : State) (i : Fin 32) (u : State) : State :=
      let told := postPeerLost i true (fun x => !goes v x) u
      match (told.att i).role with
      | .reader _ => detachReader i told
      | .producer => sealBy .producerLost i told
    let loseIf (v : State) (h : Option Handle) (u : State) : State :=
      match h with
      | some h => lose v h.index u
      | none => u
    let s0 := s.commandTaken p
    let s1 := (List.finRange 32).foldl
      (fun u i => if (u.att i).inUse = true ∧ (u.att i).holder = .port p then lose s0 i u else u) s0
    let s2 := (List.finRange 16).foldl
      (fun u e =>
        if (u.move e).owner = some p then
          if (u.move e).state = .running then u.setMove e { u.move e with unloadPending := true }
          else
            let v := loseIf s1 (u.move e).source u
            (loseIf s1 (v.move e).dest v).setMove e MoveEntry.cleared
        else u) s1
    ∃ t, exec (.withdrawal p) s = .next t ∧ t.rings = s2.rings ∧ t.atts = s2.atts ∧ t.moves = s2.moves ∧
      t.pageMap = s2.pageMap ∧ t.mem = s2.mem ∧ t.waiting = s2.waiting ∧ t.frame = s2.frame ∧ t.rotation = s2.rotation ∧
      ∀ q, q ≠ p → t.port q = s2.port q)

/-! ### Commands -/

/-- BAD_COMMAND (R90, R91, R92): a word that is no command code is answered with the code, four result words of 0xFFFF and COMMAND_DONE,
and nothing else changes. The end of every command's grant: result code and words, DONE, nothing in flight, then COMMAND_DONE with the
command's ring and handle, the code in the high byte of its detail and the low byte of the command word in the low (R190). The command codes
and the result codes are R189's. -/
def Obligations.BadCommandIsAnswered : Prop :=
  (∀ (s : State) (p : Port) (w : Word), s.commandGranted p w → w ∉ commandCodes →
    exec (.badCommand p) s = .next (placeStartCheck
      (post p .commandDone none none (word (256 + (s.port p).cmd.commandWord.toNat % 256))
        ((s.commandTaken p).setPort p
          { s.port p with
            cmd := { (s.port p).cmd with
              state := .done, inFlight := .nothing, resultCode := .badCommand,
              results := ⟨0xFFFF, 0xFFFF, 0xFFFF, 0xFFFF⟩ } })))) ∧
  (∀ (p : Port) (x : CommandAnswer),
    let u := x.after.port p
    finishCommand p x =
      post p .commandDone x.ring x.handle (word (256 * x.code.code + u.cmd.commandWord.toNat % 256))
        (x.after.setPort p
          { u with
            cmd := { u.cmd with state := .done, inFlight := .nothing, resultCode := x.code, results := x.results } })) ∧
  commandCodes = [0x0001, 0x0002, 0x0003, 0x0004, 0x0005, 0x0006, 0x0007, 0x0010, 0x0011, 0x0012, 0x0013, 0x0014, 0x0018, 0x001F] ∧
  [ResultCode.ok, .badCommand, .badArg, .badRing, .badHandle, .noRing, .noSpace, .noAttach, .roleTaken, .noReaderSlot,
    .notPermitted, .ringSealed, .notOwner, .entryBusy, .noEntry].map ResultCode.code = List.range 15

/-- CREATE_RING when its checks pass (R10, R23, R60, R97 to R99): the lowest FREE record, the first-fit run, the creator's attachment in the
lowest free record, the threshold comparison from 0, and the results. Its checks in their order: BAD_ARG, NO_RING, NO_ATTACH,
NO_SPACE. What its operand words hold (R8, R96, R189): the ring word with its zero fields, the attach word with its ignored bits, and which
access list entries permit which role. -/
def Obligations.CreateRingMakesRingAndAttachment : Prop :=
  (∀ (s : State) (p : Port) (mode : RingMode) (access : Four AccessRight) (what : AttachWord) (r : Fin 16) (i : Fin 32)
    (q : Fin 128), s.commandGranted p codeCreateRing →
    let x := (s.port p).cmd.argCopy
    let n := x.w1.toNat
    decodeRingWord x.w2 = some (mode, access) → decodeAttachWord x.w3 = some what → 1 ≤ n → n ≤ 128 →
    x.w4.toNat ≤ 32768 → x.w5.toNat ≤ 16383 → permits (access.get p) what = true →
    (s.ring r).state = .free → (∀ r', r' < r → (s.ring r').state ≠ .free) →
    (s.att i).inUse = false → (∀ j, j < i → (s.att j).inUse = true) → firstFit s.pageMap n = some q →
    let h : Handle := ⟨(s.att i).gen, i⟩
    let made : Attachment := { Attachment.freed (s.att i).gen with
      inUse := true, ring := r, holder := .port p, threshold := x.w4.toNat, leasePeriod := x.w5.toNat,
      leaseRemaining := x.w5.toNat }
    let g : Ring := { Ring.freed with
      state := .opened, mode := mode, firstPage := q, pageCount := n, access := access }
    let t := (s.commandTaken p).setPageMap (markPages (some r) q.val n s.pageMap)
    let results : Results := ⟨word r.val, word (32 * (s.att i).gen.val + i.val), 0, 0⟩
    (what = .producer →
      exec (.createRing p) s = .next (placeStartCheck (finishCommand p
        ⟨reexamine r (postCrossing i 0 (256 * n)
          ((t.setAtt i { made with role := .producer }).setRing r { g with producer := some h })),
          .ok, results, some r, some h⟩))) ∧
    (∀ policy order b start, what = .reader policy order b start →
      exec (.createRing p) s = .next (placeStartCheck (finishCommand p
        ⟨reexamine r
          ((t.setAtt i { made with
              role := .reader 1, policy := policy, order := order, blockExp := if order = .natural then 0 else b }).setRing r
            { g with slots := ⟨some h, none, none⟩ }),
          .ok, results, some r, some h⟩)))) ∧
  (∀ (s : State) (p : Port), s.commandGranted p codeCreateRing →
    let x := (s.port p).cmd.argCopy
    let refused (c : ResultCode) : Prop :=
      exec (.createRing p) s = .next (placeStartCheck (finishCommand p
        ⟨s.commandTaken p, c, ⟨0xFFFF, 0xFFFF, 0xFFFF, 0xFFFF⟩, none, none⟩))
    let accepted : Prop := ∃ mode access what, decodeRingWord x.w2 = some (mode, access) ∧ decodeAttachWord x.w3 = some what ∧
      1 ≤ x.w1.toNat ∧ x.w1.toNat ≤ 128 ∧ x.w4.toNat ≤ 32768 ∧ x.w5.toNat ≤ 16383 ∧ permits (access.get p) what = true
    (¬accepted → refused .badArg) ∧
    (accepted → (∀ r, (s.ring r).state ≠ .free) → refused .noRing) ∧
    (accepted → (∃ r, (s.ring r).state = .free) → (∀ i, (s.att i).inUse = true) → refused .noAttach) ∧
    (accepted → (∃ r, (s.ring r).state = .free) → (∃ i, (s.att i).inUse = false) → firstFit s.pageMap x.w1.toNat = none →
      refused .noSpace)) ∧
  (∀ (w : Word) (mode : RingMode) (access : Four AccessRight),
    let code (x : AccessRight) : Nat := match x with
      | .nothing => 0
      | .read => 1
      | .write => 2
      | .readWrite => 3
    decodeRingWord w = some (mode, access) ↔
      w.toNat = (if mode = .circular then 0 else 1) + 16 * code (access.get .a) + 64 * code (access.get .b)
        + 256 * code (access.get .c) + 1024 * code (access.get .d)) ∧
  (∀ (w : Word) (policy : Policy) (start : Start) (b junk : Nat), b < 16 →
    let bits := (if policy = .hold then 0 else 2) + (if start = .fromNew then 0 else 8) + 16 * b + 256 * junk
    (w.toNat = 1 + 2 * junk → decodeAttachWord w = some .producer) ∧
    (w.toNat = bits → decodeAttachWord w = some (.reader policy .natural 0 start)) ∧
    (w.toNat = bits + 4 →
      decodeAttachWord w = if 1 ≤ b ∧ b ≤ 8 then some (.reader policy .reversedBlock b start) else none)) ∧
  (∀ (right : AccessRight) (what : AttachWord), permits right what = true ↔
    right = .readWrite ∨ (what = .producer ∧ right = .write) ∨ (what ≠ .producer ∧ right = .read))

/-- ATTACH when its checks pass (R23 to R25, R50, R100 to R103): the lowest free record; a reader's lowest empty slot, and its fill and
skip: FROM_NEW 0, FROM_OLDEST the smaller of valid and C less reserved (R24), moved forward for REVERSED_BLOCK over the gap to the next
block boundary, what the fill does not cover becoming the skip (R50); the threshold comparison from 0, the re-examination, and the
results. Its checks in their order (R100 to R102): BAD_ARG; BAD_RING, NOT_PERMITTED, RING_SEALED; ROLE_TAKEN, NO_READER_SLOT, NO_ATTACH.
-/
def Obligations.AttachMakesAnAttachment : Prop :=
  (∀ (s : State) (p : Port) (what : AttachWord) (r : Fin 16) (i : Fin 32), s.commandGranted p codeAttach →
    let x := (s.port p).cmd.argCopy
    let g := s.ring r
    let h : Handle := ⟨(s.att i).gen, i⟩
    x.w1.toNat = r.val → decodeAttachWord x.w2 = some what → x.w3.toNat ≤ 32768 → x.w4.toNat ≤ 16383 → g.state ≠ .free →
    permits (g.access.get p) what = true → (s.att i).inUse = false → (∀ j, j < i → (s.att j).inUse = true) →
    let made : Attachment := { Attachment.freed (s.att i).gen with
      inUse := true, ring := r, holder := .port p, threshold := x.w3.toNat, leasePeriod := x.w4.toNat,
      leaseRemaining := x.w4.toNat }
    (what = .producer → g.state = .opened → g.producer = none →
      let t := ((s.commandTaken p).setAtt i { made with role := .producer }).setRing r { g with producer := some h }
      let u := reexamine r (postCrossing i 0 (t.space r) t)
      exec (.attach p) s = .next (placeStartCheck (finishCommand p
        ⟨u, .ok, ⟨word (32 * (s.att i).gen.val + i.val), 0, word (u.level i), word (u.att i).skip⟩, some r, some h⟩))) ∧
    (∀ policy order b start slot, what = .reader policy order b start →
      (slot = 1 ∧ g.slots.one = none) ∨ (slot = 2 ∧ g.slots.one ≠ none ∧ g.slots.two = none) ∨
        (slot = 3 ∧ g.slots.one ≠ none ∧ g.slots.two ≠ none ∧ g.slots.three = none) →
      let fill0 := if start = .fromNew then 0 else min g.valid (g.capacity - g.reserved)
      let index0 := if g.mode = .circular then (g.writePos + g.capacity - fill0) % g.capacity else g.writePos - fill0
      let gap := (2 ^ b - index0 % 2 ^ b) % 2 ^ b
      let fill := if order = .natural then fill0 else fill0 - gap
      let t := ((s.commandTaken p).setAtt i { made with
          role := .reader slot, policy := policy, order := order, blockExp := if order = .natural then 0 else b,
          fill := fill, skip := if order = .natural then 0 else gap - fill0 }).setRing r
        { g with slots := g.slots.fill slot h }
      let u := reexamine r (postCrossing i 0 fill t)
      exec (.attach p) s = .next (placeStartCheck (finishCommand p
        ⟨u, .ok, ⟨word (32 * (s.att i).gen.val + i.val), word slot.val, word (u.level i), word (u.att i).skip⟩, some r, some h⟩)))) ∧
  (∀ (s : State) (p : Port), s.commandGranted p codeAttach →
    let x := (s.port p).cmd.argCopy
    let refused (c : ResultCode) : Prop :=
      exec (.attach p) s = .next (placeStartCheck (finishCommand p
        ⟨s.commandTaken p, c, ⟨0xFFFF, 0xFFFF, 0xFFFF, 0xFFFF⟩, none, none⟩))
    (decodeAttachWord x.w2 = none ∨ 32768 < x.w3.toNat ∨ 16383 < x.w4.toNat → refused .badArg) ∧
    (∀ what, decodeAttachWord x.w2 = some what → x.w3.toNat ≤ 32768 → x.w4.toNat ≤ 16383 →
      (15 < x.w1.toNat → refused .badRing) ∧
      ∀ r : Fin 16, x.w1.toNat = r.val →
        let g := s.ring r
        (g.state = .free → refused .badRing) ∧
        (g.state ≠ .free → permits (g.access.get p) what = false → refused .notPermitted) ∧
        (g.state ≠ .free → permits (g.access.get p) what = true →
          (what = .producer → g.state = .sealed → refused .ringSealed) ∧
          (what = .producer → g.state = .opened → g.producer ≠ none → refused .roleTaken) ∧
          (what ≠ .producer → g.slots.one ≠ none → g.slots.two ≠ none → g.slots.three ≠ none → refused .noReaderSlot) ∧
          ((what = .producer ∧ g.state = .opened ∧ g.producer = none) ∨
              (what ≠ .producer ∧ (g.slots.one = none ∨ g.slots.two = none ∨ g.slots.three = none)) →
            (∀ i, (s.att i).inUse = true) → refused .noAttach)))) ∧
  (∀ (g : Slots) (h : Handle),
    g.fill 1 h = ⟨some h, g.two, g.three⟩ ∧ g.fill 2 h = ⟨g.one, some h, g.three⟩ ∧ g.fill 3 h = ⟨g.one, g.two, some h⟩) ∧
  (∀ (s : State) (i : Fin 32), s.level i = if (s.att i).role = .producer then s.space (s.att i).ring else (s.att i).fill)

/-- DETACH of a handle the port holds (R41, R42, R104, R105): a reader's slot and record are freed, the space formed anew, waiting accesses
ended and re-examined, the ring freed when empty; a producer without the seal flag leaves the ring as it was; with it the ring is
sealed with cause SEALED_BY_PRODUCER. Its checks in their order (R104): BAD_ARG for a flag above 1, BAD_HANDLE for a stale handle or one
the port does not hold. A flag word is 0 or 1 (R96). The two detaches themselves, wherever they are made, and the freeing of a ring in use
without attachments (R15, R62). -/
def Obligations.DetachReleasesTheAttachment : Prop :=
  (∀ (s : State) (p : Port) (i : Fin 32) (flagWord : Bool), s.commandGranted p codeDetach →
    let x := (s.port p).cmd.argCopy
    let r := (s.att i).ring
    let h : Handle := ⟨(s.att i).gen, i⟩
    let s1 := s.commandTaken p
    flagOfWord x.w2 = some flagWord → s.currentIndex x.w1 = some i → (s.att i).holder = .port p →
    let answers (t : State) : Prop :=
      exec (.detach p) s = .next (placeStartCheck (finishCommand p
        ⟨t, .ok, ⟨word r.val, if (t.ring r).state = .free then 1 else 0, 0, 0⟩, some r, some h⟩))
    (∀ slot, (s.att i).role = .reader slot →
      answers (freeIfEmpty r (reexamine r (endWaitingOf h (spaceChanged r (s.space r)
        ((s1.setRing r { s.ring r with slots := (s.ring r).slots.remove h }).setAtt i
          (Attachment.freed ((s.att i).gen + 1)))))))) ∧
    ((s.att i).role = .producer → flagWord = false →
      answers (freeIfEmpty r (reexamine r (endWaitingOf h
        ((s1.setRing r { s.ring r with producer := none }).setAtt i (Attachment.freed ((s.att i).gen + 1))))))) ∧
    ((s.att i).role = .producer → flagWord = true → answers (sealBy .sealedByProducer i s1))) ∧
  (∀ (s : State) (p : Port), s.commandGranted p codeDetach →
    let x := (s.port p).cmd.argCopy
    let refused (c : ResultCode) : Prop :=
      exec (.detach p) s = .next (placeStartCheck (finishCommand p
        ⟨s.commandTaken p, c, ⟨0xFFFF, 0xFFFF, 0xFFFF, 0xFFFF⟩, none, none⟩))
    (1 < x.w2.toNat → refused .badArg) ∧
    (x.w2.toNat ≤ 1 → s.currentIndex x.w1 = none ∨ (∃ i, s.currentIndex x.w1 = some i ∧ (s.att i).holder ≠ .port p) →
      refused .badHandle)) ∧
  (∀ (w : Word) (b : Bool), flagOfWord w = some b ↔ w.toNat = if b = true then 1 else 0) ∧
  (∀ (s : State) (i : Fin 32),
    let r := (s.att i).ring
    let g := s.ring r
    let h : Handle := ⟨(s.att i).gen, i⟩
    let freed := Attachment.freed ((s.att i).gen + 1)
    detachReader i s = freeIfEmpty r (reexamine r (endWaitingOf h (spaceChanged r (s.space r)
      ((s.setRing r
        { g with
          slots :=
            ⟨if g.slots.one = some h then none else g.slots.one, if g.slots.two = some h then none else g.slots.two,
              if g.slots.three = some h then none else g.slots.three⟩ }).setAtt i freed)))) ∧
    detachProducerOpen i s = freeIfEmpty r (reexamine r (endWaitingOf h
      ((s.setRing r { g with producer := none }).setAtt i freed)))) ∧
  (∀ (s : State) (r : Fin 16),
    let g := s.ring r
    let last : Prop := g.state ≠ .free ∧ g.producer = none ∧ g.slots.one = none ∧ g.slots.two = none ∧ g.slots.three = none
    (last → freeIfEmpty r s = (s.setPageMap (markPages none g.firstPage.val g.pageCount s.pageMap)).setRing r Ring.freed) ∧
    (¬last → freeIfEmpty r s = s))

/-- RENEW (R106): one handle, or every attachment in use that the port holds, has its lease remaining loaded with its own period; result
word 1 counts them; nothing else of any attachment changes. BAD_ARG for a flag above 1; BAD_HANDLE for a stale handle or one the port
does not hold. -/
def Obligations.RenewLoadsTheLeases : Prop :=
  ∀ (s : State) (p : Port), s.commandGranted p codeRenew →
    let x := (s.port p).cmd.argCopy
    let renewed (y : Attachment) : Attachment := { y with leaseRemaining := y.leasePeriod }
    let refused (c : ResultCode) : Prop :=
      exec (.renew p) s = .next (placeStartCheck (finishCommand p
        ⟨s.commandTaken p, c, ⟨0xFFFF, 0xFFFF, 0xFFFF, 0xFFFF⟩, none, none⟩))
    (∀ i, x.w1 = 0 → s.currentIndex x.w2 = some i → (s.att i).holder = .port p →
      exec (.renew p) s = .next (placeStartCheck (finishCommand p
        ⟨(s.commandTaken p).setAtt i (renewed (s.att i)), .ok, ⟨1, 0, 0, 0⟩, some (s.att i).ring,
          some ⟨(s.att i).gen, i⟩⟩))) ∧
    (x.w1 = 1 →
      exec (.renew p) s = .next (placeStartCheck (finishCommand p
        ⟨{ s.commandTaken p with
            atts := s.atts.map (fun y => if y.inUse = true ∧ y.holder = .port p then renewed y else y) }, .ok,
          ⟨word ((List.finRange 32).countP (fun i => (s.att i).inUse && (s.att i).holder == .port p)), 0, 0, 0⟩, none,
          none⟩))) ∧
    (1 < x.w1.toNat → refused .badArg) ∧
    (x.w1 = 0 → s.currentIndex x.w2 = none ∨ (∃ i, s.currentIndex x.w2 = some i ∧ (s.att i).holder ≠ .port p) →
      refused .badHandle)

/-- SET_THRESHOLD on a handle the port holds (R38, R39, R107): the threshold is set, the readiness record is posted at once when the level
is there, and the results are the level and whether it was posted. Its checks in their order: BAD_ARG for a threshold above 32768,
BAD_HANDLE for a stale handle or one the port does not hold. -/
def Obligations.SetThresholdComparesAtOnce : Prop :=
  (∀ (s : State) (p : Port) (i : Fin 32), s.commandGranted p codeSetThreshold →
    let x := (s.port p).cmd.argCopy
    let level := if (s.att i).role = .producer then s.space (s.att i).ring else (s.att i).fill
    let t := (s.commandTaken p).setAtt i { s.att i with threshold := x.w2.toNat }
    x.w2.toNat ≤ 32768 → s.currentIndex x.w1 = some i → (s.att i).holder = .port p →
    exec (.setThreshold p) s = .next (placeStartCheck (finishCommand p
      (if 0 < x.w2.toNat ∧ x.w2.toNat ≤ level then
        ⟨post p (if (s.att i).role = .producer then .spaceReady else .dataReady) (some (s.att i).ring)
          (some ⟨(s.att i).gen, i⟩) (word level) t, .ok, ⟨word level, 1, 0, 0⟩, some (s.att i).ring,
          some ⟨(s.att i).gen, i⟩⟩
      else ⟨t, .ok, ⟨word level, 0, 0, 0⟩, some (s.att i).ring, some ⟨(s.att i).gen, i⟩⟩)))) ∧
  (∀ (s : State) (p : Port), s.commandGranted p codeSetThreshold →
    let x := (s.port p).cmd.argCopy
    let refused (c : ResultCode) : Prop :=
      exec (.setThreshold p) s = .next (placeStartCheck (finishCommand p
        ⟨s.commandTaken p, c, ⟨0xFFFF, 0xFFFF, 0xFFFF, 0xFFFF⟩, none, none⟩))
    (32768 < x.w2.toNat → refused .badArg) ∧
    (x.w2.toNat ≤ 32768 → s.currentIndex x.w1 = none ∨ (∃ i, s.currentIndex x.w1 = some i ∧ (s.att i).holder ≠ .port p) →
      refused .badHandle))

/-- QUERY_RING (R108) and QUERY_ATTACH (R109): the four words of the ring's record, or the cursor and lease of an attachment the port
holds, and nothing changed; BAD_RING above 15, BAD_HANDLE for a stale handle or one the port does not hold. The ring status word (R189):
state, mode, seal cause, producer present, readers. -/
def Obligations.QueriesReadTheRecords : Prop :=
  ∀ (s : State) (p : Port),
    let x := (s.port p).cmd.argCopy
    let t := s.commandTaken p
    (s.commandGranted p codeQueryRing →
      (∀ r : Fin 16, x.w1.toNat = r.val →
        let g := s.ring r
        exec (.queryRing p) s = .next (placeStartCheck (finishCommand p
          ⟨t, .ok,
            ⟨word ((match g.state with
                | .free => 0
                | .opened => 1
                | .sealed => 2 + 16 * (match g.sealCause with
                  | none => 0
                  | some .sealedByProducer => 1
                  | some .producerLost => 2
                  | some .sourceEnded => 3))
                + (if g.mode = .onePass then 4 else 0) + (if g.producer = none then 0 else 64) + 256 * (s.readers r).length),
              word g.pageCount, word g.valid, word g.writePos⟩,
            some r, none⟩))) ∧
      (15 < x.w1.toNat →
        exec (.queryRing p) s = .next (placeStartCheck (finishCommand p
          ⟨t, .badRing, ⟨0xFFFF, 0xFFFF, 0xFFFF, 0xFFFF⟩, none, none⟩)))) ∧
    (s.commandGranted p codeQueryAttach →
      (∀ i, s.currentIndex x.w1 = some i → (s.att i).holder = .port p →
        let y := s.att i
        exec (.queryAttach p) s = .next (placeStartCheck (finishCommand p
          ⟨t, .ok,
            (if y.role = .producer then ⟨word (s.space y.ring), 0, word y.leaseRemaining, 0⟩
            else ⟨word y.fill, word y.dropCount, word y.leaseRemaining, word y.skip⟩),
            some y.ring, some ⟨y.gen, i⟩⟩))) ∧
      (s.currentIndex x.w1 = none ∨ (∃ i, s.currentIndex x.w1 = some i ∧ (s.att i).holder ≠ .port p) →
        exec (.queryAttach p) s = .next (placeStartCheck (finishCommand p
          ⟨t, .badHandle, ⟨0xFFFF, 0xFFFF, 0xFFFF, 0xFFFF⟩, none, none⟩))))

/-- A command answered with a code other than OK leaves the whole state as it found it, and its four result words read 0xFFFF (R91). The
checks that the move commands share, in their order (R117): NO_ENTRY above 15, NOT_OWNER for an entry in use by another port, ENTRY_BUSY
with unload pending, and for all but LOAD_MOVE on an EMPTY entry. -/
def Obligations.FailedCommandsChangeNothing : Prop :=
  (∀ (p : Port) (w : Word) (x : Args) (s : State), (runCommand p w x s).code ≠ .ok →
    (runCommand p w x s).after = s ∧ (runCommand p w x s).results = ⟨0xFFFF, 0xFFFF, 0xFFFF, 0xFFFF⟩ ∧
      (runCommand p w x s).ring = none ∧ (runCommand p w x s).handle = none) ∧
  (∀ (s : State) (p : Port) (c : Instr) (w : Word), s.commandGranted p w →
    (c = .loadMove p ∧ w = codeLoadMove) ∨ (c = .startMove p ∧ w = codeStartMove) ∨ (c = .fireMove p ∧ w = codeFireMove) ∨
      (c = .stopMove p ∧ w = codeStopMove) ∨ (c = .unloadMove p ∧ w = codeUnloadMove) →
    let n := (s.port p).cmd.argCopy.w1.toNat
    let refused (code : ResultCode) : Prop :=
      exec c s = .next (placeStartCheck (finishCommand p
        ⟨s.commandTaken p, code, ⟨0xFFFF, 0xFFFF, 0xFFFF, 0xFFFF⟩, none, none⟩))
    (15 < n → refused .noEntry) ∧
    (∀ e : Fin 16, n = e.val →
      ((s.move e).state ≠ .empty → (s.move e).owner ≠ some p → refused .notOwner) ∧
      ((s.move e).state ≠ .empty → (s.move e).owner = some p → (s.move e).unloadPending = true → refused .entryBusy) ∧
      ((s.move e).state = .empty → c ≠ .loadMove p → refused .entryBusy)))

/-! ### Moves and pacers -/

/-- LOAD_MOVE when its checks pass (R117 to R119): the source reader in the lowest free record and the lowest empty slot, HOLD, NATURAL,
fill 0, then the destination producer in the next free record, each held by the entry with threshold and lease period 0 and each with its
re-examination (R23); the entry LOADED with its operands, its owner and both handles. Its own checks in their order: ENTRY_BUSY, BAD_ARG,
BAD_RING, NOT_PERMITTED, RING_SEALED, ROLE_TAKEN, NO_READER_SLOT, NO_ATTACH. What words 4 to 6 hold (R118, R189). -/
def Obligations.LoadMoveMakesTheEntry : Prop :=
  (∀ (s : State) (p : Port) (e src dst : Fin 16) (m : MoveOperands) (i j : Fin 32) (slot : Fin 4), s.commandGranted p codeLoadMove →
    let x := (s.port p).cmd.argCopy
    let gs := s.ring src
    let gd := s.ring dst
    x.w1.toNat = e.val → (s.move e).state = .empty → decodeMoveOperands x.w4 x.w5 x.w6 = some m → x.w2.toNat = src.val →
    x.w3.toNat = dst.val → src ≠ dst → gs.state ≠ .free → gd.state = .opened →
    gs.access.get p = .read ∨ gs.access.get p = .readWrite → gd.access.get p = .write ∨ gd.access.get p = .readWrite →
    gd.producer = none →
    (slot = 1 ∧ gs.slots.one = none) ∨ (slot = 2 ∧ gs.slots.one ≠ none ∧ gs.slots.two = none) ∨
      (slot = 3 ∧ gs.slots.one ≠ none ∧ gs.slots.two ≠ none ∧ gs.slots.three = none) →
    (s.att i).inUse = false → (∀ k, k < i → (s.att k).inUse = true) →
    (s.att j).inUse = false → i < j → (∀ k, k < j → k ≠ i → (s.att k).inUse = true) →
    let hs : Handle := ⟨(s.att i).gen, i⟩
    let hd : Handle := ⟨(s.att j).gen, j⟩
    let s1 := reexamine src
      (((s.commandTaken p).setAtt i { Attachment.freed (s.att i).gen with
          inUse := true, ring := src, role := .reader slot, holder := .entry e }).setRing src
        { gs with slots := gs.slots.fill slot hs })
    let s2 := reexamine dst
      ((s1.setAtt j { Attachment.freed (s.att j).gen with
          inUse := true, ring := dst, role := .producer, holder := .entry e }).setRing dst
        { s1.ring dst with producer := some hd })
    exec (.loadMove p) s = .next (placeStartCheck (finishCommand p
      ⟨s2.setMove e
        ⟨.loaded, some p, some hs, some hd, m.frameLen, m.phase, m.stride, m.framesPerRun, m.runLimit, 0, m.trigger, 0, 0, 0,
          m.propagateEnd, false, false, none⟩,
        .ok, ⟨word (32 * (s.att i).gen.val + i.val), word (32 * (s.att j).gen.val + j.val), 0, 0⟩, some src, some hs⟩))) ∧
  (∀ (s : State) (p : Port) (e : Fin 16), s.commandGranted p codeLoadMove → (s.port p).cmd.argCopy.w1.toNat = e.val →
    let x := (s.port p).cmd.argCopy
    let refused (c : ResultCode) : Prop :=
      exec (.loadMove p) s = .next (placeStartCheck (finishCommand p
        ⟨s.commandTaken p, c, ⟨0xFFFF, 0xFFFF, 0xFFFF, 0xFFFF⟩, none, none⟩))
    ((s.move e).state ≠ .empty → (s.move e).owner = some p → refused .entryBusy) ∧
    ((s.move e).state = .empty → decodeMoveOperands x.w4 x.w5 x.w6 = none ∨ x.w2 = x.w3 → refused .badArg) ∧
    ((s.move e).state = .empty → decodeMoveOperands x.w4 x.w5 x.w6 ≠ none → x.w2 ≠ x.w3 →
      (15 < x.w2.toNat ∨ 15 < x.w3.toNat → refused .badRing) ∧
      ∀ src dst : Fin 16, x.w2.toNat = src.val → x.w3.toNat = dst.val →
        let gs := s.ring src
        let gd := s.ring dst
        let permitted : Prop := (gs.access.get p = .read ∨ gs.access.get p = .readWrite) ∧
          (gd.access.get p = .write ∨ gd.access.get p = .readWrite)
        let full : Prop := gs.slots.one ≠ none ∧ gs.slots.two ≠ none ∧ gs.slots.three ≠ none
        (gs.state = .free ∨ gd.state = .free → refused .badRing) ∧
        (gs.state ≠ .free → gd.state ≠ .free → ¬permitted → refused .notPermitted) ∧
        (gs.state ≠ .free → gd.state = .sealed → permitted → refused .ringSealed) ∧
        (gs.state ≠ .free → gd.state = .opened → permitted →
          (gd.producer ≠ none → refused .roleTaken) ∧
          (gd.producer = none → full → refused .noReaderSlot) ∧
          (gd.producer = none → ¬full → (∀ i j, i < j → (s.att i).inUse = true ∨ (s.att j).inUse = true) → refused .noAttach)))) ∧
  (∀ (w4 w5 w6 : Word) (m : MoveOperands),
    let trigger : Nat := match m.trigger with
      | .software => 0
      | .pacer n => 1 + n.val
      | .sourceReady => 5
    decodeMoveOperands w4 w5 w6 = some m ↔
      1 ≤ m.frameLen ∧ m.frameLen ≤ 256 ∧ m.phase < m.frameLen ∧ 1 ≤ m.stride ∧ m.stride ≤ m.frameLen ∧ 1 ≤ m.framesPerRun ∧
        m.framesPerRun ≤ 64 ∧ m.runLimit ≤ 1023 ∧ w4.toNat = m.frameLen - 1 + 256 * m.phase ∧
        w5.toNat = m.stride - 1 + 256 * (m.framesPerRun - 1) + (if m.propagateEnd = true then 16384 else 0) ∧
        w6.toNat = m.runLimit + 4096 * trigger)

/-- START_MOVE on an entry of the port that is LOADED, DONE or HALTED with its destination (R117, R120, R129): ARMED with its run counts
at 0 when the source has not ended; when it has (its ring SEALED and its fill below S), the fill is 0, the entry HALTED with reason
SOURCE_ENDED, MOVE_HALTED stands ahead of COMMAND_DONE, and with propagate end set the destination producer is detached and its ring
sealed with SOURCE_ENDED, or freed when it was the last attachment. The first part says this of the check itself, wherever it is made
(R12, R120, R128), with the seal of the destination as a parameter. -/
def Obligations.StartMoveArmsTheEntry : Prop :=
  (∀ (sealDest : Fin 32 → State → State) (s : State) (e : Fin 16) (h : Handle), (s.move e).source = some h →
    let m := s.move e
    let x := s.att h.index
    let ended : Prop := (s.ring x.ring).state = .sealed ∧ x.fill < m.frameLen
    let halted : MoveEntry := { m with state := .halted, haltReason := some .sourceEnded }
    let t := (s.setAtt h.index { x with fill := 0 }).setMove e halted
    let told : State := match m.owner with
      | some p => post p .moveHalted (some x.ring) (some h) (word (m.runsDone % 1024 + 32768)) t
      | none => t
    (¬ended → sourceEndedCheckWith sealDest e s = s) ∧
    (ended → m.propagateEnd = false ∨ m.dest = none → sourceEndedCheckWith sealDest e s = told) ∧
    (∀ d, ended → m.propagateEnd = true → m.dest = some d →
      sourceEndedCheckWith sealDest e s = sealDest d.index (told.setMove e { halted with dest := none })) ∧
    sourceEndedCheck e s = sourceEndedCheckWith (sealBy .sourceEnded) e s) ∧
  (∀ (s : State) (p : Port) (e : Fin 16) (h d : Handle), s.commandGranted p codeStartMove →
    (s.port p).cmd.argCopy.w1.toNat = e.val → (s.move e).owner = some p → (s.move e).unloadPending = false →
    (s.move e).state = .loaded ∨ (s.move e).state = .done ∨ (s.move e).state = .halted → (s.move e).source = some h →
    (s.move e).dest = some d →
    let x := s.att h.index
    let r := (s.att d.index).ring
    let armed : MoveEntry :=
      { s.move e with
        state := .armed, runsDone := 0, pendingRuns := 0, framesDone := 0, stopPending := false, haltReason := none }
    let halted : MoveEntry := { armed with state := .halted, haltReason := some .sourceEnded }
    let ended : Prop := (s.ring x.ring).state = .sealed ∧ x.fill < (s.move e).frameLen
    let told := post p .moveHalted (some x.ring) (some h) 0x8000
      (((s.commandTaken p).setAtt h.index { x with fill := 0 }).setMove e halted)
    let answers (u : State) : Prop :=
      exec (.startMove p) s = .next (placeStartCheck (finishCommand p ⟨u, .ok, ⟨0, 0, 0, 0⟩, some x.ring, some h⟩))
    (¬ended → answers ((s.commandTaken p).setMove e armed)) ∧
    (ended → (s.move e).propagateEnd = false → answers told) ∧
    (ended → (s.move e).propagateEnd = true →
      answers (sealBy .sourceEnded d.index (told.setMove e { halted with dest := none })) ∧
      ((∀ e', e' ≠ e → (s.move e').state ≠ .armed ∧ (s.move e').state ≠ .waiting) →
        ∃ u, exec (.startMove p) s = .next u ∧ u.move e = { halted with dest := none } ∧ (u.att d.index).inUse = false ∧
          ((s.ring r).slots.occupied ≠ 0 →
            (u.ring r).state = .sealed ∧ (u.ring r).sealCause = some .sourceEnded ∧ (u.ring r).producer = none) ∧
          ((s.ring r).slots.occupied = 0 → (s.ring r).state ≠ .free → u.ring r = Ring.freed)))) ∧
  (∀ (s : State) (p : Port) (e : Fin 16), s.commandGranted p codeStartMove →
    (s.port p).cmd.argCopy.w1.toNat = e.val → (s.move e).owner = some p →
    ((s.move e).unloadPending = true ∨ (s.move e).dest = none ∨ (s.move e).state = .armed ∨ (s.move e).state = .waiting ∨
      (s.move e).state = .running) →
    exec (.startMove p) s = .next (placeStartCheck (finishCommand p
      ⟨s.commandTaken p, .entryBusy, ⟨0xFFFF, 0xFFFF, 0xFFFF, 0xFFFF⟩, none, none⟩)))

/-- FIRE_MOVE (R117, R122): a SOFTWARE entry that is ARMED or WAITING gains a pending run, or counts a missed trigger and posts
TRIGGER_MISSED ahead of COMMAND_DONE, answered OK in both cases; in any other state or with another trigger it is answered
ENTRY_BUSY and nothing is delivered. -/
def Obligations.FireMoveDeliversOneTrigger : Prop :=
  ∀ (s : State) (p : Port) (e : Fin 16), s.commandGranted p codeFireMove →
    (s.port p).cmd.argCopy.w1.toNat = e.val → (s.move e).owner = some p → (s.move e).unloadPending = false →
    let m := s.move e
    let t := s.commandTaken p
    let ready : Prop := m.trigger = .software ∧ (m.state = .armed ∨ m.state = .waiting)
    let answers (u : State) : Prop :=
      exec (.fireMove p) s = .next (placeStartCheck (finishCommand p
        ⟨u, .ok, ⟨0, 0, 0, 0⟩, m.source.map (fun h => (s.att h.index).ring), m.source⟩))
    (ready → m.pendingRuns < 3 → answers (t.setMove e { m with pendingRuns := m.pendingRuns + 1 })) ∧
    (ready → 3 ≤ m.pendingRuns →
      let missed := min (m.missedTriggers + 1) 65535
      answers (post p .triggerMissed (m.source.map (fun h => (s.att h.index).ring)) m.source (word missed)
        (t.setMove e { m with missedTriggers := missed }))) ∧
    (¬ready →
      exec (.fireMove p) s = .next (placeStartCheck (finishCommand p
        ⟨t, .entryBusy, ⟨0xFFFF, 0xFFFF, 0xFFFF, 0xFFFF⟩, none, none⟩)))

/-- STOP_MOVE (R117, R123): ARMED or WAITING halts with reason STOPPED and MOVE_HALTED ahead of COMMAND_DONE; RUNNING gets stop pending;
LOADED, DONE and HALTED stay; EMPTY is answered ENTRY_BUSY. -/
def Obligations.StopMoveByTheEntrysState : Prop :=
  ∀ (s : State) (p : Port) (e : Fin 16), s.commandGranted p codeStopMove → (s.port p).cmd.argCopy.w1.toNat = e.val →
    (s.move e).unloadPending = false → (s.move e).state = .empty ∨ (s.move e).owner = some p →
    let m := s.move e
    let t := s.commandTaken p
    let ring := m.source.map (fun h => (s.att h.index).ring)
    let answers (u : State) : Prop :=
      exec (.stopMove p) s = .next (placeStartCheck (finishCommand p ⟨u, .ok, ⟨0, 0, 0, 0⟩, ring, m.source⟩))
    (m.state = .armed ∨ m.state = .waiting →
      answers (post p .moveHalted ring m.source (word (m.runsDone % 1024))
        (t.setMove e { m with state := .halted, haltReason := some .stopped }))) ∧
    (m.state = .running → answers (t.setMove e { m with stopPending := true })) ∧
    (m.state = .loaded ∨ m.state = .done ∨ m.state = .halted → answers t) ∧
    (m.state = .empty →
      exec (.stopMove p) s = .next (placeStartCheck (finishCommand p
        ⟨t, .entryBusy, ⟨0xFFFF, 0xFFFF, 0xFFFF, 0xFFFF⟩, none, none⟩)))

/-- UNLOAD_MOVE (R117, R124): the source reader is detached, then the destination producer when present, without a seal; the entry is EMPTY
and its owner none; EMPTY and RUNNING entries are answered ENTRY_BUSY. -/
def Obligations.UnloadMoveEmptiesTheEntry : Prop :=
  ∀ (s : State) (p : Port) (e : Fin 16), s.commandGranted p codeUnloadMove → (s.port p).cmd.argCopy.w1.toNat = e.val →
    (s.move e).unloadPending = false → (s.move e).state = .empty ∨ (s.move e).owner = some p →
    let m := s.move e
    let t := s.commandTaken p
    (∀ src, m.state ≠ .empty → m.state ≠ .running → m.source = some src →
      let s1 := detachReader src.index t
      let s2 := match m.dest with
        | some dst => detachProducerOpen dst.index s1
        | none => s1
      exec (.unloadMove p) s = .next (placeStartCheck (finishCommand p
        ⟨s2.setMove e MoveEntry.cleared, .ok, ⟨0, 0, 0, 0⟩, some (s.att src.index).ring, some src⟩))) ∧
    (m.state = .empty ∨ m.state = .running →
      exec (.unloadMove p) s = .next (placeStartCheck (finishCommand p
        ⟨t, .entryBusy, ⟨0xFFFF, 0xFFFF, 0xFFFF, 0xFFFF⟩, none, none⟩)))

/-- SET_PACER (R137): the check of its three operands; the period register; and the enable flag by the pacer's state before: a disabled
pacer is loaded with the new period, an enabled one keeps its count, a disable clears the count. The other pacers stay. -/
def Obligations.SetPacerProgramsOnePacer : Prop :=
  ∀ (s : State) (p : Port), s.commandGranted p codeSetPacer →
    let x := (s.port p).cmd.argCopy
    let t := s.commandTaken p
    let answers (u : State) : Prop :=
      exec (.setPacer p) s = .next (placeStartCheck (finishCommand p ⟨u, .ok, ⟨0, 0, 0, 0⟩, none, none⟩))
    (∀ n : Fin 4, x.w1.toNat = n.val → x.w2 ≠ 0 →
      (x.w3 = 1 → (s.pacer n).enabled = false → answers (t.setPacer n ⟨true, x.w2.toNat, x.w2.toNat, false⟩)) ∧
      (x.w3 = 1 → (s.pacer n).enabled = true → answers (t.setPacer n ⟨true, x.w2.toNat, (s.pacer n).count, false⟩)) ∧
      (x.w3 = 0 → answers (t.setPacer n ⟨false, x.w2.toNat, 0, false⟩))) ∧
    (3 < x.w1.toNat ∨ x.w2 = 0 ∨ 1 < x.w3.toNat →
      exec (.setPacer p) s = .next (placeStartCheck (finishCommand p
        ⟨t, .badArg, ⟨0xFFFF, 0xFFFF, 0xFFFF, 0xFFFF⟩, none, none⟩)))

/-- START_CHECK (R115, R125, R126): entries are examined from the one after the pointer. An entry ARMED or WAITING has work when its trigger
is SOURCE_READY, a run is under way or a run is pending; its frame can start when its source fill is S or more and its destination space
D or more, D being the smallest whole number not below (S - p)/k. Those with work that cannot start become WAITING; the first that can is
RUNNING, a run is begun, the destination's reserved is D, the frame is formed and its first pop issued; with none chosen the pointer
stays. The engine places the check when no frame is in flight, no request is held and some entry is ARMED with work (R125); placing it
changes only the engine's request, and that it ends each act is the model's choice (assumption 14). -/
def Obligations.StartCheckChoosesTheFirstThatCanStart : Prop :=
  (∀ s : State,
    placeStartCheck s =
      { s with moveReq :=
          if s.frame = none ∧ s.moveReq = none ∧
              (∃ e, (s.move e).state = .armed ∧
                ((s.move e).trigger = .sourceReady ∨ 0 < (s.move e).framesDone ∨ 0 < (s.move e).pendingRuns)) then
            some .startCheck
          else s.moveReq }) ∧
  ∀ (s : State) (D : Fin 16 → Nat), s.moveGranted .startCheck → s.frame = none →
    (∀ e, (s.move e).frameLen - (s.move e).phase ≤ D e * (s.move e).stride ∧
      ∀ n, (s.move e).frameLen - (s.move e).phase ≤ n * (s.move e).stride → D e ≤ n) →
    let t := s.setArb .move
    let work (e : Fin 16) : Prop := ((s.move e).state = .armed ∨ (s.move e).state = .waiting) ∧
      ((s.move e).trigger = .sourceReady ∨ 0 < (s.move e).framesDone ∨ 0 < (s.move e).pendingRuns)
    let starts (e : Fin 16) : Prop := work e ∧ ∃ src dst, (s.move e).source = some src ∧ (s.move e).dest = some dst ∧
      (s.move e).frameLen ≤ (s.att src.index).fill ∧ D e ≤ s.space (s.att dst.index).ring
    let examined (e : Fin 16) (m : MoveEntry) : Prop :=
      (work e → m = { s.move e with state := .waiting }) ∧ (¬work e → m = s.move e)
    (∀ k : Fin 16, let e := s.rotation + 1 + k
      starts e → (∀ k' : Fin 16, k' < k → ¬starts (s.rotation + 1 + k')) →
      ∃ u, exec .startCheck s = .next u ∧ u.rotation = e ∧ u.frame = some ⟨e, 0, none⟩ ∧ u.moveReq = some .framePop ∧
        u.move e = { s.move e with
          state := .running
          pendingRuns := if (s.move e).framesDone = 0 ∧ (s.move e).trigger ≠ .sourceReady then (s.move e).pendingRuns - 1
            else (s.move e).pendingRuns } ∧
        (∀ k' : Fin 16, k' < k → examined (s.rotation + 1 + k') (u.move (s.rotation + 1 + k'))) ∧
        (∀ k' : Fin 16, k < k' → u.move (s.rotation + 1 + k') = s.move (s.rotation + 1 + k')) ∧
        (∀ h, (s.move e).dest = some h →
          u.rings = (t.setRing (s.att h.index).ring { s.ring (s.att h.index).ring with reserved := D e }).rings) ∧
        u.arb = .move ∧ u.atts = s.atts ∧ u.mem = s.mem ∧ u.pageMap = s.pageMap ∧ u.ports = s.ports ∧ u.waiting = s.waiting) ∧
    ((∀ e, ¬starts e) →
      ∃ u, exec .startCheck s = .next u ∧ u.rotation = s.rotation ∧ u.frame = none ∧ u.moveReq = none ∧
        (∀ e, examined e (u.move e)) ∧ u.rings = s.rings ∧ u.atts = s.atts ∧ u.mem = s.mem ∧ u.ports = s.ports)

/-- MOVE_FRAME_POP and MOVE_FRAME_PUSH (R127): the source's pop, whose word is held at a pushed position and dropped at any other; the
destination's push of the held word, drawing on the reservation; and after either the next position, or the frame's end at S. That the
request's own re-examination comes before the frame's end is the model's choice (assumption 30). -/
def Obligations.MoveFrameRequestsInOrder : Prop :=
  ∀ (s : State) (f : Frame), s.frame = some f →
    let e := f.entry
    let t := s.setArb .move
    let goesOn (position : Nat) (u : State) : State :=
      if position = (u.move e).frameLen then frameEnd e u
      else (u.setFrame (some ⟨e, position, none⟩)).setMoveReq (some .framePop)
    (∀ h d, s.moveGranted .framePop → (s.move e).source = some h → s.judgePop h.index = .data d →
      let u := popAct h.index t
      ((u.move e).phase ≤ f.position ∧ (f.position - (u.move e).phase) % (u.move e).stride = 0 →
        exec .moveFramePop s = .next (placeStartCheck
          ((u.setFrame (some ⟨e, f.position + 1, some d⟩)).setMoveReq (some .framePush)))) ∧
      (¬((u.move e).phase ≤ f.position ∧ (f.position - (u.move e).phase) % (u.move e).stride = 0) →
        exec .moveFramePop s = .next (placeStartCheck (goesOn (f.position + 1) u)))) ∧
    (∀ h d, s.moveGranted .framePush → (s.move e).dest = some h → f.held = some d →
      exec .moveFramePush s = .next (placeStartCheck (goesOn f.position (pushAct (s.att h.index).ring true d t))))

/-- The end of a frame (R128, R132): the counts; DONE with MOVE_DONE at the run limit; HALTED with MOVE_HALTED when stop is pending;
otherwise ARMED with its source-ended check; with unload pending none of these, and the engine issues the unload. Each record goes to the
owner port with the entry's source ring and source handle (R130). When within its act the end comes is assumption 30. -/
def Obligations.FrameEndByTheCounts : Prop :=
  ∀ (s : State) (e : Fin 16),
    let m := s.move e
    let runs := if m.framesDone + 1 = m.framesPerRun then
        if m.runLimit = 0 then min (m.runsDone + 1) 1023 else m.runsDone + 1
      else m.runsDone
    let counted : MoveEntry :=
      { m with framesDone := if m.framesDone + 1 = m.framesPerRun then 0 else m.framesDone + 1, runsDone := runs }
    let t := (s.setFrame none).setMoveReq none
    let tell (k : EventKind) (d : Word) (u : State) : State :=
      match m.owner with
      | some p => post p k (m.source.map (fun h => (s.att h.index).ring)) m.source d u
      | none => u
    (m.unloadPending = true →
      frameEnd e s = (s.setFrame (some ⟨e, m.frameLen, none⟩)).setMoveReq (some .unload)) ∧
    (m.unloadPending = false →
      (m.runLimit ≠ 0 → runs = m.runLimit →
        frameEnd e s = tell .moveDone (word runs) (t.setMove e { counted with state := .done, stopPending := false })) ∧
      (m.runLimit = 0 ∨ runs ≠ m.runLimit → m.stopPending = true →
        frameEnd e s = tell .moveHalted (word (runs % 1024))
          (t.setMove e { counted with state := .halted, stopPending := false, haltReason := some .stopped })) ∧
      (m.runLimit = 0 ∨ runs ≠ m.runLimit → m.stopPending = false →
        frameEnd e s = sourceEndedCheck e (t.setMove e { counted with state := .armed })))

/-- DEFERRED_UNLOAD (R84, R132): the source reader first, the destination producer second, each with cause WITHDRAWN to the attachments in
use at this grant (R83), a reader detached and a producer's ring sealed with PRODUCER_LOST; the entry is EMPTY and the frame in flight
absent. -/
def Obligations.DeferredUnloadEmptiesTheEntry : Prop :=
  ∀ (s : State) (f : Frame) (src : Handle), s.moveGranted .unload → s.frame = some f → (s.move f.entry).source = some src →
    let lose (i : Fin 32) (u : State) : State :=
      let told := postPeerLost i true (fun _ => true) u
      match (told.att i).role with
      | .reader _ => detachReader i told
      | .producer => sealBy .producerLost i told
    let s1 := lose src.index (s.setArb .move)
    let s2 := match (s1.move f.entry).dest with
      | some dst => lose dst.index s1
      | none => s1
    exec .deferredUnload s = .next (placeStartCheck
      (((s2.setMove f.entry MoveEntry.cleared).setFrame none).setMoveReq none))

/-! ### Operations of the ring controller -/

/-- First fit (R60, R61): the lowest first page of a run of n existing free pages, and none exactly when there is no such run. A run of
pages that is taken or given back changes those pages of the map and no other (R59, R62). -/
def Obligations.FirstFitTakesTheLowestRun : Prop :=
  (∀ (m : Vector (Option (Fin 16)) 128) (n : Nat),
    let fits (q : Fin 128) : Prop := q.val + n ≤ 128 ∧ ∀ k : Fin 128, q.val ≤ k.val → k.val < q.val + n → tableGet m k = none
    (∀ q, firstFit m n = some q ↔ fits q ∧ ∀ q', q' < q → ¬fits q') ∧ (firstFit m n = none ↔ ∀ q, ¬fits q)) ∧
  (∀ (owner : Option (Fin 16)) (q n : Nat) (m : Vector (Option (Fin 16)) 128) (k : Fin 128),
    tableGet (markPages owner q n m) k = if q ≤ k.val ∧ k.val < q + n then owner else tableGet m k)

/-- The delivery order of a block (R46): a pop at block progress p reads ring index read index + rev_b(p); digit j of p is digit b-1-j of
rev_b(p); rev_b maps the numbers below B onto themselves and is its own inverse, so a block is delivered whole, each word once, its
first and last words first and last; and the sequences of the rule's table. -/
def Obligations.ReversalDeliversEachWordOnce : Prop :=
  (∀ (s : State) (i : Fin 32), (s.att i).order = .reversedBlock →
    0 < (s.att i).progress ∨ 2 ^ (s.att i).blockExp ≤ (s.att i).fill →
    s.judgePop i = .data (s.ringWord (s.att i).ring ((s.ring (s.att i).ring).readIndex (s.att i).fill
      + reverseBits (s.att i).blockExp (s.att i).progress))) ∧
  (∀ b p : Nat, p < 2 ^ b →
    reverseBits b p < 2 ^ b ∧ reverseBits b (reverseBits b p) = p ∧
      (∀ j, j < b → (reverseBits b p).testBit (b - 1 - j) = p.testBit j) ∧
      reverseBits b 0 = 0 ∧ reverseBits b (2 ^ b - 1) = 2 ^ b - 1) ∧
  (List.range 2).map (reverseBits 1) = [0, 1] ∧ (List.range 4).map (reverseBits 2) = [0, 2, 1, 3] ∧
  (List.range 8).map (reverseBits 3) = [0, 4, 2, 6, 1, 5, 3, 7] ∧
  (List.range 10).map (reverseBits 4) = [0, 8, 4, 12, 2, 10, 6, 14, 1, 9] ∧
  [14, 15].map (reverseBits 4) = [7, 15]

/-- The arbiter (R65): the cyclic order data A to D, move engine, command A to D; the requester granted next has a request pending, and
none of those between the pointer and it has; none is granted exactly when nothing is pending; a grant sets the pointer to the requester
granted, and a requester that the rotation does not reach next is not granted. A request is pending (R64) while a port's data request, the
move engine's request, or a command or withdrawal in flight is held. That the grant of a withdrawal sets the pointer too is the model's
reading (assumption 29). Each grant is what one command does; a serial port's request is granted within nine grants of the rotation (R67),
which the model makes before the port's next word (assumption 6). -/
def Obligations.ArbiterGrantsInTheRotation : Prop :=
  (Requester.next (.data .a) = .data .b ∧ Requester.next (.data .b) = .data .c ∧ Requester.next (.data .c) = .data .d ∧
    Requester.next (.data .d) = .move ∧ Requester.next .move = .command .a ∧ Requester.next (.command .a) = .command .b ∧
    Requester.next (.command .b) = .command .c ∧ Requester.next (.command .c) = .command .d ∧
    Requester.next (.command .d) = .data .a) ∧
  (∀ (s : State) (p : Port),
    (s.requests (.data p) = true ↔ (s.port p).dataReq ≠ none) ∧ (s.requests .move = true ↔ s.moveReq ≠ none) ∧
      (s.requests (.command p) = true ↔ (s.port p).cmd.inFlight ≠ .nothing)) ∧
  (∀ (s : State) (q : Requester), s.calm → s.nextGrant = some q →
    (∀ p : ParPort, q = .data p.toPort → (s.port p.toPort).dataReq ≠ some .check) →
    (∀ p : SerPort, q = .data p.toPort → (s.port p.toPort).dataReq ≠ some .check →
      ∃ op x, (s.serUnit p).op = some op ∧ opKind op = some x) →
    (∀ p, q = .command p → (s.port p).cmd.inFlight ≠ .command codeWithdraw) →
    ∃ c, exec c s = .next (placeStartCheck (grantRequest q s))) ∧
  (∀ (s : State) (p : SerPort), ((serve p s).port p.toPort).dataReq = none) ∧
  ∀ s : State,
    (∀ k : Nat, k < 9 → s.requests (Requester.next^[k + 1] s.arb) = true →
      (∀ k', k' < k → s.requests (Requester.next^[k' + 1] s.arb) = false) →
      s.nextGrant = some (Requester.next^[k + 1] s.arb)) ∧
    (s.nextGrant = none ↔ ∀ q, s.requests q = false) ∧
    (∀ (q : Requester) (sort : State → Bool),
      (s.nextGrant = some q → sort s = true → (grantWhen q sort s).arb = q) ∧
      (s.nextGrant ≠ some q → grantWhen q sort s = s))

/-! ### The whole part -/

/-- Every step keeps the sample memory in its canonical form, from any state that has it. -/
def Obligations.EveryStepKeepsTheMemoryCanonical : Prop :=
  ∀ s t : State, s.mem.wf = true → step s = .next t → t.mem.wf = true

/-- Every step keeps the port units within their bounds (R154, R183, R190), and the pacers (R136): an enabled pacer's count is never 0, a
disabled one's is. From any state within them. -/
def Obligations.EveryStepKeepsThePortsLegal : Prop :=
  ∀ s t : State, s.legal = true → step s = .next t → t.legal = true

/-- Every step keeps the tables in agreement, `State.tablesAgree`, from any state where they agree. A ring is FREE exactly while it has no
attachment, and then at its reset values, and a SEALED ring has no producer (R9, R15, R18); valid and the write position agree with the
mode (R4, R5); each page is free or owned by the one ring whose run holds it (R59). Ring records and attachment records name each other,
and a free attachment record keeps only its generation (R9, R19); a reader's fill is at most valid and at most C, its skip above 0 only at
fill 0, its block progress above 0 only with a whole block (R35). An EMPTY move entry has its empty values, any other holds its source and
destination (R114, R119), and the entry of the frame in flight is RUNNING (R127). -/
def Obligations.EveryStepKeepsTheTablesInAgreement : Prop :=
  ∀ s t : State, s.tablesAgree = true → step s = .next t → t.tablesAgree = true

/-- The state after reset meets all three. -/
def Obligations.ResetMeetsTheInvariants : Prop :=
  State.reset.mem.wf = true ∧ State.reset.legal = true ∧ State.reset.tablesAgree = true

/-- Only TIMEBASE_ADVANCE moves the count, by 1, and only DEVICE_RESET sets it (R133): from any state, whatever the command. -/
def Obligations.OnlyTheClockMovesTheTimebase : Prop :=
  ∀ (c : Instr) (s t : State), exec c s = .next t →
    (c = .deviceReset → t.timebase = 0) ∧
    (c = .timebaseAdvance → t.timebase = if s.deviceReset = true then s.timebase else s.timebase + 1) ∧
    (c ≠ .deviceReset → c ≠ .timebaseAdvance → t.timebase = s.timebase)

/-- A port's windows, fill word, latched high word, mask and argument words are reached only by its own host and its own withdrawal: no
command that names another port or no port changes them (R85, R86, R134, R140), device reset apart. -/
def Obligations.NoOtherPortReachesAPortsSettings : Prop :=
  ∀ (c : Instr) (s t : State) (q : Port), exec c s = .next t → c ≠ .deviceReset → c.portOf ≠ some q →
    s.withdrawalPending q = false → (t.port q).settings = (s.port q).settings

/-- With no access waiting, a command whose own act stores nothing leaves every word of the sample memory as it was (R57, R58). -/
def Obligations.CommandsThatStoreNothingLeaveTheMemory : Prop :=
  ∀ (c : Instr) (s t : State), c.storesNothing = true → s.waiting = ⟨none, none⟩ → exec c s = .next t → t.mem = s.mem
end

