-- ==== Sys2Proof/Laws/State.lean ====
section
/-! SUPPORT. What each setter does to each field of the state and to each reader of a table: one lemma each, so that no proof unfolds
a record update. -/

namespace Sys2Proof.Machine

/-! ### Tables -/

theorem tableGet_eq {α : Type} {n : Nat} (v : Vector α n) (i : Fin n) : tableGet v i = v[i.val] := rfl

@[simp] theorem tableGet_tablePut_same {α : Type} {n : Nat} (v : Vector α n) (i : Fin n) (x : α) :
    tableGet (tablePut v i x) i = x := by
  simp [tableGet_eq, tablePut]

theorem tableGet_tablePut_ne {α : Type} {n : Nat} (v : Vector α n) (i j : Fin n) (x : α) (h : j ≠ i) :
    tableGet (tablePut v i x) j = tableGet v j := by
  have hv : i.val ≠ j.val := fun e => h (Fin.ext e.symm)
  simp [tableGet_eq, tablePut, hv]

theorem tableGet_tablePut {α : Type} {n : Nat} (v : Vector α n) (i j : Fin n) (x : α) :
    tableGet (tablePut v i x) j = if j = i then x else tableGet v j := by
  by_cases h : j = i
  · subst h; simp
  · simp [h, tableGet_tablePut_ne v i j x h]

@[simp] theorem tablePut_tablePut {α : Type} {n : Nat} (v : Vector α n) (i : Fin n) (x y : α) :
    tablePut (tablePut v i x) i y = tablePut v i y := by
  simp [tablePut]

@[simp] theorem tablePut_tableGet {α : Type} {n : Nat} (v : Vector α n) (i : Fin n) : tablePut v i (tableGet v i) = v := by
  simp [tablePut, tableGet_eq]

@[simp] theorem Four.get_put_same {α : Type} (t : Four α) (p : Port) (x : α) : (t.put p x).get p = x := by cases p <;> rfl

theorem Four.get_put_ne {α : Type} (t : Four α) (p q : Port) (x : α) (h : q ≠ p) : (t.put p x).get q = t.get q := by
  cases p <;> cases q <;> first | rfl | exact absurd rfl h

theorem Four.get_put {α : Type} (t : Four α) (p q : Port) (x : α) : (t.put p x).get q = if q = p then x else t.get q := by
  cases p <;> cases q <;> rfl

@[simp] theorem Four.put_put {α : Type} (t : Four α) (p : Port) (x y : α) : (t.put p x).put p y = t.put p y := by cases p <;> rfl

@[simp] theorem Four.put_get {α : Type} (t : Four α) (p : Port) : t.put p (t.get p) = t := by cases p <;> rfl

@[simp] theorem Two.getPar_putPar_same {α : Type} (t : Two α) (p : ParPort) (x : α) : (t.putPar p x).getPar p = x := by
  cases p <;> rfl

theorem Two.getPar_putPar {α : Type} (t : Two α) (p q : ParPort) (x : α) :
    (t.putPar p x).getPar q = if q = p then x else t.getPar q := by cases p <;> cases q <;> rfl

@[simp] theorem Two.putPar_putPar {α : Type} (t : Two α) (p : ParPort) (x y : α) : (t.putPar p x).putPar p y = t.putPar p y := by
  cases p <;> rfl

@[simp] theorem Two.getSer_putSer_same {α : Type} (t : Two α) (p : SerPort) (x : α) : (t.putSer p x).getSer p = x := by
  cases p <;> rfl

theorem Two.getSer_putSer {α : Type} (t : Two α) (p q : SerPort) (x : α) :
    (t.putSer p x).getSer q = if q = p then x else t.getSer q := by cases p <;> cases q <;> rfl

@[simp] theorem Two.putSer_putSer {α : Type} (t : Two α) (p : SerPort) (x y : α) : (t.putSer p x).putSer p y = t.putSer p y := by
  cases p <;> rfl

/-! ### Fields of the state after each setter -/

variable (s : State)


section setRing
variable (r : Fin 16) (x : Ring)
@[simp] theorem State.setRing_pending : (s.setRing r x).pending = s.pending := rfl
@[simp] theorem State.setRing_rings : (s.setRing r x).rings = tablePut s.rings r x := rfl
@[simp] theorem State.setRing_atts : (s.setRing r x).atts = s.atts := rfl
@[simp] theorem State.setRing_pageMap : (s.setRing r x).pageMap = s.pageMap := rfl
@[simp] theorem State.setRing_mem : (s.setRing r x).mem = s.mem := rfl
@[simp] theorem State.setRing_arb : (s.setRing r x).arb = s.arb := rfl
@[simp] theorem State.setRing_waiting : (s.setRing r x).waiting = s.waiting := rfl
@[simp] theorem State.setRing_moves : (s.setRing r x).moves = s.moves := rfl
@[simp] theorem State.setRing_rotation : (s.setRing r x).rotation = s.rotation := rfl
@[simp] theorem State.setRing_frame : (s.setRing r x).frame = s.frame := rfl
@[simp] theorem State.setRing_moveReq : (s.setRing r x).moveReq = s.moveReq := rfl
@[simp] theorem State.setRing_pacers : (s.setRing r x).pacers = s.pacers := rfl
@[simp] theorem State.setRing_timebase : (s.setRing r x).timebase = s.timebase := rfl
@[simp] theorem State.setRing_divider : (s.setRing r x).divider = s.divider := rfl
@[simp] theorem State.setRing_tickDue : (s.setRing r x).tickDue = s.tickDue := rfl
@[simp] theorem State.setRing_ports : (s.setRing r x).ports = s.ports := rfl
@[simp] theorem State.setRing_par : (s.setRing r x).par = s.par := rfl
@[simp] theorem State.setRing_ser : (s.setRing r x).ser = s.ser := rfl
@[simp] theorem State.setRing_deviceReset : (s.setRing r x).deviceReset = s.deviceReset := rfl
@[simp] theorem State.setRing_att (i' : Fin 32) : (s.setRing r x).att i' = s.att i' := rfl
@[simp] theorem State.setRing_move (e' : Fin 16) : (s.setRing r x).move e' = s.move e' := rfl
@[simp] theorem State.setRing_pacer (n' : Fin 4) : (s.setRing r x).pacer n' = s.pacer n' := rfl
@[simp] theorem State.setRing_port (p' : Port) : (s.setRing r x).port p' = s.port p' := rfl
@[simp] theorem State.setRing_parUnit (p' : ParPort) : (s.setRing r x).parUnit p' = s.parUnit p' := rfl
@[simp] theorem State.setRing_serUnit (p' : SerPort) : (s.setRing r x).serUnit p' = s.serUnit p' := rfl
@[simp] theorem State.setRing_waitingAt (p' : ParPort) : (s.setRing r x).waitingAt p' = s.waitingAt p' := rfl
end setRing

section setAtt
variable (i : Fin 32) (x : Attachment)
@[simp] theorem State.setAtt_pending : (s.setAtt i x).pending = s.pending := rfl
@[simp] theorem State.setAtt_rings : (s.setAtt i x).rings = s.rings := rfl
@[simp] theorem State.setAtt_atts : (s.setAtt i x).atts = tablePut s.atts i x := rfl
@[simp] theorem State.setAtt_pageMap : (s.setAtt i x).pageMap = s.pageMap := rfl
@[simp] theorem State.setAtt_mem : (s.setAtt i x).mem = s.mem := rfl
@[simp] theorem State.setAtt_arb : (s.setAtt i x).arb = s.arb := rfl
@[simp] theorem State.setAtt_waiting : (s.setAtt i x).waiting = s.waiting := rfl
@[simp] theorem State.setAtt_moves : (s.setAtt i x).moves = s.moves := rfl
@[simp] theorem State.setAtt_rotation : (s.setAtt i x).rotation = s.rotation := rfl
@[simp] theorem State.setAtt_frame : (s.setAtt i x).frame = s.frame := rfl
@[simp] theorem State.setAtt_moveReq : (s.setAtt i x).moveReq = s.moveReq := rfl
@[simp] theorem State.setAtt_pacers : (s.setAtt i x).pacers = s.pacers := rfl
@[simp] theorem State.setAtt_timebase : (s.setAtt i x).timebase = s.timebase := rfl
@[simp] theorem State.setAtt_divider : (s.setAtt i x).divider = s.divider := rfl
@[simp] theorem State.setAtt_tickDue : (s.setAtt i x).tickDue = s.tickDue := rfl
@[simp] theorem State.setAtt_ports : (s.setAtt i x).ports = s.ports := rfl
@[simp] theorem State.setAtt_par : (s.setAtt i x).par = s.par := rfl
@[simp] theorem State.setAtt_ser : (s.setAtt i x).ser = s.ser := rfl
@[simp] theorem State.setAtt_deviceReset : (s.setAtt i x).deviceReset = s.deviceReset := rfl
@[simp] theorem State.setAtt_ring (r' : Fin 16) : (s.setAtt i x).ring r' = s.ring r' := rfl
@[simp] theorem State.setAtt_move (e' : Fin 16) : (s.setAtt i x).move e' = s.move e' := rfl
@[simp] theorem State.setAtt_pacer (n' : Fin 4) : (s.setAtt i x).pacer n' = s.pacer n' := rfl
@[simp] theorem State.setAtt_port (p' : Port) : (s.setAtt i x).port p' = s.port p' := rfl
@[simp] theorem State.setAtt_parUnit (p' : ParPort) : (s.setAtt i x).parUnit p' = s.parUnit p' := rfl
@[simp] theorem State.setAtt_serUnit (p' : SerPort) : (s.setAtt i x).serUnit p' = s.serUnit p' := rfl
@[simp] theorem State.setAtt_waitingAt (p' : ParPort) : (s.setAtt i x).waitingAt p' = s.waitingAt p' := rfl
end setAtt

section setMove
variable (e : Fin 16) (x : MoveEntry)
@[simp] theorem State.setMove_pending : (s.setMove e x).pending = s.pending := rfl
@[simp] theorem State.setMove_rings : (s.setMove e x).rings = s.rings := rfl
@[simp] theorem State.setMove_atts : (s.setMove e x).atts = s.atts := rfl
@[simp] theorem State.setMove_pageMap : (s.setMove e x).pageMap = s.pageMap := rfl
@[simp] theorem State.setMove_mem : (s.setMove e x).mem = s.mem := rfl
@[simp] theorem State.setMove_arb : (s.setMove e x).arb = s.arb := rfl
@[simp] theorem State.setMove_waiting : (s.setMove e x).waiting = s.waiting := rfl
@[simp] theorem State.setMove_moves : (s.setMove e x).moves = tablePut s.moves e x := rfl
@[simp] theorem State.setMove_rotation : (s.setMove e x).rotation = s.rotation := rfl
@[simp] theorem State.setMove_frame : (s.setMove e x).frame = s.frame := rfl
@[simp] theorem State.setMove_moveReq : (s.setMove e x).moveReq = s.moveReq := rfl
@[simp] theorem State.setMove_pacers : (s.setMove e x).pacers = s.pacers := rfl
@[simp] theorem State.setMove_timebase : (s.setMove e x).timebase = s.timebase := rfl
@[simp] theorem State.setMove_divider : (s.setMove e x).divider = s.divider := rfl
@[simp] theorem State.setMove_tickDue : (s.setMove e x).tickDue = s.tickDue := rfl
@[simp] theorem State.setMove_ports : (s.setMove e x).ports = s.ports := rfl
@[simp] theorem State.setMove_par : (s.setMove e x).par = s.par := rfl
@[simp] theorem State.setMove_ser : (s.setMove e x).ser = s.ser := rfl
@[simp] theorem State.setMove_deviceReset : (s.setMove e x).deviceReset = s.deviceReset := rfl
@[simp] theorem State.setMove_ring (r' : Fin 16) : (s.setMove e x).ring r' = s.ring r' := rfl
@[simp] theorem State.setMove_att (i' : Fin 32) : (s.setMove e x).att i' = s.att i' := rfl
@[simp] theorem State.setMove_pacer (n' : Fin 4) : (s.setMove e x).pacer n' = s.pacer n' := rfl
@[simp] theorem State.setMove_port (p' : Port) : (s.setMove e x).port p' = s.port p' := rfl
@[simp] theorem State.setMove_parUnit (p' : ParPort) : (s.setMove e x).parUnit p' = s.parUnit p' := rfl
@[simp] theorem State.setMove_serUnit (p' : SerPort) : (s.setMove e x).serUnit p' = s.serUnit p' := rfl
@[simp] theorem State.setMove_waitingAt (p' : ParPort) : (s.setMove e x).waitingAt p' = s.waitingAt p' := rfl
end setMove

section setPacer
variable (n : Fin 4) (x : Pacer)
@[simp] theorem State.setPacer_pending : (s.setPacer n x).pending = s.pending := rfl
@[simp] theorem State.setPacer_rings : (s.setPacer n x).rings = s.rings := rfl
@[simp] theorem State.setPacer_atts : (s.setPacer n x).atts = s.atts := rfl
@[simp] theorem State.setPacer_pageMap : (s.setPacer n x).pageMap = s.pageMap := rfl
@[simp] theorem State.setPacer_mem : (s.setPacer n x).mem = s.mem := rfl
@[simp] theorem State.setPacer_arb : (s.setPacer n x).arb = s.arb := rfl
@[simp] theorem State.setPacer_waiting : (s.setPacer n x).waiting = s.waiting := rfl
@[simp] theorem State.setPacer_moves : (s.setPacer n x).moves = s.moves := rfl
@[simp] theorem State.setPacer_rotation : (s.setPacer n x).rotation = s.rotation := rfl
@[simp] theorem State.setPacer_frame : (s.setPacer n x).frame = s.frame := rfl
@[simp] theorem State.setPacer_moveReq : (s.setPacer n x).moveReq = s.moveReq := rfl
@[simp] theorem State.setPacer_pacers : (s.setPacer n x).pacers = tablePut s.pacers n x := rfl
@[simp] theorem State.setPacer_timebase : (s.setPacer n x).timebase = s.timebase := rfl
@[simp] theorem State.setPacer_divider : (s.setPacer n x).divider = s.divider := rfl
@[simp] theorem State.setPacer_tickDue : (s.setPacer n x).tickDue = s.tickDue := rfl
@[simp] theorem State.setPacer_ports : (s.setPacer n x).ports = s.ports := rfl
@[simp] theorem State.setPacer_par : (s.setPacer n x).par = s.par := rfl
@[simp] theorem State.setPacer_ser : (s.setPacer n x).ser = s.ser := rfl
@[simp] theorem State.setPacer_deviceReset : (s.setPacer n x).deviceReset = s.deviceReset := rfl
@[simp] theorem State.setPacer_ring (r' : Fin 16) : (s.setPacer n x).ring r' = s.ring r' := rfl
@[simp] theorem State.setPacer_att (i' : Fin 32) : (s.setPacer n x).att i' = s.att i' := rfl
@[simp] theorem State.setPacer_move (e' : Fin 16) : (s.setPacer n x).move e' = s.move e' := rfl
@[simp] theorem State.setPacer_port (p' : Port) : (s.setPacer n x).port p' = s.port p' := rfl
@[simp] theorem State.setPacer_parUnit (p' : ParPort) : (s.setPacer n x).parUnit p' = s.parUnit p' := rfl
@[simp] theorem State.setPacer_serUnit (p' : SerPort) : (s.setPacer n x).serUnit p' = s.serUnit p' := rfl
@[simp] theorem State.setPacer_waitingAt (p' : ParPort) : (s.setPacer n x).waitingAt p' = s.waitingAt p' := rfl
end setPacer

section setPort
variable (p : Port) (x : PortUnit)
@[simp] theorem State.setPort_pending : (s.setPort p x).pending = s.pending := rfl
@[simp] theorem State.setPort_rings : (s.setPort p x).rings = s.rings := rfl
@[simp] theorem State.setPort_atts : (s.setPort p x).atts = s.atts := rfl
@[simp] theorem State.setPort_pageMap : (s.setPort p x).pageMap = s.pageMap := rfl
@[simp] theorem State.setPort_mem : (s.setPort p x).mem = s.mem := rfl
@[simp] theorem State.setPort_arb : (s.setPort p x).arb = s.arb := rfl
@[simp] theorem State.setPort_waiting : (s.setPort p x).waiting = s.waiting := rfl
@[simp] theorem State.setPort_moves : (s.setPort p x).moves = s.moves := rfl
@[simp] theorem State.setPort_rotation : (s.setPort p x).rotation = s.rotation := rfl
@[simp] theorem State.setPort_frame : (s.setPort p x).frame = s.frame := rfl
@[simp] theorem State.setPort_moveReq : (s.setPort p x).moveReq = s.moveReq := rfl
@[simp] theorem State.setPort_pacers : (s.setPort p x).pacers = s.pacers := rfl
@[simp] theorem State.setPort_timebase : (s.setPort p x).timebase = s.timebase := rfl
@[simp] theorem State.setPort_divider : (s.setPort p x).divider = s.divider := rfl
@[simp] theorem State.setPort_tickDue : (s.setPort p x).tickDue = s.tickDue := rfl
@[simp] theorem State.setPort_ports : (s.setPort p x).ports = s.ports.put p x := rfl
@[simp] theorem State.setPort_par : (s.setPort p x).par = s.par := rfl
@[simp] theorem State.setPort_ser : (s.setPort p x).ser = s.ser := rfl
@[simp] theorem State.setPort_deviceReset : (s.setPort p x).deviceReset = s.deviceReset := rfl
@[simp] theorem State.setPort_ring (r' : Fin 16) : (s.setPort p x).ring r' = s.ring r' := rfl
@[simp] theorem State.setPort_att (i' : Fin 32) : (s.setPort p x).att i' = s.att i' := rfl
@[simp] theorem State.setPort_move (e' : Fin 16) : (s.setPort p x).move e' = s.move e' := rfl
@[simp] theorem State.setPort_pacer (n' : Fin 4) : (s.setPort p x).pacer n' = s.pacer n' := rfl
@[simp] theorem State.setPort_parUnit (p' : ParPort) : (s.setPort p x).parUnit p' = s.parUnit p' := rfl
@[simp] theorem State.setPort_serUnit (p' : SerPort) : (s.setPort p x).serUnit p' = s.serUnit p' := rfl
@[simp] theorem State.setPort_waitingAt (p' : ParPort) : (s.setPort p x).waitingAt p' = s.waitingAt p' := rfl
end setPort

section setPar
variable (p : ParPort) (x : ParallelUnit)
@[simp] theorem State.setPar_pending : (s.setPar p x).pending = s.pending := rfl
@[simp] theorem State.setPar_rings : (s.setPar p x).rings = s.rings := rfl
@[simp] theorem State.setPar_atts : (s.setPar p x).atts = s.atts := rfl
@[simp] theorem State.setPar_pageMap : (s.setPar p x).pageMap = s.pageMap := rfl
@[simp] theorem State.setPar_mem : (s.setPar p x).mem = s.mem := rfl
@[simp] theorem State.setPar_arb : (s.setPar p x).arb = s.arb := rfl
@[simp] theorem State.setPar_waiting : (s.setPar p x).waiting = s.waiting := rfl
@[simp] theorem State.setPar_moves : (s.setPar p x).moves = s.moves := rfl
@[simp] theorem State.setPar_rotation : (s.setPar p x).rotation = s.rotation := rfl
@[simp] theorem State.setPar_frame : (s.setPar p x).frame = s.frame := rfl
@[simp] theorem State.setPar_moveReq : (s.setPar p x).moveReq = s.moveReq := rfl
@[simp] theorem State.setPar_pacers : (s.setPar p x).pacers = s.pacers := rfl
@[simp] theorem State.setPar_timebase : (s.setPar p x).timebase = s.timebase := rfl
@[simp] theorem State.setPar_divider : (s.setPar p x).divider = s.divider := rfl
@[simp] theorem State.setPar_tickDue : (s.setPar p x).tickDue = s.tickDue := rfl
@[simp] theorem State.setPar_ports : (s.setPar p x).ports = s.ports := rfl
@[simp] theorem State.setPar_par : (s.setPar p x).par = s.par.putPar p x := rfl
@[simp] theorem State.setPar_ser : (s.setPar p x).ser = s.ser := rfl
@[simp] theorem State.setPar_deviceReset : (s.setPar p x).deviceReset = s.deviceReset := rfl
@[simp] theorem State.setPar_ring (r' : Fin 16) : (s.setPar p x).ring r' = s.ring r' := rfl
@[simp] theorem State.setPar_att (i' : Fin 32) : (s.setPar p x).att i' = s.att i' := rfl
@[simp] theorem State.setPar_move (e' : Fin 16) : (s.setPar p x).move e' = s.move e' := rfl
@[simp] theorem State.setPar_pacer (n' : Fin 4) : (s.setPar p x).pacer n' = s.pacer n' := rfl
@[simp] theorem State.setPar_port (p' : Port) : (s.setPar p x).port p' = s.port p' := rfl
@[simp] theorem State.setPar_serUnit (p' : SerPort) : (s.setPar p x).serUnit p' = s.serUnit p' := rfl
@[simp] theorem State.setPar_waitingAt (p' : ParPort) : (s.setPar p x).waitingAt p' = s.waitingAt p' := rfl
end setPar

section setSer
variable (p : SerPort) (x : SerialUnit)
@[simp] theorem State.setSer_pending : (s.setSer p x).pending = s.pending := rfl
@[simp] theorem State.setSer_rings : (s.setSer p x).rings = s.rings := rfl
@[simp] theorem State.setSer_atts : (s.setSer p x).atts = s.atts := rfl
@[simp] theorem State.setSer_pageMap : (s.setSer p x).pageMap = s.pageMap := rfl
@[simp] theorem State.setSer_mem : (s.setSer p x).mem = s.mem := rfl
@[simp] theorem State.setSer_arb : (s.setSer p x).arb = s.arb := rfl
@[simp] theorem State.setSer_waiting : (s.setSer p x).waiting = s.waiting := rfl
@[simp] theorem State.setSer_moves : (s.setSer p x).moves = s.moves := rfl
@[simp] theorem State.setSer_rotation : (s.setSer p x).rotation = s.rotation := rfl
@[simp] theorem State.setSer_frame : (s.setSer p x).frame = s.frame := rfl
@[simp] theorem State.setSer_moveReq : (s.setSer p x).moveReq = s.moveReq := rfl
@[simp] theorem State.setSer_pacers : (s.setSer p x).pacers = s.pacers := rfl
@[simp] theorem State.setSer_timebase : (s.setSer p x).timebase = s.timebase := rfl
@[simp] theorem State.setSer_divider : (s.setSer p x).divider = s.divider := rfl
@[simp] theorem State.setSer_tickDue : (s.setSer p x).tickDue = s.tickDue := rfl
@[simp] theorem State.setSer_ports : (s.setSer p x).ports = s.ports := rfl
@[simp] theorem State.setSer_par : (s.setSer p x).par = s.par := rfl
@[simp] theorem State.setSer_ser : (s.setSer p x).ser = s.ser.putSer p x := rfl
@[simp] theorem State.setSer_deviceReset : (s.setSer p x).deviceReset = s.deviceReset := rfl
@[simp] theorem State.setSer_ring (r' : Fin 16) : (s.setSer p x).ring r' = s.ring r' := rfl
@[simp] theorem State.setSer_att (i' : Fin 32) : (s.setSer p x).att i' = s.att i' := rfl
@[simp] theorem State.setSer_move (e' : Fin 16) : (s.setSer p x).move e' = s.move e' := rfl
@[simp] theorem State.setSer_pacer (n' : Fin 4) : (s.setSer p x).pacer n' = s.pacer n' := rfl
@[simp] theorem State.setSer_port (p' : Port) : (s.setSer p x).port p' = s.port p' := rfl
@[simp] theorem State.setSer_parUnit (p' : ParPort) : (s.setSer p x).parUnit p' = s.parUnit p' := rfl
@[simp] theorem State.setSer_waitingAt (p' : ParPort) : (s.setSer p x).waitingAt p' = s.waitingAt p' := rfl
end setSer

section setWaiting
variable (p : ParPort) (x : Option WaitingAccess)
@[simp] theorem State.setWaiting_pending : (s.setWaiting p x).pending = s.pending := rfl
@[simp] theorem State.setWaiting_rings : (s.setWaiting p x).rings = s.rings := rfl
@[simp] theorem State.setWaiting_atts : (s.setWaiting p x).atts = s.atts := rfl
@[simp] theorem State.setWaiting_pageMap : (s.setWaiting p x).pageMap = s.pageMap := rfl
@[simp] theorem State.setWaiting_mem : (s.setWaiting p x).mem = s.mem := rfl
@[simp] theorem State.setWaiting_arb : (s.setWaiting p x).arb = s.arb := rfl
@[simp] theorem State.setWaiting_waiting : (s.setWaiting p x).waiting = s.waiting.putPar p x := rfl
@[simp] theorem State.setWaiting_moves : (s.setWaiting p x).moves = s.moves := rfl
@[simp] theorem State.setWaiting_rotation : (s.setWaiting p x).rotation = s.rotation := rfl
@[simp] theorem State.setWaiting_frame : (s.setWaiting p x).frame = s.frame := rfl
@[simp] theorem State.setWaiting_moveReq : (s.setWaiting p x).moveReq = s.moveReq := rfl
@[simp] theorem State.setWaiting_pacers : (s.setWaiting p x).pacers = s.pacers := rfl
@[simp] theorem State.setWaiting_timebase : (s.setWaiting p x).timebase = s.timebase := rfl
@[simp] theorem State.setWaiting_divider : (s.setWaiting p x).divider = s.divider := rfl
@[simp] theorem State.setWaiting_tickDue : (s.setWaiting p x).tickDue = s.tickDue := rfl
@[simp] theorem State.setWaiting_ports : (s.setWaiting p x).ports = s.ports := rfl
@[simp] theorem State.setWaiting_par : (s.setWaiting p x).par = s.par := rfl
@[simp] theorem State.setWaiting_ser : (s.setWaiting p x).ser = s.ser := rfl
@[simp] theorem State.setWaiting_deviceReset : (s.setWaiting p x).deviceReset = s.deviceReset := rfl
@[simp] theorem State.setWaiting_ring (r' : Fin 16) : (s.setWaiting p x).ring r' = s.ring r' := rfl
@[simp] theorem State.setWaiting_att (i' : Fin 32) : (s.setWaiting p x).att i' = s.att i' := rfl
@[simp] theorem State.setWaiting_move (e' : Fin 16) : (s.setWaiting p x).move e' = s.move e' := rfl
@[simp] theorem State.setWaiting_pacer (n' : Fin 4) : (s.setWaiting p x).pacer n' = s.pacer n' := rfl
@[simp] theorem State.setWaiting_port (p' : Port) : (s.setWaiting p x).port p' = s.port p' := rfl
@[simp] theorem State.setWaiting_parUnit (p' : ParPort) : (s.setWaiting p x).parUnit p' = s.parUnit p' := rfl
@[simp] theorem State.setWaiting_serUnit (p' : SerPort) : (s.setWaiting p x).serUnit p' = s.serUnit p' := rfl
end setWaiting

section setMem
variable (x : Memory)
@[simp] theorem State.setMem_pending : (s.setMem x).pending = s.pending := rfl
@[simp] theorem State.setMem_rings : (s.setMem x).rings = s.rings := rfl
@[simp] theorem State.setMem_atts : (s.setMem x).atts = s.atts := rfl
@[simp] theorem State.setMem_pageMap : (s.setMem x).pageMap = s.pageMap := rfl
@[simp] theorem State.setMem_mem : (s.setMem x).mem = x := rfl
@[simp] theorem State.setMem_arb : (s.setMem x).arb = s.arb := rfl
@[simp] theorem State.setMem_waiting : (s.setMem x).waiting = s.waiting := rfl
@[simp] theorem State.setMem_moves : (s.setMem x).moves = s.moves := rfl
@[simp] theorem State.setMem_rotation : (s.setMem x).rotation = s.rotation := rfl
@[simp] theorem State.setMem_frame : (s.setMem x).frame = s.frame := rfl
@[simp] theorem State.setMem_moveReq : (s.setMem x).moveReq = s.moveReq := rfl
@[simp] theorem State.setMem_pacers : (s.setMem x).pacers = s.pacers := rfl
@[simp] theorem State.setMem_timebase : (s.setMem x).timebase = s.timebase := rfl
@[simp] theorem State.setMem_divider : (s.setMem x).divider = s.divider := rfl
@[simp] theorem State.setMem_tickDue : (s.setMem x).tickDue = s.tickDue := rfl
@[simp] theorem State.setMem_ports : (s.setMem x).ports = s.ports := rfl
@[simp] theorem State.setMem_par : (s.setMem x).par = s.par := rfl
@[simp] theorem State.setMem_ser : (s.setMem x).ser = s.ser := rfl
@[simp] theorem State.setMem_deviceReset : (s.setMem x).deviceReset = s.deviceReset := rfl
@[simp] theorem State.setMem_ring (r' : Fin 16) : (s.setMem x).ring r' = s.ring r' := rfl
@[simp] theorem State.setMem_att (i' : Fin 32) : (s.setMem x).att i' = s.att i' := rfl
@[simp] theorem State.setMem_move (e' : Fin 16) : (s.setMem x).move e' = s.move e' := rfl
@[simp] theorem State.setMem_pacer (n' : Fin 4) : (s.setMem x).pacer n' = s.pacer n' := rfl
@[simp] theorem State.setMem_port (p' : Port) : (s.setMem x).port p' = s.port p' := rfl
@[simp] theorem State.setMem_parUnit (p' : ParPort) : (s.setMem x).parUnit p' = s.parUnit p' := rfl
@[simp] theorem State.setMem_serUnit (p' : SerPort) : (s.setMem x).serUnit p' = s.serUnit p' := rfl
@[simp] theorem State.setMem_waitingAt (p' : ParPort) : (s.setMem x).waitingAt p' = s.waitingAt p' := rfl
end setMem

section setPageMap
variable (x : Vector (Option (Fin 16)) 128)
@[simp] theorem State.setPageMap_pending : (s.setPageMap x).pending = s.pending := rfl
@[simp] theorem State.setPageMap_rings : (s.setPageMap x).rings = s.rings := rfl
@[simp] theorem State.setPageMap_atts : (s.setPageMap x).atts = s.atts := rfl
@[simp] theorem State.setPageMap_pageMap : (s.setPageMap x).pageMap = x := rfl
@[simp] theorem State.setPageMap_mem : (s.setPageMap x).mem = s.mem := rfl
@[simp] theorem State.setPageMap_arb : (s.setPageMap x).arb = s.arb := rfl
@[simp] theorem State.setPageMap_waiting : (s.setPageMap x).waiting = s.waiting := rfl
@[simp] theorem State.setPageMap_moves : (s.setPageMap x).moves = s.moves := rfl
@[simp] theorem State.setPageMap_rotation : (s.setPageMap x).rotation = s.rotation := rfl
@[simp] theorem State.setPageMap_frame : (s.setPageMap x).frame = s.frame := rfl
@[simp] theorem State.setPageMap_moveReq : (s.setPageMap x).moveReq = s.moveReq := rfl
@[simp] theorem State.setPageMap_pacers : (s.setPageMap x).pacers = s.pacers := rfl
@[simp] theorem State.setPageMap_timebase : (s.setPageMap x).timebase = s.timebase := rfl
@[simp] theorem State.setPageMap_divider : (s.setPageMap x).divider = s.divider := rfl
@[simp] theorem State.setPageMap_tickDue : (s.setPageMap x).tickDue = s.tickDue := rfl
@[simp] theorem State.setPageMap_ports : (s.setPageMap x).ports = s.ports := rfl
@[simp] theorem State.setPageMap_par : (s.setPageMap x).par = s.par := rfl
@[simp] theorem State.setPageMap_ser : (s.setPageMap x).ser = s.ser := rfl
@[simp] theorem State.setPageMap_deviceReset : (s.setPageMap x).deviceReset = s.deviceReset := rfl
@[simp] theorem State.setPageMap_ring (r' : Fin 16) : (s.setPageMap x).ring r' = s.ring r' := rfl
@[simp] theorem State.setPageMap_att (i' : Fin 32) : (s.setPageMap x).att i' = s.att i' := rfl
@[simp] theorem State.setPageMap_move (e' : Fin 16) : (s.setPageMap x).move e' = s.move e' := rfl
@[simp] theorem State.setPageMap_pacer (n' : Fin 4) : (s.setPageMap x).pacer n' = s.pacer n' := rfl
@[simp] theorem State.setPageMap_port (p' : Port) : (s.setPageMap x).port p' = s.port p' := rfl
@[simp] theorem State.setPageMap_parUnit (p' : ParPort) : (s.setPageMap x).parUnit p' = s.parUnit p' := rfl
@[simp] theorem State.setPageMap_serUnit (p' : SerPort) : (s.setPageMap x).serUnit p' = s.serUnit p' := rfl
@[simp] theorem State.setPageMap_waitingAt (p' : ParPort) : (s.setPageMap x).waitingAt p' = s.waitingAt p' := rfl
end setPageMap

section setArb
variable (x : Requester)
@[simp] theorem State.setArb_pending : (s.setArb x).pending = s.pending := rfl
@[simp] theorem State.setArb_rings : (s.setArb x).rings = s.rings := rfl
@[simp] theorem State.setArb_atts : (s.setArb x).atts = s.atts := rfl
@[simp] theorem State.setArb_pageMap : (s.setArb x).pageMap = s.pageMap := rfl
@[simp] theorem State.setArb_mem : (s.setArb x).mem = s.mem := rfl
@[simp] theorem State.setArb_arb : (s.setArb x).arb = x := rfl
@[simp] theorem State.setArb_waiting : (s.setArb x).waiting = s.waiting := rfl
@[simp] theorem State.setArb_moves : (s.setArb x).moves = s.moves := rfl
@[simp] theorem State.setArb_rotation : (s.setArb x).rotation = s.rotation := rfl
@[simp] theorem State.setArb_frame : (s.setArb x).frame = s.frame := rfl
@[simp] theorem State.setArb_moveReq : (s.setArb x).moveReq = s.moveReq := rfl
@[simp] theorem State.setArb_pacers : (s.setArb x).pacers = s.pacers := rfl
@[simp] theorem State.setArb_timebase : (s.setArb x).timebase = s.timebase := rfl
@[simp] theorem State.setArb_divider : (s.setArb x).divider = s.divider := rfl
@[simp] theorem State.setArb_tickDue : (s.setArb x).tickDue = s.tickDue := rfl
@[simp] theorem State.setArb_ports : (s.setArb x).ports = s.ports := rfl
@[simp] theorem State.setArb_par : (s.setArb x).par = s.par := rfl
@[simp] theorem State.setArb_ser : (s.setArb x).ser = s.ser := rfl
@[simp] theorem State.setArb_deviceReset : (s.setArb x).deviceReset = s.deviceReset := rfl
@[simp] theorem State.setArb_ring (r' : Fin 16) : (s.setArb x).ring r' = s.ring r' := rfl
@[simp] theorem State.setArb_att (i' : Fin 32) : (s.setArb x).att i' = s.att i' := rfl
@[simp] theorem State.setArb_move (e' : Fin 16) : (s.setArb x).move e' = s.move e' := rfl
@[simp] theorem State.setArb_pacer (n' : Fin 4) : (s.setArb x).pacer n' = s.pacer n' := rfl
@[simp] theorem State.setArb_port (p' : Port) : (s.setArb x).port p' = s.port p' := rfl
@[simp] theorem State.setArb_parUnit (p' : ParPort) : (s.setArb x).parUnit p' = s.parUnit p' := rfl
@[simp] theorem State.setArb_serUnit (p' : SerPort) : (s.setArb x).serUnit p' = s.serUnit p' := rfl
@[simp] theorem State.setArb_waitingAt (p' : ParPort) : (s.setArb x).waitingAt p' = s.waitingAt p' := rfl
end setArb

section setRotation
variable (x : Fin 16)
@[simp] theorem State.setRotation_pending : (s.setRotation x).pending = s.pending := rfl
@[simp] theorem State.setRotation_rings : (s.setRotation x).rings = s.rings := rfl
@[simp] theorem State.setRotation_atts : (s.setRotation x).atts = s.atts := rfl
@[simp] theorem State.setRotation_pageMap : (s.setRotation x).pageMap = s.pageMap := rfl
@[simp] theorem State.setRotation_mem : (s.setRotation x).mem = s.mem := rfl
@[simp] theorem State.setRotation_arb : (s.setRotation x).arb = s.arb := rfl
@[simp] theorem State.setRotation_waiting : (s.setRotation x).waiting = s.waiting := rfl
@[simp] theorem State.setRotation_moves : (s.setRotation x).moves = s.moves := rfl
@[simp] theorem State.setRotation_rotation : (s.setRotation x).rotation = x := rfl
@[simp] theorem State.setRotation_frame : (s.setRotation x).frame = s.frame := rfl
@[simp] theorem State.setRotation_moveReq : (s.setRotation x).moveReq = s.moveReq := rfl
@[simp] theorem State.setRotation_pacers : (s.setRotation x).pacers = s.pacers := rfl
@[simp] theorem State.setRotation_timebase : (s.setRotation x).timebase = s.timebase := rfl
@[simp] theorem State.setRotation_divider : (s.setRotation x).divider = s.divider := rfl
@[simp] theorem State.setRotation_tickDue : (s.setRotation x).tickDue = s.tickDue := rfl
@[simp] theorem State.setRotation_ports : (s.setRotation x).ports = s.ports := rfl
@[simp] theorem State.setRotation_par : (s.setRotation x).par = s.par := rfl
@[simp] theorem State.setRotation_ser : (s.setRotation x).ser = s.ser := rfl
@[simp] theorem State.setRotation_deviceReset : (s.setRotation x).deviceReset = s.deviceReset := rfl
@[simp] theorem State.setRotation_ring (r' : Fin 16) : (s.setRotation x).ring r' = s.ring r' := rfl
@[simp] theorem State.setRotation_att (i' : Fin 32) : (s.setRotation x).att i' = s.att i' := rfl
@[simp] theorem State.setRotation_move (e' : Fin 16) : (s.setRotation x).move e' = s.move e' := rfl
@[simp] theorem State.setRotation_pacer (n' : Fin 4) : (s.setRotation x).pacer n' = s.pacer n' := rfl
@[simp] theorem State.setRotation_port (p' : Port) : (s.setRotation x).port p' = s.port p' := rfl
@[simp] theorem State.setRotation_parUnit (p' : ParPort) : (s.setRotation x).parUnit p' = s.parUnit p' := rfl
@[simp] theorem State.setRotation_serUnit (p' : SerPort) : (s.setRotation x).serUnit p' = s.serUnit p' := rfl
@[simp] theorem State.setRotation_waitingAt (p' : ParPort) : (s.setRotation x).waitingAt p' = s.waitingAt p' := rfl
end setRotation

section setFrame
variable (x : Option Frame)
@[simp] theorem State.setFrame_pending : (s.setFrame x).pending = s.pending := rfl
@[simp] theorem State.setFrame_rings : (s.setFrame x).rings = s.rings := rfl
@[simp] theorem State.setFrame_atts : (s.setFrame x).atts = s.atts := rfl
@[simp] theorem State.setFrame_pageMap : (s.setFrame x).pageMap = s.pageMap := rfl
@[simp] theorem State.setFrame_mem : (s.setFrame x).mem = s.mem := rfl
@[simp] theorem State.setFrame_arb : (s.setFrame x).arb = s.arb := rfl
@[simp] theorem State.setFrame_waiting : (s.setFrame x).waiting = s.waiting := rfl
@[simp] theorem State.setFrame_moves : (s.setFrame x).moves = s.moves := rfl
@[simp] theorem State.setFrame_rotation : (s.setFrame x).rotation = s.rotation := rfl
@[simp] theorem State.setFrame_frame : (s.setFrame x).frame = x := rfl
@[simp] theorem State.setFrame_moveReq : (s.setFrame x).moveReq = s.moveReq := rfl
@[simp] theorem State.setFrame_pacers : (s.setFrame x).pacers = s.pacers := rfl
@[simp] theorem State.setFrame_timebase : (s.setFrame x).timebase = s.timebase := rfl
@[simp] theorem State.setFrame_divider : (s.setFrame x).divider = s.divider := rfl
@[simp] theorem State.setFrame_tickDue : (s.setFrame x).tickDue = s.tickDue := rfl
@[simp] theorem State.setFrame_ports : (s.setFrame x).ports = s.ports := rfl
@[simp] theorem State.setFrame_par : (s.setFrame x).par = s.par := rfl
@[simp] theorem State.setFrame_ser : (s.setFrame x).ser = s.ser := rfl
@[simp] theorem State.setFrame_deviceReset : (s.setFrame x).deviceReset = s.deviceReset := rfl
@[simp] theorem State.setFrame_ring (r' : Fin 16) : (s.setFrame x).ring r' = s.ring r' := rfl
@[simp] theorem State.setFrame_att (i' : Fin 32) : (s.setFrame x).att i' = s.att i' := rfl
@[simp] theorem State.setFrame_move (e' : Fin 16) : (s.setFrame x).move e' = s.move e' := rfl
@[simp] theorem State.setFrame_pacer (n' : Fin 4) : (s.setFrame x).pacer n' = s.pacer n' := rfl
@[simp] theorem State.setFrame_port (p' : Port) : (s.setFrame x).port p' = s.port p' := rfl
@[simp] theorem State.setFrame_parUnit (p' : ParPort) : (s.setFrame x).parUnit p' = s.parUnit p' := rfl
@[simp] theorem State.setFrame_serUnit (p' : SerPort) : (s.setFrame x).serUnit p' = s.serUnit p' := rfl
@[simp] theorem State.setFrame_waitingAt (p' : ParPort) : (s.setFrame x).waitingAt p' = s.waitingAt p' := rfl
end setFrame

section setMoveReq
variable (x : Option MoveRequest)
@[simp] theorem State.setMoveReq_pending : (s.setMoveReq x).pending = s.pending := rfl
@[simp] theorem State.setMoveReq_rings : (s.setMoveReq x).rings = s.rings := rfl
@[simp] theorem State.setMoveReq_atts : (s.setMoveReq x).atts = s.atts := rfl
@[simp] theorem State.setMoveReq_pageMap : (s.setMoveReq x).pageMap = s.pageMap := rfl
@[simp] theorem State.setMoveReq_mem : (s.setMoveReq x).mem = s.mem := rfl
@[simp] theorem State.setMoveReq_arb : (s.setMoveReq x).arb = s.arb := rfl
@[simp] theorem State.setMoveReq_waiting : (s.setMoveReq x).waiting = s.waiting := rfl
@[simp] theorem State.setMoveReq_moves : (s.setMoveReq x).moves = s.moves := rfl
@[simp] theorem State.setMoveReq_rotation : (s.setMoveReq x).rotation = s.rotation := rfl
@[simp] theorem State.setMoveReq_frame : (s.setMoveReq x).frame = s.frame := rfl
@[simp] theorem State.setMoveReq_moveReq : (s.setMoveReq x).moveReq = x := rfl
@[simp] theorem State.setMoveReq_pacers : (s.setMoveReq x).pacers = s.pacers := rfl
@[simp] theorem State.setMoveReq_timebase : (s.setMoveReq x).timebase = s.timebase := rfl
@[simp] theorem State.setMoveReq_divider : (s.setMoveReq x).divider = s.divider := rfl
@[simp] theorem State.setMoveReq_tickDue : (s.setMoveReq x).tickDue = s.tickDue := rfl
@[simp] theorem State.setMoveReq_ports : (s.setMoveReq x).ports = s.ports := rfl
@[simp] theorem State.setMoveReq_par : (s.setMoveReq x).par = s.par := rfl
@[simp] theorem State.setMoveReq_ser : (s.setMoveReq x).ser = s.ser := rfl
@[simp] theorem State.setMoveReq_deviceReset : (s.setMoveReq x).deviceReset = s.deviceReset := rfl
@[simp] theorem State.setMoveReq_ring (r' : Fin 16) : (s.setMoveReq x).ring r' = s.ring r' := rfl
@[simp] theorem State.setMoveReq_att (i' : Fin 32) : (s.setMoveReq x).att i' = s.att i' := rfl
@[simp] theorem State.setMoveReq_move (e' : Fin 16) : (s.setMoveReq x).move e' = s.move e' := rfl
@[simp] theorem State.setMoveReq_pacer (n' : Fin 4) : (s.setMoveReq x).pacer n' = s.pacer n' := rfl
@[simp] theorem State.setMoveReq_port (p' : Port) : (s.setMoveReq x).port p' = s.port p' := rfl
@[simp] theorem State.setMoveReq_parUnit (p' : ParPort) : (s.setMoveReq x).parUnit p' = s.parUnit p' := rfl
@[simp] theorem State.setMoveReq_serUnit (p' : SerPort) : (s.setMoveReq x).serUnit p' = s.serUnit p' := rfl
@[simp] theorem State.setMoveReq_waitingAt (p' : ParPort) : (s.setMoveReq x).waitingAt p' = s.waitingAt p' := rfl
end setMoveReq

section setTimebase
variable (x : BitVec 32)
@[simp] theorem State.setTimebase_pending : (s.setTimebase x).pending = s.pending := rfl
@[simp] theorem State.setTimebase_rings : (s.setTimebase x).rings = s.rings := rfl
@[simp] theorem State.setTimebase_atts : (s.setTimebase x).atts = s.atts := rfl
@[simp] theorem State.setTimebase_pageMap : (s.setTimebase x).pageMap = s.pageMap := rfl
@[simp] theorem State.setTimebase_mem : (s.setTimebase x).mem = s.mem := rfl
@[simp] theorem State.setTimebase_arb : (s.setTimebase x).arb = s.arb := rfl
@[simp] theorem State.setTimebase_waiting : (s.setTimebase x).waiting = s.waiting := rfl
@[simp] theorem State.setTimebase_moves : (s.setTimebase x).moves = s.moves := rfl
@[simp] theorem State.setTimebase_rotation : (s.setTimebase x).rotation = s.rotation := rfl
@[simp] theorem State.setTimebase_frame : (s.setTimebase x).frame = s.frame := rfl
@[simp] theorem State.setTimebase_moveReq : (s.setTimebase x).moveReq = s.moveReq := rfl
@[simp] theorem State.setTimebase_pacers : (s.setTimebase x).pacers = s.pacers := rfl
@[simp] theorem State.setTimebase_timebase : (s.setTimebase x).timebase = x := rfl
@[simp] theorem State.setTimebase_divider : (s.setTimebase x).divider = s.divider := rfl
@[simp] theorem State.setTimebase_tickDue : (s.setTimebase x).tickDue = s.tickDue := rfl
@[simp] theorem State.setTimebase_ports : (s.setTimebase x).ports = s.ports := rfl
@[simp] theorem State.setTimebase_par : (s.setTimebase x).par = s.par := rfl
@[simp] theorem State.setTimebase_ser : (s.setTimebase x).ser = s.ser := rfl
@[simp] theorem State.setTimebase_deviceReset : (s.setTimebase x).deviceReset = s.deviceReset := rfl
@[simp] theorem State.setTimebase_ring (r' : Fin 16) : (s.setTimebase x).ring r' = s.ring r' := rfl
@[simp] theorem State.setTimebase_att (i' : Fin 32) : (s.setTimebase x).att i' = s.att i' := rfl
@[simp] theorem State.setTimebase_move (e' : Fin 16) : (s.setTimebase x).move e' = s.move e' := rfl
@[simp] theorem State.setTimebase_pacer (n' : Fin 4) : (s.setTimebase x).pacer n' = s.pacer n' := rfl
@[simp] theorem State.setTimebase_port (p' : Port) : (s.setTimebase x).port p' = s.port p' := rfl
@[simp] theorem State.setTimebase_parUnit (p' : ParPort) : (s.setTimebase x).parUnit p' = s.parUnit p' := rfl
@[simp] theorem State.setTimebase_serUnit (p' : SerPort) : (s.setTimebase x).serUnit p' = s.serUnit p' := rfl
@[simp] theorem State.setTimebase_waitingAt (p' : ParPort) : (s.setTimebase x).waitingAt p' = s.waitingAt p' := rfl
end setTimebase

section setDivider
variable (x : Nat)
@[simp] theorem State.setDivider_pending : (s.setDivider x).pending = s.pending := rfl
@[simp] theorem State.setDivider_rings : (s.setDivider x).rings = s.rings := rfl
@[simp] theorem State.setDivider_atts : (s.setDivider x).atts = s.atts := rfl
@[simp] theorem State.setDivider_pageMap : (s.setDivider x).pageMap = s.pageMap := rfl
@[simp] theorem State.setDivider_mem : (s.setDivider x).mem = s.mem := rfl
@[simp] theorem State.setDivider_arb : (s.setDivider x).arb = s.arb := rfl
@[simp] theorem State.setDivider_waiting : (s.setDivider x).waiting = s.waiting := rfl
@[simp] theorem State.setDivider_moves : (s.setDivider x).moves = s.moves := rfl
@[simp] theorem State.setDivider_rotation : (s.setDivider x).rotation = s.rotation := rfl
@[simp] theorem State.setDivider_frame : (s.setDivider x).frame = s.frame := rfl
@[simp] theorem State.setDivider_moveReq : (s.setDivider x).moveReq = s.moveReq := rfl
@[simp] theorem State.setDivider_pacers : (s.setDivider x).pacers = s.pacers := rfl
@[simp] theorem State.setDivider_timebase : (s.setDivider x).timebase = s.timebase := rfl
@[simp] theorem State.setDivider_divider : (s.setDivider x).divider = x := rfl
@[simp] theorem State.setDivider_tickDue : (s.setDivider x).tickDue = s.tickDue := rfl
@[simp] theorem State.setDivider_ports : (s.setDivider x).ports = s.ports := rfl
@[simp] theorem State.setDivider_par : (s.setDivider x).par = s.par := rfl
@[simp] theorem State.setDivider_ser : (s.setDivider x).ser = s.ser := rfl
@[simp] theorem State.setDivider_deviceReset : (s.setDivider x).deviceReset = s.deviceReset := rfl
@[simp] theorem State.setDivider_ring (r' : Fin 16) : (s.setDivider x).ring r' = s.ring r' := rfl
@[simp] theorem State.setDivider_att (i' : Fin 32) : (s.setDivider x).att i' = s.att i' := rfl
@[simp] theorem State.setDivider_move (e' : Fin 16) : (s.setDivider x).move e' = s.move e' := rfl
@[simp] theorem State.setDivider_pacer (n' : Fin 4) : (s.setDivider x).pacer n' = s.pacer n' := rfl
@[simp] theorem State.setDivider_port (p' : Port) : (s.setDivider x).port p' = s.port p' := rfl
@[simp] theorem State.setDivider_parUnit (p' : ParPort) : (s.setDivider x).parUnit p' = s.parUnit p' := rfl
@[simp] theorem State.setDivider_serUnit (p' : SerPort) : (s.setDivider x).serUnit p' = s.serUnit p' := rfl
@[simp] theorem State.setDivider_waitingAt (p' : ParPort) : (s.setDivider x).waitingAt p' = s.waitingAt p' := rfl
end setDivider

section setTickDue
variable (x : Bool)
@[simp] theorem State.setTickDue_pending : (s.setTickDue x).pending = s.pending := rfl
@[simp] theorem State.setTickDue_rings : (s.setTickDue x).rings = s.rings := rfl
@[simp] theorem State.setTickDue_atts : (s.setTickDue x).atts = s.atts := rfl
@[simp] theorem State.setTickDue_pageMap : (s.setTickDue x).pageMap = s.pageMap := rfl
@[simp] theorem State.setTickDue_mem : (s.setTickDue x).mem = s.mem := rfl
@[simp] theorem State.setTickDue_arb : (s.setTickDue x).arb = s.arb := rfl
@[simp] theorem State.setTickDue_waiting : (s.setTickDue x).waiting = s.waiting := rfl
@[simp] theorem State.setTickDue_moves : (s.setTickDue x).moves = s.moves := rfl
@[simp] theorem State.setTickDue_rotation : (s.setTickDue x).rotation = s.rotation := rfl
@[simp] theorem State.setTickDue_frame : (s.setTickDue x).frame = s.frame := rfl
@[simp] theorem State.setTickDue_moveReq : (s.setTickDue x).moveReq = s.moveReq := rfl
@[simp] theorem State.setTickDue_pacers : (s.setTickDue x).pacers = s.pacers := rfl
@[simp] theorem State.setTickDue_timebase : (s.setTickDue x).timebase = s.timebase := rfl
@[simp] theorem State.setTickDue_divider : (s.setTickDue x).divider = s.divider := rfl
@[simp] theorem State.setTickDue_tickDue : (s.setTickDue x).tickDue = x := rfl
@[simp] theorem State.setTickDue_ports : (s.setTickDue x).ports = s.ports := rfl
@[simp] theorem State.setTickDue_par : (s.setTickDue x).par = s.par := rfl
@[simp] theorem State.setTickDue_ser : (s.setTickDue x).ser = s.ser := rfl
@[simp] theorem State.setTickDue_deviceReset : (s.setTickDue x).deviceReset = s.deviceReset := rfl
@[simp] theorem State.setTickDue_ring (r' : Fin 16) : (s.setTickDue x).ring r' = s.ring r' := rfl
@[simp] theorem State.setTickDue_att (i' : Fin 32) : (s.setTickDue x).att i' = s.att i' := rfl
@[simp] theorem State.setTickDue_move (e' : Fin 16) : (s.setTickDue x).move e' = s.move e' := rfl
@[simp] theorem State.setTickDue_pacer (n' : Fin 4) : (s.setTickDue x).pacer n' = s.pacer n' := rfl
@[simp] theorem State.setTickDue_port (p' : Port) : (s.setTickDue x).port p' = s.port p' := rfl
@[simp] theorem State.setTickDue_parUnit (p' : ParPort) : (s.setTickDue x).parUnit p' = s.parUnit p' := rfl
@[simp] theorem State.setTickDue_serUnit (p' : SerPort) : (s.setTickDue x).serUnit p' = s.serUnit p' := rfl
@[simp] theorem State.setTickDue_waitingAt (p' : ParPort) : (s.setTickDue x).waitingAt p' = s.waitingAt p' := rfl
end setTickDue

section setDeviceReset
variable (x : Bool)
@[simp] theorem State.setDeviceReset_pending : (s.setDeviceReset x).pending = s.pending := rfl
@[simp] theorem State.setDeviceReset_rings : (s.setDeviceReset x).rings = s.rings := rfl
@[simp] theorem State.setDeviceReset_atts : (s.setDeviceReset x).atts = s.atts := rfl
@[simp] theorem State.setDeviceReset_pageMap : (s.setDeviceReset x).pageMap = s.pageMap := rfl
@[simp] theorem State.setDeviceReset_mem : (s.setDeviceReset x).mem = s.mem := rfl
@[simp] theorem State.setDeviceReset_arb : (s.setDeviceReset x).arb = s.arb := rfl
@[simp] theorem State.setDeviceReset_waiting : (s.setDeviceReset x).waiting = s.waiting := rfl
@[simp] theorem State.setDeviceReset_moves : (s.setDeviceReset x).moves = s.moves := rfl
@[simp] theorem State.setDeviceReset_rotation : (s.setDeviceReset x).rotation = s.rotation := rfl
@[simp] theorem State.setDeviceReset_frame : (s.setDeviceReset x).frame = s.frame := rfl
@[simp] theorem State.setDeviceReset_moveReq : (s.setDeviceReset x).moveReq = s.moveReq := rfl
@[simp] theorem State.setDeviceReset_pacers : (s.setDeviceReset x).pacers = s.pacers := rfl
@[simp] theorem State.setDeviceReset_timebase : (s.setDeviceReset x).timebase = s.timebase := rfl
@[simp] theorem State.setDeviceReset_divider : (s.setDeviceReset x).divider = s.divider := rfl
@[simp] theorem State.setDeviceReset_tickDue : (s.setDeviceReset x).tickDue = s.tickDue := rfl
@[simp] theorem State.setDeviceReset_ports : (s.setDeviceReset x).ports = s.ports := rfl
@[simp] theorem State.setDeviceReset_par : (s.setDeviceReset x).par = s.par := rfl
@[simp] theorem State.setDeviceReset_ser : (s.setDeviceReset x).ser = s.ser := rfl
@[simp] theorem State.setDeviceReset_deviceReset : (s.setDeviceReset x).deviceReset = x := rfl
@[simp] theorem State.setDeviceReset_ring (r' : Fin 16) : (s.setDeviceReset x).ring r' = s.ring r' := rfl
@[simp] theorem State.setDeviceReset_att (i' : Fin 32) : (s.setDeviceReset x).att i' = s.att i' := rfl
@[simp] theorem State.setDeviceReset_move (e' : Fin 16) : (s.setDeviceReset x).move e' = s.move e' := rfl
@[simp] theorem State.setDeviceReset_pacer (n' : Fin 4) : (s.setDeviceReset x).pacer n' = s.pacer n' := rfl
@[simp] theorem State.setDeviceReset_port (p' : Port) : (s.setDeviceReset x).port p' = s.port p' := rfl
@[simp] theorem State.setDeviceReset_parUnit (p' : ParPort) : (s.setDeviceReset x).parUnit p' = s.parUnit p' := rfl
@[simp] theorem State.setDeviceReset_serUnit (p' : SerPort) : (s.setDeviceReset x).serUnit p' = s.serUnit p' := rfl
@[simp] theorem State.setDeviceReset_waitingAt (p' : ParPort) : (s.setDeviceReset x).waitingAt p' = s.waitingAt p' := rfl
end setDeviceReset

/-! ### A table's entry after a write of one -/

@[simp] theorem State.ring_setRing_same (r : Fin 16) (x : Ring) : (s.setRing r x).ring r = x := tableGet_tablePut_same _ _ _

theorem State.ring_setRing (r r' : Fin 16) (x : Ring) : (s.setRing r x).ring r' = if r' = r then x else s.ring r' :=
  tableGet_tablePut _ _ _ _

@[simp] theorem State.att_setAtt_same (i : Fin 32) (x : Attachment) : (s.setAtt i x).att i = x := tableGet_tablePut_same _ _ _

theorem State.att_setAtt (i i' : Fin 32) (x : Attachment) : (s.setAtt i x).att i' = if i' = i then x else s.att i' :=
  tableGet_tablePut _ _ _ _

@[simp] theorem State.move_setMove_same (e : Fin 16) (x : MoveEntry) : (s.setMove e x).move e = x := tableGet_tablePut_same _ _ _

theorem State.move_setMove (e e' : Fin 16) (x : MoveEntry) : (s.setMove e x).move e' = if e' = e then x else s.move e' :=
  tableGet_tablePut _ _ _ _

@[simp] theorem State.pacer_setPacer_same (n : Fin 4) (x : Pacer) : (s.setPacer n x).pacer n = x := tableGet_tablePut_same _ _ _

theorem State.pacer_setPacer (n n' : Fin 4) (x : Pacer) : (s.setPacer n x).pacer n' = if n' = n then x else s.pacer n' :=
  tableGet_tablePut _ _ _ _

@[simp] theorem State.port_setPort_same (p : Port) (x : PortUnit) : (s.setPort p x).port p = x := Four.get_put_same _ _ _

theorem State.port_setPort (p p' : Port) (x : PortUnit) : (s.setPort p x).port p' = if p' = p then x else s.port p' :=
  Four.get_put _ _ _ _

@[simp] theorem State.parUnit_setPar_same (p : ParPort) (x : ParallelUnit) : (s.setPar p x).parUnit p = x :=
  Two.getPar_putPar_same _ _ _

theorem State.parUnit_setPar (p p' : ParPort) (x : ParallelUnit) :
    (s.setPar p x).parUnit p' = if p' = p then x else s.parUnit p' := Two.getPar_putPar _ _ _ _

@[simp] theorem State.serUnit_setSer_same (p : SerPort) (x : SerialUnit) : (s.setSer p x).serUnit p = x :=
  Two.getSer_putSer_same _ _ _

theorem State.serUnit_setSer (p p' : SerPort) (x : SerialUnit) :
    (s.setSer p x).serUnit p' = if p' = p then x else s.serUnit p' := Two.getSer_putSer _ _ _ _

@[simp] theorem State.waitingAt_setWaiting_same (p : ParPort) (x : Option WaitingAccess) : (s.setWaiting p x).waitingAt p = x :=
  Two.getPar_putPar_same _ _ _

theorem State.waitingAt_setWaiting (p p' : ParPort) (x : Option WaitingAccess) :
    (s.setWaiting p x).waitingAt p' = if p' = p then x else s.waitingAt p' := Two.getPar_putPar _ _ _ _

/-! ### Two writes of one place -/

@[simp] theorem State.setRing_setRing (r : Fin 16) (x y : Ring) : (s.setRing r x).setRing r y = s.setRing r y := by
  simp [State.setRing]

@[simp] theorem State.setAtt_setAtt (i : Fin 32) (x y : Attachment) : (s.setAtt i x).setAtt i y = s.setAtt i y := by
  simp [State.setAtt]

@[simp] theorem State.setMove_setMove (e : Fin 16) (x y : MoveEntry) : (s.setMove e x).setMove e y = s.setMove e y := by
  simp [State.setMove]

@[simp] theorem State.setPort_setPort (p : Port) (x y : PortUnit) : (s.setPort p x).setPort p y = s.setPort p y := by
  simp [State.setPort]

@[simp] theorem State.setPar_setPar (p : ParPort) (x y : ParallelUnit) : (s.setPar p x).setPar p y = s.setPar p y := by
  simp [State.setPar]

@[simp] theorem State.setSer_setSer (p : SerPort) (x y : SerialUnit) : (s.setSer p x).setSer p y = s.setSer p y := by
  simp [State.setSer]

end Sys2Proof.Machine
end

