-- ==== Sys2Proof/Laws/Acts.lean ====
section
/-! SUPPORT. How an act opens, and how a serial word is clocked in: what `act`, `pinAct`, `dueAct`, `grantWhen`, `serve` and `settle` are where the statements' premises
hold. -/

namespace Sys2Proof.Machine

theorem settle_of_quiet {s : State} (h : s.quiet = true) : settle s = s := by simp [settle, h]

/-- With nothing due an act is its effect, and the start check. -/
theorem act_of_calm {s : State} (f : State → State) (h : s.calm) : act f s = .next (placeStartCheck (f s)) := by
  simp [act, h.1, settle_of_quiet h.2]

theorem pinAct_of_calm {s : State} (pin f : State → State) (h : s.calm) : pinAct pin f s = .next (placeStartCheck (f s)) := by
  simp [pinAct, h.1, settle_of_quiet h.2]

theorem dueAct_of_running {s : State} (f : State → State) (h : s.deviceReset = false) :
    dueAct f s = .next (placeStartCheck (f s)) := by
  simp [dueAct, h]

/-- A grant that the rotation reaches, of the sort asked for. -/
theorem grantWhen_of_next {s : State} {q : Requester} {sort : State → Bool} (h : s.nextGrant = some q) (hs : sort s = true) :
    grantWhen q sort s = grantRequest q s := by
  simp [grantWhen, h, hs]

/-- A command's grant, opened. -/
theorem grantRequest_command {s : State} {p : Port} {w : Word} (h : (s.port p).cmd.inFlight = .command w) :
    grantRequest (.command p) s =
      finishCommand p (runCommand p w (s.port p).cmd.argCopy (s.setArb (.command p))) := by
  simp [grantRequest, grantCommand, h]

/-- Nothing is served for a port with no request pending. -/
theorem serve_of_none {s : State} {p : SerPort} (h : (s.port p.toPort).dataReq = none) : serve p s = s := by
  simp [serve, serveFor, h]

theorem serveBefore_of_none {s : State} {p : Port} (h : (s.port p).dataReq = none) : serveBefore p s = s := by
  cases p
  · rfl
  · rfl
  · exact serve_of_none h
  · exact serve_of_none h

/-- A control page access that the host can make, with no earlier request pending. -/
theorem controlAccess_of_open {s : State} {p : Port} (f : State → State) (hq : (s.port p).dataReq = none)
    (ho : s.controlOpen p = true) : controlAccess p f s = f s := by
  simp [controlAccess, serveBefore_of_none hq, ho]

/-- The start check changes only the engine's request. -/
theorem placeStartCheck_eq (s : State) :
    placeStartCheck s = s ∨ placeStartCheck s = s.setMoveReq (some .startCheck) := by
  unfold placeStartCheck
  split
  · exact .inr rfl
  · exact .inl rfl

/-! ### Words of a serial frame -/

/-- With select held a word is taken; with select released it is ignored (R167). -/
theorem clocked_of_held {s : State} {p : SerPort} (f : State → State) (h : (s.serUnit p).selectHeld = true) :
    clocked p f s = f s := by simp [clocked, h]

theorem clocked_of_released {s : State} {p : SerPort} (f : State → State) (h : (s.serUnit p).selectHeld = false) :
    clocked p f s = s := by simp [clocked, h]

/-- A header word reads back as the op, window number and count it was formed from (R191). -/
theorem decodeHeader_headerWord (op : SerialOp) (w : Fin 8) (count : BitVec 10) :
    decodeHeader (headerWord op w count) = (op, w, count) := by
  have hw := w.isLt
  have hc := count.isLt
  have hn : (headerWord op w count).toNat = 8192 * op.code + 1024 * w.val + count.toNat := by
    have : op.code ≤ 7 := by cases op <;> decide
    simp only [headerWord, word, BitVec.toNat_ofNat]; omega
  have h0 : field (headerWord op w count) 0 10 = count.toNat := by
    simp only [field, hn]; omega
  have h1 : field (headerWord op w count) 10 3 = w.val := by simp only [field, hn]; omega
  have h2 : field (headerWord op w count) 13 3 = op.code := by
    have : op.code ≤ 7 := by cases op <;> decide
    simp only [field, hn]; omega
  simp only [decodeHeader, h0, h1, h2]
  refine Prod.ext ?_ (Prod.ext ?_ ?_)
  · cases op <;> rfl
  · simp
  · simp

/-- A header clocked in with select held, in the HEADER phase, is recorded and takes effect; else it changes nothing. -/
theorem clockHeader_eq (p : SerPort) (op : SerialOp) (w : Fin 8) (count : BitVec 10) (s : State) :
    clockHeader p op w count s =
      if (s.serUnit p).selectHeld = true ∧ (s.serUnit p).takesHeader = true then
        headerCalls p op (s.setSer p ((s.serUnit p).withHeader op w (op.countOf count)))
      else s := by
  cases h : (s.serUnit p).selectHeld <;> simp [clockHeader, clocked, takeHeader, decodeHeader_headerWord, h]

end Sys2Proof.Machine
end

