-- ==== Sys2Proof/Laws/Memory.lean ====
section
/-! SUPPORT. The laws of the sample memory: a word written is the word read, other words stay, and the canonical form is kept. -/

namespace Sys2Proof.Machine

/-- A lower bound may be lowered. -/
theorem cellsCanonicalFrom_mono {low low' : Nat} (h : low' ≤ low) :
    ∀ l : List (Nat × Word), cellsCanonicalFrom low l = true → cellsCanonicalFrom low' l = true
  | [], _ => rfl
  | (k, v) :: rest, hc => by
    simp only [cellsCanonicalFrom, Bool.and_eq_true, decide_eq_true_eq] at hc ⊢
    exact ⟨⟨⟨by omega, hc.1.1.2⟩, hc.1.2⟩, hc.2⟩

/-- An address below every listed one reads as an unlisted word. -/
theorem cellsRead_below {low a : Nat} (ha : a < low) :
    ∀ l : List (Nat × Word), cellsCanonicalFrom low l = true → cellsRead l a = unlistedWord
  | [], _ => rfl
  | (k, v) :: rest, hc => by
    simp only [cellsCanonicalFrom, Bool.and_eq_true, decide_eq_true_eq] at hc
    have hk : k ≠ a := by omega
    simp only [cellsRead, if_neg hk]
    exact cellsRead_below (low := k + 1) (by omega) rest hc.2

theorem cellsRead_cellsWrite_same {a : Nat} {w : Word} :
    ∀ {low : Nat} (l : List (Nat × Word)), cellsCanonicalFrom low l = true → cellsRead (cellsWrite l a w) a = w
  | _, [], _ => by
    by_cases hw : w = unlistedWord
    · simp [cellsWrite, cellsRead, hw]
    · simp [cellsWrite, cellsRead, hw]
  | low, (k, v) :: rest, hc => by
    have hcanon := hc
    simp only [cellsCanonicalFrom, Bool.and_eq_true, decide_eq_true_eq] at hc
    unfold cellsWrite
    by_cases h1 : a < k
    · by_cases hw : w = unlistedWord
      · have hk : k ≠ a := by omega
        rw [if_pos h1, if_pos hw, cellsRead, if_neg hk, hw]
        exact cellsRead_below (low := k + 1) (by omega) rest hc.2
      · simp [h1, hw, cellsRead]
    · by_cases h2 : a = k
      · by_cases hw : w = unlistedWord
        · rw [if_neg h1, if_pos h2, if_pos hw, hw]
          exact cellsRead_below (low := k + 1) (by omega) rest hc.2
        · rw [if_neg h1, if_pos h2, if_neg hw]
          simp [cellsRead]
      · have hk : k ≠ a := fun e => h2 e.symm
        rw [if_neg h1, if_neg h2, cellsRead, if_neg hk]
        exact cellsRead_cellsWrite_same rest hc.2

theorem cellsRead_cellsWrite_ne {a b : Nat} {w : Word} (h : b ≠ a) :
    ∀ l : List (Nat × Word), cellsRead (cellsWrite l a w) b = cellsRead l b
  | [] => by
    have hab : a ≠ b := fun e => h e.symm
    by_cases hw : w = unlistedWord <;> simp [cellsWrite, cellsRead, hw, hab]
  | (k, v) :: rest => by
    have hab : a ≠ b := fun e => h e.symm
    have ih := cellsRead_cellsWrite_ne (w := w) h rest
    unfold cellsWrite
    by_cases h1 : a < k
    · by_cases hw : w = unlistedWord <;> simp [h1, hw, cellsRead, hab]
    · by_cases h2 : a = k
      · subst h2
        by_cases hw : w = unlistedWord <;> simp [hw, cellsRead, hab]
      · simp [h1, h2, cellsRead, ih]

theorem cellsCanonicalFrom_cellsWrite {a : Nat} {w : Word} (ha : a < Config.sampleWords) :
    ∀ {low : Nat} (l : List (Nat × Word)), low ≤ a → cellsCanonicalFrom low l = true →
      cellsCanonicalFrom low (cellsWrite l a w) = true
  | low, [], hl, _ => by
    by_cases hw : w = unlistedWord
    · simp [cellsWrite, hw, cellsCanonicalFrom]
    · simp [cellsWrite, hw, cellsCanonicalFrom, hl, ha]
  | low, (k, v) :: rest, hl, hc => by
    have hcanon := hc
    simp only [cellsCanonicalFrom, Bool.and_eq_true, decide_eq_true_eq] at hc
    unfold cellsWrite
    by_cases h1 : a < k
    · by_cases hw : w = unlistedWord
      · rw [if_pos h1, if_pos hw]; exact hcanon
      · rw [if_pos h1, if_neg hw]
        simp only [cellsCanonicalFrom, Bool.and_eq_true, decide_eq_true_eq]
        exact ⟨⟨⟨hl, ha⟩, hw⟩, ⟨⟨by omega, hc.1.1.2⟩, hc.1.2⟩, hc.2⟩
    · by_cases h2 : a = k
      · subst h2
        by_cases hw : w = unlistedWord
        · rw [if_neg h1, if_pos rfl, if_pos hw]
          exact cellsCanonicalFrom_mono (by omega) rest hc.2
        · rw [if_neg h1, if_pos rfl, if_neg hw]
          simp only [cellsCanonicalFrom, Bool.and_eq_true, decide_eq_true_eq]
          exact ⟨⟨⟨hc.1.1.1, ha⟩, hw⟩, hc.2⟩
      · rw [if_neg h1, if_neg h2]
        simp only [cellsCanonicalFrom, Bool.and_eq_true, decide_eq_true_eq]
        exact ⟨hc.1, cellsCanonicalFrom_cellsWrite ha rest (by omega) hc.2⟩

/-- A word written is the word read (R57, R58). -/
theorem Memory.read_write_same (m : Memory) (a : Nat) (w : Word) (h : m.wf = true) : (m.write a w).read a = w :=
  cellsRead_cellsWrite_same m.cells h

/-- A write leaves every other word as it was (R57). -/
theorem Memory.read_write_ne (m : Memory) (a b : Nat) (w : Word) (h : b ≠ a) : (m.write a w).read b = m.read b :=
  cellsRead_cellsWrite_ne h m.cells

/-- A write keeps the canonical form. -/
theorem Memory.wf_write (m : Memory) (a : Nat) (w : Word) (ha : a < Config.sampleWords) (h : m.wf = true) :
    (m.write a w).wf = true :=
  cellsCanonicalFrom_cellsWrite ha m.cells (Nat.zero_le a) h

/-- Every ring index lies in the sample memory (R2). -/
theorem Ring.address_lt (g : Ring) (index : Nat) : g.address index < Config.sampleWords := (BitVec.ofNat 15 _).isLt

/-- A word stored at a ring index keeps the canonical form. -/
theorem State.wf_setRingWord (s : State) (r : Fin 16) (index : Nat) (w : Word) (h : s.mem.wf = true) :
    (s.setRingWord r index w).mem.wf = true :=
  Memory.wf_write _ _ _ (Ring.address_lt _ _) h

/-- The sample memory after device reset is in canonical form. -/
theorem reset_mem_wf : State.reset.mem.wf = true := rfl

end Sys2Proof.Machine
end

