-- ==== Sys2Proof/Laws/Steps.lean ====
section
/-! SUPPORT. What the shared operations can do, said once: each is a chain of primitive steps (`RingSteps`), and what no primitive step
changes, no operation changes. A proof that an operation keeps something cites its chain, and never unfolds it. -/

namespace Sys2Proof.Machine

/-- What a chain may do beside the steps that every chain may: store a word, make an attachment, free one. -/
structure May where
  store : Bool
  attach : Bool
  free : Bool

/-- No access waits. -/
def noWaiting : Two (Option WaitingAccess) := ⟨none, none⟩

/-- An attachment record that goes on with the same party, or is freed. -/
def Attachment.goesOn (m : May) (x y : Attachment) : Prop :=
  (y.inUse = x.inUse ∧ y.ring = x.ring ∧ y.role = x.role ∧ y.holder = x.holder) ∨ (m.free = true ∧ y.inUse = false)

/-- A parallel port unit whose cycle is answered or goes on: its settings and pins stay, its timer stays or stops. -/
def ParallelUnit.goesOn (u v : ParallelUnit) : Prop :=
  v.stallLimit = u.stallLimit ∧ v.strobeHeld = u.strobeHeld ∧ v.resetHeld = u.resetHeld ∧
    (v.stallTimer = u.stallTimer ∨ v.stallTimer = 0)

/-- A chain of primitive steps of the ring controller. -/
inductive RingSteps (m : May) : State → State → Prop where
  | refl (s : State) : RingSteps m s s
  | trans {s t u : State} : RingSteps m s t → RingSteps m t u → RingSteps m s u
  | ring (s : State) (r : Fin 16) (x : Ring) : RingSteps m s (s.setRing r x)
  | att (s : State) (i : Fin 32) (x : Attachment) (h : m.attach = true ∨ (s.att i).goesOn m x) : RingSteps m s (s.setAtt i x)
  | move (s : State) (e : Fin 16) (x : MoveEntry) : RingSteps m s (s.setMove e x)
  | endWait (s : State) (p : ParPort) : RingSteps m s (s.setWaiting p none)
  | store (s : State) (r : Fin 16) (index : Nat) (w : Word) (h : m.store = true) : RingSteps m s (s.setRingWord r index w)
  | pages (s : State) (x : Vector (Option (Fin 16)) 128) : RingSteps m s (s.setPageMap x)
  | offer (s : State) (p : Port) (e : Event) : RingSteps m s (s.setPort p (offered (s.port p) e))
  | drive (s : State) (p : Port) (w : Word) : RingSteps m s (s.setDataOut p w)
  | cycle (s : State) (p : ParPort) (x : ParallelUnit) (h : (s.parUnit p).goesOn x) : RingSteps m s (s.setPar p x)

/-- A chain may store, or nothing waits that a re-examination could store. -/
def Quietly (m : May) (s : State) : Prop := m.store = true ∨ s.waiting = noWaiting

/-! ### What a chain keeps -/

/-- A port unit that only took records or drove a word. -/
def PortUnit.goesOn (u v : PortUnit) : Prop :=
  v.windows = u.windows ∧ v.fillWord = u.fillWord ∧ v.latchedHigh = u.latchedHigh ∧ v.mask0 = u.mask0 ∧ v.mask1 = u.mask1 ∧
    v.cmd = u.cmd ∧ v.dataReq = u.dataReq ∧ (u.legal = true → v.legal = true)

theorem PortUnit.goesOn_refl (u : PortUnit) : u.goesOn u := ⟨rfl, rfl, rfl, rfl, rfl, rfl, rfl, id⟩

theorem PortUnit.goesOn_trans {u v w : PortUnit} (h : u.goesOn v) (k : v.goesOn w) : u.goesOn w := by
  obtain ⟨a1, a2, a3, a4, a5, a6, a7, a8⟩ := h
  obtain ⟨b1, b2, b3, b4, b5, b6, b7, b8⟩ := k
  exact ⟨b1.trans a1, b2.trans a2, b3.trans a3, b4.trans a4, b5.trans a5, b6.trans a6, b7.trans a7, fun x => b8 (a8 x)⟩

/-- A record offered keeps a port unit within its bounds (R183). -/
theorem legal_offered {u : PortUnit} (e : Event) (h : u.legal = true) : (offered u e).legal = true := by
  unfold offered
  split
  · split
    · rename_i hq
      simp only [PortUnit.legal, Bool.and_eq_true, decide_eq_true_eq] at h ⊢
      exact ⟨⟨⟨by simpa using hq, h.1.1.2⟩, h.1.2⟩, h.2⟩
    · simp only [PortUnit.legal, Bool.and_eq_true, decide_eq_true_eq] at h ⊢
      exact ⟨⟨⟨h.1.1.1, by simp [saturate16]⟩, h.1.2⟩, h.2⟩
  · exact h

theorem goesOn_offered (u : PortUnit) (e : Event) : u.goesOn (offered u e) := by
  refine ⟨?_, ?_, ?_, ?_, ?_, ?_, ?_, legal_offered e⟩ <;> (unfold offered; split <;> [split; skip]) <;> rfl

theorem ParallelUnit.goesOn_refl (u : ParallelUnit) : u.goesOn u := ⟨rfl, rfl, rfl, .inl rfl⟩

theorem ParallelUnit.goesOn_trans {u v w : ParallelUnit} (h : u.goesOn v) (k : v.goesOn w) : u.goesOn w := by
  obtain ⟨a1, a2, a3, a4⟩ := h
  obtain ⟨b1, b2, b3, b4⟩ := k
  refine ⟨b1.trans a1, b2.trans a2, b3.trans a3, ?_⟩
  rcases b4 with b4 | b4
  · rcases a4 with a4 | a4
    · exact .inl (b4.trans a4)
    · exact .inr (b4.trans a4)
  · exact .inr b4

theorem Attachment.goesOn_refl (m : May) (x : Attachment) : x.goesOn m x := .inl ⟨rfl, rfl, rfl, rfl⟩

theorem Attachment.goesOn_trans {m : May} {x y z : Attachment} (h : x.goesOn m y) (k : y.goesOn m z) : x.goesOn m z := by
  rcases k with ⟨k1, k2, k3, k4⟩ | ⟨k1, k2⟩
  · rcases h with ⟨h1, h2, h3, h4⟩ | ⟨h1, h2⟩
    · exact .inl ⟨k1.trans h1, k2.trans h2, k3.trans h3, k4.trans h4⟩
    · exact .inr ⟨h1, k1.trans h2⟩
  · exact .inr ⟨k1, k2⟩

/-- Everything that no chain changes, and what it keeps of the rest. -/
structure Keeps (m : May) (s t : State) : Prop where
  pending : t.pending = s.pending
  arb : t.arb = s.arb
  rotation : t.rotation = s.rotation
  frame : t.frame = s.frame
  moveReq : t.moveReq = s.moveReq
  pacers : t.pacers = s.pacers
  timebase : t.timebase = s.timebase
  divider : t.divider = s.divider
  tickDue : t.tickDue = s.tickDue
  ser : t.ser = s.ser
  deviceReset : t.deviceReset = s.deviceReset
  port : ∀ p, (s.port p).goesOn (t.port p)
  par : ∀ p, (s.parUnit p).goesOn (t.parUnit p)
  att : m.attach = true ∨ ∀ i, (s.att i).goesOn m (t.att i)
  wf : s.mem.wf = true → t.mem.wf = true
  mem : m.store = true ∨ t.mem = s.mem
  waiting : s.waiting = noWaiting → t.waiting = noWaiting

theorem Keeps.refl (m : May) (s : State) : Keeps m s s where
  pending := rfl
  arb := rfl
  rotation := rfl
  frame := rfl
  moveReq := rfl
  pacers := rfl
  timebase := rfl
  divider := rfl
  tickDue := rfl
  ser := rfl
  deviceReset := rfl
  port := fun _ => PortUnit.goesOn_refl _
  par := fun _ => ParallelUnit.goesOn_refl _
  att := .inr fun _ => Attachment.goesOn_refl _ _
  wf := id
  mem := .inr rfl
  waiting := id

theorem Keeps.trans {m : May} {s t u : State} (h : Keeps m s t) (k : Keeps m t u) : Keeps m s u where
  pending := k.pending.trans h.pending
  arb := k.arb.trans h.arb
  rotation := k.rotation.trans h.rotation
  frame := k.frame.trans h.frame
  moveReq := k.moveReq.trans h.moveReq
  pacers := k.pacers.trans h.pacers
  timebase := k.timebase.trans h.timebase
  divider := k.divider.trans h.divider
  tickDue := k.tickDue.trans h.tickDue
  ser := k.ser.trans h.ser
  deviceReset := k.deviceReset.trans h.deviceReset
  port := fun p => PortUnit.goesOn_trans (h.port p) (k.port p)
  par := fun p => ParallelUnit.goesOn_trans (h.par p) (k.par p)
  att := h.att.elim .inl fun a => k.att.elim .inl fun b => .inr fun i => Attachment.goesOn_trans (a i) (b i)
  wf := fun w => k.wf (h.wf w)
  mem := h.mem.elim .inl fun a => k.mem.elim .inl fun b => .inr (b.trans a)
  waiting := fun w => k.waiting (h.waiting w)

/-- What a chain keeps. -/
theorem RingSteps.keeps {m : May} {s t : State} (h : RingSteps m s t) : Keeps m s t := by
  induction h with
  | refl s => exact Keeps.refl m s
  | trans _ _ a b => exact a.trans b
  | ring s r x => exact { Keeps.refl m s with }
  | att s i x hx =>
    refine { Keeps.refl m s with att := hx.imp id fun h j => ?_ }
    rw [State.att_setAtt]
    split
    · rename_i e; subst e; exact h
    · exact Attachment.goesOn_refl _ _
  | move s e x => exact { Keeps.refl m s with }
  | endWait s p =>
    refine { Keeps.refl m s with waiting := fun h => ?_ }
    cases p <;> simp_all [State.setWaiting, Two.putPar, noWaiting]
  | store s r index w hs =>
    refine { Keeps.refl m s with wf := fun h => ?_, mem := .inl hs }
    exact State.wf_setRingWord s r index w h
  | pages s x => exact { Keeps.refl m s with }
  | offer s p e =>
    refine { Keeps.refl m s with port := fun q => ?_ }
    rw [State.port_setPort]
    split
    · rename_i e'; subst e'; exact goesOn_offered _ _
    · exact PortUnit.goesOn_refl _
  | drive s p w =>
    refine { Keeps.refl m s with port := fun q => ?_ }
    unfold State.setDataOut
    rw [State.port_setPort]
    split
    · rename_i e'; subst e'; exact ⟨rfl, rfl, rfl, rfl, rfl, rfl, rfl, id⟩
    · exact PortUnit.goesOn_refl _
  | cycle s p x hx =>
    refine { Keeps.refl m s with par := fun q => ?_ }
    rw [State.parUnit_setPar]
    split
    · rename_i e'; subst e'; exact hx
    · exact ParallelUnit.goesOn_refl _

theorem RingSteps.quietly {m : May} {s t : State} (h : RingSteps m s t) (q : Quietly m s) : Quietly m t :=
  q.imp id h.keeps.waiting

/-! ### The chains of the operations -/

variable {m : May}

/-- A chain followed by one that needs the state to be quiet. -/
theorem RingSteps.next {s t u : State} (h : RingSteps m s t) (q : Quietly m s) (k : Quietly m t → RingSteps m t u) :
    RingSteps m s u := h.trans (k (h.quietly q))

/-- A fold of operations. -/
theorem steps_foldl {α : Type} (f : State → α → State) (hf : ∀ s x, Quietly m s → RingSteps m s (f s x)) :
    ∀ (l : List α) (s : State), Quietly m s → RingSteps m s (l.foldl f s)
  | [], s, _ => RingSteps.refl s
  | x :: l, s, q => (hf s x q).trans (steps_foldl f hf l _ ((hf s x q).quietly q))

theorem steps_post (p : Port) (k : EventKind) (ring : Option (Fin 16)) (h : Option Handle) (d : Word) (s : State) :
    RingSteps m s (post p k ring h d s) := RingSteps.offer s p _

theorem steps_postHolder (o : Holder) (k : EventKind) (ring : Fin 16) (h : Handle) (d : Word) (s : State) :
    RingSteps m s (postHolder o k ring h d s) := by
  unfold postHolder
  split
  · exact steps_post _ _ _ _ _ _
  · exact RingSteps.refl s

theorem steps_postAbout (i : Fin 32) (k : EventKind) (d : Word) (s : State) : RingSteps m s (postAbout i k d s) :=
  steps_postHolder _ _ _ _ _ _

theorem steps_postCrossing (i : Fin 32) (before after : Nat) (s : State) : RingSteps m s (postCrossing i before after s) := by
  unfold postCrossing
  split
  · exact steps_postAbout _ _ _ _
  · exact RingSteps.refl s

/-- An attachment record with the same ring, role and holder, in use as before. -/
theorem steps_setAtt_same (i : Fin 32) (x : Attachment) (s : State)
    (h : x.inUse = (s.att i).inUse ∧ x.ring = (s.att i).ring ∧ x.role = (s.att i).role ∧ x.holder = (s.att i).holder) :
    RingSteps m s (s.setAtt i x) := RingSteps.att s i x (.inr (.inl h))

theorem steps_reportLag (i : Fin 32) (s : State) : RingSteps m s (reportLag i s) := by
  unfold reportLag
  split
  · exact RingSteps.refl s
  · exact (steps_setAtt_same i { s.att i with lagReported := true } s ⟨rfl, rfl, rfl, rfl⟩).trans (steps_postAbout _ _ _ _)

theorem steps_reportEnd (i : Fin 32) (s : State) : RingSteps m s (reportEnd i s) := by
  unfold reportEnd
  split
  · exact RingSteps.refl s
  · exact (steps_setAtt_same i { s.att i with endReported := true } s ⟨rfl, rfl, rfl, rfl⟩).trans (steps_postAbout _ _ _ _)

theorem steps_retryNotice (e : Fin 16) (s : State) : RingSteps m s (retryNotice e s) := by
  unfold retryNotice
  split
  · exact RingSteps.move s e _
  · exact RingSteps.refl s

theorem steps_retryHolder (i : Fin 32) (s : State) : RingSteps m s (retryHolder i s) := by
  unfold retryHolder
  split
  · exact steps_retryNotice _ _
  · exact RingSteps.refl s

theorem steps_spaceChanged (r : Fin 16) (before : Nat) (s : State) : RingSteps m s (spaceChanged r before s) := by
  unfold spaceChanged
  split
  · split
    · exact (steps_postCrossing _ _ _ s).trans (steps_retryHolder _ _)
    · exact RingSteps.refl s
  · exact RingSteps.refl s

theorem steps_renewLease (i : Fin 32) (s : State) : RingSteps m s (renewLease i s) :=
  steps_setAtt_same i _ s ⟨rfl, rfl, rfl, rfl⟩

/-- A push leaves a reader's party as it is. -/
theorem Attachment.afterPush_party (x : Attachment) (c : Nat) :
    (x.afterPush c).inUse = x.inUse ∧ (x.afterPush c).ring = x.ring ∧ (x.afterPush c).role = x.role ∧
      (x.afterPush c).holder = x.holder := by
  unfold Attachment.afterPush
  split
  · exact ⟨rfl, rfl, rfl, rfl⟩
  · split
    · exact ⟨rfl, rfl, rfl, rfl⟩
    · split <;> exact ⟨rfl, rfl, rfl, rfl⟩

theorem steps_pushReader (c : Nat) (s : State) (i : Fin 32) : RingSteps m s (pushReader c s i) := by
  unfold pushReader
  dsimp only
  refine (steps_setAtt_same i ((s.att i).afterPush c) s (Attachment.afterPush_party _ _)).trans ?_
  generalize s.setAtt i ((s.att i).afterPush c) = s1
  have h2 : RingSteps m s1 (if (s.att i).dropsAt c = true then reportLag i s1 else s1) := by
    split
    · exact steps_reportLag i s1
    · exact RingSteps.refl s1
  refine h2.trans ?_
  generalize (if (s.att i).dropsAt c = true then reportLag i s1 else s1) = s2
  refine (steps_postCrossing i (s.att i).fill ((s.att i).afterPush c).fill s2).trans ?_
  split
  · exact steps_retryHolder _ _
  · exact RingSteps.refl _

theorem steps_storePush (hm : m.store = true) (r : Fin 16) (ofFrame : Bool) (w : Word) (s : State) :
    RingSteps m s (storePush r ofFrame w s) := by
  unfold storePush
  have h1 := (RingSteps.store (m := m) s r (s.ring r).writePos w hm).trans
    (RingSteps.ring _ r ((s.ring r).afterPush ofFrame))
  have h2 := h1.trans (steps_foldl (pushReader (s.ring r).capacity) (fun t i _ => steps_pushReader _ t i) (s.readers r) _
    (.inl hm))
  have h3 := h2.trans (steps_spaceChanged r (s.space r) _)
  dsimp only
  split
  · exact h3.trans (steps_renewLease _ _)
  · exact h3

theorem Attachment.afterPop_party (x : Attachment) :
    x.afterPop.inUse = x.inUse ∧ x.afterPop.ring = x.ring ∧ x.afterPop.role = x.role ∧ x.afterPop.holder = x.holder :=
  ⟨rfl, rfl, rfl, rfl⟩

theorem steps_takePop (i : Fin 32) (s : State) : RingSteps m s (takePop i s) := by
  unfold takePop
  split
  · exact (steps_setAtt_same i _ s (Attachment.afterPop_party _)).trans (steps_spaceChanged _ _ _)
  · exact steps_reportEnd i s
  · exact RingSteps.refl s

theorem steps_answerCycle (p : ParPort) (acc : BusAccess) (w : Word) (s : State) : RingSteps m s (answerCycle p acc w s) := by
  unfold answerCycle
  dsimp only
  cases acc with
  | read =>
    exact RingSteps.trans
      (RingSteps.cycle s p { s.parUnit p with cycleState := .answered, stallTimer := 0, answer := some w }
        ⟨rfl, rfl, rfl, .inr rfl⟩)
      (RingSteps.drive _ _ _)
  | write d =>
    exact RingSteps.cycle s p { s.parUnit p with cycleState := .answered, stallTimer := 0, answer := none }
      ⟨rfl, rfl, rfl, .inr rfl⟩

theorem steps_answerFill (p : ParPort) (acc : BusAccess) (s : State) : RingSteps m s (answerFill p acc s) :=
  steps_answerCycle _ _ _ _

theorem steps_endWaiting (p : ParPort) (s : State) : RingSteps m s (endWaiting p s) := by
  unfold endWaiting
  split
  · exact (RingSteps.endWait s p).trans (steps_answerFill _ _ _)
  · exact RingSteps.refl s

theorem steps_endWaitingOf (h : Handle) (s : State) : RingSteps m s (endWaitingOf h s) := by
  have one : ∀ (p : ParPort) (t : State), RingSteps m t (match t.waitingAt p with
      | some x => if x.handle = h then endWaiting p t else t
      | none => t) := by
    intro p t
    split
    · split
      · exact steps_endWaiting p t
      · exact RingSteps.refl t
    · exact RingSteps.refl t
  exact (one .a s).trans (one .b _)

/-- With nothing waiting, an examination finds nothing. -/
theorem examineWaiting_of_none {s : State} (r : Fin 16) (p : ParPort) (h : s.waiting = noWaiting) : examineWaiting r p s = s := by
  have hw : s.waitingAt p = none := by simp only [State.waitingAt, h]; cases p <;> rfl
  simp [examineWaiting, hw]

theorem reexamine_of_none {s : State} (r : Fin 16) (h : s.waiting = noWaiting) : reexamine r s = s := by
  simp [reexamine, examineWaiting_of_none _ _ h]

theorem steps_examineWaiting (r : Fin 16) (p : ParPort) (s : State) (q : Quietly m s) :
    RingSteps m s (examineWaiting r p s) := by
  rcases q with hm | hn
  · unfold examineWaiting
    split
    · exact RingSteps.refl s
    · dsimp only
      split
      · split
        · split
          · exact ((RingSteps.endWait s p).trans (steps_takePop _ _)).trans (steps_answerCycle _ _ _ _)
          · exact ((RingSteps.endWait s p).trans (steps_takePop _ _)).trans (steps_answerFill _ _ _)
          · exact RingSteps.refl s
        · split
          · exact ((RingSteps.endWait s p).trans (steps_storePush hm _ _ _ _)).trans (steps_answerCycle _ _ _ _)
          · exact RingSteps.refl s
          · exact RingSteps.refl s
      · exact RingSteps.refl s
  · rw [examineWaiting_of_none r p hn]; exact RingSteps.refl s

theorem steps_reexamine (r : Fin 16) (s : State) (q : Quietly m s) : RingSteps m s (reexamine r s) := by
  have h1 := steps_examineWaiting (m := m) r .a s q
  have h2 := h1.trans (steps_examineWaiting r .b _ (h1.quietly q))
  exact h2.trans (steps_examineWaiting r .a _ (h2.quietly q))

theorem steps_pushAct (hm : m.store = true) (r : Fin 16) (ofFrame : Bool) (w : Word) (s : State) :
    RingSteps m s (pushAct r ofFrame w s) := (steps_storePush hm r ofFrame w s).trans (steps_reexamine _ _ (.inl hm))

theorem steps_popAct (i : Fin 32) (s : State) (q : Quietly m s) : RingSteps m s (popAct i s) := by
  unfold popAct
  split
  · exact (steps_takePop i s).trans (steps_reexamine _ _ ((steps_takePop i s).quietly q))
  · exact steps_takePop i s
  · exact RingSteps.refl s

theorem steps_freeIfEmpty (r : Fin 16) (s : State) : RingSteps m s (freeIfEmpty r s) := by
  unfold freeIfEmpty
  dsimp only
  split
  · exact (RingSteps.pages s _).trans (RingSteps.ring _ _ _)
  · exact RingSteps.refl s

theorem steps_freeRecord (hf : m.free = true) (i : Fin 32) (s : State) : RingSteps m s (freeRecord i s) :=
  RingSteps.att s i _ (.inr (.inr ⟨hf, rfl⟩))

theorem steps_detachReader (hf : m.free = true) (i : Fin 32) (s : State) (q : Quietly m s) :
    RingSteps m s (detachReader i s) := by
  unfold detachReader
  dsimp only
  have h1 := (RingSteps.ring (m := m) s (s.att i).ring
    { s.ring (s.att i).ring with slots := (s.ring (s.att i).ring).slots.remove (s.handleAt i) }).trans
      (steps_freeRecord hf i _)
  have h2 := (h1.trans (steps_spaceChanged (s.att i).ring (s.space (s.att i).ring) _)).trans
    (steps_endWaitingOf (s.handleAt i) _)
  exact (h2.trans (steps_reexamine _ _ (h2.quietly q))).trans (steps_freeIfEmpty _ _)

theorem steps_removeProducer (hf : m.free = true) (i : Fin 32) (s : State) : RingSteps m s (removeProducer i s) :=
  ((RingSteps.ring s _ _).trans (steps_freeRecord hf i _)).trans (steps_endWaitingOf _ _)

theorem steps_detachProducerOpen (hf : m.free = true) (i : Fin 32) (s : State) (q : Quietly m s) :
    RingSteps m s (detachProducerOpen i s) := by
  have h1 := steps_removeProducer (m := m) hf i s
  exact (h1.trans (steps_reexamine _ _ (h1.quietly q))).trans (steps_freeIfEmpty _ _)

theorem steps_postMove (e : Fin 16) (k : EventKind) (d : Word) (s : State) : RingSteps m s (postMove e k d s) := by
  unfold postMove
  split
  · exact steps_post _ _ _ _ _ _
  · exact RingSteps.refl s

theorem steps_haltEntry (e : Fin 16) (reason : HaltReason) (s : State) : RingSteps m s (haltEntry e reason s) :=
  (RingSteps.move s e _).trans (steps_postMove _ _ _ _)

theorem steps_sourceEndedCheckWith (f : Fin 32 → State → State)
    (hf : ∀ i t, Quietly m t → RingSteps m t (f i t)) (e : Fin 16) (s : State) (q : Quietly m s) :
    RingSteps m s (sourceEndedCheckWith f e s) := by
  unfold sourceEndedCheckWith
  split
  · have h1 : RingSteps m s (match (s.move e).source with
      | some h => s.setAtt h.index { s.att h.index with fill := 0 }
      | none => s) := by
      split
      · exact steps_setAtt_same _ _ s ⟨rfl, rfl, rfl, rfl⟩
      · exact RingSteps.refl s
    have h2 := h1.trans (steps_haltEntry e .sourceEnded _)
    dsimp only
    split
    · split
      · refine RingSteps.trans (h2.trans (RingSteps.move _ e _)) (hf _ _ ?_)
        exact (h2.trans (RingSteps.move _ e _)).quietly q
      · exact h2
    · exact h2
  · exact RingSteps.refl s

theorem steps_sealReader (s : State) (i : Fin 32) : RingSteps m s (sealReader s i) := by
  unfold sealReader
  split
  · exact steps_reportEnd i s
  · exact RingSteps.refl s

theorem steps_sealProducer (hf : m.free = true) :
    ∀ (depth : Nat) (cause : SealCause) (i : Fin 32) (s : State), Quietly m s → RingSteps m s (sealProducer depth cause i s)
  | depth, cause, i, s, q => by
    have h1 := steps_removeProducer (m := m) hf i s
    unfold sealProducer
    dsimp only
    split
    · exact h1.trans (steps_freeIfEmpty _ _)
    · have h2 := h1.trans (RingSteps.ring _ (s.att i).ring
        { (removeProducer i s).ring (s.att i).ring with state := .sealed, sealCause := some cause })
      generalize (removeProducer i s).setRing (s.att i).ring
        { (removeProducer i s).ring (s.att i).ring with state := .sealed, sealCause := some cause } = s2 at h2 ⊢
      have h4 : RingSteps m s (reexamine (s.att i).ring ((s2.readers (s.att i).ring).foldl sealReader s2)) :=
        RingSteps.next (RingSteps.next h2 q (steps_foldl sealReader (fun t j _ => steps_sealReader t j) _ _)) q
          (steps_reexamine _ _)
      cases depth with
      | zero => exact h4
      | succ depth =>
        refine RingSteps.next h4 q (steps_foldl _ (fun t e qt => ?_) _ _)
        split
        · exact steps_sourceEndedCheckWith _ (fun j u qu => steps_sealProducer hf depth .sourceEnded j u qu) e t qt
        · exact RingSteps.refl t

theorem steps_sealBy (hf : m.free = true) (cause : SealCause) (i : Fin 32) (s : State) (q : Quietly m s) :
    RingSteps m s (sealBy cause i s) := steps_sealProducer hf _ _ _ _ q

theorem steps_sourceEndedCheck (hf : m.free = true) (e : Fin 16) (s : State) (q : Quietly m s) :
    RingSteps m s (sourceEndedCheck e s) :=
  steps_sourceEndedCheckWith _ (fun i t qt => steps_sealBy hf .sourceEnded i t qt) e s q

theorem steps_postPeerLost (lost : Fin 32) (withdrawn : Bool) (remains : Attachment → Bool) (s : State) (q : Quietly m s) :
    RingSteps m s (postPeerLost lost withdrawn remains s) := by
  unfold postPeerLost
  refine steps_foldl _ (fun t i _ => ?_) _ _ q
  split
  · exact steps_postAbout _ _ _ _
  · exact RingSteps.refl t

theorem steps_detachLost (hf : m.free = true) (i : Fin 32) (s : State) (q : Quietly m s) : RingSteps m s (detachLost i s) := by
  unfold detachLost
  split
  · exact steps_detachReader hf i s q
  · exact steps_sealBy hf .producerLost i s q

theorem steps_expireLease (hf : m.free = true) (i : Fin 32) (s : State) (q : Quietly m s) : RingSteps m s (expireLease i s) := by
  have h1 := steps_postAbout (m := m) i .leaseExpired (word (s.att i).leasePeriod) s
  have h2 := h1.trans (steps_postPeerLost i false (fun _ => true) _ (h1.quietly q))
  exact h2.trans (steps_detachLost hf i _ (h2.quietly q))

theorem steps_makeAttachment (ha : m.attach = true) (i : Fin 32) (r : Fin 16) (x : AttachRequest) (s : State) (q : Quietly m s) :
    RingSteps m s (makeAttachment i r x s) := by
  unfold makeAttachment
  dsimp only
  exact RingSteps.next (((RingSteps.att s i _ (.inl ha)).trans (RingSteps.ring _ r _)).trans (steps_postCrossing i 0 _ _)) q
    (steps_reexamine r _)

theorem steps_unloadVoluntary (hf : m.free = true) (e : Fin 16) (s : State) (q : Quietly m s) :
    RingSteps m s (unloadVoluntary e s) := by
  unfold unloadVoluntary
  dsimp only
  have h1 : RingSteps m s (match (s.move e).source with
      | some h => detachReader h.index s
      | none => s) := by
    split
    · exact steps_detachReader hf _ s q
    · exact RingSteps.refl s
  refine RingSteps.trans ?_ (RingSteps.move _ e _)
  split
  · exact h1.trans (steps_detachProducerOpen hf _ _ (h1.quietly q))
  · exact h1

theorem steps_withdrawAttachment (hf : m.free = true) (remains : Attachment → Bool) (i : Fin 32) (s : State) (q : Quietly m s) :
    RingSteps m s (withdrawAttachment remains i s) := by
  have h1 := steps_postPeerLost (m := m) i true remains s q
  exact h1.trans (steps_detachLost hf i _ (h1.quietly q))

theorem steps_unloadWithdrawn (hf : m.free = true) (remains : Attachment → Bool) (e : Fin 16) (s : State) (q : Quietly m s) :
    RingSteps m s (unloadWithdrawn remains e s) := by
  unfold unloadWithdrawn
  dsimp only
  have h1 : RingSteps m s (match (s.move e).source with
      | some h => withdrawAttachment remains h.index s
      | none => s) := by
    split
    · exact steps_withdrawAttachment hf _ _ s q
    · exact RingSteps.refl s
  refine RingSteps.trans ?_ (RingSteps.move _ e _)
  split
  · exact h1.trans (steps_withdrawAttachment hf _ _ _ (h1.quietly q))
  · exact h1

theorem steps_withdrawAttachments (hf : m.free = true) (p : Port) (s : State) (q : Quietly m s) :
    RingSteps m s (withdrawAttachments p s) := by
  unfold withdrawAttachments
  refine steps_foldl _ (fun t i qt => ?_) _ _ q
  split
  · exact steps_withdrawAttachment hf _ i t qt
  · exact RingSteps.refl t

theorem steps_withdrawEntries (hf : m.free = true) (p : Port) (s : State) (q : Quietly m s) :
    RingSteps m s (withdrawEntries p s) := by
  unfold withdrawEntries
  refine steps_foldl _ (fun t e qt => ?_) _ _ q
  dsimp only
  split
  · split
    · exact RingSteps.move t e _
    · exact steps_unloadWithdrawn hf _ e t qt
  · exact RingSteps.refl t

theorem steps_deliverTrigger (e : Fin 16) (s : State) : RingSteps m s (deliverTrigger e s) := by
  unfold deliverTrigger
  dsimp only
  split
  · split
    · exact RingSteps.move s e _
    · exact (RingSteps.move s e _).trans (steps_postMove _ _ _ _)
  · exact RingSteps.refl s

theorem steps_postWindowFault (p : Port) (w : Fin 8) (reason : WindowReason) (s : State) :
    RingSteps m s (postWindowFault p w reason s) := steps_post _ _ _ _ _ _

theorem steps_expireStall (p : ParPort) (s : State) : RingSteps m s (expireStall p s) := by
  unfold expireStall
  split
  · exact (steps_post _ _ _ _ _ _).trans (steps_endWaiting _ _)
  · exact RingSteps.refl s

end Sys2Proof.Machine
end

