-- ==== Sys2Proof/WellFormed.lean ====
section
/-! DEFINITION. When a command's operands fit its row. Most operands fit by their type; two rows share the writes of the
control page with rows of their own, and their operands must not name the other row's word. -/

namespace Sys2Proof

/-- A CONTROL_WORD_WRITE is of a word with no behaviour of its own (its row's summary): not the event acknowledge word 0x0C
(row EVENT_ACKNOWLEDGE) and not the command word 0x10 (rows COMMAND_SUBMIT and WITHDRAW). -/
def plainControlOffset (offset : BitVec 8) : Bool :=
  offset != 0x0C && offset != 0x10

/-- A COMMAND_SUBMIT writes a word other than the WITHDRAW code 0x001F (R189), whose submit is the row WITHDRAW. -/
def plainCommandWord (command : Word) : Bool :=
  command != 0x001F

/-- The operands of a command fit its row. `exec` gives every command a meaning, well formed or not. -/
def Instr.wellFormed : Instr → Bool
  | .controlWordWrite _ offset _ => plainControlOffset offset
  | .commandSubmit _ command => plainCommandWord command
  | .deviceReset => true
  | .timebaseAdvance => true
  | .leaseTick => true
  | .leaseExpiry => true
  | .pacerExpiry _ => true
  | .stallTimeout _ => true
  | .parallelCycleStart _ _ _ => true
  | .strobeRelease _ => true
  | .portReset _ => true
  | .withdrawal _ => true
  | .serialFrameStart _ => true
  | .statusOnly _ _ _ => true
  | .streamRead _ _ _ => true
  | .streamWrite _ _ _ => true
  | .pageRead _ _ _ => true
  | .pageWrite _ _ _ => true
  | .controlRead _ _ _ => true
  | .controlWrite _ _ _ => true
  | .withdrawFrame _ _ _ => true
  | .serialWindowCheck _ => true
  | .beyondCountWord _ => true
  | .serialFrameEnd _ => true
  | .push _ => true
  | .pop _ => true
  | .pageWindowRead _ => true
  | .pageWindowWrite _ => true
  | .waitingAccessAnswer _ => true
  | .timebaseLowRead _ => true
  | .eventAcknowledge _ _ => true
  | .badCommand _ => true
  | .createRing _ => true
  | .attach _ => true
  | .detach _ => true
  | .renew _ => true
  | .setThreshold _ => true
  | .queryRing _ => true
  | .queryAttach _ => true
  | .withdraw _ => true
  | .loadMove _ => true
  | .startMove _ => true
  | .fireMove _ => true
  | .stopMove _ => true
  | .unloadMove _ => true
  | .setPacer _ => true
  | .startCheck => true
  | .moveFramePop => true
  | .moveFramePush => true
  | .deferredUnload => true
  | .serialAddressWord _ _ => true
  | .serialDataWord _ _ => true
  | .portResetRelease _ => true
  | .deviceResetRelease => true

end Sys2Proof
end

