-- ==== Sys2Proof/Tests/Slice0.lean ====
section
/-! SUPPORT. Tests: the refusals of WellFormed, the manual's worked examples one step at a time (each names its source), and a
witness for the hypotheses of each statement, clause by clause, at a boundary where a clause has one. -/

namespace Sys2Proof.Tests

open Sys2Proof.Machine

set_option Elab.async false

/-! ### WellFormed refuses -/

theorem test_wellFormed_refuses_acknowledge_word : (Instr.controlWordWrite .a 0x0C 0).wellFormed = false := rfl
theorem test_wellFormed_refuses_command_word : (Instr.controlWordWrite .d 0x10 0).wellFormed = false := rfl
theorem test_wellFormed_refuses_withdraw_code : (Instr.commandSubmit .b 0x001F).wellFormed = false := rfl
theorem test_wellFormed_takes_their_neighbours :
    (Instr.controlWordWrite .a 0x0B 0).wellFormed = true ∧ (Instr.controlWordWrite .a 0x11 0).wellFormed = true ∧
      (Instr.commandSubmit .b 0x001E).wellFormed = true := ⟨rfl, rfl, rfl⟩

/-! ### Small states -/

/-- The state that a command leaves. -/
def after (c : Instr) (s : State) : State :=
  match exec c s with
  | .next t => t
  | .fault _ => s
  | .refused _ => s

/-- A CIRCULAR ring of one page at page 0, open to every port, with its producer in record 0 and a reader in record 1. -/
def ringZero : Ring :=
  { Ring.freed with
    state := .opened, pageCount := 1, access := Four.all .readWrite, producer := some ⟨0, 0⟩, slots := ⟨some ⟨0, 1⟩, none, none⟩ }

/-- An enabled STREAM window that waits, of size exponent 8 at base 0, with a handle word. -/
def streamWindow (h : Word) : Window := ⟨true, 0, 8, .stream, h, .wait⟩

/-- Window `w` of a port set. -/
def withWindow (p : Port) (w : Fin 8) (x : Window) (s : State) : State :=
  s.setPort p { s.port p with windows := tablePut (s.port p).windows w x }

/-- Ring 0, its producer held by one port (window 0 bound to it) and its reader by another (window 1 bound to it). -/
def linked (producer reader : Port) : State :=
  let s := ((State.reset.setRing 0 ringZero).setAtt 0
      { Attachment.freed 0 with inUse := true, role := .producer, holder := .port producer, leasePeriod := 5, leaseRemaining := 3 }).setAtt 1
    { Attachment.freed 0 with inUse := true, role := .reader 1, holder := .port reader, leasePeriod := 5, leaseRemaining := 3 }
  withWindow reader 1 (streamWindow 1) (withWindow producer 0 (streamWindow 0) (s.setPageMap (markPages (some 0) 0 1 s.pageMap)))

/-- Words 11, 22, 33 pushed into ring 0, with the reader at a fill. -/
def filled (fill : Nat) (s : State) : State :=
  ((s.setRing 0 { s.ring 0 with writePos := 3, valid := 3 }).setAtt 1 { s.att 1 with fill := fill }).setMem ⟨[(0, 11), (1, 22), (2, 33)]⟩

/-- A word of a command stands at a port's command requester. -/
def commanded (p : Port) (w : Word) (x : Args) (s : State) : State :=
  s.setPort p
    { s.port p with
      cmd := { (s.port p).cmd with state := .inFlight, inFlight := .command w, argCopy := x, commandWord := w } }

/-- A withdrawal stands at a port's command requester. -/
def withdrawing (p : Port) (asCommand : Bool) (s : State) : State :=
  s.setPort p { s.port p with cmd := { (s.port p).cmd with state := .inFlight, inFlight := .withdrawal asCommand } }

/-- A window access stands at a port's data requester. -/
def accessing (p : Port) (w : Fin 8) (acc : BusAccess) (offset : Nat) (s : State) : State :=
  s.setDataReq p (some (.access w acc offset))

/-- A serial frame in its HEADER or ADDRESS phase, select held or released. -/
def opening (p : SerPort) (phase : FramePhase) (held : Bool) : State :=
  State.reset.setSer p { SerialUnit.cleared with phase := phase, selectHeld := held }

/-- Select of a serial port released with a request still pending. -/
def released (p : SerPort) (s : State) : State := s.setSer p { s.serUnit p with selectHeld := false }

/-- A serial frame past its header, select held. -/
def inFrame (p : SerPort) (op : SerialOp) (w : Fin 8) (count : Nat) (s : State) : State :=
  s.setSer p { s.serUnit p with phase := .data, op := some op, window := w, count := count, selectHeld := true }

/-- Move entry 2 of port A from ring 0's reader in record 1 to ring 1's producer in record 2, S = 2, in a state. -/
def moving (st : MoveState) : State :=
  let s := filled 3 (linked .a .b)
  let s1 := (s.setAtt 1 { s.att 1 with holder := .entry 2, leasePeriod := 0, leaseRemaining := 0 }).setAtt 2
    { Attachment.freed 0 with inUse := true, role := .producer, holder := .entry 2, ring := 1 }
  let s2 := s1.setRing 1 { ringZero with firstPage := 1, producer := some ⟨0, 2⟩, slots := ⟨none, none, none⟩ }
  (s2.setPageMap (markPages (some 1) 1 1 s2.pageMap)).setMove 2
    { MoveEntry.cleared with
      state := st, owner := some .a, source := some ⟨0, 1⟩, dest := some ⟨0, 2⟩, frameLen := 2 }

/-- Operands with entry or pacer number 2 in word 1. -/
def argsTwo : Args := ⟨2, 0, 0, 0, 0, 0⟩

/-! ### The manual's layouts and examples -/

/-- 13, Worked Example: Reading One Record: ring 6, PEER_LOST, handle 69, producer lost by withdrawal, stamp 0x3A10. -/
theorem test_head_words_of_the_example :
    let q : List Event := [⟨.peerLost, some 6, some ⟨2, 5⟩, detailPeerLost .producer true, 0x3A10⟩]
    headWord q 0 = 0x0607 ∧ headWord q 1 = 0x0045 ∧ headWord q 2 = 0x0100 ∧ headWord q 3 = 0x3A10 := by decide

/-- R184: what an empty queue reads. -/
theorem test_head_words_of_an_empty_queue :
    headWord [] 0 = 0xFF00 ∧ headWord [] 1 = 0xFFFF ∧ headWord [] 2 = 0 ∧ headWord [] 3 = 0 := by decide

/-- The same example: command unit DONE and three records held read 0x0302. -/
theorem test_port_status_word_of_the_example :
    portStatusWord
      { PortUnit.cleared with
        cmd := { CommandUnit.cleared with state := .done }
        queue := List.replicate 3 ⟨.dataReady, none, none, 0, 0⟩ } = 0x0302 := by decide

/-- R191: op 1, window 1, count 4 is the header 0x2404, and it reads back by its fields. -/
theorem test_stream_read_header : headerWord .streamRead 1 4 = 0x2404 ∧ decodeHeader 0x2404 = (.streamRead, 1, 4) := by decide

/-- R46: the delivery orders of blocks of 2, 4 and 8. -/
theorem test_block_of_eight_order : (List.range 8).map (reverseBits 3) = [0, 4, 2, 6, 1, 5, 3, 7] := by decide

/-- 09, Worked Example: Decoding Port A's Addresses, the window table of port A. -/
def exampleWindows : PortUnit :=
  { PortUnit.cleared with
    windows := #v[⟨true, 0x100, 8, .stream, 33, .wait⟩, ⟨true, 0x000, 11, .page, 33, .wait⟩, ⟨false, 0x800, 10, .stream, 0, .wait⟩,
      ⟨true, 0x9C3, 6, .stream, 6, .wait⟩, ⟨true, 0x800, 11, .page, 6, .wait⟩, Window.cleared, Window.cleared, Window.cleared] }

theorem test_decode_of_the_example :
    decodeAddress exampleWindows 0x050 = .window 1 80 ∧ decodeAddress exampleWindows 0x7FF = .window 1 2047 ∧
      decodeAddress exampleWindows 0x850 = .window 4 80 ∧ decodeAddress exampleWindows 0xEFF = .window 4 1791 ∧
      decodeAddress exampleWindows 0xF10 = .control 0x10 := by decide +kernel

theorem test_decode_takes_the_lowest_window :
    decodeAddress exampleWindows 0x150 = .window 0 0x50 ∧ decodeAddress exampleWindows 0x9D0 = .window 3 0x10 := by decide +kernel

/-- R188: the identification words, the command word as last written, and an offset that the map does not list. -/
theorem test_control_words_after_reset :
    State.reset.controlWord .a 0x00 = 0x4A16 ∧ State.reset.controlWord .a 0x01 = 0x0100 ∧
      State.reset.controlWord .a 0x05 = 255 ∧ State.reset.controlWord .c 0x05 = 0 ∧ State.reset.controlWord .b 0x44 = 1000 ∧
      State.reset.controlWord .b 0x1C = 0 := by decide

/-! ### One command each -/

/-- R133: the count turns over from 0xFFFFFFFF to 0. -/
theorem test_timebase_turns_over : (after .timebaseAdvance (State.reset.setTimebase 0xFFFFFFFF)).timebase = 0 := by decide +kernel

/-- R135: the divider counts 0 to 999 and on reaching 1000 returns to 0, and the tick falls. -/
theorem test_divider_returns_to_zero :
    let t := after .timebaseAdvance (State.reset.setDivider 999)
    let u := after .timebaseAdvance (State.reset.setDivider 998)
    t.divider = 0 ∧ t.tickDue = true ∧ u.divider = 999 ∧ u.tickDue = false := by decide +kernel

/-- R72: the tick lowers a lease of 3 to 2. -/
theorem test_lease_tick :
    let t := after .leaseTick ((linked .a .b).setTickDue true)
    (t.att 1).leaseRemaining = 2 ∧ t.tickDue = false := by decide +kernel

/-- R73 (assumption 26): a HOLD reader at C in record 0 and the producer in record 1, whose push waits, both reach 0 at a tick: the
reader's expiry makes room, and the producer expires in its turn, its push not stored. -/
theorem test_both_expire_at_one_tick :
    let x : Attachment := { Attachment.freed 0 with inUse := true, leasePeriod := 5, leaseRemaining := 1 }
    let s := ((State.reset.setRing 0 { ringZero with producer := some ⟨0, 1⟩, slots := ⟨some ⟨0, 0⟩, none, none⟩ }).setAtt 0
      { x with role := .reader 1, holder := .port .b, fill := 256 }).setAtt 1 { x with role := .producer, holder := .port .a }
    let w := (s.setWaiting .a (some ⟨0, ⟨0, 1⟩, .write 44⟩)).setPar .a
      { s.parUnit .a with cycleState := .waiting, stallTimer := 4 }
    let t := after .startCheck (w.setTickDue true)
    (t.att 0).inUse = false ∧ (t.att 1).inUse = false ∧ t.waitingAt .a = none ∧ t.mem.read 0 = 0 ∧
      (t.ring 0).state = .free := by decide +kernel

/-- R77: a lost reader's record is free at its next generation. -/
theorem test_lease_expiry :
    let s := linked .a .b
    let t := after .leaseExpiry (s.setAtt 1 { s.att 1 with leaseRemaining := 0 })
    (t.att 1).inUse = false ∧ (t.att 1).gen = 1 ∧ (t.port .b).queue.map (·.kind) = [.leaseExpired] := by decide +kernel

/-- R77, R78: the other party of the ring is told, with the role lost in the detail. -/
theorem test_lease_expiry_tells_the_producer :
    let s := linked .a .b
    ((after .leaseExpiry (s.setAtt 1 { s.att 1 with leaseRemaining := 0 })).port .a).queue.map (fun e => (e.kind, e.detail)) =
      [(.peerLost, 1)] := by decide +kernel

/-- R136, R138: the count of an enabled pacer is never left at 0; at 1 it is reloaded from the period as the pacer expires. -/
theorem test_pacer_reloads_as_it_expires :
    ((after .timebaseAdvance (State.reset.setPacer 3 ⟨true, 7, 1, false⟩)).pacer 3) = ⟨true, 7, 7, true⟩ ∧
      ((after .timebaseAdvance (State.reset.setPacer 3 ⟨true, 7, 2, false⟩)).pacer 3) = ⟨true, 7, 1, false⟩ := by decide +kernel

/-- R138: the triggers of an expired pacer are delivered once. -/
theorem test_pacer_expiry :
    ((after (.pacerExpiry 3) (State.reset.setPacer 3 ⟨true, 7, 7, true⟩)).pacer 3) = ⟨true, 7, 7, false⟩ := by decide +kernel

/-- R155: a window cycle waits as a request; its strobe released before the grant abandons it (R161). -/
theorem test_cycle_start_requests :
    let t := after (.parallelCycleStart .b .read 0x034) (withWindow .b 0 (streamWindow 1) State.reset)
    (t.parUnit .b).cycleState = .requested ∧ (t.port .b).dataReq = some (.access 0 .read 0x34) := by decide +kernel

theorem test_strobe_release_abandons :
    let s := after (.parallelCycleStart .b .read 0x034) (withWindow .b 0 (streamWindow 1) State.reset)
    let t := after (.strobeRelease .b) s
    (t.port .b).dataReq = none ∧ (t.port .b).queue.map (·.kind) = [.cycleAbandoned] := by decide +kernel

/-- R144: detail is the word address. -/
theorem test_cycle_start_unmapped :
    (((after (.parallelCycleStart .a (.write 5) 0xA00) State.reset).port .a).queue.map (fun e => (e.kind, e.detail))) =
      [(.unmappedAccess, 0xA00)] := by decide +kernel

/-- R163: holding the reset input does not raise a second withdrawal. -/
theorem test_port_reset :
    ((after (.portReset .a) State.reset).port .a).cmd.inFlight = .withdrawal false ∧
      ((after (.portResetRelease .a) (after (.portReset .a) State.reset)).parUnit .a).resetHeld = false := by decide +kernel

/-- R82, R95: a WITHDRAW command's grant leaves DONE with command word 0x001F, and COMMAND_DONE in the emptied queue. -/
theorem test_withdrawal_as_command :
    let t := after (.withdrawal .a) (withdrawing .a true (linked .a .b))
    (t.port .a).cmd.state = .done ∧ (t.port .a).queue.map (·.detail) = [0x001F] := by decide +kernel

theorem test_withdrawal_seals_the_ring :
    let t := after (.withdrawal .a) (withdrawing .a true (linked .a .b))
    (t.ring 0).state = .sealed ∧ (t.ring 0).sealCause = some .producerLost := by decide +kernel

/-- R167: the status word goes out with the header. -/
theorem test_serial_frame_start :
    let s := State.reset.setSer .c { SerialUnit.cleared with status := ⟨.torn, 1, false, false⟩ }
    ((after (.serialFrameStart .c) s).port .c).dataOut = 0x5004 := by decide +kernel

/-- R168: STATUS_ONLY ignores its count field. -/
theorem test_status_only_count : ((after (.statusOnly .c 2 9) (opening .c .header true)).serUnit .c).count = 0 := by decide +kernel

theorem test_page_read_header_wants_an_address :
    let t := after (.pageRead .d 2 9) (opening .d .header true)
    (t.serUnit .d).phase = .address ∧ (t.serUnit .d).count = 9 ∧ (t.port .d).dataReq = some .check := by decide +kernel

/-- 11, the example's frame 6: a word past the count shifts 0x0000 and a first condition stays. -/
theorem test_beyond_count_keeps_the_first_condition :
    let s := inFrame .c .streamRead 1 2 State.reset
    let t := after (.beyondCountWord .c) (s.setSer .c { s.serUnit .c with wordIndex := 2, condition := .empty })
    (t.port .c).dataOut = 0 ∧ (t.serUnit .c).condition = .empty := by decide +kernel

/-- The example's frame 4: a read word cut short after its data is TORN and not counted. -/
theorem test_frame_end_torn :
    let s := inFrame .c .streamRead 1 3 State.reset
    ((after (.serialFrameEnd .c) (s.setSer .c { s.serUnit .c with wordIndex := 2, wordNow := .data, completed := 1 })).serUnit .c).status
      = ⟨.torn, 1, false, false⟩ := by decide +kernel

/-- R171: the first bit of a read word places its pop. -/
theorem test_data_word_places_a_pop :
    ((after (.serialDataWord .c .first) (inFrame .c .streamRead 1 3 State.reset)).port .c).dataReq = some (.access 1 .read 0) := by
  decide +kernel

/-- R167: an address word is recorded, and ignored while select is not asserted. -/
theorem test_serial_address_word :
    ((after (.serialAddressWord .c 0x0002) (opening .c .address true)).serUnit .c).address = 0x0002 ∧
      ((after (.serialAddressWord .c 0x0002) (opening .c .address false)).serUnit .c).phase = .address := by decide +kernel

/-- R177: in a frame withdrawn in its HEADER phase the header is ignored and every word after it shifts 0x0000, an address word too. -/
theorem test_withdrawn_header_frame :
    let s := opening .c .header true
    let w := (s.setSer .c { s.serUnit .c with withdrawn := true }).setDataOut .c 0x5004
    let t := after (.pageRead .c 2 9) w
    (t.serUnit .c).op = none ∧ (t.port .c).dataOut = 0x5004 ∧
      ((after (.serialAddressWord .c 0x0002) t).port .c).dataOut = 0 ∧
      ((after (.serialDataWord .c .first) t).port .c).dataOut = 0 := by decide +kernel

/-- R170: a disabled window is NO_WINDOW, and the frame inert. -/
theorem test_window_check_no_window :
    let t := after (.serialWindowCheck .d) ((inFrame .d .pageRead 3 1 State.reset).setDataReq .d (some .check))
    (t.serUnit .d).condition = .noWindow ∧ (t.serUnit .d).inert = true := by decide +kernel

/-- R29: the word is stored at the write position and a reader's fill rises. -/
theorem test_push :
    let t := after (.push .a) (accessing .a 0 (.write 44) 0 (filled 3 (linked .a .b)))
    t.mem.read 3 = 44 ∧ (t.ring 0).writePos = 4 ∧ (t.att 1).fill = 4 := by decide +kernel

/-- R26: a reader with fill 2 of 3 words takes the second word. -/
theorem test_pop :
    let t := after (.pop .b) (accessing .b 1 .read 0 (filled 2 (linked .a .b)))
    (t.parUnit .b).answer = some 22 ∧ (t.att 1).fill = 1 ∧ (t.att 1).leaseRemaining = 5 := by decide +kernel

/-- R149: a page read moves no cursor. -/
theorem test_page_read :
    let s := withWindow .b 1 ⟨true, 0, 8, .page, 1, .wait⟩ (filled 2 (linked .a .b))
    let t := after (.pageWindowRead .b) (accessing .b 1 .read 2 s)
    (t.parUnit .b).answer = some 33 ∧ (t.att 1).fill = 2 := by decide +kernel

/-- R150, R57: a page write of 0 leaves the memory listing one cell less. -/
theorem test_page_write_of_zero :
    let s := withWindow .a 0 ⟨true, 0, 8, .page, 0, .wait⟩ (filled 2 (linked .a .b))
    (after (.pageWindowWrite .a) (accessing .a 0 (.write 0) 1 s)).mem = ⟨[(0, 11), (2, 33)]⟩ := by decide +kernel

/-- R158: a waiting pop is answered by the push that satisfies it. -/
theorem test_waiting_pop_answered_by_a_push :
    let s := (linked .a .b).setWaiting .b (some ⟨1, ⟨0, 1⟩, .read⟩)
    let t := after (.push .a) (accessing .a 0 (.write 44) 0 s)
    t.waitingAt .b = none ∧ (t.parUnit .b).answer = some 44 ∧ (t.att 1).fill = 0 := by decide +kernel

/-- R134: the example of a read of the low word at count 0x0001FFFF. -/
theorem test_timebase_low_read :
    let t := after (.timebaseLowRead .c) (State.reset.setTimebase 0x0001FFFF)
    (t.port .c).dataOut = 0xFFFF ∧ (t.port .c).latchedHigh = 0x0001 ∧ (t.port .d).latchedHigh = 0 := by decide +kernel

/-- R185: EVENTS_LOST takes the place of the lost records. -/
theorem test_acknowledge_reports_lost :
    let s := State.reset.setPort .a { PortUnit.cleared with queue := [⟨.dataReady, none, none, 0, 0⟩], lostCount := 3 }
    (((after (.eventAcknowledge .a 9) s).port .a).queue.map (fun e => (e.kind, e.detail))) = [(.eventsLost, 3)] := by decide +kernel

/-- R164: a stall limit of 1024 is not taken. -/
theorem test_stall_limit_write :
    ((after (.controlWordWrite .a 0x05 1023) State.reset).parUnit .a).stallLimit = 1023 ∧
      ((after (.controlWordWrite .a 0x05 1024) State.reset).parUnit .a).stallLimit = 255 := by decide +kernel

/-- R89: a submit while a command is in flight is dropped and reported. -/
theorem test_submit_refused :
    let t := after (.commandSubmit .a 0x0007) (commanded .a 0x0001 Args.zero State.reset)
    (t.port .a).cmd.commandWord = 0x0001 ∧ (t.port .a).queue.map (fun e => (e.kind, e.detail)) = [(.commandRefused, 0x0007)] := by
  decide +kernel

/-- R91, R189: word 0 is no command code. -/
theorem test_bad_command :
    let t := after (.badCommand .a) (commanded .a 0 Args.zero State.reset)
    (t.port .a).cmd.results = ⟨0xFFFF, 0xFFFF, 0xFFFF, 0xFFFF⟩ ∧ (t.port .a).cmd.resultCode = .badCommand := by decide +kernel

/-- 04, the example's step 1: CREATE_RING for 40 pages takes ring 0 and pages 0 to 39. -/
theorem test_create_ring_example :
    let t := after (.createRing .a) (commanded .a codeCreateRing ⟨40, 0x0FF0, 0x0001, 0, 0, 0⟩ State.reset)
    (t.ring 0).pageCount = 40 ∧ tableGet t.pageMap 39 = some 0 ∧ tableGet t.pageMap 40 = none ∧
      (t.att 0).role = .producer := by decide +kernel

/-- R102: a second producer is ROLE_TAKEN. -/
theorem test_attach_role_taken :
    ((after (.attach .c) (commanded .c codeAttach ⟨0, 1, 0, 0, 0, 0⟩ (linked .a .b))).port .c).cmd.resultCode = .roleTaken := by
  decide +kernel

/-- 03, the example's step 1: FROM_NEW at write position 13 with b = 3 gives skip 3. -/
theorem test_attach_reversed_block_example :
    let s := linked .a .b
    let t := after (.attach .b)
      (commanded .b codeAttach ⟨0, 0x0034, 0, 0, 0, 0⟩ (s.setRing 0 { s.ring 0 with writePos := 13, valid := 13 }))
    (t.att 2).fill = 0 ∧ (t.att 2).skip = 3 ∧ (t.port .b).cmd.results = ⟨2, 2, 0, 3⟩ := by decide +kernel

/-- R105, R62: the last attachment's departure frees the ring and its pages. -/
theorem test_detach_last_frees :
    let s := linked .a .b
    let t := after (.detach .b) (commanded .b codeDetach ⟨1, 0, 0, 0, 0, 0⟩ (s.setRing 0 { s.ring 0 with producer := none }))
    (t.ring 0).state = .free ∧ tableGet t.pageMap 0 = none ∧ (t.port .b).cmd.results = ⟨0, 1, 0, 0⟩ := by decide +kernel

/-- R106: RENEW ALL counts what the port holds. -/
theorem test_renew_all :
    let t := after (.renew .a) (commanded .a codeRenew ⟨1, 0, 0, 0, 0, 0⟩ (linked .a .a))
    (t.port .a).cmd.results.w1 = 2 ∧ (t.att 1).leaseRemaining = 5 := by decide +kernel

/-- R107: a threshold already reached posts at once. -/
theorem test_set_threshold :
    let t := after (.setThreshold .b) (commanded .b codeSetThreshold ⟨1, 2, 0, 0, 0, 0⟩ (filled 2 (linked .a .b)))
    (t.port .b).cmd.results = ⟨2, 1, 0, 0⟩ ∧ (t.port .b).queue.map (·.kind) = [.dataReady, .commandDone] := by decide +kernel

/-- R108, R189: an OPEN CIRCULAR ring with a producer and one reader. -/
theorem test_query_ring :
    (((after (.queryRing .d) (commanded .d codeQueryRing Args.zero (filled 2 (linked .a .b)))).port .d).cmd.results) =
      ⟨0x0141, 1, 3, 3⟩ := by decide +kernel

/-- R109: a producer's QUERY_ATTACH reports the space in the place of fill. -/
theorem test_query_attach_producer :
    (((after (.queryAttach .a) (commanded .a codeQueryAttach Args.zero (filled 2 (linked .a .b)))).port .a).cmd.results) =
      ⟨254, 0, 3, 0⟩ := by decide +kernel

/-- R118: a phase not below S is refused. -/
theorem test_load_move_bad_phase :
    ((after (.loadMove .a) (commanded .a codeLoadMove ⟨0, 0, 1, 0x0100, 0, 0⟩ State.reset)).port .a).cmd.resultCode = .badArg := by
  decide +kernel

/-- R129: a source of fill 1 below S = 2 on a SEALED ring has ended, and the end goes on to the destination. -/
theorem test_start_move_of_an_ended_source :
    let s := moving .loaded
    let s1 := (s.setRing 0 { s.ring 0 with state := .sealed }).setAtt 1 { s.att 1 with fill := 1 }
    let t := after (.startMove .a) (commanded .a codeStartMove argsTwo (s1.setMove 2 { s.move 2 with propagateEnd := true }))
    (t.move 2).haltReason = some .sourceEnded ∧ (t.att 1).fill = 0 ∧ (t.ring 1).state = .free ∧
      (t.port .a).queue.map (fun e => (e.kind, e.detail)) = [(.moveHalted, 0x8000), (.commandDone, 0x0011)] := by decide +kernel

theorem test_start_move : ((after (.startMove .a) (commanded .a codeStartMove argsTwo (moving .done))).move 2).state = .armed := by
  decide +kernel

/-- R122: the fourth trigger is missed. -/
theorem test_fire_move_missed :
    let s := moving .armed
    let t := after (.fireMove .a) (commanded .a codeFireMove argsTwo (s.setMove 2 { s.move 2 with pendingRuns := 3 }))
    (t.move 2).missedTriggers = 1 ∧ (t.port .a).queue.map (·.kind) = [.triggerMissed, .commandDone] := by decide +kernel

theorem test_stop_move :
    ((after (.stopMove .a) (commanded .a codeStopMove argsTwo (moving .waiting))).move 2).haltReason = some .stopped := by decide +kernel

/-- R124: the entry is EMPTY and the ring without attachments is freed. -/
theorem test_unload_move :
    let t := after (.unloadMove .a) (commanded .a codeUnloadMove argsTwo (moving .halted))
    t.move 2 = MoveEntry.cleared ∧ (t.ring 1).state = .free ∧ (t.ring 0).slots.one = none := by decide +kernel

/-- R137: an enabled pacer keeps its count. -/
theorem test_set_pacer_keeps_the_count :
    ((after (.setPacer .b) (commanded .b codeSetPacer ⟨2, 9, 1, 0, 0, 0⟩ (State.reset.setPacer 2 ⟨true, 5, 3, false⟩))).pacer 2) =
      ⟨true, 9, 3, false⟩ := by decide +kernel

/-- A start check stands at the arbiter with entry 2 ARMED and a run pending. -/
def checking : State :=
  let s := moving .armed
  (s.setMove 2 { s.move 2 with pendingRuns := 1 }).setMoveReq (some .startCheck)

theorem test_start_check :
    let t := after .startCheck checking
    t.frame = some ⟨2, 0, none⟩ ∧ (t.ring 1).reserved = 2 ∧ t.rotation = 2 ∧ (t.move 2).pendingRuns = 0 := by decide +kernel

/-- A frame of entry 2 with its pop or push next. -/
def framing (held : Option Word) (q : MoveRequest) : State :=
  ((moving .running).setFrame (some ⟨2, if held = none then 0 else 1, held⟩)).setMoveReq (some q)

theorem test_frame_pop :
    let t := after .moveFramePop (framing none .framePop)
    t.frame = some ⟨2, 1, some 11⟩ ∧ t.moveReq = some .framePush ∧ (t.att 1).fill = 2 := by decide +kernel

theorem test_frame_push :
    let t := after .moveFramePush (framing (some 11) .framePush)
    t.mem.read 256 = 11 ∧ t.moveReq = some .framePop ∧ (t.ring 1).writePos = 1 := by decide +kernel

theorem test_deferred_unload :
    let s := framing none .unload
    let t := after .deferredUnload (s.setMove 2 { s.move 2 with unloadPending := true })
    t.frame = none ∧ t.move 2 = MoveEntry.cleared ∧ t.moveReq = none := by decide +kernel

/-- R84, R132: an ARMED entry of a withdrawn port from ring 1 to ring 0, end propagated, ring 0 with a reader left: ring 0 is sealed with
PRODUCER_LOST, and the destination's record goes on by one generation. -/
theorem test_withdrawn_unload_seals_once :
    let s := linked .b .b
    let s1 := ((s.setAtt 0 { s.att 0 with holder := .entry 2 }).setAtt 2
      { Attachment.freed 0 with inUse := true, role := .reader 1, holder := .entry 2, ring := 1 }).setRing 1
      { ringZero with firstPage := 1, producer := none, slots := ⟨some ⟨0, 2⟩, none, none⟩ }
    let s2 := s1.setMove 2
      { MoveEntry.cleared with
        state := .armed, owner := some .a, source := some ⟨0, 2⟩, dest := some ⟨0, 0⟩, frameLen := 2, propagateEnd := true }
    let t := after (.withdrawal .a) (withdrawing .a true s2)
    (t.ring 0).sealCause = some .producerLost ∧ (t.att 0).gen = 1 ∧ t.move 2 = MoveEntry.cleared := by decide +kernel

/-- R159: the port's own timer alone ends its access. -/
theorem test_stall_timeout :
    let s := (linked .a .b).setWaiting .b (some ⟨1, ⟨0, 1⟩, .read⟩)
    let t := after (.stallTimeout .b) (s.setPar .b { s.parUnit .b with cycleState := .waiting })
    t.waitingAt .b = none ∧ (t.port .b).queue.map (·.kind) = [.stallTimeout] := by decide +kernel

theorem test_device_reset_keeps_the_strobe :
    let t := after .deviceReset (State.reset.setPar .a { ParallelUnit.cleared with strobeHeld := true })
    (t.parUnit .a).strobeHeld = true ∧ t.deviceReset = true ∧ (after .deviceResetRelease t).deviceReset = false := by decide +kernel

/-! ### Witnesses: what meets the hypotheses of each statement -/

theorem witness_StepTakesTheFrontCommand :
    ({ State.reset with pending := [.startCheck, .deviceReset] } : State).pending = .startCheck :: [.deviceReset] ∧
      State.reset.pending = [] := ⟨rfl, rfl⟩

/-- Device reset held, with an act and a pin's movement for a command. -/
theorem witness_DeviceResetReturnsEveryField :
    let s := State.reset.setDeviceReset true
    s.deviceReset = true ∧ Instr.startCheck ≠ .deviceReset ∧ Instr.startCheck ≠ .deviceResetRelease ∧
      (after (.parallelCycleStart .a .read 0xF00) s).par.fst.strobeHeld = true ∧
      ((after (.parallelCycleStart .a .read 0xF00) s).parUnit .a).cycleState = .idle := by decide +kernel

theorem witness_TimebaseAdvanceMovesTheClocks :
    (State.reset.setDeviceReset true).deviceReset = true ∧ (State.reset.setDivider 998).calm ∧
      (State.reset.setDivider 999).calm ∧ (State.reset.setPacer 0 ⟨true, 7, 1, false⟩).calm ∧
      (State.reset.setPacer 0 ⟨true, 7, 2, false⟩).calm := by decide +kernel

/-- The same statement's due events: record 31 lapsed beside record 0, which comes first; a tick; a pacer; a stall limit; and a state where a
tick is due and nothing is once it is taken. -/
theorem witness_TimebaseAdvanceMovesTheClocks_due (p : ParPort) :
    let x : Attachment := { Attachment.freed 0 with inUse := true, leasePeriod := 1 }
    let two := (State.reset.setAtt 31 x).setAtt 0 x
    let tick := State.reset.setTickDue true
    let w := State.reset.setPar p { ParallelUnit.cleared with cycleState := .waiting, stallTimer := 0 }
    (two.deviceReset = false ∧ two.quiet = false ∧ two.dueExpiry = some 0 ∧ (State.reset.setAtt 31 x).dueExpiry = some 31) ∧
      (tick.quiet = false ∧ (settle tick).deviceReset = false ∧ (settle tick).quiet = true) ∧
      ((State.reset.setPacer 3 ⟨true, 7, 7, true⟩).quiet = false ∧ ((State.reset.setPacer 3 ⟨true, 7, 7, true⟩).pacer 3).due = true) ∧
      w.quiet = false ∧ (w.parUnit p).cycleState = .waiting ∧ (w.parUnit p).stallTimer = 0 := by
  cases p <;> decide +kernel

/-- A tick that has fallen; the lowest and the highest record. -/
theorem witness_LeaseTickAndExpiryInTheirOrder :
    ((State.reset.setTickDue true).deviceReset = false ∧ (State.reset.setTickDue true).tickDue = true ∧
        (State.reset.setTickDue true).dueExpiry = none) ∧
    ∀ i : Fin 32, i = 0 ∨ i = 31 →
      let s := State.reset.setAtt i { Attachment.freed 0 with inUse := true, leasePeriod := 1 }
      s.deviceReset = false ∧ (s.att i).inUse = true ∧ 0 < (s.att i).leasePeriod ∧ (s.att i).leaseRemaining = 0 ∧
        ∀ j, j < i → ¬((s.att j).inUse = true ∧ 0 < (s.att j).leasePeriod ∧ (s.att j).leaseRemaining = 0) := by decide +kernel

/-- The same statement's last clause: a waiting read that the reader's fill would answer, its lease run out. -/
theorem witness_LeaseTickAndExpiryInTheirOrder_waiting :
    let s := filled 1 ((linked .a .b).setWaiting .b (some ⟨1, ⟨0, 1⟩, .read⟩))
    let t := s.setAtt 1 { s.att 1 with leaseRemaining := 0 }
    t.waitingAt .b = some ⟨1, ⟨0, 1⟩, .read⟩ ∧ (t.att 1).inUse = true ∧ 0 < (t.att 1).leasePeriod ∧
      (t.att 1).leaseRemaining = 0 ∧ t.judgePop 1 = .data 33 := by decide +kernel

theorem witness_PacerExpiryDeliversAndReloads :
    ∀ n : Fin 4,
      let s := State.reset.setPacer n ⟨true, 7, 7, true⟩
      s.deviceReset = false ∧ s.dueExpiry = none ∧ (s.pacer n).enabled = true ∧ (s.pacer n).due = true := by decide +kernel

/-- The same statement's missed triggers: the owner's entry with three runs pending, and with two, none missed. -/
theorem witness_PacerExpiryDeliversAndReloads_missed :
    let s := (moving .armed).setPacer 3 ⟨true, 7, 7, true⟩
    let runs (n : Nat) : State := s.setMove 2 { s.move 2 with trigger := .pacer 3, pendingRuns := n }
    (∀ n : Fin 4, (runs n).deviceReset = false ∧ (runs n).dueExpiry = none ∧ ((runs n).pacer 3).due = true ∧
        ((runs n).move 2).trigger = .pacer 3 ∧ ((runs n).move 2).state = .armed ∧ ((runs n).move 2).owner = some .a) ∧
      ((after (.pacerExpiry 3) (runs 3)).port .a).queue.map (fun e => (e.kind, e.ring, e.handle, e.detail)) =
        [(.triggerMissed, some 0, some ⟨0, 1⟩, 1)] ∧
      ((after (.pacerExpiry 3) (runs 2)).port .a).queue = [] := by decide +kernel

/-- Port B's waiting access. -/
def waitingRead : State :=
  let s := (linked .a .b).setWaiting .b (some ⟨1, ⟨0, 1⟩, .read⟩)
  s.setPar .b { s.parUnit .b with cycleState := .waiting, stallTimer := 4 }

theorem witness_StallTimeoutEndsTheWaitingAccess :
    let s := waitingRead.setPar .b { waitingRead.parUnit .b with stallTimer := 0 }
    s.deviceReset = false ∧ s.dueExpiry = none ∧ (s.parUnit .b).cycleState = .waiting ∧ (s.parUnit .b).stallTimer = 0 ∧
      s.waitingAt .b = some ⟨1, ⟨0, 1⟩, .read⟩ := by decide +kernel

/-- The two ends of the control page, the address below it, and a window's two ends. -/
theorem witness_ParallelCycleStartByItsAddress :
    let s := linked .a .b
    s.calm ∧ (s.parUnit .a).takesCycle = true ∧ decodeAddress (s.port .a) 0xF00 = .control 0 ∧
      decodeAddress (s.port .a) 0xFFF = .control 0xFF ∧ decodeAddress (s.port .a) 0xEFF = .unmapped ∧
      decodeAddress (s.port .a) 0x100 = .unmapped ∧ decodeAddress (s.port .a) 0x000 = .window 0 0 ∧
      decodeAddress (s.port .a) 0x0FF = .window 0 0xFF ∧ s.withdrawalPending .a = false ∧
      (withdrawing .a false s).withdrawalPending .a = true ∧ (withdrawing .a false s).calm := by decide +kernel

/-- The same statement's ready, in every cycle state. -/
theorem witness_ParallelCycleStartByItsAddress_ready :
    [CycleState.idle, .control, .requested, .waiting, .answered].map
      (fun c => ({ ParallelUnit.cleared with cycleState := c } : ParallelUnit).ready) = [false, true, false, false, true] := by decide

theorem witness_DecodeTakesTheLowestContainingWindow :
    let x := fun w : Fin 8 => tableGet exampleWindows.windows w
    (0x150 : BitVec 12).toNat < 0xF00 ∧ (x 0).enabled = true ∧ (x 0).sizeExp.toNat ≤ 11 ∧
      0x150 / 2 ^ (x 0).sizeExp.toNat = (x 0).base.toNat / 2 ^ (x 0).sizeExp.toNat ∧
      (x 4).enabled = true ∧ (x 4).sizeExp.toNat = 11 ∧ 0xEFF / 2 ^ 11 = (x 4).base.toNat / 2 ^ 11 ∧
      (∀ v : Fin 8, v < 4 → ¬((x v).enabled = true ∧ (x v).sizeExp.toNat ≤ 11 ∧
        0xEFF / 2 ^ (x v).sizeExp.toNat = (x v).base.toNat / 2 ^ (x v).sizeExp.toNat)) ∧
      ∀ v : Fin 8, (tableGet PortUnit.cleared.windows v).enabled = false := by decide +kernel

/-- A parallel port's unit in a cycle state. -/
def inCycle (p : ParPort) (c : CycleState) (s : State) : State :=
  s.setPar p { s.parUnit p with cycleState := c, cycle := some ⟨1, .read, 0⟩, stallTimer := 4 }

theorem witness_StrobeReleaseEndsTheCycle :
    (∀ c : CycleState, c = .idle ∨ c = .control ∨ c = .answered ∨ c = .requested →
      (inCycle .b c State.reset).calm ∧ ((inCycle .b c State.reset).parUnit .b).cycleState = c ∧
        ((inCycle .b c State.reset).parUnit .b).cycle = some ⟨1, .read, 0⟩) ∧
      waitingRead.calm ∧ (waitingRead.parUnit .b).cycleState = .waiting ∧
      waitingRead.waitingAt .b = some ⟨1, ⟨0, 1⟩, .read⟩ := by
  refine ⟨fun c h => ?_, by decide +kernel⟩
  cases c <;> decide +kernel

theorem witness_PortResetRaisesAWithdrawal :
    waitingRead.calm ∧ (waitingRead.parUnit .b).resetHeld = false := by decide +kernel

/-- The same statement's joined case: a withdrawal pending, as a command and not, and a cycle answered since. -/
theorem witness_PortResetRaisesAWithdrawal_joined (asCommand : Bool) :
    let s := withdrawing .b asCommand (inCycle .b .answered State.reset)
    s.calm ∧ (s.parUnit .b).resetHeld = false ∧ s.withdrawalPending .b = true ∧ (s.parUnit .b).cycleState = .answered := by
  cases asCommand <;> decide +kernel

theorem witness_SerialFrameOpens :
    let s := State.reset
    let h := opening .c .header true
    let a := opening .c .address true
    (s.calm ∧ (s.serUnit .c).selectHeld = false ∧ (s.serUnit .c).phase = .idle ∧ (s.port .c).dataReq = none) ∧
      (a.calm ∧ (a.serUnit .c).selectHeld = true ∧ (a.serUnit .c).phase = .address ∧ (a.serUnit .c).withdrawn = false) ∧
      ((opening .c .address false).calm ∧ ((opening .c .address false).serUnit .c).selectHeld = false) ∧
      (h.calm ∧ (h.serUnit .c).selectHeld = true ∧ (h.serUnit .c).phase = .header ∧ (h.serUnit .c).withdrawn = false) ∧
      (withdrawing .c false h).calm ∧ (withdrawing .c false h).withdrawalPending .c = true ∧
      ((withdrawing .c false h).serUnit .c).selectHeld = true := by decide +kernel

/-- The same statement's last clause, at the least and the greatest header. -/
theorem witness_SerialFrameOpens_header :
    (0x0000 : Word).toNat = 8192 * (0 : Fin 8).val + 1024 * (0 : Fin 8).val + (0 : BitVec 10).toNat ∧
      (0xFFFF : Word).toNat = 8192 * (7 : Fin 8).val + 1024 * (7 : Fin 8).val + (1023 : BitVec 10).toNat ∧
      decodeHeader 0x0000 = (.statusOnly, 0, 0) ∧ decodeHeader 0xFFFF = (.withdraw, 7, 1023) := by decide

/-- The last word of the count, and the first beyond it. -/
theorem witness_SerialDataWordBegins :
    (∀ op : SerialOp,
      let s := inFrame .c op 1 1 State.reset
      s.calm ∧ (s.port .c).dataReq = none ∧ (s.serUnit .c).selectHeld = true ∧ (s.serUnit .c).phase = .data ∧
        (s.serUnit .c).withdrawn = false ∧ (s.serUnit .c).wordNow = .none ∧
        (s.serUnit .c).wordIndex < (s.serUnit .c).count ∧ (s.serUnit .c).op = some op ∧ (s.serUnit .c).inert = false ∧ s.withdrawalPending .c = false ∧
        ((s.setSer .c { s.serUnit .c with inert := true }).serUnit .c).inert = true) ∧
    let s := inFrame .c .streamRead 1 0 State.reset
    (s.calm ∧ (s.port .c).dataReq = none ∧ (s.serUnit .c).selectHeld = true ∧ (s.serUnit .c).phase = .data ∧
      (s.serUnit .c).wordNow = .none ∧ (s.serUnit .c).withdrawn = false ∧ (s.serUnit .c).count ≤ (s.serUnit .c).wordIndex) ∧
      (released .c s).calm ∧ ((released .c s).port .c).dataReq = none ∧ ((released .c s).serUnit .c).selectHeld = false := by
  refine ⟨fun op => ?_, by decide +kernel⟩
  cases op <;> decide +kernel

/-- A frame that a withdrawal has made inert, in a phase. -/
def withdrawnFrame (p : SerPort) (phase : FramePhase) : State :=
  (opening p phase true).setSer p { (opening p phase true).serUnit p with withdrawn := true }

/-- The same statement's withdrawn frames in each phase, and a stream read while a withdrawal is pending. -/
theorem witness_SerialDataWordBegins_withdrawn (phase : FramePhase) (h : phase ≠ .idle) :
    let s := withdrawnFrame .c phase
    (s.calm ∧ (s.serUnit .c).selectHeld = true ∧ (s.serUnit .c).phase ≠ .idle ∧ (s.serUnit .c).withdrawn = true ∧
        (s.port .c).dataReq = none) ∧
      let u := withdrawing .c false (inFrame .c .streamRead 1 1 State.reset)
      u.calm ∧ u.withdrawalPending .c = true ∧ (u.serUnit .c).inert = false ∧ (u.port .c).dataReq = none := by
  cases phase
  · exact absurd rfl h
  all_goals decide +kernel

/-- The same statement's grants before a word: one request of the port's own, one behind all the others of the rotation, and a frame's
start with a request left over. -/
theorem witness_SerialDataWordBegins_serve :
    let s := accessing .c 1 .read 0 (inFrame .c .streamRead 1 2 State.reset)
    let far := (accessing .d 1 .read 0 (commanded .a 1 Args.zero s)).setArb (.data .c)
    (s.calm ∧ (serve .c s).calm ∧ ((serve .c s).port .c).dataReq = none ∧ (serve .c s).arb = .data .c) ∧
      (far.calm ∧ far.nextGrant = some (.data .d) ∧ (serve .c far).calm ∧ ((serve .c far).port .c).dataReq = none ∧
        ((serve .c far).port .d).dataReq = none ∧ ((serve .c far).port .a).cmd.state = .done) ∧
      ((released .c s).serUnit .c).selectHeld = false ∧ (released .c s).calm ∧ (serve .c (released .c s)).calm ∧
      ((serve .c (released .c s)).serUnit .c).selectHeld = false ∧ ((serve .c (released .c s)).port .c).dataReq = none := by decide +kernel

/-- A frame whose first word is being shifted. -/
def midWord (op : SerialOp) : State :=
  let s := inFrame .d op 1 1 State.reset
  s.setSer .d { s.serUnit .d with wordIndex := 1, wordNow := .data }

theorem witness_SerialDataWordEnds (op : SerialOp) :
    ((released .d (midWord op)).calm ∧ ((released .d (midWord op)).port .d).dataReq = none ∧
      ((released .d (midWord op)).serUnit .d).selectHeld = false) ∧
      (midWord op).calm ∧ ((midWord op).port .d).dataReq = none ∧ ((midWord op).serUnit .d).selectHeld = true ∧
      ((midWord op).serUnit .d).phase = .data ∧
      ((midWord op).serUnit .d).withdrawn = false ∧ ((midWord op).serUnit .d).wordNow ≠ .none ∧
      ((midWord op).serUnit .d).op = some op ∧ ((midWord op).serUnit .d).inert = false ∧
      (midWord op).withdrawalPending .d = false := by
  cases op <;> decide +kernel

/-- The same statement's ignored words: beyond the count, before a header is whole, in a withdrawn frame; and a withdrawal pending. -/
theorem witness_SerialDataWordEnds_ignored :
    let beyond := inFrame .d .streamWrite 1 0 State.reset
    let early := opening .d .header true
    (∀ s ∈ [beyond, early, withdrawnFrame .d .data], s.calm ∧ (s.port .d).dataReq = none) ∧
      ((beyond.serUnit .d).wordNow = .none ∧ (early.serUnit .d).phase ≠ .data ∧ ((withdrawnFrame .d .data).serUnit .d).withdrawn = true) ∧
      let u := withdrawing .d true (midWord .pageWrite)
      u.calm ∧ u.withdrawalPending .d = true ∧ (u.serUnit .d).inert = false ∧ (u.port .d).dataReq = none := by decide +kernel

theorem witness_SerialFrameEndFormsTheStatusWord :
    let s := midWord .streamRead
    let h := opening .d .header true
    let a := opening .d .address true
    s.calm ∧ (s.port .d).dataReq = none ∧ (s.serUnit .d).phase = .data ∧
      a.calm ∧ (a.port .d).dataReq = none ∧ (a.serUnit .d).phase = .address ∧
      h.calm ∧ (h.port .d).dataReq = none ∧ (h.serUnit .d).phase = .header ∧ (h.serUnit .d).withdrawn = false ∧
      (h.serUnit .d).wordNow = .none ∧ (s.setDataReq .d (some .check)).calm ∧
      ((s.setDataReq .d (some .check)).port .d).dataReq ≠ none := by decide +kernel

/-- The same statement's end of a frame withdrawn in its HEADER phase, and select released with no frame. -/
theorem witness_SerialFrameEndFormsTheStatusWord_withdrawn :
    let h := withdrawnFrame .d .header
    (h.calm ∧ (h.port .d).dataReq = none ∧ (h.serUnit .d).phase = .header ∧ (h.serUnit .d).withdrawn = true) ∧
      State.reset.calm ∧ (State.reset.serUnit .d).phase = .idle := by decide +kernel

/-- A STREAM_READ header's check on window 1 of port C, against a window and a holder and role of record 1. -/
def checkingWindow (x : Window) (holder : Port) (role : Role) : State :=
  let s := linked .a .c
  let s1 := withWindow .c 1 x (s.setAtt 1 { s.att 1 with holder := .port holder, role := role })
  (inFrame .c .streamRead 1 1 s1).setDataReq .c (some .check)

/-- The hypotheses that all the clauses share. -/
abbrev checkStands (s : State) : Prop :=
  s.calm ∧ s.nextGrant = some (.data .c) ∧ (s.port .c).dataReq = some .check ∧ (s.serUnit .c).op = some .streamRead ∧
    opKind .streamRead = some (.stream, .read) ∧ (s.serUnit .c).phase = .data ∧ (s.serUnit .c).window = 1

theorem witness_SerialWindowCheckInItsOrder :
    let off := checkingWindow Window.cleared .c (.reader 1)
    let page := checkingWindow ⟨true, 0, 8, .page, 1, .wait⟩ .c (.reader 1)
    let stale := checkingWindow (streamWindow 0xFFFF) .c (.reader 1)
    let other := checkingWindow (streamWindow 1) .b (.reader 1)
    let writer := checkingWindow (streamWindow 1) .c .producer
    let good := checkingWindow (streamWindow 1) .c (.reader 1)
    (checkStands off ∧ (off.window .c 1).enabled = false) ∧ (checkStands page ∧ (page.window .c 1).kind ≠ .stream) ∧
      (checkStands stale ∧ (stale.window .c 1).enabled = true ∧ (stale.window .c 1).kind = .stream ∧
        stale.currentIndex (stale.window .c 1).handleWord = none) ∧
      (checkStands other ∧ other.currentIndex (other.window .c 1).handleWord = some 1 ∧ (other.att 1).holder ≠ .port .c) ∧
      (checkStands writer ∧ (writer.att 1).holder = .port .c ∧ roleSuits (writer.att 1).role .stream .read = false) ∧
      checkStands good ∧ good.currentIndex (good.window .c 1).handleWord = some 1 ∧ (good.att 1).holder = .port .c ∧
      roleSuits (good.att 1).role .stream .read = true ∧ (good.serUnit .c).selectHeld = true ∧ checkStands (released .c good) ∧
      ((released .c good).serUnit .c).selectHeld = false := by
  refine ⟨by decide +kernel, by decide +kernel, by decide +kernel, by decide +kernel, by decide +kernel, by decide +kernel⟩

/-- Port B's pop through window 1, the reader at a fill, the ring in a state, the window under a policy. -/
def popping (p : Port) (fill : Nat) (st : RingState) (policy : WaitPolicy) : State :=
  let s := filled fill (linked .a p)
  accessing p 1 .read 0 (withWindow p 1 ⟨true, 0, 8, .stream, 1, policy⟩ (s.setRing 0 { s.ring 0 with state := st }))

theorem witness_ParallelPopByItsAnswer :
    let data := popping .b 1 .opened .wait
    let ended := popping .b 0 .sealed .wait
    let waits := popping .b 0 .opened .wait
    let under := popping .b 0 .opened .nowait
    (data.accessGranted .b 1 .read 0 ∧ data.bound .b 1 .stream 1 ∧ (data.att 1).role = .reader 1 ∧ data.judgePop 1 = .data 33) ∧
      (ended.accessGranted .b 1 .read 0 ∧ ended.bound .b 1 .stream 1 ∧ ended.judgePop 1 = .ended) ∧
      (waits.accessGranted .b 1 .read 0 ∧ waits.bound .b 1 .stream 1 ∧ waits.judgePop 1 = .empty ∧
        (waits.window .b 1).waitPolicy = .wait) ∧
      under.accessGranted .b 1 .read 0 ∧ under.bound .b 1 .stream 1 ∧ under.judgePop 1 = .empty ∧
      (under.window .b 1).waitPolicy = .nowait := by decide +kernel

/-- A push of 44 by port `p` through window 0, the HOLD reader at a fill, the ring of a mode and write position. -/
def pushing (p : Port) (fill : Nat) (mode : RingMode) (pos : Nat) (policy : WaitPolicy) : State :=
  let s := linked p .b
  let s1 := (s.setAtt 1 { s.att 1 with fill := fill }).setRing 0 { s.ring 0 with mode := mode, writePos := pos }
  accessing p 0 (.write 44) 0 (withWindow p 0 ⟨true, 0, 8, .stream, 0, policy⟩ s1)

/-- The reader one word short of C and at C; the write position one short of C and at C. -/
theorem witness_ParallelPushByItsAnswer :
    let stored := pushing .a 255 .circular 255 .wait
    let last := pushing .a 255 .onePass 255 .wait
    let full := pushing .a 0 .onePass 256 .wait
    let waits := pushing .a 256 .circular 0 .wait
    let refused := pushing .a 256 .circular 0 .nowait
    (stored.accessGranted .a 0 (.write 44) 0 ∧ stored.bound .a 0 .stream 0 ∧ (stored.att 0).role = .producer ∧
        stored.judgePush 0 = .stored) ∧
      (last.accessGranted .a 0 (.write 44) 0 ∧ last.bound .a 0 .stream 0 ∧ last.judgePush 0 = .stored) ∧
      (full.accessGranted .a 0 (.write 44) 0 ∧ full.bound .a 0 .stream 0 ∧ full.judgePush 0 = .exhausted) ∧
      (waits.accessGranted .a 0 (.write 44) 0 ∧ waits.judgePush 0 = .blocked ∧ (waits.window .a 0).waitPolicy = .wait) ∧
      refused.accessGranted .a 0 (.write 44) 0 ∧ refused.bound .a 0 .stream 0 ∧ refused.judgePush 0 = .blocked ∧
      (refused.window .a 0).waitPolicy = .nowait := by decide +kernel

/-- The same statement's judgement: a LOSSY reader at C does not hold the push, a HOLD reader whose fill and the reservation make C does,
and on a ONE_PASS ring no reader does. -/
theorem witness_ParallelPushByItsAnswer_judgement :
    let s := pushing .a 255 .circular 255 .wait
    let reserved := s.setRing 0 { s.ring 0 with reserved := 1 }
    let lossy := reserved.setAtt 1 { reserved.att 1 with policy := .lossy }
    reserved.judgePush 0 = .blocked ∧ (reserved.att 1).fill + (reserved.ring 0).reserved = (reserved.ring 0).capacity ∧
      lossy.judgePush 0 = .stored ∧ (pushing .a 256 .onePass 255 .wait).judgePush 0 = .stored := by decide +kernel

/-- A page access by the producer's port through window 0. -/
def paging (p : Port) (acc : BusAccess) (offset : Nat) : State :=
  accessing p 0 acc offset (withWindow p 0 ⟨true, 0, 11, .page, 0, .wait⟩ (linked p .b))

/-- The last offset below C and the first at it. -/
theorem witness_ParallelPageAccessByItsOffset :
    ((paging .a .read 255).accessGranted .a 0 .read 255 ∧ (paging .a .read 255).bound .a 0 .page 0 ∧
        255 < ((paging .a .read 255).ring 0).capacity) ∧
      ((paging .a .read 256).accessGranted .a 0 .read 256 ∧ ((paging .a .read 256).ring 0).capacity ≤ 256) ∧
      ((paging .a (.write 9) 255).accessGranted .a 0 (.write 9) 255 ∧ (paging .a (.write 9) 255).bound .a 0 .page 0 ∧
        ((paging .a (.write 9) 255).att 0).role = .producer) ∧
      (paging .a (.write 9) 256).accessGranted .a 0 (.write 9) 256 ∧ (paging .a (.write 9) 256).bound .a 0 .page 0 := by
  decide +kernel

theorem witness_SerialWordAccessByItsAnswer :
    let framed (op : SerialOp) (w : Fin 8) (s : State) : State := inFrame .c op w 2 s
    let data := framed .streamRead 1 (popping .c 1 .opened .wait)
    let empty := framed .streamRead 1 (popping .c 0 .opened .wait)
    let ended := framed .streamRead 1 (popping .c 0 .sealed .wait)
    let stored := framed .streamWrite 0 (pushing .c 0 .circular 0 .wait)
    let full := framed .streamWrite 0 (pushing .c 256 .circular 0 .wait)
    let spent := framed .streamWrite 0 (pushing .c 0 .onePass 256 .wait)
    let pageR := framed .pageRead 0 (paging .c .read 255)
    let pageW := framed .pageWrite 0 (paging .c (.write 9) 255)
    (data.accessGranted .c 1 .read 0 ∧ data.bound .c 1 .stream 1 ∧ (data.serUnit .c).op = some .streamRead ∧
        (data.att 1).role = .reader 1 ∧ data.judgePop 1 = .data 33 ∧ (data.serUnit .c).selectHeld = true ∧
        (data.serUnit .c).condition = .ok) ∧
      (empty.accessGranted .c 1 .read 0 ∧ empty.judgePop 1 = .empty) ∧ (ended.accessGranted .c 1 .read 0 ∧ ended.judgePop 1 = .ended) ∧
      (stored.accessGranted .c 0 (.write 44) 0 ∧ stored.bound .c 0 .stream 0 ∧ (stored.serUnit .c).op = some .streamWrite ∧
        (stored.att 0).role = .producer ∧ stored.judgePush 0 = .stored) ∧
      (full.accessGranted .c 0 (.write 44) 0 ∧ full.judgePush 0 = .blocked) ∧
      (spent.accessGranted .c 0 (.write 44) 0 ∧ spent.judgePush 0 = .exhausted) ∧
      (pageR.accessGranted .c 0 .read 255 ∧ pageR.bound .c 0 .page 0 ∧ (pageR.serUnit .c).op = some .pageRead ∧
        255 < (pageR.ring 0).capacity) ∧
      pageW.accessGranted .c 0 (.write 9) 255 ∧ pageW.bound .c 0 .page 0 ∧ (pageW.serUnit .c).op = some .pageWrite ∧
      (pageW.att 0).role = .producer := by
  refine ⟨by decide +kernel, by decide +kernel, by decide +kernel, by decide +kernel, by decide +kernel, by decide +kernel,
    by decide +kernel, by decide +kernel⟩

/-- The same statement after select was released, and its faults: each reason with a pop, but OUT_OF_RING at the offset C with both page
accesses. -/
theorem witness_SerialWordAccessByItsAnswer_faults :
    let s := popping .c 1 .opened .wait
    let pop (x : Window) (holder : Port) (role : Role) : State :=
      inFrame .c .streamRead 1 2 (withWindow .c 1 x (s.setAtt 1 { s.att 1 with holder := .port holder, role := role }))
    let off := pop Window.cleared .c (.reader 1)
    let stale := pop (streamWindow 0xFFFF) .c (.reader 1)
    let other := pop (streamWindow 1) .b (.reader 1)
    let writer := pop (streamWindow 1) .c .producer
    let pageR := inFrame .c .pageRead 0 2 (paging .c .read 256)
    let pageW := inFrame .c .pageWrite 0 2 (paging .c (.write 9) 256)
    let good := released .c (pop (streamWindow 1) .c (.reader 1))
    (off.accessGranted .c 1 .read 0 ∧ (off.window .c 1).enabled = false) ∧
      (stale.accessGranted .c 1 .read 0 ∧ (stale.window .c 1).enabled = true ∧
        stale.currentIndex (stale.window .c 1).handleWord = none) ∧
      (other.accessGranted .c 1 .read 0 ∧ other.currentIndex (other.window .c 1).handleWord = some 1 ∧
        (other.att 1).holder ≠ .port .c) ∧
      (writer.accessGranted .c 1 .read 0 ∧ writer.currentIndex (writer.window .c 1).handleWord = some 1 ∧
        (writer.att 1).holder = .port .c ∧ roleSuits (writer.att 1).role .stream .read = false) ∧
      (pageR.accessGranted .c 0 .read 256 ∧ pageR.currentIndex (pageR.window .c 0).handleWord = some 0 ∧
        (pageR.att 0).holder = .port .c ∧ roleSuits (pageR.att 0).role .page .read = true ∧
        (pageR.ring (pageR.att 0).ring).capacity = 256) ∧
      (pageW.accessGranted .c 0 (.write 9) 256 ∧ (pageW.serUnit .c).op = some .pageWrite ∧
        roleSuits (pageW.att 0).role .page (.write 9) = true ∧ (pageW.ring (pageW.att 0).ring).capacity = 256) ∧
      good.accessGranted .c 1 .read 0 ∧ good.bound .c 1 .stream 1 ∧ (good.serUnit .c).phase = .data ∧
      (good.serUnit .c).selectHeld = false ∧ good.judgePop 1 = .data 33 := by
  refine ⟨by decide +kernel, by decide +kernel, by decide +kernel, by decide +kernel, by decide +kernel, by decide +kernel,
    by decide +kernel⟩

/-- One failing pop for each reason, and a failing push, page read and page write. -/
theorem witness_ParallelWindowFaultReachesNoRing :
    let pop (x : Window) (holder : Port) : State :=
      let s := linked .a .b
      accessing .b 1 .read 0 (withWindow .b 1 x (s.setAtt 1 { s.att 1 with holder := .port holder }))
    let off := pop Window.cleared .b
    let stale := pop (streamWindow 0x21) .b
    let other := pop (streamWindow 1) .a
    let role := accessing .b 1 (.write 5) 0 (linked .a .b)
    let pageR := accessing .b 1 .read 0 (withWindow .b 1 ⟨true, 0, 8, .page, 0xFFFF, .wait⟩ (linked .a .b))
    let pageW := accessing .b 1 (.write 5) 0 (withWindow .b 1 ⟨true, 0, 8, .page, 1, .wait⟩ (linked .a .b))
    (off.accessGranted .b 1 .read 0 ∧ (off.window .b 1).kind = .stream ∧ (off.window .b 1).enabled = false) ∧
      (stale.accessGranted .b 1 .read 0 ∧ (stale.window .b 1).enabled = true ∧
        stale.currentIndex (stale.window .b 1).handleWord = none) ∧
      (other.accessGranted .b 1 .read 0 ∧ other.currentIndex (other.window .b 1).handleWord = some 1 ∧
        (other.att 1).holder ≠ .port .b) ∧
      (role.accessGranted .b 1 (.write 5) 0 ∧ role.currentIndex (role.window .b 1).handleWord = some 1 ∧
        (role.att 1).holder = .port .b ∧ roleSuits (role.att 1).role .stream (.write 5) = false) ∧
      (pageR.accessGranted .b 1 .read 0 ∧ (pageR.window .b 1).kind = .page ∧
        pageR.currentIndex (pageR.window .b 1).handleWord = none) ∧
      pageW.accessGranted .b 1 (.write 5) 0 ∧ (pageW.window .b 1).kind = .page ∧
      roleSuits (pageW.att 1).role .page (.write 5) = false := by decide +kernel

/-- The same statement's handle words: the greatest word that names an attachment, the word above it, another generation, and a record
that is not in use. -/
theorem witness_ParallelWindowFaultReachesNoRing_words :
    let s := State.reset.setAtt 31 { Attachment.freed 7 with inUse := true }
    s.currentIndex 0x00FF = some 31 ∧ (0x00FF : Word).toNat = 32 * (s.att 31).gen.val + 31 ∧ 255 < (0x0100 : Word).toNat ∧
      s.currentIndex 0x0100 = none ∧ s.currentIndex 0x00DF = none ∧ State.reset.currentIndex 0 = none := by decide +kernel

theorem witness_WaitingAccessIsAnsweredWhenSatisfiable :
    let s := filled 1 waitingRead
    let t := (linked .a .b).setWaiting .a (some ⟨0, ⟨0, 0⟩, .write 44⟩)
    (s.calm ∧ s.waitingAt .b = some ⟨1, ⟨0, 1⟩, .read⟩ ∧ s.current ⟨0, 1⟩ = true ∧ s.judgePop 1 = .data 33) ∧
      t.calm ∧ t.waitingAt .a = some ⟨0, ⟨0, 0⟩, .write 44⟩ ∧ t.current ⟨0, 0⟩ = true ∧ t.judgePush 0 = .stored := by decide +kernel

/-- The same statement's examination: no access; one on another ring, of a stale handle, of an attachment due to expire; a pop with a
word, at the end and with none; a push that is stored, held up and past the end of the pass. -/
theorem witness_WaitingAccessIsAnsweredWhenSatisfiable_examination :
    let s := waitingRead
    let lapsed := (filled 1 s).setAtt 1 { (filled 1 s).att 1 with leaseRemaining := 0 }
    let writer (t : State) : State := t.setWaiting .a (some ⟨0, ⟨0, 0⟩, .write 44⟩)
    let judged (t : State) (p : ParPort) (i : Fin 32) : Prop :=
      t.current ⟨0, i⟩ = true ∧ (t.att i).ring = 0 ∧ (∃ x, t.waitingAt p = some x ∧ x.handle = ⟨0, i⟩) ∧
        (t.att i).leaseRemaining = 3
    s.waitingAt .a = none ∧ (s.att 1).ring ≠ 1 ∧ (s.setAtt 1 (Attachment.freed 1)).current ⟨0, 1⟩ = false ∧
      ((lapsed.att 1).inUse = true ∧ 0 < (lapsed.att 1).leasePeriod ∧ (lapsed.att 1).leaseRemaining = 0 ∧
        lapsed.judgePop 1 = .data 33) ∧
      (judged (filled 1 s) .b 1 ∧ (filled 1 s).judgePop 1 = .data 33) ∧
      (judged (s.setRing 0 { ringZero with state := .sealed }) .b 1 ∧
        (s.setRing 0 { ringZero with state := .sealed }).judgePop 1 = .ended) ∧
      (judged s .b 1 ∧ s.judgePop 1 = .empty) ∧
      (judged (writer s) .a 0 ∧ (writer s).judgePush 0 = .stored) ∧
      (judged (writer (pushing .a 256 .circular 0 .wait)) .a 0 ∧
        (writer (pushing .a 256 .circular 0 .wait)).judgePush 0 = .blocked) ∧
      judged (writer (pushing .a 0 .onePass 256 .wait)) .a 0 ∧
      (writer (pushing .a 0 .onePass 256 .wait)).judgePush 0 = .exhausted := by
  refine ⟨by decide +kernel, by decide +kernel, by decide +kernel, by decide +kernel, ?_, ?_, ?_, ?_, ?_, ?_⟩
  all_goals exact ⟨⟨by decide +kernel, by decide +kernel, ⟨_, rfl, rfl⟩, by decide +kernel⟩, by decide +kernel⟩

/-- The reader in record 1 with a block exponent of 3. -/
def blockReader (fill progress : Nat) (s : State) : State :=
  s.setAtt 1 { s.att 1 with order := .reversedBlock, blockExp := 3, fill := fill, progress := progress }

/-- One word; a whole block; the middle of a block; one word short of a block; nothing. -/
theorem witness_PopMovesOnlyItsReader :
    let s := linked .a .b
    let order (t : State) := (t.att 1).order
    (order (filled 1 s) = .natural ∧ 0 < ((filled 1 s).att 1).fill) ∧
      (order (blockReader 8 0 s) = .reversedBlock ∧ 2 ^ ((blockReader 8 0 s).att 1).blockExp ≤ ((blockReader 8 0 s).att 1).fill) ∧
      (order (blockReader 8 7 s) = .reversedBlock ∧ 0 < ((blockReader 8 7 s).att 1).progress) ∧
      (order s = .natural ∧ (s.att 1).fill = 0 ∧ (s.ring 0).state ≠ .sealed) ∧
      (order (blockReader 7 0 s) = .reversedBlock ∧ ((blockReader 7 0 s).att 1).progress = 0 ∧
        ((blockReader 7 0 s).att 1).fill < 2 ^ ((blockReader 7 0 s).att 1).blockExp) ∧
      ((s.setRing 0 { ringZero with state := .sealed }).ring ((s.setRing 0 { ringZero with state := .sealed }).att 1).ring).state
        = .sealed := by decide +kernel

/-- The same statement's records: a producer whose threshold the space reaches with the pop, and a ring without a producer. -/
theorem witness_PopMovesOnlyItsReader_records :
    let s := filled 1 (linked .a .b)
    let t := s.setAtt 0 { s.att 0 with threshold := 256 }
    ((t.ring (t.att 1).ring).producer = some ⟨0, 0⟩ ∧ (t.att 0).role = .producer ∧ t.space 0 < (t.att 0).threshold ∧
        (t.att 0).threshold ≤ (takePop 1 t).space 0 ∧ ((takePop 1 t).port .a).queue.map (·.kind) = [.spaceReady]) ∧
      ((s.setRing 0 { s.ring 0 with producer := none }).ring 0).producer = none := by decide +kernel

/-- The same statement's retry notice: entry 2, WAITING, holds the producer of ring 1, whose one HOLD reader is at C; the pop makes room
and the entry is ARMED. -/
theorem witness_PopMovesOnlyItsReader_moves :
    let s := moving .waiting
    let t := (s.setAtt 3 { Attachment.freed 0 with
        inUse := true, role := .reader 1, holder := .port .b, ring := 1, fill := 256 }).setRing 1
      { s.ring 1 with slots := ⟨some ⟨0, 3⟩, none, none⟩ }
    (t.att 3).order = .natural ∧ (t.move 2).state = .waiting ∧ (t.ring 1).producer = some ⟨0, 2⟩ ∧ (t.att 2).holder = .entry 2 ∧
      t.space 1 = 0 ∧ (takePop 3 t).space 1 = 1 ∧ ((takePop 3 t).move 2).state = .armed ∧
      ((takePop 1 (linked .a .b)).move 2).state = .empty := by decide +kernel

theorem witness_StoredPushWritesOneWord : (filled 3 (linked .a .b)).mem.wf = true := by decide +kernel

/-- A reader that skips, one word short of C, at C with either policy and order. -/
theorem witness_PushBringsEachReaderUpToDate :
    let s := linked .a .b
    let reader (x : Attachment) : State := s.setAtt 1 x
    let full (policy : Policy) (order : Order) : State :=
      reader { s.att 1 with fill := 256, policy := policy, order := order, blockExp := 3 }
    ((1 : Fin 32) ∈ s.readers 0 ∧ (s.readers 0).Nodup ∧ (s.ring 0).producer = some ⟨0, 0⟩ ∧ (⟨0, 0⟩ : Handle).index ≠ 1) ∧
      (0 < ((reader { s.att 1 with skip := 1 }).att 1).skip) ∧
      (((reader { s.att 1 with fill := 255 }).att 1).skip = 0 ∧ ((reader { s.att 1 with fill := 255 }).att 1).fill < 256) ∧
      ∀ policy order, ((full policy order).att 1).skip = 0 ∧ (s.ring 0).capacity ≤ ((full policy order).att 1).fill ∧
        ((full policy order).att 1).policy = policy ∧ ((full policy order).att 1).order = order := by
  refine ⟨by decide +kernel, by decide +kernel, by decide +kernel, fun policy order => ?_⟩
  cases policy <;> cases order <;> decide +kernel

/-- The same statement's records: a reader whose fill reaches its threshold, and a LOSSY reader's first drop. -/
theorem witness_PushBringsEachReaderUpToDate_records :
    let s := linked .a .b
    let ready := s.setAtt 1 { s.att 1 with fill := 1, threshold := 2 }
    let drops := s.setAtt 1 { s.att 1 with fill := 256, policy := .lossy }
    (∀ t : State, t = ready ∨ t = drops → (t.readers 0).Nodup ∧ 0 < (t.ring 0).capacity ∧
        (∀ i ∈ t.readers 0, (t.att i).role ≠ .producer) ∧ (t.ring 0).producer = some ⟨0, 0⟩ ∧ (0 : Fin 32) ∉ t.readers 0 ∧
        (t.att 0).role = .producer) ∧
      ((storePush 0 false 5 ready).port .b).queue.map (·.kind) = [.dataReady] ∧
      ((storePush 0 false 5 drops).port .b).queue.map (·.kind) = [.lagged] := by
  refine ⟨?_, by decide +kernel, by decide +kernel⟩
  rintro t (rfl | rfl) <;> decide +kernel

/-- The same statement's retry notice: entry 2, WAITING, reads ring 0, and is ARMED by a word pushed there. -/
theorem witness_PushBringsEachReaderUpToDate_moves :
    let s := moving .waiting
    (s.readers 0).Nodup ∧ 0 < (s.ring 0).capacity ∧ (∀ i ∈ s.readers 0, (s.att i).role ≠ .producer) ∧
      (s.ring 0).producer = some ⟨0, 0⟩ ∧ (0 : Fin 32) ∉ s.readers 0 ∧ (s.att 0).role = .producer ∧ (s.att 1).holder = .entry 2 ∧
      (s.att 1).skip = 0 ∧ (s.att 1).fill < (s.ring 0).capacity ∧ ((storePush 0 false 5 s).move 2).state = .armed := by
  decide +kernel

theorem witness_ProducerSpaceIsFormed :
    ((linked .a .b).ring 0).mode = .circular ∧
      (((linked .a .b).setRing 0 { ringZero with mode := .onePass }).ring 0).mode = .onePass := by decide +kernel

/-- The same statement's rise of the space: no producer; from the space it has, and from one less; held by a port, and by an entry that
is WAITING. -/
theorem witness_ProducerSpaceIsFormed_rise :
    let s := linked .a .b
    let t := moving .waiting
    ((s.setRing 0 { ringZero with producer := none }).ring 0).producer = none ∧ (s.ring 0).producer = some ⟨0, 0⟩ ∧
      s.space 0 = 256 ∧ 255 < s.space 0 ∧ (s.att 0).holder = .port .a ∧ (t.ring 1).producer = some ⟨0, 2⟩ ∧ 255 < t.space 1 ∧
      (t.att 2).holder = .entry 2 ∧ (t.move 2).state = .waiting ∧ ((spaceChanged 1 255 t).move 2).state = .armed := by
  decide +kernel

theorem witness_ProducerDepartureSealsOrFrees :
    let s := linked .a .b
    let t := s.setRing 0 { ringZero with slots := ⟨none, none, none⟩ }
    (∀ e, (s.move e).state ≠ .armed ∧ (s.move e).state ≠ .waiting) ∧ (s.ring (s.att 0).ring).slots.occupied ≠ 0 ∧
      (s.waiting = ⟨none, none⟩ ∧ (s.readers 0).Nodup ∧ (0 : Fin 32) ∉ s.readers 0 ∧
        (∀ j ∈ s.readers 0, (s.att j).ring = (s.att 0).ring) ∧ (s.att 1).fill = 0 ∧ (s.att 1).endReported = false) ∧
      (∀ e, (t.move e).state ≠ .armed ∧ (t.move e).state ≠ .waiting) ∧ (t.ring (t.att 0).ring).slots.occupied = 0 ∧
      (t.ring (t.att 0).ring).state ≠ .free := by decide +kernel

theorem witness_ControlWordsReadAndWrite :
    (∀ p : Port, p = .a ∨ p = .d →
      State.reset.calm ∧ State.reset.controlOpen p = true ∧ (State.reset.port p).dataReq = none) ∧
      (1 ≤ (1023 : Word).toNat ∧ (1023 : Word).toNat ≤ 1023) ∧ 1023 < (1024 : Word).toNat := by
  refine ⟨fun p h => ?_, by decide⟩
  cases p <;> decide +kernel

/-- The same statement's other clauses: the ends of the ranges of offsets that take no write, the three states of the command unit, and
the event queue with and without a record. -/
theorem witness_ControlWordsReadAndWrite_words :
    let e : Event := ⟨.eventsLost, some 15, some ⟨7, 31⟩, 9, 0x3A10⟩
    let held := State.reset.setPort .b { PortUnit.cleared with queue := [e], cmd := { CommandUnit.cleared with state := .done } }
    (∀ n ∈ [0x00, 0x03, 0x08, 0x0B, 0x0D, 0x0F, 0x17, 0x1F, 0x40, 0xFF],
        n < 0x04 ∨ (0x08 ≤ n ∧ n < 0x0C) ∨ (0x0D ≤ n ∧ n < 0x10) ∨ (0x17 ≤ n ∧ n < 0x20) ∨ 0x40 ≤ n) ∧
      (State.reset.port .b).queue = [] ∧ (State.reset.port .b).cmd.state = .idle ∧
      ((commanded .b 1 Args.zero State.reset).port .b).cmd.state = .inFlight ∧ (held.port .b).cmd.state = .done ∧
      (held.port .b).queue = e :: [] ∧ held.controlWord .b 0x02 = 0x0102 ∧ held.controlWord .b 0x08 = 0x0F12 ∧
      held.controlWord .b 0x09 = 0x00FF ∧ held.controlWord .b 0x1C = 0 ∧ held.controlWord .b 0x43 = 0 := by decide +kernel

theorem witness_EventQueueOfferAndAcknowledge :
    let e : Event := ⟨.dataReady, none, none, 0, 0⟩
    let s := State.reset.setPort .a { PortUnit.cleared with queue := List.replicate 16 e, lostCount := 65535 }
    s.calm ∧ s.controlOpen .a = true ∧ (s.port .a).dataReq = none ∧ (s.port .a).queue = e :: List.replicate 15 e ∧
      (State.reset.port .a).queue = [] := by decide +kernel

/-- The same statement's subscriptions at the ends of the two mask words, and notify. -/
theorem witness_EventQueueOfferAndAcknowledge_subscribed :
    let low : PortUnit := { PortUnit.cleared with mask0 := 0x8002, mask1 := 0 }
    let high : PortUnit := { PortUnit.cleared with mask0 := 0, mask1 := 5 }
    ([EventKind.commandDone, .moveDone, .moveHalted, .eventsLost].map EventKind.code = [1, 15, 16, 18]) ∧
      [EventKind.commandDone, .moveDone, .moveHalted, .eventsLost].map low.subscribed = [true, true, false, false] ∧
      [EventKind.commandDone, .moveDone, .moveHalted, .eventsLost].map high.subscribed = [false, false, true, true] ∧
      low.notify = false ∧ ({ low with queue := [⟨.dataReady, none, none, 0, 0⟩] } : PortUnit).notify = true := by decide +kernel

theorem witness_SubmitIsAcceptedRefusedOrJoined :
    let s := State.reset
    let c := commanded .a 0x0001 Args.zero s
    let w := withdrawing .a false s
    s.calm ∧ (s.port .a).cmd.inFlight = .nothing ∧ (0x001E : Word) ≠ 0x001F ∧
      (c.calm ∧ c.controlOpen .a = true ∧ (c.port .a).dataReq = none ∧ (c.port .a).cmd.inFlight = .command 0x0001) ∧
      w.calm ∧ w.controlOpen .a = true ∧ (w.port .a).dataReq = none ∧ (w.port .a).cmd.inFlight = .withdrawal false := by
  decide +kernel

/-- The hypotheses of both statements on a withdrawal's grant. -/
theorem witness_WithdrawalResetsThePortsPrivateState (b : Bool) :
    (withdrawing .a b (linked .a .b)).calm ∧ (withdrawing .a b (linked .a .b)).nextGrant = some (.command .a) ∧
      ((withdrawing .a b (linked .a .b)).port .a).cmd.inFlight = .withdrawal b := by
  cases b <;> decide +kernel

theorem witness_WithdrawalLeavesThePortNoAttachment :
    let s := withdrawing .a true (linked .a .b)
    s.calm ∧ s.nextGrant = some (.command .a) ∧ s.withdrawalPending .a = true ∧ (s.att 0).holder = .port .a ∧
      ∃ t, exec (.withdrawal .a) s = .next t := by
  refine ⟨by decide +kernel, by decide +kernel, by decide +kernel, by decide +kernel, ⟨_, rfl⟩⟩

/-- The same statement's entries: one of the port that is RUNNING, and one in each other state. -/
theorem witness_WithdrawalLeavesThePortNoAttachment_entries (st : MoveState) :
    let s := withdrawing .a true (moving st)
    s.calm ∧ s.nextGrant = some (.command .a) ∧ s.withdrawalPending .a = true ∧ (s.move 2).owner = some .a ∧ (s.move 2).state = st ∧
      ∃ t, exec (.withdrawal .a) s = .next t := by
  refine ⟨?_, ?_, ?_, ?_, ?_, ⟨_, rfl⟩⟩ <;> cases st <;> decide +kernel

theorem witness_BadCommandIsAnswered :
    (commanded .a 0x0008 Args.zero State.reset).commandGranted .a 0x0008 ∧ (0x0008 : Word) ∉ commandCodes := by decide +kernel

/-- A producer of 128 pages, the largest run, and a reader of one page, the smallest, with the largest threshold and lease. -/
theorem witness_CreateRingMakesRingAndAttachment :
    let producer : Args := ⟨128, 0x0FF0, 0x0001, 32768, 16383, 0⟩
    let reader : Args := ⟨1, 0x0FF1, 0x008C, 0, 0, 0⟩
    let every : Four AccessRight := Four.all .readWrite
    ((commanded .a codeCreateRing producer State.reset).commandGranted .a codeCreateRing ∧
        decodeRingWord producer.w2 = some (.circular, every) ∧ decodeAttachWord producer.w3 = some .producer ∧
        producer.w1.toNat = 128 ∧ producer.w4.toNat = 32768 ∧ producer.w5.toNat = 16383 ∧ permits (every.get .a) .producer = true ∧
        (State.reset.ring 0).state = .free ∧ (State.reset.att 0).inUse = false ∧ (∀ r : Fin 16, ¬r < 0) ∧
        (∀ j : Fin 32, ¬j < 0) ∧ firstFit State.reset.pageMap 128 = some 0) ∧
      (commanded .a codeCreateRing reader State.reset).commandGranted .a codeCreateRing ∧
      decodeRingWord reader.w2 = some (.onePass, every) ∧
      decodeAttachWord reader.w3 = some (.reader .hold .reversedBlock 8 .fromOldest) ∧
      permits (every.get .a) (.reader .hold .reversedBlock 8 .fromOldest) = true ∧
      firstFit State.reset.pageMap 1 = some 0 := by decide +kernel

/-- Every attachment record is in use. -/
def crowded (s : State) : State := { s with atts := s.atts.map (fun x => { x with inUse := true }) }

/-- Every ring is open. -/
def allRings : State := { State.reset with rings := Vector.replicate 16 ringZero }

/-- The same statement's refusals: each operand one past its range, a right that does not permit the role; no ring, no record, no run of
pages for operands that are accepted. -/
theorem witness_CreateRingMakesRingAndAttachment_refusals :
    let ok : Args := ⟨1, 0x0FF0, 0x0001, 32768, 16383, 0⟩
    let on (x : Args) (s : State) : State := commanded .a codeCreateRing x s
    let taken : State := State.reset.setPageMap (markPages (some 0) 0 128 State.reset.pageMap)
    (∀ x ∈ [ok, { ok with w1 := 0 }, { ok with w1 := 129 }, { ok with w2 := 0x0FF4 }, { ok with w3 := 0x0004 },
          { ok with w3 := 0x0094 }, { ok with w4 := 32769 }, { ok with w5 := 16384 }, { ok with w2 := 0x0010 }],
        (on x State.reset).commandGranted .a codeCreateRing) ∧
      decodeRingWord 0x0FF4 = none ∧ decodeAttachWord 0x0004 = none ∧ decodeAttachWord 0x0094 = none ∧
      decodeRingWord 0x0010 = some (.circular, ⟨.read, .nothing, .nothing, .nothing⟩) ∧ permits .read .producer = false ∧
      (decodeRingWord ok.w2 = some (.circular, Four.all .readWrite) ∧ decodeAttachWord ok.w3 = some .producer ∧
        permits .readWrite .producer = true) ∧
      ((on ok allRings).commandGranted .a codeCreateRing ∧ ∀ r, ((on ok allRings).ring r).state ≠ .free) ∧
      ((on ok (crowded State.reset)).commandGranted .a codeCreateRing ∧ ((on ok (crowded State.reset)).ring 0).state = .free ∧
        ∀ i, ((on ok (crowded State.reset)).att i).inUse = true) ∧
      (on ok taken).commandGranted .a codeCreateRing ∧ firstFit (on ok taken).pageMap 1 = none := by decide +kernel

/-- The same statement's layouts, at the ends of b and of the ignored bits. -/
theorem witness_CreateRingMakesRingAndAttachment_layouts :
    (0xFFFF : Word).toNat = 1 + 2 * 32767 ∧ (0xFFFA : Word).toNat = 2 + 8 + 16 * 15 + 256 * 255 ∧
      (0x0014 : Word).toNat = 0 + 0 + 16 * 1 + 256 * 0 + 4 ∧ (0x0084 : Word).toNat = 0 + 0 + 16 * 8 + 256 * 0 + 4 ∧
      decodeAttachWord 0xFFFA = some (.reader .lossy .natural 0 .fromOldest) ∧
      decodeAttachWord 0x0014 = some (.reader .hold .reversedBlock 1 .fromNew) ∧
      decodeAttachWord 0x0084 = some (.reader .hold .reversedBlock 8 .fromNew) := by decide

theorem witness_AttachMakesAnAttachment :
    let s := linked .a .b
    let open' := s.setRing 0 { ringZero with producer := none, slots := ⟨some ⟨0, 1⟩, some ⟨0, 5⟩, none⟩ }
    let producer := commanded .c codeAttach ⟨0, 1, 32768, 16383, 0, 0⟩ open'
    let reader := commanded .c codeAttach ⟨0, 0x0008, 0, 0, 0, 0⟩ open'
    (producer.commandGranted .c codeAttach ∧ decodeAttachWord 1 = some .producer ∧ (producer.ring 0).state = .opened ∧
        (producer.ring 0).producer = none ∧ permits ((producer.ring 0).access.get .c) .producer = true ∧
        (producer.att 2).inUse = false ∧ ∀ j : Fin 32, j < 2 → (producer.att j).inUse = true) ∧
      reader.commandGranted .c codeAttach ∧ decodeAttachWord 0x0008 = some (.reader .hold .natural 0 .fromOldest) ∧
      permits ((reader.ring 0).access.get .c) (.reader .hold .natural 0 .fromOldest) = true ∧
      ((reader.ring 0).slots.one ≠ none ∧ (reader.ring 0).slots.two ≠ none ∧ (reader.ring 0).slots.three = none) ∧
      (reader.att 2).inUse = false ∧ ∀ j : Fin 32, j < 2 → (reader.att j).inUse = true := by decide +kernel

/-- The same statement's refusals, each with the checks before it passed. -/
theorem witness_AttachMakesAnAttachment_refusals :
    let on (w1 w2 w3 w4 : Word) (s : State) : State := commanded .c codeAttach ⟨w1, w2, w3, w4, 0, 0⟩ s
    let ring (g : Ring) : State := State.reset.setRing 15 g
    let bare : Ring := { ringZero with producer := none, slots := ⟨none, none, none⟩ }
    let full : Ring := { bare with slots := ⟨some ⟨0, 1⟩, some ⟨0, 2⟩, some ⟨0, 3⟩⟩ }
    (∀ s ∈ [on 0 0x0004 0 0 State.reset, on 0 1 32769 0 State.reset, on 0 1 0 16384 State.reset, on 16 1 32768 16383 State.reset,
          on 15 1 0 0 State.reset, on 15 1 0 0 (ring { bare with access := Four.all .read }),
          on 15 1 0 0 (ring { bare with state := .sealed }), on 15 1 0 0 (ring ringZero), on 15 0 0 0 (ring full),
          on 15 1 0 0 (crowded (ring bare)), on 15 0 0 0 (crowded (ring bare))], s.commandGranted .c codeAttach) ∧
      decodeAttachWord 0x0004 = none ∧ 15 < (16 : Word).toNat ∧ (15 : Word).toNat = (15 : Fin 16).val ∧
      decodeAttachWord 1 = some .producer ∧ decodeAttachWord 0 = some (.reader .hold .natural 0 .fromNew) ∧
      (State.reset.ring 15).state = .free ∧ permits .read .producer = false ∧ permits .readWrite .producer = true ∧
      permits .readWrite (.reader .hold .natural 0 .fromNew) = true ∧
      (((ring { bare with state := .sealed }).ring 15).state = .sealed ∧ ((ring ringZero).ring 15).producer ≠ none ∧
        (((ring full).ring 15).slots.one ≠ none ∧ ((ring full).ring 15).slots.two ≠ none ∧ ((ring full).ring 15).slots.three ≠ none)) ∧
      ((ring bare).ring 15).producer = none ∧ ((ring bare).ring 15).slots.one = none ∧
      ∀ i, ((crowded (ring bare)).att i).inUse = true := by decide +kernel

theorem witness_DetachReleasesTheAttachment :
    let s := linked .a .b
    let reader := commanded .b codeDetach ⟨1, 0, 0, 0, 0, 0⟩ s
    let leaves := commanded .a codeDetach ⟨0, 0, 0, 0, 0, 0⟩ s
    let seals := commanded .a codeDetach ⟨0, 1, 0, 0, 0, 0⟩ s
    (reader.commandGranted .b codeDetach ∧ reader.currentIndex 1 = some 1 ∧ (reader.att 1).holder = .port .b ∧
        (reader.att 1).role = .reader 1) ∧
      (leaves.commandGranted .a codeDetach ∧ leaves.currentIndex 0 = some 0 ∧ (leaves.att 0).holder = .port .a ∧
        (leaves.att 0).role = .producer ∧ flagOfWord 0 = some false) ∧
      seals.commandGranted .a codeDetach ∧ flagOfWord 1 = some true ∧ (seals.att 0).role = .producer := by decide +kernel

/-- The same statement's refusals, and a ring in use that nothing holds any more. -/
theorem witness_DetachReleasesTheAttachment_refusals :
    let on (w1 w2 : Word) : State := commanded .b codeDetach ⟨w1, w2, 0, 0, 0, 0⟩ (linked .a .b)
    let bare : Ring := { ringZero with producer := none, slots := ⟨none, none, none⟩ }
    ((on 1 2).commandGranted .b codeDetach ∧ 1 < (2 : Word).toNat) ∧
      ((on 0x21 1).commandGranted .b codeDetach ∧ (on 0x21 1).currentIndex 0x21 = none) ∧
      ((on 0 0).commandGranted .b codeDetach ∧ (on 0 0).currentIndex 0 = some 0 ∧ ((on 0 0).att 0).holder ≠ .port .b) ∧
      (((State.reset.setRing 0 bare).ring 0).state ≠ .free ∧ ((State.reset.setRing 0 bare).ring 0).producer = none ∧
        ((State.reset.setRing 0 bare).ring 0).slots.one = none ∧ ((State.reset.setRing 0 bare).ring 0).slots.two = none ∧
        ((State.reset.setRing 0 bare).ring 0).slots.three = none) := by decide +kernel

theorem witness_RenewLoadsTheLeases :
    let s := linked .a .b
    let one := commanded .b codeRenew ⟨0, 1, 0, 0, 0, 0⟩ s
    let all := commanded .b codeRenew ⟨1, 0, 0, 0, 0, 0⟩ s
    let flag2 := commanded .b codeRenew ⟨2, 0, 0, 0, 0, 0⟩ s
    let stale := commanded .b codeRenew ⟨0, 0x21, 0, 0, 0, 0⟩ s
    let other := commanded .b codeRenew ⟨0, 0, 0, 0, 0, 0⟩ s
    (one.commandGranted .b codeRenew ∧ one.currentIndex 1 = some 1 ∧ (one.att 1).holder = .port .b) ∧
      all.commandGranted .b codeRenew ∧ (flag2.commandGranted .b codeRenew ∧ 1 < (2 : Word).toNat) ∧
      (stale.commandGranted .b codeRenew ∧ stale.currentIndex 0x21 = none) ∧
      other.commandGranted .b codeRenew ∧ other.currentIndex 0 = some 0 ∧ (other.att 0).holder ≠ .port .b := by decide +kernel

/-- A threshold at the level and one above it. -/
theorem witness_SetThresholdComparesAtOnce :
    ∀ w : Word, w = 2 ∨ w = 32768 →
      let s := commanded .b codeSetThreshold ⟨1, w, 0, 0, 0, 0⟩ (filled 2 (linked .a .b))
      s.commandGranted .b codeSetThreshold ∧ w.toNat ≤ 32768 ∧ s.currentIndex 1 = some 1 ∧ (s.att 1).holder = .port .b := by
  rintro w (rfl | rfl) <;> decide +kernel

/-- The same statement's refusals. -/
theorem witness_SetThresholdComparesAtOnce_refusals :
    let on (w1 w2 : Word) : State := commanded .b codeSetThreshold ⟨w1, w2, 0, 0, 0, 0⟩ (linked .a .b)
    ((on 1 32769).commandGranted .b codeSetThreshold ∧ 32768 < (32769 : Word).toNat) ∧
      ((on 0x21 32768).commandGranted .b codeSetThreshold ∧ (on 0x21 32768).currentIndex 0x21 = none) ∧
      (on 0 0).commandGranted .b codeSetThreshold ∧ (on 0 0).currentIndex 0 = some 0 ∧ ((on 0 0).att 0).holder ≠ .port .b := by
  decide +kernel

theorem witness_QueriesReadTheRecords :
    let s := linked .a .b
    let ring := commanded .b codeQueryRing ⟨15, 0, 0, 0, 0, 0⟩ s
    let above := commanded .b codeQueryRing ⟨16, 0, 0, 0, 0, 0⟩ s
    let own := commanded .b codeQueryAttach ⟨1, 0, 0, 0, 0, 0⟩ s
    let other := commanded .b codeQueryAttach ⟨0, 0, 0, 0, 0, 0⟩ s
    let stale := commanded .b codeQueryAttach ⟨0xFFFF, 0, 0, 0, 0, 0⟩ s
    (ring.commandGranted .b codeQueryRing ∧ (15 : Word).toNat = (15 : Fin 16).val) ∧
      (above.commandGranted .b codeQueryRing ∧ 15 < (16 : Word).toNat) ∧
      (own.commandGranted .b codeQueryAttach ∧ own.currentIndex 1 = some 1 ∧ (own.att 1).holder = .port .b) ∧
      (other.commandGranted .b codeQueryAttach ∧ other.currentIndex 0 = some 0 ∧ (other.att 0).holder ≠ .port .b) ∧
      stale.commandGranted .b codeQueryAttach ∧ stale.currentIndex 0xFFFF = none := by decide +kernel

theorem witness_FailedCommandsChangeNothing : (runCommand .a 0x0008 Args.zero State.reset).code ≠ .ok := by decide +kernel

/-- The same statement's checks of the move commands: entry 16; an entry of another port; unload pending; an EMPTY entry. -/
theorem witness_FailedCommandsChangeNothing_entries (w : Word)
    (h : w = codeLoadMove ∨ w = codeStartMove ∨ w = codeFireMove ∨ w = codeStopMove ∨ w = codeUnloadMove) :
    let on (p : Port) (n : Word) (s : State) : State := commanded p w ⟨n, 0, 0, 0, 0, 0⟩ s
    let other := on .b 2 (moving .armed)
    let pending := on .a 2 ((moving .running).setMove 2 { (moving .running).move 2 with unloadPending := true })
    let empty := on .a 15 State.reset
    ((on .b 16 State.reset).commandGranted .b w ∧ 15 < (16 : Word).toNat) ∧
      (other.commandGranted .b w ∧ (other.move 2).state ≠ .empty ∧ (other.move 2).owner ≠ some .b) ∧
      (pending.commandGranted .a w ∧ (pending.move 2).state ≠ .empty ∧ (pending.move 2).owner = some .a ∧
        (pending.move 2).unloadPending = true) ∧
      empty.commandGranted .a w ∧ (empty.move 15).state = .empty := by
  rcases h with rfl | rfl | rfl | rfl | rfl <;>
    refine ⟨by decide +kernel, by decide +kernel, by decide +kernel, by decide +kernel⟩

/-- S = 256 with stride 256, the largest frame, and phase 255, into an entry whose two rings are open and unattached; and the last
reader slot with the last two records. -/
theorem witness_LoadMoveMakesTheEntry :
    let x : Args := ⟨15, 0, 1, 0xFFFF, 0x00FF, 0x53FF⟩
    let bare : Ring := { ringZero with producer := none, slots := ⟨none, none, none⟩ }
    let s := commanded .a codeLoadMove x ((State.reset.setRing 0 bare).setRing 1 { bare with firstPage := 1 })
    let two : Ring := { bare with slots := ⟨some ⟨0, 1⟩, some ⟨0, 2⟩, none⟩ }
    let full := crowded (s.setRing 0 two)
    let last := (full.setAtt 30 (Attachment.freed 0)).setAtt 31 (Attachment.freed 0)
    s.commandGranted .a codeLoadMove ∧ (s.move 15).state = .empty ∧
      decodeMoveOperands x.w4 x.w5 x.w6 = some ⟨256, 255, 256, 1, false, 1023, .sourceReady⟩ ∧
      x.w2.toNat = (0 : Fin 16).val ∧ x.w3.toNat = (1 : Fin 16).val ∧
      ((s.ring 0).state ≠ .free ∧ (s.ring 1).state = .opened ∧ (s.ring 0).access.get .a = .readWrite ∧
        (s.ring 1).access.get .a = .readWrite ∧ (s.ring 1).producer = none ∧ (s.ring 0).slots.one = none) ∧
      ((s.att 0).inUse = false ∧ (∀ k : Fin 32, ¬k < 0) ∧ (s.att 1).inUse = false ∧ ∀ k : Fin 32, k < 1 → k ≠ 0 → (s.att k).inUse = true) ∧
      last.commandGranted .a codeLoadMove ∧
      ((last.ring 0).slots.one ≠ none ∧ (last.ring 0).slots.two ≠ none ∧ (last.ring 0).slots.three = none) ∧
      ((last.att 30).inUse = false ∧ (∀ k : Fin 32, k < 30 → (last.att k).inUse = true) ∧ (last.att 31).inUse = false ∧
        ∀ k : Fin 32, k < 31 → k ≠ 30 → (last.att k).inUse = true) := by decide +kernel

/-- The same statement's refusals, each with the checks before it passed; one free record is not enough. -/
theorem witness_LoadMoveMakesTheEntry_refusals :
    let bare : Ring := { ringZero with producer := none, slots := ⟨none, none, none⟩ }
    let rings (src dst : Ring) : State := (State.reset.setRing 0 src).setRing 1 dst
    let on (src dst w4 : Word) (s : State) : State := commanded .a codeLoadMove ⟨2, src, dst, w4, 0, 0⟩ s
    let one : State := (crowded (rings bare bare)).setAtt 31 (Attachment.freed 0)
    (∀ s ∈ [on 0 1 0 (moving .halted), on 0 1 0x0100 (rings bare bare), on 0 0 0 (rings bare bare), on 16 1 0 (rings bare bare),
          on 0 16 0 (rings bare bare), on 0 1 0 State.reset, on 0 1 0 (rings { bare with access := Four.all .write } bare),
          on 0 1 0 (rings bare { bare with access := Four.all .read }), on 0 1 0 (rings bare { bare with state := .sealed }),
          on 0 1 0 (rings bare ringZero), on 0 1 0 (rings { bare with slots := ⟨some ⟨0, 1⟩, some ⟨0, 2⟩, some ⟨0, 3⟩⟩ } bare),
          on 0 1 0 one], s.commandGranted .a codeLoadMove) ∧
      (((moving .halted).move 2).state ≠ .empty ∧ ((moving .halted).move 2).owner = some .a ∧ (State.reset.move 2).state = .empty) ∧
      (decodeMoveOperands 0x0100 0 0 = none ∧ decodeMoveOperands 0 0 0 ≠ none ∧ 15 < (16 : Word).toNat ∧
        (State.reset.ring 0).state = .free) ∧
      ((one.ring 0).state ≠ .free ∧ (one.ring 1).state = .opened ∧ (one.ring 1).producer = none ∧ (one.ring 0).slots.one = none ∧
        ∀ i j : Fin 32, i < j → (one.att i).inUse = true ∨ (one.att j).inUse = true) := by decide +kernel

/-- The same statement's operand words, at the greatest of each field. -/
theorem witness_LoadMoveMakesTheEntry_operands :
    decodeMoveOperands 0xFFFF 0x7FFF 0x53FF = some ⟨256, 255, 256, 64, true, 1023, .sourceReady⟩ ∧
      (0xFFFF : Word).toNat = 256 - 1 + 256 * 255 ∧ (0x7FFF : Word).toNat = 256 - 1 + 256 * (64 - 1) + 16384 ∧
      (0x53FF : Word).toNat = 1023 + 4096 * 5 ∧ decodeMoveOperands 0 0x8000 0 = none ∧ decodeMoveOperands 0 0 0x0400 = none ∧
      decodeMoveOperands 0 0 0x6000 = none := by decide

theorem witness_StartMoveArmsTheEntry (st : MoveState) (h : st = .loaded ∨ st = .done ∨ st = .halted) :
    let s := commanded .a codeStartMove argsTwo (moving st)
    s.commandGranted .a codeStartMove ∧ argsTwo.w1.toNat = (2 : Fin 16).val ∧ (s.move 2).owner = some .a ∧
      (s.move 2).unloadPending = false ∧ (s.move 2).state = st ∧ (s.move 2).dest = some ⟨0, 2⟩ ∧ (s.move 2).source = some ⟨0, 1⟩ ∧
      ¬((s.ring (s.att 1).ring).state = .sealed ∧ (s.att 1).fill < (s.move 2).frameLen) := by
  rcases h with rfl | rfl | rfl <;> decide +kernel

/-- The same statement's ended branch, at a fill one short of S: with propagate end clear, and set with the destination ring freed and
sealed; and an entry that is answered ENTRY_BUSY for each of its grounds. -/
theorem witness_StartMoveArmsTheEntry_ended :
    let s := moving .loaded
    let s1 := (s.setRing 0 { s.ring 0 with state := .sealed }).setAtt 1 { s.att 1 with fill := 1 }
    let stays := commanded .a codeStartMove argsTwo s1
    let frees := stays.setMove 2 { s.move 2 with propagateEnd := true }
    let seals := frees.setRing 1 { s.ring 1 with slots := ⟨some ⟨0, 5⟩, none, none⟩ }
    (∀ t : State, t = stays ∨ t = frees ∨ t = seals →
        t.commandGranted .a codeStartMove ∧ (t.move 2).source = some ⟨0, 1⟩ ∧ (t.move 2).dest = some ⟨0, 2⟩ ∧
          (t.ring (t.att 1).ring).state = .sealed ∧ (t.att 1).fill + 1 = (t.move 2).frameLen ∧
          ∀ e : Fin 16, e ≠ 2 → (t.move e).state ≠ .armed ∧ (t.move e).state ≠ .waiting) ∧
      ((stays.move 2).propagateEnd = false ∧ (frees.move 2).propagateEnd = true ∧
        (frees.ring (frees.att 2).ring).slots.occupied = 0 ∧ (frees.ring (frees.att 2).ring).state ≠ .free ∧
        (seals.ring (seals.att 2).ring).slots.occupied ≠ 0) ∧
      ∀ st : MoveState, st = .armed ∨ st = .waiting ∨ st = .running →
        (commanded .a codeStartMove argsTwo (moving st)).commandGranted .a codeStartMove ∧
          ((commanded .a codeStartMove argsTwo (moving st)).move 2).owner = some .a ∧
          ((commanded .a codeStartMove argsTwo (moving st)).move 2).state = st := by
  refine ⟨?_, by decide +kernel, ?_⟩
  · rintro t (rfl | rfl | rfl) <;> decide +kernel
  · rintro st (rfl | rfl | rfl) <;> decide +kernel

/-- Pending runs 2 and 3; an entry that is not started. -/
theorem witness_FireMoveDeliversOneTrigger :
    let s := commanded .a codeFireMove argsTwo (moving .armed)
    let runs (n : Nat) : State := s.setMove 2 { s.move 2 with pendingRuns := n }
    let idle := commanded .a codeFireMove argsTwo (moving .loaded)
    ((runs 2).commandGranted .a codeFireMove ∧ ((runs 2).move 2).owner = some .a ∧ ((runs 2).move 2).unloadPending = false ∧
        ((runs 2).move 2).trigger = .software ∧ ((runs 2).move 2).state = .armed ∧ ((runs 2).move 2).pendingRuns < 3) ∧
      ((runs 3).commandGranted .a codeFireMove ∧ 3 ≤ ((runs 3).move 2).pendingRuns) ∧
      idle.commandGranted .a codeFireMove ∧ (idle.move 2).owner = some .a ∧ (idle.move 2).state ≠ .armed ∧
      (idle.move 2).state ≠ .waiting := by decide +kernel

theorem witness_StopMoveByTheEntrysState (st : MoveState) :
    let s := commanded .a codeStopMove argsTwo (moving st)
    s.commandGranted .a codeStopMove ∧ argsTwo.w1.toNat = (2 : Fin 16).val ∧ (s.move 2).unloadPending = false ∧
      (s.move 2).owner = some .a ∧ (s.move 2).state = st := by
  cases st <;> decide +kernel

theorem witness_UnloadMoveEmptiesTheEntry (st : MoveState) :
    let s := commanded .a codeUnloadMove argsTwo (moving st)
    s.commandGranted .a codeUnloadMove ∧ argsTwo.w1.toNat = (2 : Fin 16).val ∧ (s.move 2).unloadPending = false ∧
      (s.move 2).owner = some .a ∧ (s.move 2).state = st ∧ (s.move 2).source = some ⟨0, 1⟩ := by
  cases st <;> decide +kernel

/-- The ends of the pacer number and the period, and the first values that are refused. -/
theorem witness_SetPacerProgramsOnePacer :
    let s (x : Args) : State := commanded .b codeSetPacer x (State.reset.setPacer 3 ⟨true, 5, 3, false⟩)
    ((s ⟨0, 1, 1, 0, 0, 0⟩).commandGranted .b codeSetPacer ∧ ((s ⟨0, 1, 1, 0, 0, 0⟩).pacer 0).enabled = false) ∧
      ((s ⟨3, 65535, 1, 0, 0, 0⟩).commandGranted .b codeSetPacer ∧ ((s ⟨3, 65535, 1, 0, 0, 0⟩).pacer 3).enabled = true) ∧
      (s ⟨3, 65535, 0, 0, 0, 0⟩).commandGranted .b codeSetPacer ∧ (s ⟨4, 1, 1, 0, 0, 0⟩).commandGranted .b codeSetPacer ∧
      3 < (4 : Word).toNat ∧ (s ⟨0, 0, 1, 0, 0, 0⟩).commandGranted .b codeSetPacer ∧
      (s ⟨0, 1, 2, 0, 0, 0⟩).commandGranted .b codeSetPacer ∧ 1 < (2 : Word).toNat := by decide +kernel

/-- Entry 2 (S = 2, p = 0, k = 1, so D = 2; the cleared entries have D = 1) is examined third from the pointer; with its source too short
none is chosen. -/
theorem witness_StartCheckChoosesTheFirstThatCanStart :
    let short := checking.setAtt 1 { checking.att 1 with fill := 1 }
    let D (e : Fin 16) : Nat := if e = 2 then 2 else 1
    (checking.moveGranted .startCheck ∧ checking.frame = none ∧ checking.rotation + 1 + 2 = 2 ∧
        (checking.move 2).source = some ⟨0, 1⟩ ∧ (checking.move 2).dest = some ⟨0, 2⟩ ∧ (checking.move 2).pendingRuns = 1 ∧
        (checking.move 2).frameLen ≤ (checking.att 1).fill ∧ D 2 ≤ checking.space (checking.att 2).ring ∧
        ∀ k' : Fin 16, k' < 2 → (checking.move (checking.rotation + 1 + k')).state = .empty) ∧
      (short.moveGranted .startCheck ∧ short.frame = none ∧ ¬(short.move 2).frameLen ≤ (short.att 1).fill ∧
        ∀ e : Fin 16, e ≠ 2 → (short.move e).state = .empty) ∧
      (∀ e : Fin 16, (checking.move e).frameLen - (checking.move e).phase ≤ D e * (checking.move e).stride) ∧
      ∀ e : Fin 16, ∀ n : Nat, (checking.move e).frameLen - (checking.move e).phase ≤ n * (checking.move e).stride → D e ≤ n := by
  refine ⟨by decide +kernel, by decide +kernel, by decide +kernel, fun e n h => ?_⟩
  have hk : (checking.move e).stride = 1 := by clear h; revert e; decide +kernel
  have hs : (checking.move e).frameLen - (checking.move e).phase = if e = 2 then 2 else 1 := by clear h; revert e; decide +kernel
  rw [hk, hs] at h
  simpa using h

/-- A position that is pushed, one that is not (stride 2), and a held word. -/
theorem witness_MoveFrameRequestsInOrder :
    let s := framing none .framePop
    let odd := (s.setMove 2 { s.move 2 with stride := 2 }).setFrame (some ⟨2, 1, none⟩)
    let u := framing (some 11) .framePush
    (s.frame = some ⟨2, 0, none⟩ ∧ s.moveGranted .framePop ∧ (s.move 2).source = some ⟨0, 1⟩ ∧ s.judgePop 1 = .data 11 ∧
        ((popAct 1 (s.setArb .move)).move 2).phase ≤ 0) ∧
      (odd.moveGranted .framePop ∧ odd.judgePop 1 = .data 11 ∧
        (1 - ((popAct 1 (odd.setArb .move)).move 2).phase) % ((popAct 1 (odd.setArb .move)).move 2).stride ≠ 0) ∧
      u.frame = some ⟨2, 1, some 11⟩ ∧ u.moveGranted .framePush ∧ (u.move 2).dest = some ⟨0, 2⟩ := by decide +kernel

/-- Unload pending; the run limit reached; stop pending; neither. -/
theorem witness_FrameEndByTheCounts :
    let m := (moving .running).move 2
    let s (x : MoveEntry) : State := (moving .running).setMove 2 x
    ((s { m with unloadPending := true }).move 2).unloadPending = true ∧
      (((s { m with runLimit := 1 }).move 2).unloadPending = false ∧ ((s { m with runLimit := 1 }).move 2).runsDone + 1 = 1 ∧
        ((s { m with runLimit := 1 }).move 2).framesDone + 1 = ((s { m with runLimit := 1 }).move 2).framesPerRun) ∧
      (((s { m with stopPending := true }).move 2).runLimit = 0 ∧ ((s { m with stopPending := true }).move 2).stopPending = true) ∧
      m.runLimit = 0 ∧ m.stopPending = false ∧ m.unloadPending = false := by decide +kernel

theorem witness_DeferredUnloadEmptiesTheEntry :
    let s := framing none .unload
    s.moveGranted .unload ∧ s.frame = some ⟨2, 0, none⟩ ∧ (s.move 2).source = some ⟨0, 1⟩ := by decide +kernel

/-- The requester after the pointer, and the pointer's own, which comes last. -/
theorem witness_ArbiterGrantsInTheRotation :
    (State.reset.setDataReq .a (some .check)).requests (Requester.next^[1] State.reset.arb) = true ∧
      let s := commanded .d 1 Args.zero State.reset
      (s.requests (Requester.next^[9] s.arb) = true ∧
        ∀ k' : Fin 8, s.requests (Requester.next^[k'.val + 1] s.arb) = false) ∧
      s.nextGrant = some (.command .d) ∧ commandPending .d 1 s = true ∧ s.nextGrant ≠ some .move := by decide +kernel

/-- The same statement's grants: a push of port A, a serial check, a serial pop, a move request, a command. -/
theorem witness_ArbiterGrantsInTheRotation_grants :
    let granted (q : Requester) (s : State) : Prop := s.calm ∧ s.nextGrant = some q
    granted (.data .a) (accessing .a 0 (.write 44) 0 (linked .a .b)) ∧
      granted (.data .c) ((inFrame .c .streamRead 1 1 State.reset).setDataReq .c (some .check)) ∧
      (granted (.data .d) (accessing .d 1 .read 0 (inFrame .d .streamRead 1 1 State.reset)) ∧
        opKind .streamRead = some (.stream, .read)) ∧
      granted .move checking ∧ granted (.command .b) (commanded .b codeAttach Args.zero State.reset) ∧
      codeAttach ≠ codeWithdraw := by decide +kernel

/-- A step from a state that meets the invariants: a push, and the move engine's pop with a frame in flight. -/
theorem witness_EveryStepKeeps :
    let s := accessing .a 0 (.write 44) 0 (filled 3 (linked .a .b))
    let f := framing none .framePop
    (s.mem.wf = true ∧ s.legal = true ∧ s.tablesAgree = true ∧ ∃ t, step { s with pending := [.push .a] } = .next t) ∧
      f.mem.wf = true ∧ f.legal = true ∧ f.tablesAgree = true ∧ ∃ t, step { f with pending := [.moveFramePop] } = .next t := by
  refine ⟨⟨by decide +kernel, by decide +kernel, by decide +kernel, ⟨_, rfl⟩⟩, by decide +kernel, by decide +kernel, by decide +kernel,
    ⟨_, rfl⟩⟩

theorem witness_OnlyTheClockMovesTheTimebase (c : Instr) (h : c = .deviceReset ∨ c = .timebaseAdvance ∨ c = .startCheck) :
    ∃ t, exec c State.reset = .next t := by
  rcases h with rfl | rfl | rfl <;> exact ⟨_, rfl⟩

theorem witness_NoOtherPortReachesAPortsSettings :
    let s := withdrawing .a true (linked .a .b)
    Instr.portOf (.withdrawal .a) ≠ some .b ∧ s.withdrawalPending .b = false ∧ ∃ t, exec (.withdrawal .a) s = .next t := by
  refine ⟨by decide, by decide +kernel, ⟨_, rfl⟩⟩

theorem witness_CommandsThatStoreNothingLeaveTheMemory :
    let s := accessing .b 1 .read 0 (filled 2 (linked .a .b))
    Instr.storesNothing (.pop .b) = true ∧ s.waiting = ⟨none, none⟩ ∧ ∃ t, exec (.pop .b) s = .next t := by
  refine ⟨rfl, rfl, ⟨_, rfl⟩⟩

theorem witness_ReversalDeliversEachWordOnce :
    ((blockReader 8 0 (linked .a .b)).att 1).order = .reversedBlock ∧ (255 : Nat) < 2 ^ 8 := by decide +kernel

end Sys2Proof.Tests
end

