-- ==== Sys2Proof/Proofs/Bonds.lean ====
section
/-! PROOF. Which operations leave the tables as they are, and which leave the bonds of the rings as they are: two projections of the
state, `State.tables` and `State.bonds`, and for each operation an equation that says that it keeps one of them. -/

namespace Sys2Proof.Machine

/-! ### The tables -/

/-- The ring table, the attachment table, the page map, the move list, the frame in flight: what `State.tablesAgree` reads. -/
structure Tables where
  rings : Vector Ring 16
  atts : Vector Attachment 32
  pageMap : Vector (Option (Fin 16)) 128
  moves : Vector MoveEntry 16
  frame : Option Frame

def State.tables (s : State) : Tables := ⟨s.rings, s.atts, s.pageMap, s.moves, s.frame⟩

theorem ring_of_tables {s t : State} (h : t.tables = s.tables) (r : Fin 16) : t.ring r = s.ring r :=
  congrArg (fun x : Tables => tableGet x.rings r) h

theorem att_of_tables {s t : State} (h : t.tables = s.tables) (i : Fin 32) : t.att i = s.att i :=
  congrArg (fun x : Tables => tableGet x.atts i) h

theorem move_of_tables {s t : State} (h : t.tables = s.tables) (e : Fin 16) : t.move e = s.move e :=
  congrArg (fun x : Tables => tableGet x.moves e) h

theorem pageMap_of_tables {s t : State} (h : t.tables = s.tables) : t.pageMap = s.pageMap := congrArg Tables.pageMap h

theorem frame_of_tables {s t : State} (h : t.tables = s.tables) : t.frame = s.frame := congrArg Tables.frame h

/-- A fold of operations that keep a projection of the state keeps it. -/
theorem foldl_keeps {α β : Type} (g : State → β) (f : State → α → State) (hf : ∀ s x, g (f s x) = g s) :
    ∀ (l : List α) (s : State), g (l.foldl f s) = g s
  | [], _ => rfl
  | x :: l, s => (foldl_keeps g f hf l (f s x)).trans (hf s x)

/-! ### Operations that leave the tables -/

section
variable (s : State)

@[simp] theorem tables_setPort (p : Port) (x : PortUnit) : (s.setPort p x).tables = s.tables := rfl
@[simp] theorem tables_setPar (p : ParPort) (x : ParallelUnit) : (s.setPar p x).tables = s.tables := rfl
@[simp] theorem tables_setSer (p : SerPort) (x : SerialUnit) : (s.setSer p x).tables = s.tables := rfl
@[simp] theorem tables_setWaiting (p : ParPort) (x : Option WaitingAccess) : (s.setWaiting p x).tables = s.tables := rfl
@[simp] theorem tables_setMem (m : Memory) : (s.setMem m).tables = s.tables := rfl
@[simp] theorem tables_setRingWord (r : Fin 16) (n : Nat) (w : Word) : (s.setRingWord r n w).tables = s.tables := rfl
@[simp] theorem tables_setArb (q : Requester) : (s.setArb q).tables = s.tables := rfl
@[simp] theorem tables_setRotation (e : Fin 16) : (s.setRotation e).tables = s.tables := rfl
@[simp] theorem tables_setMoveReq (q : Option MoveRequest) : (s.setMoveReq q).tables = s.tables := rfl
@[simp] theorem tables_setPacer (n : Fin 4) (x : Pacer) : (s.setPacer n x).tables = s.tables := rfl
@[simp] theorem tables_setTickDue (b : Bool) : (s.setTickDue b).tables = s.tables := rfl
@[simp] theorem tables_setDeviceReset (b : Bool) : (s.setDeviceReset b).tables = s.tables := rfl
@[simp] theorem tables_setDataOut (p : Port) (w : Word) : (s.setDataOut p w).tables = s.tables := rfl
@[simp] theorem tables_setDataReq (p : Port) (q : Option DataRequest) : (s.setDataReq p q).tables = s.tables := rfl

@[simp] theorem tables_post (p : Port) (k : EventKind) (r : Option (Fin 16)) (h : Option Handle) (d : Word) :
    (post p k r h d s).tables = s.tables := rfl

@[simp] theorem tables_postHolder (o : Holder) (k : EventKind) (r : Fin 16) (h : Handle) (d : Word) :
    (postHolder o k r h d s).tables = s.tables := by
  unfold postHolder
  split <;> rfl

@[simp] theorem tables_postAbout (i : Fin 32) (k : EventKind) (d : Word) : (postAbout i k d s).tables = s.tables :=
  tables_postHolder _ _ _ _ _ _

@[simp] theorem tables_postCrossing (i : Fin 32) (before after : Nat) : (postCrossing i before after s).tables = s.tables := by
  unfold postCrossing; split <;> simp

@[simp] theorem tables_postMove (e : Fin 16) (k : EventKind) (d : Word) : (postMove e k d s).tables = s.tables := by
  unfold postMove; split <;> rfl

@[simp] theorem tables_postPeerLost (i : Fin 32) (w : Bool) (f : Attachment → Bool) :
    (postPeerLost i w f s).tables = s.tables := by
  unfold postPeerLost
  refine foldl_keeps State.tables _ (fun t j => ?_) _ _
  split <;> simp

@[simp] theorem tables_answerCycle (p : ParPort) (acc : BusAccess) (w : Word) : (answerCycle p acc w s).tables = s.tables := by
  cases acc <;> rfl

@[simp] theorem tables_answerFill (p : ParPort) (acc : BusAccess) : (answerFill p acc s).tables = s.tables :=
  tables_answerCycle _ _ _ _

@[simp] theorem tables_endWaiting (p : ParPort) : (endWaiting p s).tables = s.tables := by
  unfold endWaiting; split <;> simp

@[simp] theorem tables_endWaitingOf (h : Handle) : (endWaitingOf h s).tables = s.tables := by
  have one : ∀ (p : ParPort) (t : State), (match t.waitingAt p with
      | some x => if x.handle = h then endWaiting p t else t
      | none => t).tables = t.tables := by
    intro p t
    split
    · split <;> simp
    · rfl
  exact (one .b _).trans (one .a s)

@[simp] theorem tables_placeStartCheck : (placeStartCheck s).tables = s.tables := by
  rcases placeStartCheck_eq s with h | h
  · rw [h]
  · rw [h]; rfl

@[simp] theorem tables_expireStall (p : ParPort) : (expireStall p s).tables = s.tables := by
  unfold expireStall; split <;> simp

@[simp] theorem tables_settleStall (p : ParPort) : (settleStall p s).tables = s.tables := by
  unfold settleStall; split <;> simp

end

/-! ### The bonds -/

/-- A ring record without its position, valid and reserved: what no push, pop or frame start changes. -/
def Ring.bond (g : Ring) : Ring := { g with writePos := 0, valid := 0, reserved := 0 }

/-- An attachment record without its cursor, counts, flags, threshold and running lease: what only attach and detach change. -/
def Attachment.bond (x : Attachment) : Attachment :=
  { x with
    fill := 0, skip := 0, progress := 0, dropCount := 0, lagReported := false, endReported := false, threshold := 0
    leaseRemaining := 0 }

/-- A move entry with ARMED and WAITING taken as one, which a retry notice exchanges (R125). -/
def MoveEntry.bond (m : MoveEntry) : MoveEntry := { m with state := if m.state = .waiting then .armed else m.state }

/-- What the bond of a ring record holds. -/
theorem Ring.of_bond {g g' : Ring} (h : g'.bond = g.bond) :
    g'.state = g.state ∧ g'.mode = g.mode ∧ g'.firstPage = g.firstPage ∧ g'.pageCount = g.pageCount ∧ g'.access = g.access ∧
      g'.producer = g.producer ∧ g'.slots = g.slots ∧ g'.sealCause = g.sealCause := by
  simpa [Ring.bond] using h

/-- What the bond of an attachment record holds. -/
theorem Attachment.of_bond {x y : Attachment} (h : y.bond = x.bond) :
    y.inUse = x.inUse ∧ y.gen = x.gen ∧ y.ring = x.ring ∧ y.role = x.role ∧ y.holder = x.holder ∧ y.order = x.order := by
  simp only [Attachment.bond, Attachment.mk.injEq] at h
  simp only [h, and_self]

/-- What the bond of a move entry holds, beside its state. -/
theorem MoveEntry.of_bond {m n : MoveEntry} (h : n.bond = m.bond) :
    n.owner = m.owner ∧ n.source = m.source ∧ n.dest = m.dest := by
  simp only [MoveEntry.bond, MoveEntry.mk.injEq] at h
  simp only [h, and_self]

/-- The bonds of rings, attachments and move entries, with the page map and the frame in flight. -/
structure Bonds where
  ring : Fin 16 → Ring
  att : Fin 32 → Attachment
  move : Fin 16 → MoveEntry
  pageMap : Vector (Option (Fin 16)) 128
  frame : Option Frame

def State.bonds (s : State) : Bonds :=
  ⟨fun r => (s.ring r).bond, fun i => (s.att i).bond, fun e => (s.move e).bond, s.pageMap, s.frame⟩

theorem bonds_of_tables {s t : State} (h : t.tables = s.tables) : t.bonds = s.bonds := by
  simp only [State.bonds, ring_of_tables h, att_of_tables h, move_of_tables h, pageMap_of_tables h, frame_of_tables h]

section
variable {s t : State}

theorem ring_of_bonds (h : t.bonds = s.bonds) (r : Fin 16) : (t.ring r).bond = (s.ring r).bond :=
  congrArg (fun x : Bonds => x.ring r) h

theorem att_of_bonds (h : t.bonds = s.bonds) (i : Fin 32) : (t.att i).bond = (s.att i).bond :=
  congrArg (fun x : Bonds => x.att i) h

theorem move_of_bonds (h : t.bonds = s.bonds) (e : Fin 16) : (t.move e).bond = (s.move e).bond :=
  congrArg (fun x : Bonds => x.move e) h

theorem pageMap_of_bonds (h : t.bonds = s.bonds) : t.pageMap = s.pageMap := congrArg Bonds.pageMap h

end

/-! ### Writes that keep the bonds -/

section
variable (s : State)

theorem bonds_setRing (r : Fin 16) (g : Ring) (h : g.bond = (s.ring r).bond) : (s.setRing r g).bonds = s.bonds := by
  have hr : ∀ r', ((s.setRing r g).ring r').bond = (s.ring r').bond := fun r' => by
    rw [State.ring_setRing]; split <;> simp_all
  simp [State.bonds, hr]

theorem bonds_setAtt (i : Fin 32) (x : Attachment) (h : x.bond = (s.att i).bond) : (s.setAtt i x).bonds = s.bonds := by
  have hi : ∀ j, ((s.setAtt i x).att j).bond = (s.att j).bond := fun j => by
    rw [State.att_setAtt]; split <;> simp_all
  simp [State.bonds, hi]

theorem bonds_setMove (e : Fin 16) (m : MoveEntry) (h : m.bond = (s.move e).bond) :
    (s.setMove e m).bonds = s.bonds := by
  have he : ∀ e', ((s.setMove e m).move e').bond = (s.move e').bond := fun e' => by
    rw [State.move_setMove]; split <;> simp_all
  simp [State.bonds, he]

/-! ### Operations that keep the bonds -/

@[simp] theorem bonds_reportLag (i : Fin 32) : (reportLag i s).bonds = s.bonds := by
  unfold reportLag
  split
  · rfl
  · exact (bonds_of_tables (tables_postAbout _ _ _ _)).trans (bonds_setAtt s i _ rfl)

@[simp] theorem bonds_reportEnd (i : Fin 32) : (reportEnd i s).bonds = s.bonds := by
  unfold reportEnd
  split
  · rfl
  · exact (bonds_of_tables (tables_postAbout _ _ _ _)).trans (bonds_setAtt s i _ rfl)

@[simp] theorem bonds_renewLease (i : Fin 32) : (renewLease i s).bonds = s.bonds := bonds_setAtt s i _ rfl

@[simp] theorem bonds_retryNotice (e : Fin 16) : (retryNotice e s).bonds = s.bonds := by
  unfold retryNotice
  split
  · rename_i h
    exact bonds_setMove s e _ (by simp [MoveEntry.bond, h])
  · rfl

@[simp] theorem bonds_retryHolder (i : Fin 32) : (retryHolder i s).bonds = s.bonds := by
  unfold retryHolder; split <;> simp

@[simp] theorem bonds_spaceChanged (r : Fin 16) (before : Nat) : (spaceChanged r before s).bonds = s.bonds := by
  unfold spaceChanged
  split
  · split
    · exact (bonds_retryHolder _ _).trans (bonds_of_tables (tables_postCrossing _ _ _ _))
    · rfl
  · rfl

theorem bond_afterPush (x : Attachment) (c : Nat) : (x.afterPush c).bond = x.bond := by
  unfold Attachment.afterPush
  split
  · rfl
  · split
    · rfl
    · split <;> rfl

@[simp] theorem bonds_pushReader (c : Nat) (i : Fin 32) : (pushReader c s i).bonds = s.bonds := by
  have h1 := bonds_setAtt s i ((s.att i).afterPush c) (bond_afterPush _ c)
  unfold pushReader
  dsimp only
  split
  · rw [bonds_retryHolder, bonds_of_tables (tables_postCrossing _ _ _ _)]
    split <;> simp [h1]
  · rw [bonds_of_tables (tables_postCrossing _ _ _ _)]
    split <;> simp [h1]

@[simp] theorem bonds_storePush (r : Fin 16) (ofFrame : Bool) (w : Word) : (storePush r ofFrame w s).bonds = s.bonds := by
  have h1 : ((s.setRingWord r (s.ring r).writePos w).setRing r ((s.ring r).afterPush ofFrame)).bonds = s.bonds :=
    bonds_setRing _ r _ rfl
  have h2 := (foldl_keeps State.bonds _ (fun t i => bonds_pushReader t (s.ring r).capacity i) (s.readers r) _).trans h1
  unfold storePush
  dsimp only
  split <;> simp [h2]

@[simp] theorem bonds_takePop (i : Fin 32) : (takePop i s).bonds = s.bonds := by
  unfold takePop
  split
  · exact (bonds_spaceChanged _ _ _).trans (bonds_setAtt s i _ rfl)
  · simp
  · rfl

@[simp] theorem bonds_answerCycle (p : ParPort) (acc : BusAccess) (w : Word) : (answerCycle p acc w s).bonds = s.bonds :=
  bonds_of_tables (tables_answerCycle _ _ _ _)

@[simp] theorem bonds_answerFill (p : ParPort) (acc : BusAccess) : (answerFill p acc s).bonds = s.bonds :=
  bonds_of_tables (tables_answerFill _ _ _)

@[simp] theorem bonds_endWaitingOf (h : Handle) : (endWaitingOf h s).bonds = s.bonds :=
  bonds_of_tables (tables_endWaitingOf _ _)

@[simp] theorem bonds_setWaiting (p : ParPort) (x : Option WaitingAccess) : (s.setWaiting p x).bonds = s.bonds := rfl

@[simp] theorem bonds_examineWaiting (r : Fin 16) (p : ParPort) : (examineWaiting r p s).bonds = s.bonds := by
  unfold examineWaiting
  split
  · rfl
  · dsimp only
    split
    · split
      · split <;> simp
      · split <;> simp
    · rfl

@[simp] theorem bonds_reexamine (r : Fin 16) : (reexamine r s).bonds = s.bonds := by simp [reexamine]

@[simp] theorem bonds_pushAct (r : Fin 16) (ofFrame : Bool) (w : Word) : (pushAct r ofFrame w s).bonds = s.bonds := by
  simp [pushAct]

@[simp] theorem bonds_popAct (i : Fin 32) : (popAct i s).bonds = s.bonds := by
  unfold popAct; split <;> simp

@[simp] theorem bonds_sealReader (i : Fin 32) : (sealReader s i).bonds = s.bonds := by
  unfold sealReader; split <;> simp

end

end Sys2Proof.Machine
end

