-- ==== Sys2Proof/Proofs/Agreement.lean ====
section
/-! PROOF. The agreement of the tables, `State.tablesAgree`, taken apart for the steps within an act: what it says of the bonds
(`Linked`), what it says of the counters (`Counted`), and how each write of a record keeps them. Within an act a ring may stand without
attachments before it is freed, and a move entry that is being unloaded may name attachments that are gone. -/

namespace Sys2Proof.Machine

/-! ### Places of a ring record -/

/-- The ring record with the handle in the place of a role replaced (R9). -/
def Ring.setPlace (g : Ring) (role : Role) (h : Option Handle) : Ring :=
  match role with
  | .producer => { g with producer := h }
  | .reader 1 => { g with slots := { g.slots with one := h } }
  | .reader 2 => { g with slots := { g.slots with two := h } }
  | .reader 3 => { g with slots := { g.slots with three := h } }
  | .reader _ => g

/-- A role that a ring record has a place for. -/
def Role.seated (role : Role) : Prop := role ≠ .reader 0

/-- The four places of a ring record. -/
theorem Role.cases_seated {role : Role} (h : role.seated) :
    role = .producer ∨ role = .reader 1 ∨ role = .reader 2 ∨ role = .reader 3 := by
  cases role with
  | producer => exact .inl rfl
  | reader k =>
    have hk : k ≠ 0 := fun e => h (by rw [e])
    have : k = 1 ∨ k = 2 ∨ k = 3 := by omega
    simpa using this

/-- A handle stands only in a place. -/
theorem Ring.seated_of_place {g : Ring} {role : Role} {h : Handle} (hp : g.place role = some h) : role.seated := by
  rintro rfl
  exact absurd hp (by simp [Ring.place])

theorem Ring.place_setPlace (g : Ring) {role : Role} (hr : role.seated) (h : Option Handle) (role' : Role) :
    (g.setPlace role h).place role' = if role' = role then h else g.place role' := by
  by_cases hr' : role'.seated
  · rcases Role.cases_seated hr with rfl | rfl | rfl | rfl <;>
      rcases Role.cases_seated hr' with rfl | rfl | rfl | rfl <;> rfl
  · have e : role' = .reader 0 := not_not.mp hr'
    rw [if_neg (fun e' => hr (e'.symm.trans e)), e]
    rfl

/-- Replacing a handle leaves everything of a ring record but its producer field and slots. -/
theorem Ring.setPlace_frame (g : Ring) (role : Role) (h : Option Handle) :
    g.setPlace role h = { g with producer := (g.setPlace role h).producer, slots := (g.setPlace role h).slots } := by
  unfold Ring.setPlace; split <;> rfl

section
variable (g : Ring) (role : Role) (h : Option Handle)
@[simp] theorem Ring.setPlace_state : (g.setPlace role h).state = g.state := by rw [Ring.setPlace_frame]
@[simp] theorem Ring.setPlace_mode : (g.setPlace role h).mode = g.mode := by rw [Ring.setPlace_frame]
@[simp] theorem Ring.setPlace_firstPage : (g.setPlace role h).firstPage = g.firstPage := by rw [Ring.setPlace_frame]
@[simp] theorem Ring.setPlace_pageCount : (g.setPlace role h).pageCount = g.pageCount := by rw [Ring.setPlace_frame]
@[simp] theorem Ring.setPlace_valid : (g.setPlace role h).valid = g.valid := by rw [Ring.setPlace_frame]
@[simp] theorem Ring.setPlace_writePos : (g.setPlace role h).writePos = g.writePos := by rw [Ring.setPlace_frame]
@[simp] theorem Ring.setPlace_reserved : (g.setPlace role h).reserved = g.reserved := by rw [Ring.setPlace_frame]
@[simp] theorem Ring.setPlace_capacity : (g.setPlace role h).capacity = g.capacity := by simp [Ring.capacity]

theorem Ring.setPlace_bond : (g.setPlace role h).bond = g.bond.setPlace role h := by
  unfold Ring.setPlace; split <;> rfl

@[simp] theorem Ring.place_bond (role : Role) : g.bond.place role = g.place role := rfl

end

/-- A ring has no attachment when every place is empty (R1, R9). -/
theorem Ring.attachmentCount_eq_zero {g : Ring} : g.attachmentCount = 0 ↔ ∀ role, g.place role = none := by
  have hc : g.attachmentCount = 0 ↔ g.producer = none ∧ g.slots.one = none ∧ g.slots.two = none ∧ g.slots.three = none := by
    have hflag : ∀ o : Option Handle, flag o.isSome = 0 ↔ o = none := by intro o; cases o <;> simp [flag]
    simp [Ring.attachmentCount, Slots.occupied, hflag, and_assoc]
  rw [hc]
  constructor
  · rintro ⟨h0, h1, h2, h3⟩ role
    by_cases hr : role.seated
    · rcases Role.cases_seated hr with rfl | rfl | rfl | rfl <;> assumption
    · rw [not_not.mp hr]; rfl
  · exact fun h => ⟨h .producer, h (.reader 1), h (.reader 2), h (.reader 3)⟩

/-! ### The bonds agree -/

/-- The record at a handle's index is in use at the handle's generation, in a role on a ring (R9, R19). -/
def Bonds.names (b : Bonds) (r : Fin 16) (role : Role) (h : Handle) : Prop :=
  (b.att h.index).inUse = true ∧ (b.att h.index).gen = h.gen ∧ (b.att h.index).ring = r ∧ (b.att h.index).role = role

/-- The record at a handle's index is in use at the handle's generation, held by an entry (R114). -/
def Bonds.held (b : Bonds) (e : Fin 16) (h : Handle) : Prop :=
  (b.att h.index).inUse = true ∧ (b.att h.index).gen = h.gen ∧ (b.att h.index).holder = .entry e

/-- A move entry is EMPTY at its reset values, or owned with a source; what it names it holds (R114, R119). -/
structure Bonds.EntryHolds (b : Bonds) (e : Fin 16) (m : MoveEntry) : Prop where
  empty : m.state = .empty → m = MoveEntry.cleared
  owned : m.state ≠ .empty → m.owner ≠ none ∧ m.source ≠ none
  source : ∀ h, m.source = some h → b.held e h ∧ (b.att h.index).role ≠ .producer ∧ (b.att h.index).order = .natural
  dest : ∀ h, m.dest = some h → b.held e h ∧ (b.att h.index).role = .producer

/-- The bonds agree, but for a move entry `X` that is being unloaded, whose source is gone, and a ring `R` that may have lost its last
attachment and still stand. -/
structure Linked (X R : Option (Fin 16)) (b : Bonds) : Prop where
  freed : ∀ r, (b.ring r).state = .free → b.ring r = Ring.freed
  closed : ∀ r, (b.ring r).state = .sealed → (b.ring r).producer = none
  run : ∀ r, (b.ring r).state ≠ .free → 1 ≤ (b.ring r).pageCount ∧ (b.ring r).firstPage.val + (b.ring r).pageCount ≤ 128
  used : ∀ r, R ≠ some r → (b.ring r).attachmentCount = 0 → (b.ring r).state = .free
  pages : ∀ (q : Fin 128) (r : Fin 16), tableGet b.pageMap q = some r ↔
    (b.ring r).state ≠ .free ∧ (b.ring r).firstPage.val ≤ q.val ∧ q.val < (b.ring r).firstPage.val + (b.ring r).pageCount
  named : ∀ r role h, (b.ring r).place role = some h → b.names r role h
  placed : ∀ i, (b.att i).inUse = true → (b.ring (b.att i).ring).place (b.att i).role = some ⟨(b.att i).gen, i⟩
  unleased : ∀ i e, (b.att i).inUse = true → (b.att i).holder = .entry e → (b.att i).leasePeriod = 0
  entry : ∀ e, X ≠ some e → b.EntryHolds e (b.move e)
  gone : ∀ e, X = some e → ∀ h, (b.move e).source = some h → (b.att h.index).inUse = false
  frame : ∀ f, b.frame = some f → X ≠ some f.entry → (b.move f.entry).state = .running

/-! ### The counters agree -/

/-- A ring record's counters (R4, R5, R18). -/
structure Ring.Counts (g : Ring) : Prop where
  freed : g.state = .free → g.writePos = 0 ∧ g.valid = 0 ∧ g.reserved = 0
  circular : g.mode = .circular → g.valid ≤ g.capacity ∧ (g.state ≠ .free → g.writePos < g.capacity)
  onePass : g.mode = .onePass → g.writePos = g.valid

/-- The counters of the rings, the cursors of the attachments in use, and the reset values of the others. -/
structure Counted (s : State) : Prop where
  ring : ∀ r, (s.ring r).Counts
  unused : ∀ i, (s.att i).inUse = false → s.att i = Attachment.freed (s.att i).gen
  cursor : ∀ i, (s.att i).inUse = true → (s.att i).cursorLegal (s.ring (s.att i).ring)

/-- The tables agree, but for an entry that is being unloaded and a ring that may be about to be freed. -/
structure Agree (X R : Option (Fin 16)) (s : State) : Prop where
  linked : Linked X R s.bonds
  counted : Counted s

/-! ### `State.tablesAgree` is agreement without exception -/

theorem Ring.eq_freed_of_bond {g : Ring} (hb : g.bond = Ring.freed) (hc : g.Counts) (hf : g.state = .free) : g = Ring.freed := by
  obtain ⟨hw, hv, hr⟩ := hc.freed hf
  have hg : g.bond = g := by
    cases g
    cases hw
    cases hv
    cases hr
    rfl
  exact hg.symm.trans hb

theorem MoveEntry.eq_cleared_of_bond {m : MoveEntry} (h : m.bond = MoveEntry.cleared) : m = MoveEntry.cleared := by
  have hs : m.bond.state = .empty := by rw [h]; rfl
  have hm : m.bond = m := by
    unfold MoveEntry.bond at hs ⊢
    by_cases hw : m.state = .waiting
    · simp [hw] at hs
    · simp [hw]
  exact hm.symm.trans h

/-- Taking ARMED and WAITING as one keeps every other state apart. -/
theorem MoveEntry.bond_state {m : MoveEntry} {st : MoveState} (ha : st ≠ .armed) (hw : st ≠ .waiting) :
    m.bond.state = st ↔ m.state = st := by
  unfold MoveEntry.bond
  by_cases h : m.state = .waiting
  · simp [h, ha.symm, hw.symm]
  · simp [h]

theorem agree_of_tablesAgree {s : State} (h : s.tablesAgree = true) : Agree none none s := by
  simp only [State.tablesAgree, Bool.and_eq_true, decide_eq_true_eq] at h
  obtain ⟨⟨⟨⟨hring, hpages⟩, hnames⟩, hstand⟩, hentry, hframe⟩ := h
  refine ⟨⟨?_, ?_, ?_, ?_, hpages, ?_, ?_, ?_, ?_, ?_, ?_⟩, ⟨?_, ?_, ?_⟩⟩
  case refine_1 =>
    intro r hf
    obtain ⟨-, hfree, -⟩ := hring r
    exact congrArg Ring.bond (hfree hf)
  case refine_2 =>
    intro r hf
    obtain ⟨-, -, hs, -⟩ := hring r
    exact hs hf
  case refine_3 =>
    intro r hf
    obtain ⟨-, -, -, hrun, -⟩ := hring r
    exact hrun hf
  case refine_4 =>
    intro r _ hc
    obtain ⟨hcount, -⟩ := hring r
    exact hcount.mpr hc
  case refine_5 =>
    intro r role h hp
    obtain ⟨h0, h1, h2, h3⟩ := hnames r
    rcases Role.cases_seated (Ring.seated_of_place hp) with rfl | rfl | rfl | rfl
    · exact h0 h (Option.mem_toList.mpr hp)
    · exact h1 h (Option.mem_toList.mpr hp)
    · exact h2 h (Option.mem_toList.mpr hp)
    · exact h3 h (Option.mem_toList.mpr hp)
  case refine_6 => exact fun i hi => ((hstand i).2 hi).1
  case refine_7 => exact fun i e hi he => ((hstand i).2 hi).2.2 e he
  case refine_8 =>
    intro e _
    obtain ⟨hempty, howned, hsource, hdest⟩ := hentry e
    refine ⟨fun hs => ?_, fun hs => howned (fun h0 => hs ?_),
      fun h hh => hsource h (Option.mem_toList.mpr hh), fun h hh => hdest h (Option.mem_toList.mpr hh)⟩
    · exact congrArg MoveEntry.bond (hempty ((MoveEntry.bond_state (by decide) (by decide)).mp hs))
    · exact (MoveEntry.bond_state (by decide) (by decide)).mpr h0
  case refine_9 => exact fun e he => absurd he (by simp)
  case refine_10 => exact fun f hf _ => (MoveEntry.bond_state (by decide) (by decide)).mpr (hframe f (Option.mem_toList.mpr hf))
  case refine_11 =>
    intro r
    obtain ⟨-, hfree, -, -, hcirc, hone⟩ := hring r
    refine ⟨fun hf => ?_, hcirc, hone⟩
    rw [hfree hf]
    exact ⟨rfl, rfl, rfl⟩
  case refine_12 => exact fun i hi => (hstand i).1 hi
  case refine_13 => exact fun i hi => ((hstand i).2 hi).2.1

theorem tablesAgree_of_agree {s : State} (h : Agree none none s) : s.tablesAgree = true := by
  obtain ⟨b, c⟩ := h
  simp only [State.tablesAgree, Bool.and_eq_true, decide_eq_true_eq]
  have freed : ∀ r, (s.ring r).state = .free → s.ring r = Ring.freed := fun r hf =>
    Ring.eq_freed_of_bond (b.freed r hf) (c.ring r) hf
  refine ⟨⟨⟨⟨fun r => ⟨⟨fun hf => ?_, fun hc => b.used r (by simp) hc⟩, freed r, b.closed r, b.run r, (c.ring r).circular,
    (c.ring r).onePass⟩, b.pages⟩, fun r => ⟨?_, ?_, ?_, ?_⟩⟩, fun i => ⟨c.unused i, fun hi => ⟨b.placed i hi, c.cursor i hi,
    fun e he => b.unleased i e hi he⟩⟩⟩, fun e => ?_, fun f hf => ?_⟩
  · rw [freed r hf]; rfl
  · exact fun h hp => b.named r .producer h (Option.mem_toList.mp hp)
  · exact fun h hp => b.named r (.reader 1) h (Option.mem_toList.mp hp)
  · exact fun h hp => b.named r (.reader 2) h (Option.mem_toList.mp hp)
  · exact fun h hp => b.named r (.reader 3) h (Option.mem_toList.mp hp)
  · obtain ⟨hempty, howned, hsource, hdest⟩ := b.entry e (by simp)
    refine ⟨fun hs => ?_, fun hs => howned (fun h0 => hs ?_),
      fun h hh => hsource h (Option.mem_toList.mp hh), fun h hh => hdest h (Option.mem_toList.mp hh)⟩
    · exact MoveEntry.eq_cleared_of_bond (hempty ((MoveEntry.bond_state (by decide) (by decide)).mpr hs))
    · exact (MoveEntry.bond_state (by decide) (by decide)).mp h0
  · exact (MoveEntry.bond_state (by decide) (by decide)).mp (b.frame f (Option.mem_toList.mp hf) (by simp))

/-- The tables agree exactly when they agree without exception. -/
theorem tablesAgree_iff {s : State} : s.tablesAgree = true ↔ Agree none none s := ⟨agree_of_tablesAgree, tablesAgree_of_agree⟩

end Sys2Proof.Machine
end

