-- ==== Sys2Proof/Proofs/Writes.lean ====
section
/-! PROOF. What each write of a record does to the bonds, and that agreement outlives it: an attachment leaves its place, takes a place,
a ring record or a move entry is replaced, a cursor moves. -/

namespace Sys2Proof.Machine

/-! ### The bonds after a write -/

section
variable (s : State)

@[simp] theorem bonds_ring (r : Fin 16) : s.bonds.ring r = (s.ring r).bond := rfl
@[simp] theorem bonds_att (i : Fin 32) : s.bonds.att i = (s.att i).bond := rfl
@[simp] theorem bonds_move (e : Fin 16) : s.bonds.move e = (s.move e).bond := rfl
@[simp] theorem bonds_pageMap : s.bonds.pageMap = s.pageMap := rfl
@[simp] theorem bonds_frame : s.bonds.frame = s.frame := rfl

theorem bonds_setRing_eq (r : Fin 16) (g : Ring) :
    (s.setRing r g).bonds = { s.bonds with ring := Function.update s.bonds.ring r g.bond } := by
  have hr : (fun r' => ((s.setRing r g).ring r').bond) = Function.update s.bonds.ring r g.bond := by
    funext r'
    rw [State.ring_setRing, Function.update_apply]
    split <;> rfl
  simp only [State.bonds, hr]
  rfl

theorem bonds_setAtt_eq (i : Fin 32) (x : Attachment) :
    (s.setAtt i x).bonds = { s.bonds with att := Function.update s.bonds.att i x.bond } := by
  have hi : (fun j => ((s.setAtt i x).att j).bond) = Function.update s.bonds.att i x.bond := by
    funext j
    rw [State.att_setAtt, Function.update_apply]
    split <;> rfl
  simp only [State.bonds, hi]
  rfl

theorem bonds_setMove_eq (e : Fin 16) (m : MoveEntry) :
    (s.setMove e m).bonds = { s.bonds with move := Function.update s.bonds.move e m.bond } := by
  have he : (fun e' => ((s.setMove e m).move e').bond) = Function.update s.bonds.move e m.bond := by
    funext e'
    rw [State.move_setMove, Function.update_apply]
    split <;> rfl
  simp only [State.bonds, he]
  rfl

end

/-- The bonds after an attachment has left its place and its record is freed (R41, R42). -/
def Bonds.vacate (b : Bonds) (i : Fin 32) : Bonds :=
  { b with
    ring := Function.update b.ring (b.att i).ring ((b.ring (b.att i).ring).setPlace (b.att i).role none)
    att := Function.update b.att i (Attachment.freed ((b.att i).gen + 1)) }

/-- The bonds after a record has taken its place (R23). -/
def Bonds.seat (b : Bonds) (i : Fin 32) (x : Attachment) : Bonds :=
  { b with
    ring := Function.update b.ring x.ring ((b.ring x.ring).setPlace x.role (some ⟨x.gen, i⟩))
    att := Function.update b.att i x }

/-! ### Facts that agreement of the bonds gives -/

section
variable {X R : Option (Fin 16)} {b : Bonds}

/-- A handle stands in one place only. -/
theorem Linked.place_unique (h : Linked X R b) {r r' : Fin 16} {role role' : Role} {k : Handle}
    (hp : (b.ring r).place role = some k) (hp' : (b.ring r').place role' = some k) : r' = r ∧ role' = role := by
  obtain ⟨-, -, hr, hrole⟩ := h.named r role k hp
  obtain ⟨-, -, hr', hrole'⟩ := h.named r' role' k hp'
  exact ⟨hr'.symm.trans hr, hrole'.symm.trans hrole⟩

/-- A ring with a handle in a place is in use. -/
theorem Linked.used_of_place (h : Linked X R b) {r : Fin 16} {role : Role} {k : Handle}
    (hp : (b.ring r).place role = some k) : (b.ring r).state ≠ .free := by
  intro hf
  rw [h.freed r hf] at hp
  have hempty := Ring.attachmentCount_eq_zero.mp (show Ring.freed.attachmentCount = 0 from rfl) role
  rw [hempty] at hp
  exact absurd hp (by simp)

theorem Linked.seated (h : Linked X R b) {i : Fin 32} (hi : (b.att i).inUse = true) : (b.att i).role.seated :=
  Ring.seated_of_place (h.placed i hi)

/-- Where the vacated place was, every other place stays. -/
theorem Linked.place_vacate (h : Linked X R b) {i : Fin 32} (hi : (b.att i).inUse = true) (r : Fin 16) (role : Role) :
    ((b.vacate i).ring r).place role =
      if r = (b.att i).ring ∧ role = (b.att i).role then none else (b.ring r).place role := by
  simp only [Bonds.vacate, Function.update_apply]
  by_cases hr : r = (b.att i).ring
  · subst hr
    simp [Ring.place_setPlace _ (h.seated hi)]
  · simp [hr]

/-- Vacating a place leaves a ring record but for that place. -/
theorem vacate_ring_frame (b : Bonds) (i : Fin 32) (r : Fin 16) :
    ((b.vacate i).ring r).state = (b.ring r).state ∧ ((b.vacate i).ring r).firstPage = (b.ring r).firstPage ∧
      ((b.vacate i).ring r).pageCount = (b.ring r).pageCount := by
  simp only [Bonds.vacate, Function.update_apply]
  split <;> simp_all

theorem vacate_att (b : Bonds) (i j : Fin 32) :
    (b.vacate i).att j = if j = i then Attachment.freed ((b.att i).gen + 1) else b.att j := by
  simp [Bonds.vacate, Function.update_apply]

/-- What stands in another attachment's record stays when one leaves. -/
theorem vacate_att_ne (b : Bonds) {i j : Fin 32} (h : j ≠ i) : (b.vacate i).att j = b.att j := by simp [vacate_att, h]

theorem vacate_not_inUse (b : Bonds) (i : Fin 32) : ((b.vacate i).att i).inUse = false := by simp [vacate_att, Attachment.freed]

/-- An entry that names no handle of a record keeps what it holds when that record is freed. -/
theorem Bonds.EntryHolds.vacate {e : Fin 16} {m : MoveEntry} {i : Fin 32} (h : b.EntryHolds e m)
    (hs : ∀ k, m.source = some k → k.index ≠ i) (hd : ∀ k, m.dest = some k → k.index ≠ i) : (b.vacate i).EntryHolds e m where
  empty := h.empty
  owned := h.owned
  source k hk := by simpa only [Bonds.held, vacate_att_ne b (hs k hk)] using h.source k hk
  dest k hk := by simpa only [Bonds.held, vacate_att_ne b (hd k hk)] using h.dest k hk

/-- An attachment leaves its place and its record is freed: what is left agrees, but for its ring, which may have lost its last
attachment, and the entry `X'` that named it. -/
theorem Linked.vacate {X' : Option (Fin 16)} {i : Fin 32} (h : Linked X none b) (hi : (b.att i).inUse = true)
    (hX : ∀ e, X' ≠ some e → X ≠ some e)
    (hother : ∀ e, X' ≠ some e →
      (∀ k, (b.move e).source = some k → k.index ≠ i) ∧ ∀ k, (b.move e).dest = some k → k.index ≠ i)
    (hgone : ∀ e, X' = some e → ∀ k, (b.move e).source = some k → k.index = i ∨ (b.att k.index).inUse = false) :
    Linked X' (some (b.att i).ring) (b.vacate i) where
  freed r hf := by
    rw [(vacate_ring_frame b i r).1] at hf
    have hr : r ≠ (b.att i).ring := by
      rintro rfl
      exact h.used_of_place (h.placed i hi) hf
    simpa [Bonds.vacate, Function.update_apply, hr] using h.freed r hf
  closed r hc := by
    rw [(vacate_ring_frame b i r).1] at hc
    change ((b.vacate i).ring r).place .producer = none
    rw [h.place_vacate hi]
    split
    · rfl
    · exact h.closed r hc
  run r hf := by
    obtain ⟨hs, hq, hn⟩ := vacate_ring_frame b i r
    rw [hs] at hf
    rw [hq, hn]
    exact h.run r hf
  used r hr hc := by
    have hr' : r ≠ (b.att i).ring := fun e => hr (by rw [e])
    rw [(vacate_ring_frame b i r).1]
    refine h.used r (by simp) (Ring.attachmentCount_eq_zero.mpr fun role => ?_)
    have hp := Ring.attachmentCount_eq_zero.mp hc role
    rwa [h.place_vacate hi, if_neg (fun e => hr' e.1)] at hp
  pages q r := by
    obtain ⟨hs, hq, hn⟩ := vacate_ring_frame b i r
    rw [hs, hq, hn]
    exact h.pages q r
  named r role k hk := by
    rw [h.place_vacate hi] at hk
    split at hk
    · simp at hk
    · rename_i hne
      have hnames := h.named r role k hk
      have hki : k.index ≠ i := by
        rintro rfl
        exact hne ⟨hnames.2.2.1.symm, hnames.2.2.2.symm⟩
      simpa only [Bonds.names, vacate_att_ne b hki] using hnames
  placed j hj := by
    have hji : j ≠ i := by
      rintro rfl
      simp [vacate_not_inUse] at hj
    rw [vacate_att_ne b hji] at hj ⊢
    rw [h.place_vacate hi, if_neg ?_]
    · exact h.placed j hj
    · rintro ⟨hring, hrole⟩
      have hp := h.placed j hj
      rw [hring, hrole, h.placed i hi] at hp
      simp only [Option.some.injEq, Handle.mk.injEq] at hp
      exact hji hp.2.symm
  unleased j e hj he := by
    have hji : j ≠ i := by
      rintro rfl
      simp [vacate_not_inUse] at hj
    rw [vacate_att_ne b hji] at hj he ⊢
    exact h.unleased j e hj he
  entry e he := (h.entry e (hX e he)).vacate (hother e he).1 (hother e he).2
  gone e he k hk := by
    rw [vacate_att]
    split
    · rfl
    · rename_i hne
      exact (hgone e he k hk).resolve_left hne
  frame f hf he := h.frame f hf (hX f.entry he)

/-! ### An attachment takes its place -/

theorem place_seat {x : Attachment} (hx : x.role.seated) (b : Bonds) (i : Fin 32) (r : Fin 16) (role : Role) :
    ((b.seat i x).ring r).place role =
      if r = x.ring ∧ role = x.role then some ⟨x.gen, i⟩ else (b.ring r).place role := by
  simp only [Bonds.seat, Function.update_apply]
  by_cases hr : r = x.ring
  · subst hr
    simp [Ring.place_setPlace _ hx]
  · simp [hr]

theorem seat_ring_frame (b : Bonds) (i : Fin 32) (x : Attachment) (r : Fin 16) :
    ((b.seat i x).ring r).state = (b.ring r).state ∧ ((b.seat i x).ring r).firstPage = (b.ring r).firstPage ∧
      ((b.seat i x).ring r).pageCount = (b.ring r).pageCount := by
  simp only [Bonds.seat, Function.update_apply]
  split <;> simp_all

theorem seat_att_ne (b : Bonds) (x : Attachment) {i j : Fin 32} (h : j ≠ i) : (b.seat i x).att j = b.att j := by
  simp [Bonds.seat, h]

theorem seat_att_same (b : Bonds) (x : Attachment) (i : Fin 32) : (b.seat i x).att i = x := by simp [Bonds.seat]

/-- A record that was free takes an empty place of a ring in use: everything agrees again (R23). -/
theorem Linked.seat {i : Fin 32} {x : Attachment} (h : Linked none R b) (hR : R = none ∨ R = some x.ring)
    (hi : (b.att i).inUse = false) (hx : x.inUse = true) (hseat : x.role.seated)
    (hempty : (b.ring x.ring).place x.role = none) (hring : (b.ring x.ring).state ≠ .free)
    (hopen : x.role = .producer → (b.ring x.ring).state ≠ .sealed)
    (hlease : ∀ e, x.holder = .entry e → x.leasePeriod = 0) : Linked none none (b.seat i x) where
  freed r hf := by
    rw [(seat_ring_frame b i x r).1] at hf
    have hr : r ≠ x.ring := by
      rintro rfl
      exact hring hf
    simpa [Bonds.seat, Function.update_apply, hr] using h.freed r hf
  closed r hc := by
    rw [(seat_ring_frame b i x r).1] at hc
    change ((b.seat i x).ring r).place .producer = none
    rw [place_seat hseat, if_neg ?_]
    · exact h.closed r hc
    · rintro ⟨rfl, hp⟩
      exact hopen hp.symm hc
  run r hf := by
    obtain ⟨hs, hq, hn⟩ := seat_ring_frame b i x r
    rw [hs] at hf
    rw [hq, hn]
    exact h.run r hf
  used r _ hc := by
    rw [(seat_ring_frame b i x r).1]
    have hp := Ring.attachmentCount_eq_zero.mp hc
    have hr : r ≠ x.ring := by
      rintro rfl
      have := hp x.role
      simp [place_seat hseat] at this
    refine h.used r ?_ (Ring.attachmentCount_eq_zero.mpr fun role => ?_)
    · rcases hR with rfl | rfl
      · simp
      · exact fun e => hr (Option.some.inj e).symm
    · have := hp role
      rwa [place_seat hseat, if_neg (fun e => hr e.1)] at this
  pages q r := by
    obtain ⟨hs, hq, hn⟩ := seat_ring_frame b i x r
    rw [hs, hq, hn]
    exact h.pages q r
  named r role k hk := by
    rw [place_seat hseat] at hk
    split at hk
    · rename_i he
      obtain rfl := Option.some.inj hk
      simp [Bonds.names, seat_att_same, hx, he]
    · have hnames := h.named r role k hk
      have hki : k.index ≠ i := by
        rintro rfl
        exact absurd hnames.1 (by simp [hi])
      simpa only [Bonds.names, seat_att_ne b x hki] using hnames
  placed j hj := by
    by_cases hji : j = i
    · subst hji
      rw [seat_att_same, place_seat hseat, if_pos ⟨rfl, rfl⟩]
    · rw [seat_att_ne b x hji] at hj ⊢
      rw [place_seat hseat, if_neg ?_]
      · exact h.placed j hj
      · rintro ⟨hring', hrole⟩
        have hp := h.placed j hj
        rw [hring', hrole, hempty] at hp
        exact absurd hp (by simp)
  unleased j e hj he := by
    by_cases hji : j = i
    · subst hji
      rw [seat_att_same] at he ⊢
      exact hlease e he
    · rw [seat_att_ne b x hji] at hj he ⊢
      exact h.unleased j e hj he
  entry e he := by
    have hold := h.entry e he
    have hne : ∀ k, b.held e k → k.index ≠ i := by
      rintro k hk rfl
      exact absurd hk.1 (by simp [hi])
    refine ⟨hold.empty, hold.owned, fun k hk => ?_, fun k hk => ?_⟩
    · have hs := hold.source k hk
      simpa only [Bonds.held, seat_att_ne b x (hne k hs.1)] using hs
    · have hd := hold.dest k hk
      simpa only [Bonds.held, seat_att_ne b x (hne k hd.1)] using hd
  gone e he := absurd he (by simp)
  frame f hf he := h.frame f hf he

/-! ### A ring record with the same attachments -/

/-- A ring record is replaced by one with the same attachments, and the page map with it: it agrees when the new record does in itself
and the map shows its run. -/
theorem Linked.setRing {R' : Option (Fin 16)} {r : Fin 16} {g : Ring} {m : Vector (Option (Fin 16)) 128} (h : Linked X R b)
    (hplace : ∀ role, g.place role = (b.ring r).place role) (hfree : g.state = .free → g = Ring.freed)
    (hclosed : g.state = .sealed → g.producer = none)
    (hrun : g.state ≠ .free → 1 ≤ g.pageCount ∧ g.firstPage.val + g.pageCount ≤ 128)
    (hR : ∀ r', r' ≠ r → R' ≠ some r' → R ≠ some r') (hused : R' ≠ some r → g.attachmentCount = 0 → g.state = .free)
    (hpages : ∀ (q : Fin 128) r', tableGet m q = some r' ↔
      if r' = r then g.state ≠ .free ∧ g.firstPage.val ≤ q.val ∧ q.val < g.firstPage.val + g.pageCount
      else tableGet b.pageMap q = some r') :
    Linked X R' { b with ring := Function.update b.ring r g, pageMap := m } := by
  have same : ∀ r' role, (Function.update b.ring r g r').place role = (b.ring r').place role := fun r' role => by
    rw [Function.update_apply]
    split
    · rename_i e
      rw [e, hplace]
    · rfl
  have other : ∀ r', r' ≠ r → Function.update b.ring r g r' = b.ring r' := fun r' hr => Function.update_of_ne hr _ _
  refine ⟨fun r' => ?_, fun r' => ?_, fun r' => ?_, fun r' => ?_, fun q r' => ?_, fun r' role k hk => ?_, fun i hi => ?_,
    h.unleased, fun e he => ⟨(h.entry e he).empty, (h.entry e he).owned, (h.entry e he).source, (h.entry e he).dest⟩, h.gone,
    h.frame⟩
  · by_cases hr : r' = r
    · subst hr; simpa using hfree
    · simpa only [other r' hr] using h.freed r'
  · by_cases hr : r' = r
    · subst hr; simpa using hclosed
    · simpa only [other r' hr] using h.closed r'
  · by_cases hr : r' = r
    · subst hr; simpa using hrun
    · simpa only [other r' hr] using h.run r'
  · by_cases hr : r' = r
    · subst hr; simpa using hused
    · simpa only [other r' hr] using fun hR' => h.used r' (hR r' hr hR')
  · rw [hpages q r']
    by_cases hr : r' = r
    · subst hr; simp
    · simpa only [hr, if_false, other r' hr] using h.pages q r'
  · exact h.named r' role k ((same r' role).symm.trans hk)
  · exact (same _ _).trans (h.placed i hi)

/-! ### A move entry, the frame -/

/-- A move entry is replaced by one that agrees in itself, or, for the entry that is being unloaded, names no source in use. -/
theorem Linked.setMove {e : Fin 16} {m : MoveEntry} (h : Linked X R b) (hm : X ≠ some e → b.EntryHolds e m)
    (hgone : X = some e → ∀ k, m.source = some k → (b.att k.index).inUse = false)
    (hf : X ≠ some e → ∀ f, b.frame = some f → f.entry = e → m.state = .running) :
    Linked X R { b with move := Function.update b.move e m } := by
  have other : ∀ e', e' ≠ e → Function.update b.move e m e' = b.move e' := fun e' he => Function.update_of_ne he _ _
  refine ⟨h.freed, h.closed, h.run, h.used, h.pages, h.named, h.placed, h.unleased, fun e' he => ?_, fun e' he => ?_,
    fun f hfr he => ?_⟩
  · by_cases hee : e' = e
    · subst hee
      simp only [Function.update_self]
      have hnew := hm he
      exact ⟨hnew.empty, hnew.owned, hnew.source, hnew.dest⟩
    · have hold := h.entry e' he
      simp only [other e' hee]
      exact ⟨hold.empty, hold.owned, hold.source, hold.dest⟩
  · by_cases hee : e' = e
    · subst hee
      simpa only [Function.update_self] using hgone he
    · simpa only [other e' hee] using h.gone e' he
  · by_cases hee : f.entry = e
    · simp only [hee, Function.update_self]
      exact hf (hee ▸ he) f hfr hee
    · simp only [other f.entry hee]
      exact h.frame f hfr he

/-- The entry that was being unloaded is done with: it agrees in itself, and no frame of it is in flight. -/
theorem Linked.readmit {e : Fin 16} (h : Linked (some e) R b) (he : b.EntryHolds e (b.move e))
    (hf : ∀ f, b.frame = some f → f.entry ≠ e) : Linked none R b :=
  { h with
    entry := fun e' _ => by
      by_cases hee : e' = e
      · exact hee ▸ he
      · exact h.entry e' (fun h' => hee (Option.some.inj h').symm)
    gone := fun e' he' => absurd he' (by simp)
    frame := fun f hfr _ => h.frame f hfr (fun h' => hf f hfr (Option.some.inj h').symm) }

/-- An entry whose source is gone may be taken as being unloaded. -/
theorem Linked.except {e : Fin 16} (h : Linked none R b) (hg : ∀ k, (b.move e).source = some k → (b.att k.index).inUse = false) :
    Linked (some e) R b :=
  { h with
    entry := fun e' _ => h.entry e' (by simp)
    gone := fun e' he' => by
      obtain rfl := Option.some.inj he'
      exact hg
    frame := fun f hfr _ => h.frame f hfr (by simp) }

/-- The frame in flight is replaced by none, or by one of a RUNNING entry. -/
theorem Linked.setFrame {f : Option Frame} (h : Linked X R b) (hf : ∀ x, f = some x → X ≠ some x.entry → (b.move x.entry).state = .running) :
    Linked X R { b with frame := f } :=
  ⟨h.freed, h.closed, h.run, h.used, h.pages, h.named, h.placed, h.unleased,
    fun e he => ⟨(h.entry e he).empty, (h.entry e he).owned, (h.entry e he).source, (h.entry e he).dest⟩, h.gone, hf⟩

/-- A ring that has an attachment needs no exception. -/
theorem Linked.settled {r : Fin 16} (h : Linked X (some r) b) (hr : (b.ring r).attachmentCount ≠ 0 ∨ (b.ring r).state = .free) :
    Linked X none b :=
  { h with
    used := fun r' _ hc => by
      by_cases e : r' = r
      · subst e
        exact hr.resolve_left (fun hne => hne hc)
      · exact h.used r' (fun e' => e (Option.some.inj e').symm) hc }

end

/-! ### The counters after a write -/

section
variable {s t : State}

/-- The counters read the ring table and the attachment table. -/
theorem Counted.of_same (h : Counted s) (hr : t.rings = s.rings) (ha : t.atts = s.atts) : Counted t := by
  have er : ∀ r, t.ring r = s.ring r := fun r => congrArg (tableGet · r) hr
  have ea : ∀ i, t.att i = s.att i := fun i => congrArg (tableGet · i) ha
  refine ⟨fun r => er r ▸ h.ring r, fun i => ea i ▸ h.unused i, fun i hi => ?_⟩
  rw [ea i] at hi
  rw [ea i, er]
  exact h.cursor i hi

/-- An attachment record whose cursor is legal for its ring, or a freed one. -/
theorem Counted.setAtt {i : Fin 32} {x : Attachment} (h : Counted s) (hu : x.inUse = false → x = Attachment.freed x.gen)
    (hc : x.inUse = true → x.cursorLegal (s.ring x.ring)) : Counted (s.setAtt i x) := by
  refine ⟨h.ring, fun j => ?_, fun j => ?_⟩
  · rw [State.att_setAtt]
    split
    · exact hu
    · exact h.unused j
  · rw [State.att_setAtt]
    split
    · exact hc
    · exact h.cursor j

/-- A ring record whose counters agree, and under which the cursors of its attachments stay legal. -/
theorem Counted.setRing {r : Fin 16} {g : Ring} (h : Counted s) (hg : g.Counts)
    (hc : ∀ i, (s.att i).inUse = true → (s.att i).ring = r → (s.att i).cursorLegal g) : Counted (s.setRing r g) := by
  refine ⟨fun r' => ?_, h.unused, fun i hi => ?_⟩
  · rw [State.ring_setRing]
    split
    · exact hg
    · exact h.ring r'
  · rw [State.ring_setRing]
    split
    · rename_i e
      exact hc i hi e
    · exact h.cursor i hi

end

end Sys2Proof.Machine
end

