-- ==== Sys2Proof/Proofs/Traffic.lean ====
section
/-! PROOF. Pushes, pops, flags, notices and re-examinations keep the tables in agreement: they move counters and cursors, and no bond. -/

namespace Sys2Proof.Machine

/-! ### Which records an operation reaches -/

section
variable (s : State)

theorem rings_setAtt_of_tables {t u : State} {i : Fin 32} {x : Attachment} (h : u.tables = (t.setAtt i x).tables) (r : Fin 16) :
    u.ring r = t.ring r := (ring_of_tables h r).trans (State.setAtt_ring _ _ _ _)

@[simp] theorem ring_reportLag (i : Fin 32) (r : Fin 16) : (reportLag i s).ring r = s.ring r := by
  unfold reportLag
  split
  · rfl
  · exact rings_setAtt_of_tables (tables_postAbout _ _ _ _) r

@[simp] theorem ring_reportEnd (i : Fin 32) (r : Fin 16) : (reportEnd i s).ring r = s.ring r := by
  unfold reportEnd
  split
  · rfl
  · exact rings_setAtt_of_tables (tables_postAbout _ _ _ _) r

@[simp] theorem ring_renewLease (i : Fin 32) (r : Fin 16) : (renewLease i s).ring r = s.ring r := rfl

@[simp] theorem rings_retryHolder (i : Fin 32) : (retryHolder i s).rings = s.rings := by
  unfold retryHolder retryNotice
  split
  · split <;> rfl
  · rfl

@[simp] theorem atts_retryHolder (i : Fin 32) : (retryHolder i s).atts = s.atts := by
  unfold retryHolder retryNotice
  split
  · split <;> rfl
  · rfl

@[simp] theorem ring_retryHolder (i : Fin 32) (r : Fin 16) : (retryHolder i s).ring r = s.ring r :=
  congrArg (tableGet · r) (rings_retryHolder s i)

@[simp] theorem att_retryHolder (i j : Fin 32) : (retryHolder i s).att j = s.att j :=
  congrArg (tableGet · j) (atts_retryHolder s i)

@[simp] theorem ring_postCrossing (i : Fin 32) (before after : Nat) (r : Fin 16) :
    (postCrossing i before after s).ring r = s.ring r := ring_of_tables (tables_postCrossing _ _ _ _) r

@[simp] theorem att_postCrossing (i : Fin 32) (before after : Nat) (j : Fin 32) :
    (postCrossing i before after s).att j = s.att j := att_of_tables (tables_postCrossing _ _ _ _) j

@[simp] theorem rings_spaceChanged (r : Fin 16) (before : Nat) : (spaceChanged r before s).rings = s.rings := by
  unfold spaceChanged
  split
  · split
    · rw [rings_retryHolder]
      exact congrArg Tables.rings (tables_postCrossing _ _ _ _)
    · rfl
  · rfl

@[simp] theorem atts_spaceChanged (r : Fin 16) (before : Nat) : (spaceChanged r before s).atts = s.atts := by
  unfold spaceChanged
  split
  · split
    · rw [atts_retryHolder]
      exact congrArg Tables.atts (tables_postCrossing _ _ _ _)
    · rfl
  · rfl

@[simp] theorem ring_spaceChanged (r : Fin 16) (before : Nat) (r' : Fin 16) : (spaceChanged r before s).ring r' = s.ring r' :=
  congrArg (tableGet · r') (rings_spaceChanged s r before)

@[simp] theorem att_spaceChanged (r : Fin 16) (before : Nat) (j : Fin 32) : (spaceChanged r before s).att j = s.att j :=
  congrArg (tableGet · j) (atts_spaceChanged s r before)

theorem att_reportLag_ne {i j : Fin 32} (h : j ≠ i) : (reportLag i s).att j = s.att j := by
  unfold reportLag
  split
  · rfl
  · rw [att_of_tables (tables_postAbout _ _ _ _), State.att_setAtt, if_neg h]

@[simp] theorem ring_pushReader (c : Nat) (i : Fin 32) (r : Fin 16) : (pushReader c s i).ring r = s.ring r := by
  unfold pushReader
  dsimp only
  split <;> (simp only [ring_retryHolder, ring_postCrossing]; split <;> simp)

theorem att_pushReader_ne (c : Nat) {i j : Fin 32} (h : j ≠ i) : (pushReader c s i).att j = s.att j := by
  have hset : (s.setAtt i ((s.att i).afterPush c)).att j = s.att j := by rw [State.att_setAtt, if_neg h]
  unfold pushReader
  dsimp only
  split <;> (simp only [att_retryHolder, att_postCrossing]; split <;> simp [att_reportLag_ne _ h, hset])

end

/-! ### Agreement with the same bonds -/

section
variable {X R : Option (Fin 16)} {s t : State}

theorem Agree.of_bonds (h : Agree X R s) (hb : t.bonds = s.bonds) (hc : Counted t) : Agree X R t := ⟨hb ▸ h.linked, hc⟩

/-- Agreement reads the tables alone. -/
theorem Agree.of_tables (h : Agree X R s) (ht : t.tables = s.tables) : Agree X R t :=
  h.of_bonds (bonds_of_tables ht) (h.counted.of_same (congrArg Tables.rings ht) (congrArg Tables.atts ht))

theorem Agree.ring_free (h : Agree X R s) {r : Fin 16} (hf : (s.ring r).state = .free) : s.ring r = Ring.freed :=
  Ring.eq_freed_of_bond (h.linked.freed r hf) (h.counted.ring r) hf

/-- The ring of an attachment in use is in use. -/
theorem Agree.ring_used (h : Agree X R s) {i : Fin 32} (hi : (s.att i).inUse = true) : (s.ring (s.att i).ring).state ≠ .free :=
  h.linked.used_of_place (h.linked.placed i hi)

/-- A ring in use has words. -/
theorem Agree.capacity_pos (h : Agree X R s) {r : Fin 16} (hr : (s.ring r).state ≠ .free) : 0 < (s.ring r).capacity := by
  have : 1 ≤ (s.ring r).pageCount := (h.linked.run r hr).1
  simp only [Ring.capacity, Config.pageWords]
  omega

/-- A record in use whose bond stays and whose cursor is legal. -/
theorem Agree.setAtt (h : Agree X R s) {i : Fin 32} {x : Attachment} (hi : (s.att i).inUse = true)
    (hx : x.bond = (s.att i).bond) (hc : x.cursorLegal (s.ring (s.att i).ring)) : Agree X R (s.setAtt i x) := by
  have hu : x.inUse = (s.att i).inUse := (Attachment.of_bond hx).1
  have hr : x.ring = (s.att i).ring := (Attachment.of_bond hx).2.2.1
  refine h.of_bonds (bonds_setAtt s i x hx) (h.counted.setAtt (fun hf => ?_) fun _ => hr ▸ hc)
  exact absurd (hu.symm.trans hf) (by simp [hi])

/-- A flag or lease of a record in use: the cursor stays. -/
theorem Agree.setAtt_same (h : Agree X R s) {i : Fin 32} {x : Attachment} (hi : (s.att i).inUse = true)
    (hx : x.bond = (s.att i).bond) (hf : x.fill = (s.att i).fill) (hs : x.skip = (s.att i).skip)
    (hp : x.progress = (s.att i).progress) : Agree X R (s.setAtt i x) := by
  have ho : x.order = (s.att i).order := (Attachment.of_bond hx).2.2.2.2.2
  have hb : x.blockExp = (s.att i).blockExp := (congrArg Attachment.blockExp hx :)
  refine h.setAtt hi hx ?_
  have hc := h.counted.cursor i hi
  simpa only [Attachment.cursorLegal, Attachment.blockSize, hf, hs, hp, ho, hb] using hc

theorem Agree.reportLag (h : Agree X R s) {i : Fin 32} (hi : (s.att i).inUse = true) : Agree X R (reportLag i s) := by
  unfold Machine.reportLag
  split
  · exact h
  · exact (h.setAtt_same hi (x := { s.att i with lagReported := true }) rfl rfl rfl rfl).of_tables (tables_postAbout _ _ _ _)

theorem Agree.reportEnd (h : Agree X R s) {i : Fin 32} (hi : (s.att i).inUse = true) : Agree X R (reportEnd i s) := by
  unfold Machine.reportEnd
  split
  · exact h
  · exact (h.setAtt_same hi (x := { s.att i with endReported := true }) rfl rfl rfl rfl).of_tables (tables_postAbout _ _ _ _)

theorem Agree.renewLease (h : Agree X R s) {i : Fin 32} (hi : (s.att i).inUse = true) : Agree X R (renewLease i s) :=
  h.setAtt_same hi rfl rfl rfl rfl

theorem Agree.retryHolder (h : Agree X R s) (i : Fin 32) : Agree X R (retryHolder i s) :=
  h.of_bonds (bonds_retryHolder s i) (h.counted.of_same (rings_retryHolder s i) (atts_retryHolder s i))

theorem Agree.spaceChanged (h : Agree X R s) (r : Fin 16) (before : Nat) : Agree X R (spaceChanged r before s) :=
  h.of_bonds (bonds_spaceChanged s r before) (h.counted.of_same (rings_spaceChanged s r before) (atts_spaceChanged s r before))

/-! ### Push -/

/-- A push brings a legal cursor to a legal cursor, where the ring has the word that the fill then counts (R29, R35, R51, R52). -/
theorem cursorLegal_afterPush {x : Attachment} {g : Ring} (hx : x.cursorLegal g) (hc : 0 < g.capacity)
    (hroom : x.fill < g.capacity → x.fill + 1 ≤ g.valid) : (x.afterPush g.capacity).cursorLegal g := by
  obtain ⟨hv, hcap, hskip, hprog⟩ := hx
  have hB : 0 < x.blockSize := Nat.two_pow_pos _
  unfold Attachment.afterPush
  split
  case isTrue h0 =>
    refine ⟨hv, hcap, fun _ => hskip h0, hprog⟩
  case isFalse h0 =>
    split
    case isTrue hlt =>
      exact ⟨hroom hlt, hlt, fun hs => absurd hs h0, fun hp => ⟨(hprog hp).1, Nat.le_succ_of_le (hprog hp).2⟩⟩
    case isFalse hge =>
      split
      · exact ⟨hv, hcap, hskip, hprog⟩
      · refine ⟨?_, ?_, fun hs => absurd hs h0, fun hp => absurd hp (Nat.lt_irrefl 0)⟩ <;> dsimp only <;> omega
      · exact ⟨hv, hcap, hskip, hprog⟩

theorem Agree.pushReader (h : Agree X R s) {i : Fin 32} (hi : (s.att i).inUse = true)
    (hroom : (s.att i).fill < (s.ring (s.att i).ring).capacity → (s.att i).fill + 1 ≤ (s.ring (s.att i).ring).valid) :
    Agree X R (pushReader (s.ring (s.att i).ring).capacity s i) := by
  have h1 := h.setAtt hi (bond_afterPush (s.att i) _)
    (cursorLegal_afterPush (h.counted.cursor i hi) (h.capacity_pos (h.ring_used hi)) hroom)
  have hi1 : ((s.setAtt i ((s.att i).afterPush (s.ring (s.att i).ring).capacity)).att i).inUse = true := by
    rw [State.att_setAtt_same, (Attachment.afterPush_party _ _).1, hi]
  unfold Machine.pushReader
  dsimp only
  have h2 := h1.reportLag hi1
  split
  · refine Agree.retryHolder (Agree.of_tables ?_ (tables_postCrossing _ _ _ _)) i
    split
    · exact h2
    · exact h1
  · refine Agree.of_tables ?_ (tables_postCrossing _ _ _ _)
    split
    · exact h2
    · exact h1

/-- A party that a ring record names is in use on that ring. -/
theorem Agree.producer_named (h : Agree X R s) {r : Fin 16} {k : Handle} (hk : (s.ring r).producer = some k) :
    (s.att k.index).inUse = true ∧ (s.att k.index).gen = k.gen ∧ (s.att k.index).ring = r ∧ (s.att k.index).role = .producer :=
  h.linked.named r .producer k hk

/-- The readers of a ring: each stands in a slot. -/
theorem mem_readers {r : Fin 16} {i : Fin 32} : i ∈ s.readers r ↔
    ∃ role, role ≠ .producer ∧ ∃ k : Handle, (s.ring r).place role = some k ∧ k.index = i := by
  constructor
  · intro hi
    simp only [State.readers, Slots.handles, List.mem_map, List.mem_append, Option.mem_toList] at hi
    obtain ⟨k, (hk | hk) | hk, hki⟩ := hi
    · exact ⟨.reader 1, by simp, k, hk, hki⟩
    · exact ⟨.reader 2, by simp, k, hk, hki⟩
    · exact ⟨.reader 3, by simp, k, hk, hki⟩
  · rintro ⟨role, hrole, k, hk, hki⟩
    simp only [State.readers, Slots.handles, List.mem_map, List.mem_append, Option.mem_toList]
    refine ⟨k, ?_, hki⟩
    rcases Role.cases_seated (Ring.seated_of_place hk) with rfl | rfl | rfl | rfl
    · exact absurd rfl hrole
    · exact .inl (.inl hk)
    · exact .inl (.inr hk)
    · exact .inr hk

theorem Agree.reader_named (h : Agree X R s) {r : Fin 16} {i : Fin 32} (hi : i ∈ s.readers r) :
    (s.att i).inUse = true ∧ (s.att i).ring = r ∧ (s.att i).role ≠ .producer := by
  obtain ⟨role, hrole, k, hk, rfl⟩ := mem_readers.mp hi
  obtain ⟨hu, -, hr, hro⟩ := h.linked.named r role k hk
  exact ⟨hu, hr, fun e => hrole (hro.symm.trans e)⟩

/-- No record stands in two slots of a ring. -/
theorem Agree.readers_nodup (h : Agree X R s) (r : Fin 16) : (s.readers r).Nodup := by
  have role1 : ∀ k, (s.ring r).slots.one = some k → (s.att k.index).role = .reader 1 := fun k hk =>
    (h.linked.named r (.reader 1) k hk).2.2.2
  have role2 : ∀ k, (s.ring r).slots.two = some k → (s.att k.index).role = .reader 2 := fun k hk =>
    (h.linked.named r (.reader 2) k hk).2.2.2
  have role3 : ∀ k, (s.ring r).slots.three = some k → (s.att k.index).role = .reader 3 := fun k hk =>
    (h.linked.named r (.reader 3) k hk).2.2.2
  have apart : ∀ {a b : Handle} {m n : Fin 4}, (s.att a.index).role = .reader m → (s.att b.index).role = .reader n → m ≠ n →
      a.index ≠ b.index := by
    intro a b m n ha hb hmn e
    rw [e, hb] at ha
    exact hmn (Role.reader.inj ha).symm
  unfold State.readers Slots.handles
  rcases h1 : (s.ring r).slots.one with _ | a <;> rcases h2 : (s.ring r).slots.two with _ | b <;>
    rcases h3 : (s.ring r).slots.three with _ | c <;> simp
  · exact apart (role2 b h2) (role3 c h3) (by decide)
  · exact apart (role1 a h1) (role3 c h3) (by decide)
  · exact apart (role1 a h1) (role2 b h2) (by decide)
  · exact ⟨⟨apart (role1 a h1) (role2 b h2) (by decide), apart (role1 a h1) (role3 c h3) (by decide)⟩,
      apart (role2 b h2) (role3 c h3) (by decide)⟩

/-- The readers of a ring are brought up to date one after another (R29). -/
theorem Agree.pushReaders (r : Fin 16) : ∀ (l : List (Fin 32)) {s : State}, Agree X R s → l.Nodup →
    (∀ i ∈ l, (s.att i).inUse = true ∧ (s.att i).ring = r ∧
      ((s.att i).fill < (s.ring r).capacity → (s.att i).fill + 1 ≤ (s.ring r).valid)) →
    Agree X R (l.foldl (Machine.pushReader (s.ring r).capacity) s)
  | [], _, h, _, _ => h
  | i :: l, s, h, hn, hl => by
    obtain ⟨hi, hr, hroom⟩ := hl i (by simp)
    subst hr
    have hstep := h.pushReader hi hroom
    have ih := Agree.pushReaders (s.att i).ring l hstep (List.nodup_cons.mp hn).2 fun j hj => by
      have hji : j ≠ i := fun e => (List.nodup_cons.mp hn).1 (e ▸ hj)
      rw [att_pushReader_ne s _ hji, ring_pushReader]
      exact hl j (List.mem_cons_of_mem _ hj)
    rw [ring_pushReader] at ih
    exact ih

/-- The counters of a ring after a stored push (R4, R5). -/
theorem Ring.Counts.afterPush {g : Ring} (h : g.Counts) (hu : g.state ≠ .free) (hc : 0 < g.capacity) (ofFrame : Bool) :
    (g.afterPush ofFrame).Counts where
  freed hf := absurd hf hu
  circular hm := by
    obtain ⟨hv, hw⟩ := h.circular hm
    have hw := hw hu
    change (g.afterPush ofFrame).valid ≤ g.capacity ∧ (_ → (g.afterPush ofFrame).writePos < g.capacity)
    have hm' : g.mode = .circular := hm
    simp only [Ring.afterPush, hm']
    refine ⟨?_, fun _ => ?_⟩ <;> split <;> omega
  onePass hm := by
    have hm' : g.mode = .onePass := hm
    simp only [Ring.afterPush, hm', h.onePass hm]

/-- Valid does not fall at a push, and rises unless it is at C. -/
theorem valid_afterPush (g : Ring) (ofFrame : Bool) :
    g.valid ≤ (g.afterPush ofFrame).valid ∧ (g.valid < g.capacity → g.valid + 1 ≤ (g.afterPush ofFrame).valid) := by
  simp only [Ring.afterPush]
  cases g.mode
  · dsimp only
    split <;> omega
  · dsimp only
    omega

theorem Agree.storePush (h : Agree X R s) {r : Fin 16} (hr : (s.ring r).state ≠ .free) (ofFrame : Bool) (w : Word) :
    Agree X R (storePush r ofFrame w s) := by
  obtain ⟨hmono, hrise⟩ := valid_afterPush (s.ring r) ofFrame
  have h1 : Agree X R ((s.setRingWord r (s.ring r).writePos w).setRing r ((s.ring r).afterPush ofFrame)) := by
    refine h.of_bonds (bonds_setRing _ r _ rfl)
      (Counted.setRing (h.counted.of_same rfl rfl) ((h.counted.ring r).afterPush hr (h.capacity_pos hr) ofFrame) ?_)
    intro i (hi : (s.att i).inUse = true) (hir : (s.att i).ring = r)
    obtain ⟨hv, hrest⟩ := h.counted.cursor i hi
    rw [hir] at hv hrest
    exact ⟨hv.trans hmono, hrest⟩
  have h2 := Agree.pushReaders r (s.readers r) h1 (h.readers_nodup r) fun i hi => by
    obtain ⟨hu, hir, -⟩ := h.reader_named hi
    obtain ⟨hv, hcap, -⟩ := h.counted.cursor i hu
    rw [hir] at hv hcap
    refine ⟨hu, hir, fun hlt => ?_⟩
    rw [State.ring_setRing_same] at hlt ⊢
    change (s.att i).fill < (s.ring r).capacity at hlt
    change (s.att i).fill + 1 ≤ _
    by_cases hfull : (s.ring r).valid < (s.ring r).capacity
    · have := hrise hfull
      omega
    · omega
  rw [State.ring_setRing_same] at h2
  have h3 := h2.spaceChanged r (s.space r)
  unfold Machine.storePush
  dsimp only
  split
  · rename_i k hk
    refine h3.renewLease ?_
    have hb : (Machine.spaceChanged r (s.space r) ((s.readers r).foldl (Machine.pushReader (s.ring r).capacity)
        ((s.setRingWord r (s.ring r).writePos w).setRing r ((s.ring r).afterPush ofFrame)))).bonds = s.bonds := by
      rw [bonds_spaceChanged, foldl_keeps State.bonds _ (fun t j => bonds_pushReader t _ j)]
      exact bonds_setRing _ r _ rfl
    exact (Attachment.of_bond (att_of_bonds hb k.index)).1.trans (h.producer_named hk).1
  · exact h3

/-! ### Pop -/

/-- A pop that can be answered brings a legal cursor to a legal cursor (R32, R35, R48). -/
theorem cursorLegal_afterPop {x : Attachment} {g : Ring} (hx : x.cursorLegal g) (hp : x.canPop = true) :
    x.afterPop.cursorLegal g := by
  obtain ⟨hv, hcap, hskip, hprog⟩ := hx
  cases ho : x.order with
  | natural =>
    have hzero : x.progress = 0 := by
      by_contra hne
      have := (hprog (Nat.pos_of_ne_zero hne)).1
      simp [ho] at this
    simp only [Attachment.cursorLegal, Attachment.afterPop, ho]
    refine ⟨by omega, by omega, fun hs => ?_, fun h0 => absurd h0 (by omega)⟩
    rw [hskip hs]
  | reversedBlock =>
    have hblock : x.blockSize ≤ x.fill := by
      simp only [Attachment.canPop, ho, Bool.or_eq_true, decide_eq_true_eq] at hp
      exact hp.elim (fun h0 => (hprog h0).2) id
    have hB : 0 < x.blockSize := Nat.two_pow_pos _
    have hskip0 : x.skip = 0 := by
      by_contra hne
      have := hskip (Nat.pos_of_ne_zero hne)
      omega
    simp only [Attachment.cursorLegal, Attachment.afterPop, ho, hskip0]
    refine ⟨?_, ?_, fun h0 => absurd h0 (by omega), fun h0 => ⟨trivial, ?_⟩⟩
    · split <;> omega
    · split <;> omega
    · change x.blockSize ≤ _
      split at h0
      · omega
      · rename_i hne
        rw [if_neg hne]
        exact hblock

theorem canPop_of_data {i : Fin 32} {w : Word} (hj : s.judgePop i = .data w) : (s.att i).canPop = true := by
  unfold State.judgePop at hj
  by_contra hne
  rw [if_neg hne] at hj
  split at hj <;> simp at hj

theorem Agree.takePop (h : Agree X R s) {i : Fin 32} (hi : (s.att i).inUse = true) : Agree X R (takePop i s) := by
  unfold Machine.takePop
  split
  · rename_i w hw
    exact (h.setAtt hi (x := (s.att i).afterPop) rfl (cursorLegal_afterPop (h.counted.cursor i hi) (canPop_of_data hw))).spaceChanged _ _
  · exact h.reportEnd hi
  · exact h

/-! ### Re-examination -/

theorem inUse_of_current {k : Handle} (hk : s.current k = true) : (s.att k.index).inUse = true := by
  simp only [State.current, Bool.and_eq_true] at hk
  exact hk.1

theorem Agree.examineWaiting (h : Agree X R s) (r : Fin 16) (p : ParPort) : Agree X R (examineWaiting r p s) := by
  unfold Machine.examineWaiting
  split
  · exact h
  · rename_i x _
    dsimp only
    split
    · rename_i hc
      simp only [Bool.and_eq_true, beq_iff_eq] at hc
      obtain ⟨⟨hcur, hring⟩, -⟩ := hc
      have hi := inUse_of_current hcur
      have h0 : Agree X R (s.setWaiting p none) := h.of_tables rfl
      split
      · split
        · exact (h0.takePop hi).of_tables (tables_answerCycle _ _ _ _)
        · exact (h0.takePop hi).of_tables (tables_answerFill _ _ _)
        · exact h
      · split
        · exact (h0.storePush (r := r) (hring ▸ h.ring_used hi) _ _).of_tables (tables_answerCycle _ _ _ _)
        · exact h
        · exact h
    · exact h

theorem Agree.reexamine (h : Agree X R s) (r : Fin 16) : Agree X R (reexamine r s) :=
  ((h.examineWaiting r .a).examineWaiting r .b).examineWaiting r .a

theorem Agree.pushAct (h : Agree X R s) {r : Fin 16} (hr : (s.ring r).state ≠ .free) (ofFrame : Bool) (w : Word) :
    Agree X R (pushAct r ofFrame w s) := (h.storePush hr ofFrame w).reexamine r

theorem Agree.popAct (h : Agree X R s) {i : Fin 32} (hi : (s.att i).inUse = true) : Agree X R (popAct i s) := by
  unfold Machine.popAct
  split
  · exact (h.takePop hi).reexamine _
  · exact h.takePop hi
  · exact h

theorem Agree.sealReader (h : Agree X R s) {i : Fin 32} (hi : (s.att i).inUse = true) : Agree X R (sealReader s i) := by
  unfold Machine.sealReader
  split
  · exact h.reportEnd hi
  · exact h

/-- A fold of operations on records in use that keep the bonds. -/
theorem Agree.foldl_inUse {f : State → Fin 32 → State} (hb : ∀ t i, (f t i).bonds = t.bonds)
    (hf : ∀ (t : State) i, Agree X R t → (t.att i).inUse = true → Agree X R (f t i)) :
    ∀ (l : List (Fin 32)) {s : State}, Agree X R s → (∀ i ∈ l, (s.att i).inUse = true) → Agree X R (l.foldl f s)
  | [], _, h, _ => h
  | i :: l, s, h, hl => by
    refine Agree.foldl_inUse hb hf l (hf s i h (hl i (by simp))) fun j hj => ?_
    exact (Attachment.of_bond (att_of_bonds (hb s i) j)).1.trans (hl j (List.mem_cons_of_mem _ hj))

end

end Sys2Proof.Machine
end

