-- ==== Sys2Proof/Proofs/Departures.lean ====
section
/-! PROOF. Detaches, seals, unloads and withdrawals keep the tables in agreement: an attachment that leaves is named by no entry but the
one that is being unloaded, its ring is freed with its last attachment, and a seal passes on to destinations their entries have let go. -/

namespace Sys2Proof.Machine

/-! ### Pages given back (R62) -/

theorem tableGet_markPages (owner : Option (Fin 16)) (q n : Nat) (m : Vector (Option (Fin 16)) 128) (k : Fin 128) :
    tableGet (markPages owner q n m) k = if q ≤ k.val ∧ k.val < q + n then owner else tableGet m k := by
  simp [tableGet_eq, markPages]

section
variable {X X' R : Option (Fin 16)} {s : State}

/-- A ring that may have lost its last attachment is freed with its pages, or stands (R15, R62). -/
theorem Agree.freeIfEmpty {r : Fin 16} (h : Agree X (some r) s) : Agree X none (freeIfEmpty r s) := by
  unfold Machine.freeIfEmpty
  dsimp only
  split
  · rename_i hfree
    obtain ⟨hstate, hcount⟩ := hfree
    have hempty := Ring.attachmentCount_eq_zero.mp hcount
    refine ⟨?_, Counted.setRing (h.counted.of_same rfl rfl) ⟨fun _ => ⟨rfl, rfl, rfl⟩, fun _ => ⟨Nat.le_refl _, fun hf => absurd rfl hf⟩,
      fun hm => by simp [Ring.freed] at hm⟩ fun i hi hir => ?_⟩
    · rw [bonds_setRing_eq]
      refine h.linked.setRing (fun role => ?_) (fun _ => rfl) (fun _ => rfl) (fun hf => absurd rfl hf) (fun r' hr' _ => ?_)
        (fun _ _ => rfl) fun q r' => ?_
      · exact (Ring.attachmentCount_eq_zero.mp (show Ring.freed.attachmentCount = 0 from rfl) role).trans (hempty role).symm
      · exact fun e => hr' (Option.some.inj e).symm
      · have hp := h.linked.pages q
        rw [bonds_pageMap, State.setPageMap_pageMap, tableGet_markPages]
        by_cases hr : r' = r
        · subst hr
          have hown := hp r'
          simp only [if_true]
          split
          · exact iff_of_false (by simp) fun hf => absurd rfl hf.1
          · rename_i hout
            refine ⟨fun hq => absurd ((hown.mp hq).2) hout, fun hf => absurd rfl hf.1⟩
        · simp only [hr, if_false]
          split
          · rename_i hin
            have : tableGet s.bonds.pageMap q = some r := (hp r).mpr ⟨hstate, hin⟩
            refine ⟨fun hq => by simp at hq, fun hq => ?_⟩
            rw [this] at hq
            exact absurd (Option.some.inj hq).symm hr
          · rfl
    · have hp := h.linked.placed i hi
      rw [show s.bonds.ring (s.bonds.att i).ring = (s.ring r).bond from by rw [← hir]; rfl, Ring.place_bond, hempty] at hp
      exact absurd hp (by simp)
  · rename_i hfree
    refine ⟨h.linked.settled ?_, h.counted⟩
    by_cases hf : (s.ring r).state = .free
    · exact .inr hf
    · exact .inl fun hc => hfree ⟨hf, hc⟩

/-! ### An attachment that may leave -/

/-- A move entry names no handle of a record. -/
def MoveEntry.Unnamed (m : MoveEntry) (i : Fin 32) : Prop :=
  (∀ k, m.source = some k → k.index ≠ i) ∧ ∀ k, m.dest = some k → k.index ≠ i

/-- An attachment in use may leave: no entry names it but the one, `X'`, that is being unloaded, whose source is then gone. -/
structure Leaves (X X' : Option (Fin 16)) (s : State) (i : Fin 32) : Prop where
  inUse : (s.att i).inUse = true
  other : ∀ e, X' ≠ some e → X ≠ some e ∧ (s.move e).Unnamed i
  gone : ∀ e, X' = some e → ∀ k, (s.move e).source = some k → k.index = i ∨ (s.att k.index).inUse = false

theorem Leaves.of_tables {t : State} {i : Fin 32} (h : Leaves X X' s i) (ht : t.tables = s.tables) : Leaves X X' t i where
  inUse := att_of_tables ht i ▸ h.inUse
  other e he := move_of_tables ht e ▸ h.other e he
  gone e he k hk := by
    rw [att_of_tables ht]
    exact h.gone e he k (move_of_tables ht e ▸ hk)

/-- An entry names only what it holds. -/
theorem Agree.unnamed (h : Agree X R s) {e : Fin 16} {i : Fin 32} (he : X ≠ some e) (hi : (s.att i).holder ≠ .entry e) :
    (s.move e).Unnamed i := by
  have hold := h.linked.entry e he
  constructor
  · rintro k hk rfl
    exact hi (hold.source k hk).1.2.2
  · rintro k hk rfl
    exact hi (hold.dest k hk).1.2.2

/-- An attachment that a port holds may leave. -/
theorem Agree.leaves_of_port (h : Agree X R s) {i : Fin 32} {p : Port} (hi : (s.att i).inUse = true)
    (hp : (s.att i).holder = .port p) : Leaves X X s i where
  inUse := hi
  other e he := ⟨he, h.unnamed he (by simp [hp])⟩
  gone e he k hk := .inr (h.linked.gone e he k hk)

/-- The source of an entry may leave when the entry is unloaded. -/
theorem Agree.leaves_of_source (h : Agree none R s) {e : Fin 16} {k : Handle} (hk : (s.move e).source = some k) :
    Leaves none (some e) s k.index where
  inUse := ((h.linked.entry e (by simp)).source k hk).1.1
  other e' he := ⟨by simp, h.unnamed (by simp) fun hh => by
    have hheld := ((h.linked.entry e (by simp)).source k hk).1.2.2
    exact he (by rw [Holder.entry.inj (hheld.symm.trans hh)])⟩
  gone e' he k' hk' := by
    obtain rfl := Option.some.inj he
    rw [hk] at hk'
    exact .inl (by rw [Option.some.inj hk'])

/-- What an entry that is being unloaded holds may leave. -/
theorem Agree.leaves_of_unloading {e : Fin 16} (h : Agree (some e) R s) {i : Fin 32} (hi : (s.att i).inUse = true)
    (he : (s.att i).holder = .entry e) : Leaves (some e) (some e) s i where
  inUse := hi
  other e' he' := ⟨he', h.unnamed he' fun hh => he' (by rw [Holder.entry.inj (he.symm.trans hh)])⟩
  gone e' he' k hk := .inr (h.linked.gone e' he' k hk)

/-! ### The record freed, the place emptied -/

/-- The state after an attachment has left its place and its record is freed (R41, R42). -/
def State.left (s : State) (i : Fin 32) : State :=
  freeRecord i (s.setRing (s.att i).ring ((s.ring (s.att i).ring).setPlace (s.att i).role none))

theorem bonds_left (s : State) (i : Fin 32) : (s.left i).bonds = s.bonds.vacate i := by
  unfold State.left freeRecord Bonds.vacate
  rw [bonds_setAtt_eq, bonds_setRing_eq, Ring.setPlace_bond]
  rfl

theorem Agree.left (h : Agree X none s) {i : Fin 32} (hl : Leaves X X' s i) :
    Agree X' (some (s.att i).ring) (s.left i) := by
  refine ⟨?_, ?_⟩
  · rw [bonds_left]
    exact h.linked.vacate hl.inUse (fun e he => (hl.other e he).1) (fun e he => (hl.other e he).2) hl.gone
  · refine Counted.setAtt (Counted.setRing h.counted ?_ fun j hj hjr => ?_) (fun _ => rfl) fun hu => by simp [Attachment.freed] at hu
    · have hc := h.counted.ring (s.att i).ring
      exact ⟨by simpa using hc.freed, by simpa using hc.circular, by simpa using hc.onePass⟩
    · simpa [Attachment.cursorLegal, hjr] using h.counted.cursor j hj

/-- Removing a handle from the slots empties the place it stands in. -/
theorem remove_eq_setPlace {g : Ring} {role : Role} {k : Handle} (hrole : role ≠ .producer) (hk : g.place role = some k)
    (hone : ∀ role', g.place role' = some k → role' = role) : { g with slots := g.slots.remove k } = g.setPlace role none := by
  have keep : ∀ role', role' ≠ role → g.place role' ≠ some k := fun role' hne h => hne (hone role' h)
  have k1 := keep (.reader 1)
  have k2 := keep (.reader 2)
  have k3 := keep (.reader 3)
  simp only [Ring.place] at k1 k2 k3
  rcases Role.cases_seated (Ring.seated_of_place hk) with rfl | rfl | rfl | rfl
  · exact absurd rfl hrole
  · have hk' : g.slots.one = some k := hk
    simp [Ring.setPlace, Slots.remove, hk', k2, k3]
  · have hk' : g.slots.two = some k := hk
    simp [Ring.setPlace, Slots.remove, hk', k1, k3]
  · have hk' : g.slots.three = some k := hk
    simp [Ring.setPlace, Slots.remove, hk', k1, k2]

/-- A reader's handle taken from the slots is its place emptied (R41). -/
theorem Agree.left_of_reader (h : Agree X R s) {i : Fin 32} (hi : (s.att i).inUse = true) (hrole : (s.att i).role ≠ .producer) :
    freeRecord i (s.setRing (s.att i).ring
      { s.ring (s.att i).ring with slots := (s.ring (s.att i).ring).slots.remove (s.handleAt i) }) = s.left i := by
  have hp : (s.ring (s.att i).ring).place (s.att i).role = some (s.handleAt i) := h.linked.placed i hi
  unfold State.left
  rw [remove_eq_setPlace hrole hp fun role' hp' => (h.linked.place_unique hp hp').2]

/-- A producer's handle taken from the producer field is its place emptied (R42). -/
theorem removeProducer_eq {i : Fin 32} (hrole : (s.att i).role = .producer) :
    removeProducer i s = endWaitingOf (s.handleAt i) (s.left i) := by
  unfold removeProducer State.left
  rw [hrole]
  rfl

/-! ### Detach (R41, R42) -/

theorem Agree.detachReader (h : Agree X none s) {i : Fin 32} (hl : Leaves X X' s i) (hrole : (s.att i).role ≠ .producer) :
    Agree X' none (detachReader i s) := by
  unfold Machine.detachReader
  dsimp only
  rw [h.left_of_reader hl.inUse hrole]
  exact ((((h.left hl).spaceChanged _ _).of_tables (tables_endWaitingOf _ _)).reexamine _).freeIfEmpty

theorem Agree.removeProducer (h : Agree X none s) {i : Fin 32} (hl : Leaves X X' s i) (hrole : (s.att i).role = .producer) :
    Agree X' (some (s.att i).ring) (removeProducer i s) := by
  rw [removeProducer_eq hrole]
  exact (h.left hl).of_tables (tables_endWaitingOf _ _)

theorem Agree.detachProducerOpen (h : Agree X none s) {i : Fin 32} (hl : Leaves X X' s i) (hrole : (s.att i).role = .producer) :
    Agree X' none (detachProducerOpen i s) :=
  ((h.removeProducer hl hrole).reexamine _).freeIfEmpty

/-! ### A move entry with other counts -/

theorem Agree.setMove (h : Agree X R s) {e : Fin 16} {m : MoveEntry} (hm : X ≠ some e → s.bonds.EntryHolds e m.bond)
    (hgone : X = some e → ∀ k, m.source = some k → (s.att k.index).inUse = false)
    (hf : X ≠ some e → ∀ f, s.frame = some f → f.entry = e → m.state = .running) : Agree X R (s.setMove e m) := by
  refine ⟨?_, h.counted.of_same rfl rfl⟩
  rw [bonds_setMove_eq]
  exact h.linked.setMove hm hgone fun he f hfr hfe =>
    (MoveEntry.bond_state (by decide) (by decide)).mpr (hf he f hfr hfe)

/-- The frame in flight is not of an entry that is not RUNNING. -/
theorem Agree.frame_ne (h : Agree X R s) {e : Fin 16} (he : X ≠ some e) (hs : (s.move e).state ≠ .running) :
    ∀ f, s.frame = some f → f.entry ≠ e := by
  rintro f hf rfl
  exact hs ((MoveEntry.bond_state (by decide) (by decide)).mp (h.linked.frame f hf he))

/-- A started or loaded entry stays so, with its names but perhaps its destination let go. -/
theorem Agree.entryHolds (h : Agree X R s) {e : Fin 16} {m : MoveEntry} (he : X ≠ some e) (hs : (s.move e).state ≠ .empty)
    (hs' : m.state ≠ .empty) (ho : m.owner = (s.move e).owner) (hsrc : m.source = (s.move e).source)
    (hd : ∀ k, m.dest = some k → (s.move e).dest = some k) : s.bonds.EntryHolds e m.bond := by
  have hold := h.linked.entry e he
  have hne : ∀ {x : MoveEntry}, x.state ≠ .empty → x.bond.state ≠ .empty := fun hx hb =>
    hx ((MoveEntry.bond_state (by decide) (by decide)).mp hb)
  refine ⟨fun hb => absurd hb (hne hs'), fun _ => ?_, fun k hk => hold.source k (hsrc ▸ hk), fun k hk => hold.dest k (hd k hk)⟩
  obtain ⟨h1, h2⟩ := hold.owned (hne hs)
  exact ⟨fun h0 => h1 (ho ▸ h0), fun h0 => h2 (hsrc ▸ h0)⟩

/-- An entry that holds something and has no frame in flight, with another state and other counts. -/
theorem Agree.setMove_idle (h : Agree X R s) {e : Fin 16} {m : MoveEntry} (he : X ≠ some e) (hs : (s.move e).state ≠ .empty)
    (hr : ∀ f, s.frame = some f → f.entry ≠ e) (hs' : m.state ≠ .empty) (ho : m.owner = (s.move e).owner)
    (hsrc : m.source = (s.move e).source) (hd : ∀ k, m.dest = some k → (s.move e).dest = some k) : Agree X R (s.setMove e m) :=
  h.setMove (fun _ => h.entryHolds he hs hs' ho hsrc hd) (fun hx => absurd hx he) fun _ f hf hfe => absurd hfe (hr f hf)

theorem Agree.haltEntry (h : Agree X R s) {e : Fin 16} (he : X ≠ some e) (hs : (s.move e).state ≠ .empty)
    (hr : ∀ f, s.frame = some f → f.entry ≠ e) (reason : HaltReason) : Agree X R (haltEntry e reason s) :=
  (h.setMove_idle he hs hr (m := { s.move e with state := .halted, haltReason := some reason }) (by simp) rfl rfl
    fun _ hk => hk).of_tables (tables_postMove _ _ _ _)

@[simp] theorem move_haltEntry (s : State) (e : Fin 16) (reason : HaltReason) :
    (haltEntry e reason s).move e = { s.move e with state := .halted, haltReason := some reason } :=
  (move_of_tables (tables_postMove _ _ _ _) e).trans (State.move_setMove_same _ _ _)

@[simp] theorem att_haltEntry (s : State) (e : Fin 16) (reason : HaltReason) (i : Fin 32) :
    (haltEntry e reason s).att i = s.att i := att_of_tables (tables_postMove _ _ _ _) i

/-! ### Seals and what they pass on (R12, R129) -/

/-- The source-ended check of an entry that is not RUNNING: its fill is discarded, it halts, and with propagate end set the producer that
it let go departs (R129). -/
theorem Agree.sourceEndedCheckWith {f : Fin 32 → State → State} (h : Agree X none s) {e : Fin 16} (he : X ≠ some e)
    (hs : (s.move e).state ≠ .empty) (hr : (s.move e).state ≠ .running)
    (hf : ∀ (t : State) i, Agree X none t → Leaves X X t i → (t.att i).role = .producer → Agree X none (f i t)) :
    Agree X none (sourceEndedCheckWith f e s) := by
  have hold := h.linked.entry e he
  unfold Machine.sourceEndedCheckWith
  split
  case isFalse => exact h
  rcases hsrc : (s.move e).source with _ | k
  · exact absurd hsrc (hold.owned fun hb => hs ((MoveEntry.bond_state (by decide) (by decide)).mp hb)).2
  obtain ⟨⟨hku, -, hkh⟩, hkr, hko⟩ := hold.source k hsrc
  dsimp only
  have h1 : Agree X none (s.setAtt k.index { s.att k.index with fill := 0 }) := by
    obtain ⟨-, -, -, hprog⟩ := h.counted.cursor k.index hku
    refine h.setAtt hku rfl ⟨Nat.zero_le _, Nat.zero_le _, fun _ => rfl, fun hp => ?_⟩
    have hrev : (s.att k.index).order = .reversedBlock := (hprog hp).1
    exact absurd (hrev.symm.trans hko) (by simp)
  have h2 := h1.haltEntry he hs (h1.frame_ne he hr) .sourceEnded
  split
  case isFalse => exact h2
  rcases hdst : (s.move e).dest with _ | d
  · exact h2
  obtain ⟨⟨hdu, -, hdh⟩, hdr⟩ := hold.dest d hdst
  have hdk : d.index ≠ k.index := fun hi => hkr (hi ▸ hdr)
  generalize hs2 : Machine.haltEntry e .sourceEnded (s.setAtt k.index { s.att k.index with fill := 0 }) = s2 at h2 ⊢
  have hm2 : s2.move e = { s.move e with state := .halted, haltReason := some .sourceEnded } := by
    rw [← hs2, move_haltEntry]
    rfl
  have hd2 : s2.att d.index = s.att d.index := by
    rw [← hs2, att_haltEntry, State.att_setAtt, if_neg hdk]
  have h3 : Agree X none (s2.setMove e { s2.move e with dest := none }) :=
    h2.setMove_idle he (by simp [hm2]) (h2.frame_ne he (by simp [hm2])) (by simp [hm2]) rfl rfl fun _ hk => by simp at hk
  refine hf _ _ h3 ⟨?_, fun e' he' => ⟨he', ?_⟩, fun e' he' k' hk' => ?_⟩ ?_
  · rw [State.setMove_att, hd2]
    exact hdu
  · by_cases hee : e' = e
    · subst hee
      rw [State.move_setMove_same]
      refine ⟨fun k' hk' => ?_, fun k' hk' => by simp at hk'⟩
      rw [hm2] at hk'
      obtain rfl := Option.some.inj (hsrc.symm.trans hk')
      exact fun hi => hdk hi.symm
    · refine h3.unnamed he' ?_
      rw [State.setMove_att, hd2]
      exact fun hh => hee (Holder.entry.inj (hdh.symm.trans hh)).symm
  · exact .inr (h3.linked.gone e' he' k' hk')
  · rw [State.setMove_att, hd2]
    exact hdr

/-- A ring sealed without producer and with a reader left agrees again (R12). -/
theorem Agree.seal {r : Fin 16} (h : Agree X (some r) s) (hp : (s.ring r).producer = none)
    (hc : (s.ring r).attachmentCount ≠ 0) (cause : SealCause) :
    Agree X none (s.setRing r { s.ring r with state := .sealed, sealCause := some cause }) := by
  have hused : (s.ring r).state ≠ .free := fun hf => hc (by rw [h.ring_free hf]; rfl)
  have hcounts := h.counted.ring r
  refine ⟨?_, h.counted.setRing ⟨fun hf => by simp at hf, fun hm => ?_, hcounts.onePass⟩ fun i hi hir => ?_⟩
  · rw [bonds_setRing_eq]
    refine h.linked.setRing (fun _ => rfl) (fun hf => by simp [Ring.bond] at hf) (fun _ => hp) (fun _ => h.linked.run r hused)
      (fun r' hr' _ e => hr' (Option.some.inj e).symm) (fun _ h0 => absurd h0 hc) fun q r' => ?_
    split
    · rename_i hr
      subst hr
      refine (h.linked.pages q r').trans (and_congr_left fun _ => ?_)
      exact iff_of_true hused (by simp [Ring.bond])
    · rfl
  · obtain ⟨hv, hw⟩ := hcounts.circular hm
    exact ⟨hv, fun _ => hw hused⟩
  · have hcur := h.counted.cursor i hi
    rw [hir] at hcur
    exact hcur

/-- An entry that a seal checks is not being unloaded, since its source is current, and is ARMED or WAITING. -/
theorem Agree.of_checkedAtSeal (h : Agree X R s) {r e : Fin 16} (hc : s.checkedAtSeal r e = true) :
    X ≠ some e ∧ (s.move e).state ≠ .empty ∧ (s.move e).state ≠ .running := by
  simp only [State.checkedAtSeal, State.entryReads, Bool.and_eq_true, Bool.or_eq_true, beq_iff_eq] at hc
  obtain ⟨hread, hstate⟩ := hc
  refine ⟨fun hX => ?_, ?_, ?_⟩
  · split at hread
    · rename_i k hk
      simp only [Bool.and_eq_true] at hread
      have hgone : (s.att k.index).inUse = false := h.linked.gone e hX k hk
      exact absurd (inUse_of_current hread.1) (by simp [hgone])
    · simp at hread
  all_goals rcases hstate with h' | h' <;> simp [h']

theorem Agree.sealProducer : ∀ (depth : Nat) {X X' : Option (Fin 16)} {s : State} {i : Fin 32}, Agree X none s → Leaves X X' s i →
    (s.att i).role = .producer → ∀ cause : SealCause, Agree X' none (sealProducer depth cause i s)
  | depth, X, X', s, i, h, hl, hrole, cause => by
    have h1 := h.removeProducer hl hrole
    have hp : ((Machine.removeProducer i s).ring (s.att i).ring).producer = none := by
      rw [removeProducer_eq hrole, ring_of_tables (tables_endWaitingOf _ _)]
      simp [State.left, freeRecord, hrole, Ring.setPlace]
    unfold Machine.sealProducer
    dsimp only
    split
    · exact h1.freeIfEmpty
    · rename_i hcount
      have h2 := h1.seal hp hcount cause
      generalize (Machine.removeProducer i s).setRing (s.att i).ring
        { (Machine.removeProducer i s).ring (s.att i).ring with state := .sealed, sealCause := some cause } = s2 at h2 ⊢
      have h3 := Agree.foldl_inUse bonds_sealReader (fun t j ht hj => ht.sealReader hj) (s2.readers (s.att i).ring) h2
        fun j hj => (h2.reader_named hj).1
      have h4 := h3.reexamine (s.att i).ring
      cases depth with
      | zero => exact h4
      | succ depth =>
        refine List.foldlRecOn (motive := Agree X' none) _ _ h4 fun t ht e _ => ?_
        split
        · rename_i hc
          obtain ⟨he, hs, hr⟩ := ht.of_checkedAtSeal hc
          exact ht.sourceEndedCheckWith he hs hr fun u j hu hj hjr => Agree.sealProducer depth hu hj hjr .sourceEnded
        · exact ht

theorem Agree.sealBy (h : Agree X none s) {i : Fin 32} (hl : Leaves X X' s i) (hrole : (s.att i).role = .producer)
    (cause : SealCause) : Agree X' none (sealBy cause i s) := Agree.sealProducer _ h hl hrole cause

theorem Agree.sourceEndedCheck (h : Agree X none s) {e : Fin 16} (he : X ≠ some e) (hs : (s.move e).state ≠ .empty)
    (hr : (s.move e).state ≠ .running) : Agree X none (sourceEndedCheck e s) :=
  h.sourceEndedCheckWith he hs hr fun _ _ ht hl hrole => ht.sealBy hl hrole .sourceEnded

/-! ### Involuntary detach (R77, R83) -/

theorem Agree.detachLost (h : Agree X none s) {i : Fin 32} (hl : Leaves X X' s i) : Agree X' none (detachLost i s) := by
  unfold Machine.detachLost
  split
  · rename_i slot hrole
    exact h.detachReader hl (by simp [hrole])
  · rename_i hrole
    exact h.sealBy hl hrole .producerLost

theorem Agree.withdrawAttachment (h : Agree X none s) {i : Fin 32} (hl : Leaves X X' s i) (remains : Attachment → Bool) :
    Agree X' none (withdrawAttachment remains i s) :=
  (h.of_tables (tables_postPeerLost _ _ _ _)).detachLost (hl.of_tables (tables_postPeerLost _ _ _ _))

/-- A lease that has run out is a port's (R119), so its attachment may leave. -/
theorem Agree.expireLease (h : Agree X none s) {i : Fin 32} (hi : (s.att i).expired = true) : Agree X none (expireLease i s) := by
  simp only [Attachment.expired, Bool.and_eq_true, decide_eq_true_eq] at hi
  obtain ⟨⟨hu, hlease⟩, -⟩ := hi
  have hl : Leaves X X s i := by
    rcases hh : (s.att i).holder with p | e
    · exact h.leaves_of_port hu hh
    · have hzero : (s.att i).leasePeriod = 0 := h.linked.unleased i e hu hh
      omega
  have ht : (postPeerLost i false (fun _ => true) (postAbout i .leaseExpired (word (s.att i).leasePeriod) s)).tables = s.tables :=
    (tables_postPeerLost _ _ _ _).trans (tables_postAbout _ _ _ _)
  exact (h.of_tables ht).detachLost (hl.of_tables ht)

end

/-! ### What a reader's detach leaves -/

section
variable (s : State)

theorem freeIfEmpty_others (r : Fin 16) :
    (freeIfEmpty r s).atts = s.atts ∧ (freeIfEmpty r s).moves = s.moves ∧ (freeIfEmpty r s).frame = s.frame := by
  unfold freeIfEmpty
  dsimp only
  split <;> exact ⟨rfl, rfl, rfl⟩

theorem bonds_before_free (i : Fin 32) :
    (reexamine (s.att i).ring (endWaitingOf (s.handleAt i) (spaceChanged (s.att i).ring (s.space (s.att i).ring)
      (freeRecord i (s.setRing (s.att i).ring
        { s.ring (s.att i).ring with slots := (s.ring (s.att i).ring).slots.remove (s.handleAt i) }))))).bonds =
      (freeRecord i (s.setRing (s.att i).ring
        { s.ring (s.att i).ring with slots := (s.ring (s.att i).ring).slots.remove (s.handleAt i) })).bonds := by
  simp

theorem att_detachReader_ne {i j : Fin 32} (h : j ≠ i) : ((detachReader i s).att j).bond = (s.att j).bond := by
  unfold detachReader
  dsimp only
  rw [show ∀ t : State, (freeIfEmpty (s.att i).ring t).att j = t.att j from fun t =>
    congrArg (tableGet · j) (freeIfEmpty_others t _).1, att_of_bonds (bonds_before_free s i) j]
  simp [freeRecord, State.att_setAtt, h]

theorem move_detachReader (i : Fin 32) (e : Fin 16) : ((detachReader i s).move e).bond = (s.move e).bond := by
  unfold detachReader
  dsimp only
  rw [show ∀ t : State, (freeIfEmpty (s.att i).ring t).move e = t.move e from fun t =>
    congrArg (tableGet · e) (freeIfEmpty_others t _).2.1, move_of_bonds (bonds_before_free s i) e]
  rfl

end

/-! ### Unloads (R84, R124, R132) -/

section
variable {s : State}

/-- A chain that may free keeps the frame in flight. -/
theorem frame_of_steps {t : State} (h : RingSteps ⟨true, false, true⟩ s t) : t.frame = s.frame := h.keeps.frame

/-- The source of an entry has been detached, and its destination, if any, still stands. -/
structure SourceGone (e : Fin 16) (s t : State) : Prop where
  agree : Agree (some e) none t
  dest : (t.move e).dest = (s.move e).dest
  stands : ∀ d, (s.move e).dest = some d → (t.att d.index).inUse = true ∧ (t.att d.index).holder = .entry e ∧
    (t.att d.index).role = .producer

theorem Agree.sourceGone_of_none (h : Agree none none s) {e : Fin 16} (hsrc : (s.move e).source = none) : SourceGone e s s where
  agree := ⟨h.linked.except fun k hk => by
    have hk' : (s.move e).source = some k := hk
    simp [hsrc] at hk', h.counted⟩
  dest := rfl
  stands d hd := by
    obtain ⟨⟨h1, -, h2⟩, h3⟩ := (h.linked.entry e (by simp)).dest d hd
    exact ⟨h1, h2, h3⟩

theorem Agree.sourceGone_of_detach (h : Agree none none s) {e : Fin 16} {k : Handle} (hsrc : (s.move e).source = some k) :
    SourceGone e s (Machine.detachReader k.index s) := by
  have hold := h.linked.entry e (by simp)
  have hkr : (s.att k.index).role ≠ .producer := (hold.source k hsrc).2.1
  refine ⟨h.detachReader (h.leaves_of_source hsrc) hkr, (MoveEntry.of_bond (move_detachReader s k.index e)).2.2, fun d hd => ?_⟩
  obtain ⟨⟨h1, -, h2⟩, h3⟩ := hold.dest d hd
  obtain ⟨hu, -, -, hrole, hh, -⟩ := Attachment.of_bond (att_detachReader_ne s (i := k.index) (j := d.index) fun hi => hkr (hi ▸ h3))
  exact ⟨hu.trans h1, hh.trans h2, hrole.trans h3⟩

/-- The entry that is unloaded is emptied; a frame of it may still stand. -/
theorem Agree.clearEntry {e : Fin 16} (h : Agree (some e) none s) : Agree (some e) none (s.setMove e MoveEntry.cleared) :=
  h.setMove (fun hX => absurd rfl hX) (fun _ k hk => by simp [MoveEntry.cleared] at hk) fun hX => absurd rfl hX

/-- An emptied entry is as any other once no frame of it stands. -/
theorem Agree.readmit {e : Fin 16} (h : Agree (some e) none s) (he : s.move e = MoveEntry.cleared)
    (hf : ∀ f, s.frame = some f → f.entry ≠ e) : Agree none none s := by
  refine ⟨h.linked.readmit ⟨fun _ => ?_, fun hs => ?_, fun k hk => ?_, fun k hk => ?_⟩ hf, h.counted⟩
  · rw [bonds_move, he]; rfl
  · rw [bonds_move, he] at hs; exact absurd rfl hs
  · rw [bonds_move, he] at hk; simp [MoveEntry.cleared, MoveEntry.bond] at hk
  · rw [bonds_move, he] at hk; simp [MoveEntry.cleared, MoveEntry.bond] at hk

/-- A voluntary unload of an entry that is not RUNNING (R124). -/
theorem Agree.unloadVoluntary (h : Agree none none s) {e : Fin 16} (hr : (s.move e).state ≠ .running) :
    Agree none none (unloadVoluntary e s) := by
  have hframe := frame_of_steps (steps_unloadVoluntary rfl e s (.inl rfl))
  refine Agree.readmit ?_ (State.move_setMove_same _ _ _) (hframe ▸ h.frame_ne (by simp) hr)
  have gone : SourceGone e s (match (s.move e).source with
      | some k => Machine.detachReader k.index s
      | none => s) := by
    split
    · rename_i k hk
      exact h.sourceGone_of_detach hk
    · rename_i hk
      exact h.sourceGone_of_none hk
  refine Agree.clearEntry ?_
  split
  · rename_i d hd
    obtain ⟨hu, hh, hrole⟩ := gone.stands d hd
    exact gone.agree.detachProducerOpen (gone.agree.leaves_of_unloading hu hh) hrole
  · exact gone.agree

theorem tables_withdrawn_reader {remains : Attachment → Bool} {i : Fin 32} (hrole : (s.att i).role ≠ .producer) :
    withdrawAttachment remains i s = detachReader i (postPeerLost i true remains s) := by
  unfold withdrawAttachment detachLost
  rw [att_of_tables (tables_postPeerLost s i true remains)]
  split
  · rfl
  · rename_i h
    exact absurd h hrole

/-- An unload by withdrawal, or the deferred one, up to the frame that may stand (R84, R132). -/
theorem Agree.unloadWithdrawn (h : Agree none none s) (remains : Attachment → Bool) (e : Fin 16) :
    Agree (some e) none (unloadWithdrawn remains e s) := by
  have gone : SourceGone e s (match (s.move e).source with
      | some k => Machine.withdrawAttachment remains k.index s
      | none => s) := by
    split
    · rename_i k hk
      have ht := tables_postPeerLost s k.index true remains
      have hkr : (s.att k.index).role ≠ .producer := ((h.linked.entry e (by simp)).source k hk).2.1
      rw [tables_withdrawn_reader hkr]
      have hgone := (h.of_tables ht).sourceGone_of_detach (e := e) (k := k) ((congrArg MoveEntry.source (move_of_tables ht e)).trans hk)
      obtain ⟨ha, hd, hstands⟩ := hgone
      rw [move_of_tables ht e] at hd hstands
      exact ⟨ha, hd, hstands⟩
    · rename_i hk
      exact h.sourceGone_of_none hk
  refine Agree.clearEntry ?_
  split
  · rename_i d hd
    obtain ⟨hu, hh, -⟩ := gone.stands d (gone.dest.symm.trans hd)
    exact gone.agree.withdrawAttachment (gone.agree.leaves_of_unloading hu hh) remains
  · exact gone.agree

@[simp] theorem move_unloadWithdrawn (remains : Attachment → Bool) (e : Fin 16) (s : State) :
    (unloadWithdrawn remains e s).move e = MoveEntry.cleared := State.move_setMove_same _ _ _

/-! ### Withdrawal (R82) -/

theorem Agree.withdrawAttachments (h : Agree none none s) (p : Port) : Agree none none (withdrawAttachments p s) := by
  unfold Machine.withdrawAttachments
  refine List.foldlRecOn (motive := Agree none none) _ _ h fun t ht i _ => ?_
  split
  · rename_i hi
    exact ht.withdrawAttachment (ht.leaves_of_port hi.1 hi.2) _
  · exact ht

theorem Agree.withdrawEntries (h : Agree none none s) (p : Port) : Agree none none (withdrawEntries p s) := by
  unfold Machine.withdrawEntries
  refine List.foldlRecOn (motive := Agree none none) _ _ h fun t ht e _ => ?_
  split
  · split
    · rename_i hrun
      refine ht.setMove (fun _ => ht.entryHolds (by simp) (by simp [hrun]) (by simp [hrun]) rfl rfl fun _ hk => hk)
        (fun hX => by simp at hX) fun _ _ _ _ => hrun
    · rename_i hrun
      refine (ht.unloadWithdrawn _ e).readmit (move_unloadWithdrawn _ e t) ?_
      rw [frame_of_steps (steps_unloadWithdrawn rfl _ e t (.inl rfl))]
      exact ht.frame_ne (by simp) hrun
  · exact ht

end

end Sys2Proof.Machine
end

