-- ==== Sys2Proof/Proofs/Commands.lean ====
section
/-! PROOF. A ring made, an attachment made, a move entry loaded: the commands keep the tables in agreement, each from its own checks. -/

namespace Sys2Proof.Machine

/-! ### The run that first fit finds (R60) -/

/-- A run that is found exists and is free. -/
theorem firstFit_free {m : Vector (Option (Fin 16)) 128} {n : Nat} {q : Fin 128} (h : firstFit m n = some q) :
    q.val + n ≤ 128 ∧ ∀ k : Fin 128, q.val ≤ k.val → k.val < q.val + n → tableGet m k = none := by
  have hrun := List.find?_some h
  simp only [runIsFree, Bool.and_eq_true, decide_eq_true_eq, List.all_eq_true, List.mem_range, beq_iff_eq] at hrun
  obtain ⟨hle, hall⟩ := hrun
  refine ⟨hle, fun k hk hk' => ?_⟩
  have hkn := hall (k.val - q.val) (by omega)
  rw [show q.val + (k.val - q.val) = k.val by omega, Vector.getElem?_eq_getElem k.isLt] at hkn
  exact Option.some.inj hkn

section
variable {R : Option (Fin 16)} {s : State}

theorem lowestFree_not_inUse {i : Fin 32} (h : s.lowestFree = some i) : (s.att i).inUse = false := by
  simpa using List.find?_some h

theorem lowestFreeRing_free {r : Fin 16} (h : s.lowestFreeRing = some r) : (s.ring r).state = .free := by
  simpa using List.find?_some h

/-- A FREE ring opened on a run of free pages: all that is wanting is its first attachment (R10). -/
theorem Agree.openRing (h : Agree none none s) {r : Fin 16} (hr : (s.ring r).state = .free) {q : Fin 128} {n : Nat} (hn : 1 ≤ n)
    (hq : firstFit s.pageMap n = some q) (mode : RingMode) (access : Four AccessRight) :
    Agree none (some r) (openRing r q n mode access s) := by
  obtain ⟨hrun, hfree⟩ := firstFit_free hq
  have hold : s.ring r = Ring.freed := h.ring_free hr
  refine ⟨?_, Counted.setRing (h.counted.of_same rfl rfl) ⟨fun hf => by simp at hf, fun _ => ⟨Nat.zero_le _, fun _ => ?_⟩, fun _ => rfl⟩
    fun i hi hir => ?_⟩
  · unfold Machine.openRing
    rw [bonds_setRing_eq]
    refine h.linked.setRing (b := s.bonds) (fun role => ?_) (fun hf => by simp [Ring.bond] at hf) (fun hf => by simp [Ring.bond] at hf)
      (fun _ => ⟨hn, hrun⟩) (fun _ _ _ => by simp) (fun h0 => absurd rfl h0) fun k r' => ?_
    · rw [bonds_ring, hold]
      rfl
    · have hp := h.linked.pages k
      rw [bonds_pageMap, State.setPageMap_pageMap, tableGet_markPages]
      by_cases hrr : r' = r
      · subst hrr
        have hnone : tableGet s.pageMap k ≠ some r' := fun hs => ((hp r').mp hs).1 hr
        simp only [if_true]
        split
        · rename_i hin
          exact iff_of_true rfl ⟨by simp [Ring.bond], hin⟩
        · rename_i hout
          exact iff_of_false hnone fun hin => hout hin.2
      · simp only [hrr, if_false]
        split
        · rename_i hin
          have hk := hfree k hin.1 hin.2
          exact iff_of_false (fun e => hrr (Option.some.inj e).symm) (by rw [bonds_pageMap, hk]; simp)
        · rfl
  · change 0 < 256 * n
    omega
  · have hu := h.ring_used hi
    rw [show (s.att i).ring = r from hir] at hu
    exact absurd hr hu

/-! ### An attachment made (R23) -/

/-- The lowest empty slot is a place of the ring record, and empty. -/
theorem lowestEmpty_spec {g : Ring} {slot : Fin 4} (h : g.slots.lowestEmpty = some slot) :
    (Role.reader slot).seated ∧ g.place (.reader slot) = none := by
  unfold Slots.lowestEmpty at h
  split at h
  · obtain rfl := Option.some.inj h
    exact ⟨by simp [Role.seated], Option.isNone_iff_eq_none.mp ‹g.slots.one.isNone = true›⟩
  · split at h
    · obtain rfl := Option.some.inj h
      exact ⟨by simp [Role.seated], Option.isNone_iff_eq_none.mp ‹g.slots.two.isNone = true›⟩
    · split at h
      · obtain rfl := Option.some.inj h
        exact ⟨by simp [Role.seated], Option.isNone_iff_eq_none.mp ‹g.slots.three.isNone = true›⟩
      · simp at h

/-- A handle put in a slot takes the reader's place. -/
theorem fill_eq_setPlace (g : Ring) {slot : Fin 4} (hs : (Role.reader slot).seated) (k : Handle) :
    { g with slots := g.slots.fill slot k } = g.setPlace (.reader slot) (some k) := by
  have h := Role.cases_seated hs
  simp only [reduceCtorEq, Role.reader.injEq, false_or] at h
  rcases h with rfl | rfl | rfl <;> rfl

/-- The place a new attachment takes. -/
def AttachRequest.role (q : AttachRequest) (slot : Fin 4) : Role :=
  match q.what with
  | .producer => .producer
  | .reader _ _ _ _ => .reader slot

theorem newRecord_party (gen : Fin 8) (r : Fin 16) (g : Ring) (slot : Fin 4) (q : AttachRequest) :
    (newRecord gen r g slot q).inUse = true ∧ (newRecord gen r g slot q).gen = gen ∧ (newRecord gen r g slot q).ring = r ∧
      (newRecord gen r g slot q).role = q.role slot ∧ (newRecord gen r g slot q).holder = q.holder ∧
      (newRecord gen r g slot q).leasePeriod = q.leasePeriod := by
  obtain ⟨what, holder, threshold, lease⟩ := q
  cases what <;> exact ⟨rfl, rfl, rfl, rfl, rfl, rfl⟩

/-- A new reader starts with a legal cursor (R24, R35, R50). -/
theorem startCursor_legal (g : Ring) (order : Order) (blockExp : Nat) (start : Start) :
    (g.startCursor order blockExp start).1 ≤ g.valid ∧ (g.startCursor order blockExp start).1 ≤ g.capacity ∧
      (0 < (g.startCursor order blockExp start).2 → (g.startCursor order blockExp start).1 = 0) := by
  have hfill : g.startFill start ≤ g.valid ∧ g.startFill start ≤ g.capacity := by
    cases start <;> simp only [Ring.startFill] <;> omega
  cases order with
  | natural => exact ⟨hfill.1, hfill.2, fun h0 => absurd h0 (Nat.lt_irrefl 0)⟩
  | reversedBlock =>
    simp only [Ring.startCursor]
    split
    · exact ⟨by dsimp only; omega, by dsimp only; omega, fun h0 => absurd h0 (Nat.lt_irrefl 0)⟩
    · exact ⟨Nat.zero_le _, Nat.zero_le _, fun _ => rfl⟩

theorem cursorLegal_newRecord (gen : Fin 8) (r : Fin 16) (g : Ring) (slot : Fin 4) (q : AttachRequest) :
    (newRecord gen r g slot q).cursorLegal g := by
  unfold newRecord
  dsimp only
  split
  · exact ⟨Nat.zero_le _, Nat.zero_le _, fun _ => rfl, fun h0 => absurd h0 (Nat.lt_irrefl 0)⟩
  · obtain ⟨h1, h2, h3⟩ := startCursor_legal g _ _ _
    exact ⟨h1, h2, h3, fun h0 => absurd h0 (Nat.lt_irrefl 0)⟩

/-- There is room for what is asked: a producer on a ring not SEALED that has none, a reader on a ring with an empty slot (R101, R102). -/
structure AttachRequest.Fits (q : AttachRequest) (g : Ring) : Prop where
  used : g.state ≠ .free
  producer : q.what = .producer → g.state ≠ .sealed ∧ g.producer = none
  reader : q.what ≠ .producer → g.slots.lowestEmpty ≠ none
  lease : ∀ e, q.holder = .entry e → q.leasePeriod = 0

/-- The state in which a new attachment's record stands in its ring's record. -/
def State.made (s : State) (i : Fin 32) (r : Fin 16) (slot : Fin 4) (q : AttachRequest) : State :=
  (s.setAtt i (newRecord (s.att i).gen r (s.ring r) slot q)).setRing r
    ((s.ring r).setPlace (q.role slot) (some (s.handleAt i)))

/-- Where there is room, an attachment is made in an empty place, and then the level is compared and the ring re-examined (R23). -/
theorem makeAttachment_eq {q : AttachRequest} {r : Fin 16} (hq : q.Fits (s.ring r)) (i : Fin 32) :
    ∃ slot, (q.role slot).seated ∧ (s.ring r).place (q.role slot) = none ∧
      makeAttachment i r q s = reexamine r (postCrossing i 0 ((s.made i r slot q).level i) (s.made i r slot q)) := by
  unfold makeAttachment State.made AttachRequest.role
  cases hw : q.what with
  | producer => exact ⟨(s.ring r).slots.lowestEmpty.getD 0, by simp [Role.seated], (hq.producer hw).2, rfl⟩
  | reader policy order blockExp start =>
    obtain ⟨slot, hslot⟩ := Option.ne_none_iff_exists'.mp (hq.reader (by simp [hw]))
    obtain ⟨hseat, hempty⟩ := lowestEmpty_spec hslot
    refine ⟨slot, hseat, hempty, ?_⟩
    dsimp only
    rw [hslot, Option.getD_some, fill_eq_setPlace _ hseat]

theorem bonds_seated (i : Fin 32) (x : Attachment) (hg : x.gen = (s.att i).gen) :
    ((s.setAtt i x).setRing x.ring ((s.ring x.ring).setPlace x.role (some (s.handleAt i)))).bonds = s.bonds.seat i x.bond := by
  rw [bonds_setRing_eq, bonds_setAtt_eq, Ring.setPlace_bond]
  unfold Bonds.seat
  change _ = { s.bonds with
    ring := Function.update s.bonds.ring x.ring ((s.ring x.ring).bond.setPlace x.role (some ⟨x.gen, i⟩))
    att := Function.update s.bonds.att i x.bond }
  rw [hg]
  rfl

theorem Agree.makeAttachment (h : Agree none R s) {i : Fin 32} {r : Fin 16} {q : AttachRequest} (hR : R = none ∨ R = some r)
    (hi : (s.att i).inUse = false) (hq : q.Fits (s.ring r)) : Agree none none (makeAttachment i r q s) := by
  obtain ⟨slot, hseat, hempty, hmade⟩ := makeAttachment_eq hq i
  unfold State.made at hmade
  obtain ⟨hu, hgen, hring, hrole, hholder, hlease⟩ := newRecord_party (s.att i).gen r (s.ring r) slot q
  have hcursor := cursorLegal_newRecord (s.att i).gen r (s.ring r) slot q
  generalize newRecord (s.att i).gen r (s.ring r) slot q = x at hmade hu hgen hring hrole hholder hlease hcursor
  subst hring
  rw [← hrole] at hmade hseat hempty
  rw [hmade]
  refine Agree.reexamine (Agree.of_tables ⟨?_, ?_⟩ (tables_postCrossing _ _ _ _)) _
  · rw [bonds_seated i x hgen]
    refine h.linked.seat (x := x.bond) hR hi hu hseat hempty hq.used (fun hp => (hq.producer ?_).1) fun e he =>
      (hlease.trans (hq.lease e (hholder.symm.trans he)))
    have hp' : q.role slot = .producer := hrole.symm.trans hp
    unfold AttachRequest.role at hp'
    split at hp'
    · assumption
    · simp at hp'
  · have hc := h.counted.ring x.ring
    refine Counted.setRing (h.counted.setAtt (fun hf => by simp [hu] at hf) fun _ => hcursor)
      ⟨by simpa using hc.freed, by simpa using hc.circular, by simpa using hc.onePass⟩ fun j hj hjr => ?_
    rw [State.att_setAtt] at hj hjr ⊢
    split
    · simpa [Attachment.cursorLegal] using hcursor
    · rename_i hji
      rw [if_neg hji] at hj hjr
      simpa [Attachment.cursorLegal, hjr] using h.counted.cursor j hj

/-! ### Ring and attachment commands -/

theorem currentIndex_current {w : Word} {i : Fin 32} (h : s.currentIndex w = some i) : (s.att i).inUse = true := by
  unfold State.currentIndex at h
  split at h
  · split at h
    · rename_i hc
      exact Option.some.inj h ▸ inUse_of_current hc
    · simp at h
  · simp at h

/-- A handle that a port owns names an attachment in use that the port holds. -/
theorem ownHandle_spec {p : Port} {w : Word} {i : Fin 32} (h : s.ownHandle p w = some i) :
    (s.att i).inUse = true ∧ (s.att i).holder = .port p := by
  unfold State.ownHandle at h
  split at h
  · rename_i j hj
    split at h
    · rename_i hh
      obtain rfl := Option.some.inj h
      exact ⟨currentIndex_current hj, hh⟩
    · simp at h
  · simp at h

/-- Operands that CREATE_RING accepts ask for a page at least. -/
theorem decodeCreate_pages {p : Port} {x : Args} {y : (RingMode × Four AccessRight) × AttachWord} (h : decodeCreate p x = some y) :
    1 ≤ x.w1.toNat := by
  unfold decodeCreate at h
  split at h
  · split at h
    · rename_i hc
      exact hc.1
    · simp at h
  · simp at h

theorem Agree.runCreateRing (h : Agree none none s) (p : Port) (x : Args) : Agree none none (runCreateRing p x s).after := by
  unfold Machine.runCreateRing
  split
  · exact h
  · rename_i g what hdec
    split
    · exact h
    · rename_i r hr
      split
      · exact h
      · rename_i i hi
        split
        · exact h
        · rename_i q hq
          have hopen := h.openRing (lowestFreeRing_free hr) (decodeCreate_pages hdec) hq g.1 g.2
          refine hopen.makeAttachment (.inr rfl) (lowestFree_not_inUse hi) ?_
          unfold Machine.openRing
          rw [State.ring_setRing_same]
          exact ⟨by simp, fun _ => ⟨by simp, rfl⟩, fun _ => by simp [Ring.freed, Slots.lowestEmpty], fun e he => by simp at he⟩

/-- An attach that no check refuses finds room. -/
theorem fits_of_attachFault {p : Port} {what : AttachWord} {r : Fin 16} (h : attachFault p what r s = none) (threshold lease : Nat) :
    AttachRequest.Fits ⟨what, .port p, threshold, lease⟩ (s.ring r) := by
  unfold attachFault at h
  dsimp only at h
  split at h
  · simp at h
  · rename_i hfree
    split at h
    · simp at h
    · split at h
      · simp at h
      · rename_i hsealed
        split at h
        · simp at h
        · rename_i hprod
          split at h
          · simp at h
          · rename_i hslot
            refine ⟨hfree, fun hw => ⟨fun hs => hsealed ⟨hw, hs⟩, ?_⟩, fun hw hs => hslot ⟨hw, hs⟩, fun e he => by simp at he⟩
            by_contra hne
            exact hprod ⟨hw, Option.isSome_iff_ne_none.mpr hne⟩

theorem Agree.runAttach (h : Agree none none s) (p : Port) (x : Args) : Agree none none (runAttach p x s).after := by
  unfold Machine.runAttach
  split
  · exact h
  · split
    · split
      · exact h
      · split
        · exact h
        · rename_i hfault
          split
          · exact h
          · rename_i i hi
            exact h.makeAttachment (.inl rfl) (lowestFree_not_inUse hi) (fits_of_attachFault hfault _ _)
    · exact h

theorem Agree.detachVoluntary (h : Agree none none s) {i : Fin 32} {p : Port} (hi : (s.att i).inUse = true)
    (hp : (s.att i).holder = .port p) (sealFlag : Bool) : Agree none none (detachVoluntary sealFlag i s) := by
  have hl := h.leaves_of_port hi hp
  unfold Machine.detachVoluntary
  split
  · rename_i slot hrole
    exact h.detachReader hl (by simp [hrole])
  · rename_i hrole
    split
    · exact h.sealBy hl hrole _
    · exact h.detachProducerOpen hl hrole

theorem Agree.runDetach (h : Agree none none s) (p : Port) (x : Args) : Agree none none (runDetach p x s).after := by
  unfold Machine.runDetach
  split
  · exact h
  · split
    · exact h
    · rename_i i hi
      obtain ⟨hu, hp⟩ := ownHandle_spec hi
      exact h.detachVoluntary hu hp _

theorem Agree.runRenew (h : Agree none none s) (p : Port) (x : Args) : Agree none none (runRenew p x s).after := by
  unfold Machine.runRenew
  split
  · exact h
  · refine Agree.foldl_inUse bonds_renewLease (fun t i ht hi => ht.renewLease hi) (s.heldBy p) h fun i hi => ?_
    simp only [State.heldBy, List.mem_filter, Bool.and_eq_true] at hi
    exact hi.2.1
  · split
    · exact h
    · rename_i i hi
      exact h.renewLease (ownHandle_spec hi).1

theorem Agree.runSetThreshold (h : Agree none none s) (p : Port) (x : Args) : Agree none none (runSetThreshold p x s).after := by
  unfold Machine.runSetThreshold
  split
  · split
    · exact h
    · rename_i i hi
      exact (h.setAtt_same (ownHandle_spec hi).1 (x := { s.att i with threshold := x.w2.toNat }) rfl rfl rfl rfl).of_tables
        (tables_postCrossing _ _ _ _)
  · exact h

theorem Agree.runQueryRing (h : Agree none none s) (x : Args) : Agree none none (runQueryRing x s).after := by
  unfold Machine.runQueryRing
  split <;> exact h

theorem Agree.runQueryAttach (h : Agree none none s) (p : Port) (x : Args) : Agree none none (runQueryAttach p x s).after := by
  unfold Machine.runQueryAttach
  split <;> exact h

/-! ### Move commands -/

/-- A LOAD_MOVE that no check refuses finds room for the source and for the destination. -/
theorem fits_of_loadFault {p : Port} {src dst e : Fin 16} (h : loadFault p src dst s = none) :
    AttachRequest.Fits ⟨.reader .hold .natural 0 .fromNew, .entry e, 0, 0⟩ (s.ring src) ∧
      (s.ring dst).state ≠ .free ∧ (s.ring dst).state ≠ .sealed ∧ (s.ring dst).producer = none := by
  unfold loadFault at h
  split at h
  · simp at h
  · rename_i hfree
    split at h
    · simp at h
    · split at h
      · simp at h
      · rename_i hsealed
        split at h
        · simp at h
        · rename_i hprod
          split at h
          · simp at h
          · rename_i hslot
            refine ⟨⟨fun hf => hfree (.inl hf), fun hw => by simp at hw, fun _ => hslot, fun _ _ => rfl⟩, fun hf => hfree (.inr hf),
              hsealed, ?_⟩
            by_contra hne
            exact hprod (Option.isSome_iff_ne_none.mpr hne)

/-- The bonds after an attachment is made: its record, its place, nothing else. -/
theorem bonds_makeAttachment {q : AttachRequest} {r : Fin 16} (hq : q.Fits (s.ring r)) (i : Fin 32) :
    ∃ slot, (makeAttachment i r q s).bonds =
      s.bonds.seat i (newRecord (s.att i).gen r (s.ring r) slot q).bond := by
  obtain ⟨slot, -, -, hmade⟩ := makeAttachment_eq hq i
  obtain ⟨-, hgen, hring, hrole, -⟩ := newRecord_party (s.att i).gen r (s.ring r) slot q
  refine ⟨slot, ?_⟩
  rw [hmade, bonds_reexamine, bonds_of_tables (tables_postCrossing _ _ _ _), State.made]
  have := bonds_seated i (newRecord (s.att i).gen r (s.ring r) slot q) hgen
  rwa [hring, hrole] at this

/-- What stands of the rest when an attachment is made: the other records, the other rings, every entry. -/
theorem makeAttachment_others {q : AttachRequest} {r : Fin 16} (hq : q.Fits (s.ring r)) (i : Fin 32) :
    (∀ j, j ≠ i → ((makeAttachment i r q s).att j).bond = (s.att j).bond) ∧
      (∀ r', r' ≠ r → ((makeAttachment i r q s).ring r').bond = (s.ring r').bond) ∧
      ∀ e, ((makeAttachment i r q s).move e).bond = (s.move e).bond := by
  obtain ⟨slot, hb⟩ := bonds_makeAttachment hq i
  obtain ⟨-, -, hring, -⟩ := newRecord_party (s.att i).gen r (s.ring r) slot q
  refine ⟨fun j hj => ?_, fun r' hr' => ?_, fun e => ?_⟩
  · exact (congrArg (fun b : Bonds => b.att j) hb).trans (seat_att_ne _ _ hj)
  · refine (congrArg (fun b : Bonds => b.ring r') hb).trans ?_
    change Function.update s.bonds.ring (newRecord (s.att i).gen r (s.ring r) slot q).ring _ r' = _
    rw [hring, Function.update_of_ne hr']
    rfl
  · exact congrArg (fun b : Bonds => b.move e) hb

/-- The record that an attachment is made in. -/
theorem makeAttachment_made {q : AttachRequest} {r : Fin 16} (hq : q.Fits (s.ring r)) (i : Fin 32) :
    ((makeAttachment i r q s).att i).inUse = true ∧ ((makeAttachment i r q s).att i).gen = (s.att i).gen ∧
      ((makeAttachment i r q s).att i).holder = q.holder ∧
      (((makeAttachment i r q s).att i).role = .producer ↔ q.what = .producer) ∧
      ∀ policy blockExp start, q.what = .reader policy .natural blockExp start →
        ((makeAttachment i r q s).att i).order = .natural := by
  obtain ⟨slot, hb⟩ := bonds_makeAttachment hq i
  obtain ⟨hu, hgen, -, hrole, hholder, -⟩ := newRecord_party (s.att i).gen r (s.ring r) slot q
  have hi : ((makeAttachment i r q s).att i).bond = (newRecord (s.att i).gen r (s.ring r) slot q).bond :=
    (congrArg (fun b : Bonds => b.att i) hb).trans (seat_att_same _ _ _)
  obtain ⟨eu, eg, -, er, eh, eo⟩ := Attachment.of_bond hi
  refine ⟨eu.trans hu, eg.trans hgen, eh.trans hholder, ?_, fun policy blockExp start hw => ?_⟩
  · rw [er, hrole]
    unfold AttachRequest.role
    cases q.what <;> simp
  · rw [eo]
    simp [newRecord, hw]

/-- A ring word above 15 is none, and any other is its own ring's. -/
theorem ringOfWord_inj {v w : Word} {r : Fin 16} (hv : ringOfWord v = some r) (hw : ringOfWord w = some r) : v = w := by
  unfold ringOfWord at hv hw
  split at hv
  · split at hw
    · have e := congrArg Fin.val ((Option.some.inj hv).trans (Option.some.inj hw).symm)
      simp only [Fin.val_ofNat] at e
      exact BitVec.eq_of_toNat_eq (by omega)
    · simp at hw
  · simp at hv

theorem Agree.runLoadMove (h : Agree none none s) (p : Port) (x : Args) : Agree none none (runLoadMove p x s).after := by
  unfold Machine.runLoadMove
  split
  · exact h
  · rename_i e _
    split
    · exact h
    · split
      · exact h
      · rename_i hempty
        have hempty := not_not.mp hempty
        split
        · exact h
        · rename_i operands _
          split
          · exact h
          · rename_i hdiff
            split
            · rename_i src dst hsrc hdst
              split
              · exact h
              · rename_i hfault
                split
                · exact h
                · rename_i i hi
                  have hi := lowestFree_not_inUse hi
                  obtain ⟨hfit, hdf, hds, hdp⟩ := fits_of_loadFault (e := e) hfault
                  have h1 := h.makeAttachment (.inl rfl) hi hfit
                  obtain ⟨-, hrings, hmoves⟩ := makeAttachment_others hfit i
                  obtain ⟨mu, mg, mh, mr, mo⟩ := makeAttachment_made hfit i
                  have hne : dst ≠ src := fun hd => hdiff (ringOfWord_inj (hd ▸ hsrc) hdst)
                  dsimp only
                  generalize hs1 : Machine.makeAttachment i src ⟨.reader .hold .natural 0 .fromNew, .entry e, 0, 0⟩ s = s1 at *
                  split
                  · exact h
                  · rename_i j hj
                    have hj := lowestFree_not_inUse hj
                    have hji : i ≠ j := fun hij => by
                      rw [hij, hj] at mu
                      simp at mu
                    obtain ⟨rs, -, -, -, -, rp, -⟩ := Ring.of_bond (hrings dst hne)
                    have hfit2 : AttachRequest.Fits ⟨.producer, .entry e, 0, 0⟩ (s1.ring dst) :=
                      ⟨rs ▸ hdf, fun _ => ⟨rs ▸ hds, rp.trans hdp⟩, fun hw => absurd rfl hw, fun _ _ => rfl⟩
                    have h2 := h1.makeAttachment (.inl rfl) hj hfit2
                    obtain ⟨hatts, -, hmoves2⟩ := makeAttachment_others hfit2 j
                    obtain ⟨nu, ng, nh, nr, -⟩ := makeAttachment_made hfit2 j
                    obtain ⟨ou, og, -, orole, oh, oo⟩ := Attachment.of_bond (hatts i hji)
                    refine h2.setMove (fun _ => ?_) (fun hX => by simp at hX) fun _ f hf hfe => ?_
                    · refine ⟨fun hs => by simp [loadedEntry, MoveEntry.bond] at hs, fun _ => by simp [loadedEntry, MoveEntry.bond],
                        fun k hk => ?_, fun k hk => ?_⟩
                      · obtain rfl : s.handleAt i = k := Option.some.inj hk
                        refine ⟨⟨ou.trans mu, og.trans mg, oh.trans mh⟩, fun hp => ?_, oo.trans (mo _ _ _ rfl)⟩
                        have := mr.mp (orole.symm.trans hp)
                        simp at this
                      · obtain rfl : s1.handleAt j = k := Option.some.inj hk
                        exact ⟨⟨nu, ng, nh⟩, nr.mpr rfl⟩
                    · refine absurd hfe (h2.frame_ne (by simp) ?_ f hf)
                      have hb := (hmoves2 e).trans (hmoves e)
                      have hb2 : (s.move e).bond.state = .empty := (MoveEntry.bond_state (by decide) (by decide)).mpr hempty
                      rw [← hb] at hb2
                      rw [(MoveEntry.bond_state (by decide) (by decide)).mp hb2]
                      simp
            · exact h

theorem Agree.runStartMove (h : Agree none none s) (p : Port) (x : Args) : Agree none none (runStartMove p x s).after := by
  unfold Machine.runStartMove
  split
  · exact h
  · rename_i e _
    dsimp only
    split
    · exact h
    · split
      · rename_i hc
        obtain ⟨-, hstate, -⟩ := hc
        have hne : (s.move e).state ≠ .empty ∧ (s.move e).state ≠ .running := by
          rcases hstate with h' | h' | h' <;> simp [h']
        refine Agree.sourceEndedCheck ?_ (e := e) (by simp) (by simp) (by simp)
        exact h.setMove_idle (by simp) hne.1 (h.frame_ne (by simp) hne.2) (by simp) rfl rfl fun _ hk => hk
      · exact h

/-- A trigger delivered to an entry (R121). -/
theorem Agree.deliverTrigger (h : Agree none none s) (e : Fin 16) : Agree none none (deliverTrigger e s) := by
  unfold Machine.deliverTrigger
  dsimp only
  split
  · rename_i hs
    have hne : (s.move e).state ≠ .empty ∧ (s.move e).state ≠ .running := by
      simp only [MoveEntry.started, Bool.or_eq_true, beq_iff_eq] at hs
      rcases hs with h' | h' <;> simp [h']
    split
    · exact h.setMove_idle (by simp) hne.1 (h.frame_ne (by simp) hne.2) hne.1 rfl rfl fun _ hk => hk
    · exact (h.setMove_idle (m := { s.move e with missedTriggers := saturate16 ((s.move e).missedTriggers + 1) }) (by simp) hne.1
        (h.frame_ne (by simp) hne.2) hne.1 rfl rfl fun _ hk => hk).of_tables (tables_postMove _ _ _ _)
  · exact h

theorem Agree.runFireMove (h : Agree none none s) (p : Port) (x : Args) : Agree none none (runFireMove p x s).after := by
  unfold Machine.runFireMove
  split
  · exact h
  · dsimp only
    split
    · exact h
    · split
      · exact h.deliverTrigger _
      · exact h

theorem Agree.runStopMove (h : Agree none none s) (p : Port) (x : Args) : Agree none none (runStopMove p x s).after := by
  unfold Machine.runStopMove
  split
  · exact h
  · rename_i e _
    dsimp only
    split
    · exact h
    · split
      · exact h
      · split
        · exact h
        · rename_i hs
          exact h.haltEntry (by simp) (by simp [hs]) (h.frame_ne (by simp) (by simp [hs])) _
        · rename_i hs
          exact h.haltEntry (by simp) (by simp [hs]) (h.frame_ne (by simp) (by simp [hs])) _
        · rename_i hs
          exact h.setMove (fun _ => h.entryHolds (by simp) (by simp [hs]) (by simp [hs]) rfl rfl fun _ hk => hk)
            (fun hX => by simp at hX) fun _ _ _ _ => hs
        · exact h
        · exact h
        · exact h

theorem Agree.runUnloadMove (h : Agree none none s) (p : Port) (x : Args) : Agree none none (runUnloadMove p x s).after := by
  unfold Machine.runUnloadMove
  split
  · exact h
  · dsimp only
    split
    · exact h
    · split
      · exact h
      · rename_i hc
        exact h.unloadVoluntary fun hr => hc (.inr (.inr hr))

theorem Agree.runSetPacer (h : Agree none none s) (x : Args) : Agree none none (runSetPacer x s).after := by
  unfold Machine.runSetPacer
  split
  · exact h
  · split
    · exact h.of_tables rfl
    · exact h

/-- An answer chosen by a condition. -/
theorem agree_ite {c : Prop} [Decidable c] {a b : CommandAnswer} (ha : Agree none none a.after) (hb : Agree none none b.after) :
    Agree none none (if c then a else b).after := by
  split <;> assumption

/-- A command word in flight, whatever it holds (R90). -/
theorem Agree.runCommand (h : Agree none none s) (p : Port) (w : Word) (x : Args) : Agree none none (runCommand p w x s).after :=
  agree_ite (h.runCreateRing p x) <|
  agree_ite (h.runAttach p x) <|
  agree_ite (h.runDetach p x) <|
  agree_ite (h.runRenew p x) <|
  agree_ite (h.runSetThreshold p x) <|
  agree_ite (h.runQueryRing x) <|
  agree_ite (h.runQueryAttach p x) <|
  agree_ite (h.runLoadMove p x) <|
  agree_ite (h.runStartMove p x) <|
  agree_ite (h.runFireMove p x) <|
  agree_ite (h.runStopMove p x) <|
  agree_ite (h.runUnloadMove p x) <|
  agree_ite (h.runSetPacer x) <|
  h

end

end Sys2Proof.Machine
end

