-- ==== Sys2Proof/Proofs/Grants.lean ====
section
/-! PROOF. The grants of the move engine and of the ports, and what falls due, keep the tables in agreement. -/

namespace Sys2Proof.Machine

section
variable {s : State}

/-! ### The move engine (R126 to R128, R132) -/

theorem Agree.setFrame (h : Agree none none s) {f : Option Frame} (hf : ∀ x, f = some x → (s.move x.entry).state = .running) :
    Agree none none (s.setFrame f) :=
  ⟨h.linked.setFrame fun x hx _ => (MoveEntry.bond_state (by decide) (by decide)).mpr (hf x hx), h.counted.of_same rfl rfl⟩

theorem Agree.frame_running (h : Agree none none s) {f : Frame} (hf : s.frame = some f) : (s.move f.entry).state = .running :=
  (MoveEntry.bond_state (by decide) (by decide)).mp (h.linked.frame f hf (by simp))

/-- What an entry names is in use. -/
theorem Agree.source_inUse (h : Agree none none s) {e : Fin 16} {k : Handle} (hk : (s.move e).source = some k) :
    (s.att k.index).inUse = true := ((h.linked.entry e (by simp)).source k hk).1.1

theorem Agree.dest_inUse (h : Agree none none s) {e : Fin 16} {k : Handle} (hk : (s.move e).dest = some k) :
    (s.att k.index).inUse = true := ((h.linked.entry e (by simp)).dest k hk).1.1

/-- The reservation of a ring in use (R7, R126). -/
theorem Agree.setReserved (h : Agree none none s) {r : Fin 16} (hr : (s.ring r).state ≠ .free) (n : Nat) :
    Agree none none (s.setRing r { s.ring r with reserved := n }) := by
  have hc := h.counted.ring r
  refine h.of_bonds (bonds_setRing s r _ rfl) (h.counted.setRing ⟨fun hf => absurd hf hr, hc.circular, hc.onePass⟩ fun i hi hir => ?_)
  have hcur := h.counted.cursor i hi
  rw [hir] at hcur
  exact hcur

theorem started_of_hasWork {m : MoveEntry} (h : m.hasWork = true) : m.state = .armed ∨ m.state = .waiting := by
  simp only [MoveEntry.hasWork, MoveEntry.started, Bool.and_eq_true, Bool.or_eq_true, beq_iff_eq] at h
  exact h.1

theorem Agree.startFrame (h : Agree none none s) {e : Fin 16} (hw : (s.move e).hasWork = true) : Agree none none (startFrame e s) := by
  have hne : (s.move e).state ≠ .empty := by
    rcases started_of_hasWork hw with h' | h' <;> simp [h']
  unfold Machine.startFrame
  dsimp only
  generalize hruns : (if (s.move e).framesDone = 0 ∧ (s.move e).trigger ≠ .sourceReady then (s.move e).pendingRuns - 1
    else (s.move e).pendingRuns) = runs
  have h1 : Agree none none ((s.setMove e { s.move e with state := .running, pendingRuns := runs }).setRotation e) :=
    (h.setMove (m := { s.move e with state := .running, pendingRuns := runs })
      (fun _ => h.entryHolds (by simp) hne (by simp) rfl rfl fun _ hk => hk) (fun hX => by simp at hX) fun _ _ _ _ => rfl).of_tables rfl
  refine Agree.of_tables (s := State.setFrame _ (some ⟨e, 0, none⟩)) ?_ rfl
  split
  · rename_i k hk
    refine (h1.setReserved (h1.ring_used ?_) _).setFrame fun x hx => ?_
    · exact h.dest_inUse hk
    · obtain rfl := Option.some.inj hx
      simp
  · refine h1.setFrame fun x hx => ?_
    obtain rfl := Option.some.inj hx
    simp

theorem Agree.examineEntry {acc : State × Bool} (h : Agree none none acc.1) (e : Fin 16) : Agree none none (examineEntry acc e).1 := by
  unfold Machine.examineEntry
  dsimp only
  split
  · exact h
  · split
    · exact h
    · rename_i hw
      have hw : (acc.1.move e).hasWork = true := by simpa using hw
      have hne : (acc.1.move e).state ≠ .empty ∧ (acc.1.move e).state ≠ .running := by
        rcases started_of_hasWork hw with h' | h' <;> simp [h']
      split
      · exact h.startFrame hw
      · exact h.setMove_idle (by simp) hne.1 (h.frame_ne (by simp) hne.2) (by simp) rfl rfl fun _ hk => hk

theorem Agree.startCheckAct (h : Agree none none s) : Agree none none (startCheckAct s) :=
  List.foldlRecOn (motive := fun acc : State × Bool => Agree none none acc.1) _ _ (h.of_tables (tables_setMoveReq s none))
    fun _ hacc e _ => hacc.examineEntry e

/-- Counting a frame changes neither what an entry names nor its state (R128). -/
theorem countFrame_names (m : MoveEntry) :
    m.countFrame.owner = m.owner ∧ m.countFrame.source = m.source ∧ m.countFrame.dest = m.dest := by
  unfold MoveEntry.countFrame
  split <;> exact ⟨rfl, rfl, rfl⟩

theorem Agree.frameEnd (h : Agree none none s) {e : Fin 16} (hr : (s.move e).state = .running) : Agree none none (frameEnd e s) := by
  unfold Machine.frameEnd
  split
  · exact (h.setFrame fun x hx => by obtain rfl := Option.some.inj hx; exact hr).of_tables (tables_setMoveReq _ _)
  · dsimp only
    have h1 : Agree none none ((s.setFrame none).setMoveReq none) :=
      (h.setFrame (f := none) fun x hx => by simp at hx).of_tables (tables_setMoveReq _ _)
    obtain ⟨ho, hs, hd⟩ := countFrame_names (s.move e)
    have counted : ∀ m : MoveEntry, m.state ≠ .empty → m.owner = (s.move e).countFrame.owner →
        m.source = (s.move e).countFrame.source → m.dest = (s.move e).countFrame.dest →
        Agree none none (((s.setFrame none).setMoveReq none).setMove e m) := fun m hm hmo hms hmd =>
      h1.setMove_idle (by simp) (by simp [hr]) (fun f hf => by simp at hf) hm (hmo.trans ho) (hms.trans hs) fun k hk => by
        rw [hmd, hd] at hk
        exact hk
    split
    · exact (counted { (s.move e).countFrame with state := .done, stopPending := false } (by simp) rfl rfl rfl).of_tables
        (tables_postMove _ _ _ _)
    · split
      · have hst : (s.move e).countFrame.state ≠ .empty := by
          unfold MoveEntry.countFrame
          split <;> simp [hr]
        exact (counted { (s.move e).countFrame with stopPending := false } hst rfl rfl rfl).haltEntry (by simp)
          (by simpa using hst) (fun f hf => by simp at hf) _
      · exact (counted { (s.move e).countFrame with state := .armed } (by simp) rfl rfl rfl).sourceEndedCheck (by simp) (by simp)
          (by simp)

theorem Agree.advanceFrame (h : Agree none none s) {e : Fin 16} (hr : (s.move e).state = .running) (position : Nat) :
    Agree none none (advanceFrame e position s) := by
  unfold Machine.advanceFrame
  split
  · exact h.frameEnd hr
  · exact (h.setFrame fun x hx => by obtain rfl := Option.some.inj hx; exact hr).of_tables (tables_setMoveReq _ _)

/-- A RUNNING entry stays so where the bonds stay. -/
theorem running_of_bonds {t : State} (hb : t.bonds = s.bonds) {e : Fin 16} (hr : (s.move e).state = .running) :
    (t.move e).state = .running := by
  rw [← MoveEntry.bond_state (by decide) (by decide), move_of_bonds hb, MoveEntry.bond_state (by decide) (by decide)]
  exact hr

theorem Agree.framePopAct (h : Agree none none s) : Agree none none (framePopAct s) := by
  unfold Machine.framePopAct
  split
  · exact h
  · rename_i f hf
    split
    · exact h
    · rename_i k hk
      split
      · dsimp only
        have h1 := h.popAct (h.source_inUse hk)
        have hr := running_of_bonds (bonds_popAct s k.index) (h.frame_running hf)
        split
        · exact (h1.setFrame fun x hx => by obtain rfl := Option.some.inj hx; exact hr).of_tables (tables_setMoveReq _ _)
        · exact h1.advanceFrame hr _
      · exact h
      · exact h

theorem Agree.framePushAct (h : Agree none none s) : Agree none none (framePushAct s) := by
  unfold Machine.framePushAct
  split
  · exact h
  · rename_i f hf
    split
    · rename_i w k _ hk
      exact (h.pushAct (h.ring_used (h.dest_inUse hk)) true w).advanceFrame
        (running_of_bonds (bonds_pushAct _ _ _ _) (h.frame_running hf)) _
    · exact h

theorem Agree.unloadAct (h : Agree none none s) : Agree none none (unloadAct s) := by
  unfold Machine.unloadAct
  split
  · exact h.of_tables (tables_setMoveReq s none)
  · rename_i f hf
    have h1 := h.unloadWithdrawn (fun _ => true) f.entry
    refine Agree.of_tables (Agree.readmit (e := f.entry) (s := (Machine.unloadWithdrawn (fun _ => true) f.entry s).setFrame none)
      ⟨h1.linked.setFrame fun x hx => by simp at hx, h1.counted.of_same rfl rfl⟩ (move_unloadWithdrawn _ _ _) fun x hx => ?_)
      (tables_setMoveReq _ _)
    simp at hx

theorem Agree.grantMove (h : Agree none none s) : Agree none none (grantMove s) := by
  unfold Machine.grantMove
  split
  · exact h
  · exact h.startCheckAct
  · exact h.framePopAct
  · exact h.framePushAct
  · exact h.unloadAct

/-! ### Window accesses (R148 to R150, R156) -/

/-- An access that passes its checks uses an attachment in use (R146). -/
theorem checkAccess_inUse {p : Port} {w : Fin 8} {kind : WindowKind} {acc : BusAccess} {offset : Nat} {i : Fin 32}
    (h : checkAccess p w kind acc offset s = .ok i) : (s.att i).inUse = true := by
  have bound : ∀ x j, checkBinding p x kind acc s = .ok j → (s.att j).inUse = true := by
    intro x j hj
    unfold checkBinding at hj
    split at hj
    · simp at hj
    · rename_i k hk
      split at hj
      · simp at hj
      · split at hj
        · simp at hj
        · obtain rfl := Except.ok.inj hj
          exact currentIndex_current hk
  unfold checkAccess at h
  split at h
  · simp at h
  · split at h
    · simp at h
    · rename_i j hj
      split at h
      · simp at h
      · obtain rfl := Except.ok.inj h
        exact bound _ _ hj

/-- What a granted access does on the rings, on the state in which it was judged or one with the same tables. -/
theorem Agree.applyAccess {t : State} (h : Agree none none t) (ht : t.tables = s.tables) (p : Port) (w : Fin 8) (kind : WindowKind)
    (acc : BusAccess) (offset : Nat) : Agree none none (applyAccess kind acc offset (judgeAccess p w kind acc offset s) t) := by
  unfold judgeAccess
  split
  · exact h
  · rename_i i hi
    have hu : (t.att i).inUse = true := att_of_tables ht i ▸ checkAccess_inUse hi
    cases kind with
    | stream =>
      cases acc with
      | read =>
        dsimp only
        split <;> exact h.popAct hu
      | write d =>
        dsimp only
        split
        · exact h.pushAct (h.ring_used hu) false d
        · exact h
        · exact h
    | page =>
      cases acc with
      | read => exact h.renewLease hu
      | write d =>
        have h1 : Agree none none (t.setRingWord (t.att i).ring offset d) := h.of_tables (tables_setRingWord _ _ _ _)
        exact h1.renewLease hu

section
variable (s : State)

@[simp] theorem tables_finishParallel (p : ParPort) (w : Fin 8) (acc : BusAccess) (policy : WaitPolicy) (a : AccessAnswer) :
    (finishParallel p w acc policy a s).tables = s.tables := by
  unfold finishParallel
  cases a <;> dsimp only
  case empty => split <;> simp [placeWaiting]
  case blocked => split <;> simp [placeWaiting]
  all_goals simp [postWindowFault]

@[simp] theorem tables_endFrame (p : SerPort) : (endFrame p s).tables = s.tables := rfl

@[simp] theorem tables_endIfReleased (p : SerPort) : (endIfReleased p s).tables = s.tables := by
  unfold endIfReleased
  split <;> simp

@[simp] theorem tables_failWord (p : SerPort) (acc : BusAccess) (c : Condition) : (failWord p acc c s).tables = s.tables := by
  cases acc <;> rfl

@[simp] theorem tables_finishSerial (p : SerPort) (acc : BusAccess) (a : AccessAnswer) : (finishSerial p acc a s).tables = s.tables := by
  cases a <;> simp [finishSerial, shiftData]

@[simp] theorem tables_grantCheck (p : SerPort) : (grantCheck p s).tables = s.tables := by
  unfold grantCheck
  dsimp only
  rw [tables_endIfReleased]
  split <;> simp

@[simp] theorem tables_finishCommand (p : Port) (x : CommandAnswer) : (finishCommand p x).tables = x.after.tables := rfl

@[simp] theorem tables_resetPrivate (p : Port) (asCommand : Bool) : (resetPrivate p asCommand s).tables = s.tables := by
  unfold resetPrivate
  dsimp only
  split <;> simp <;> split <;> rfl

end

theorem Agree.grantParallel (h : Agree none none s) (p : ParPort) (w : Fin 8) (acc : BusAccess) (offset : Nat) :
    Agree none none (grantParallel p w acc offset s) :=
  Agree.of_tables (Agree.applyAccess (h.of_tables (tables_setDataReq s p.toPort none)) (tables_setDataReq _ _ _) _ _ _ _ _)
    (tables_finishParallel _ _ _ _ _ _)

theorem Agree.grantSerial (h : Agree none none s) (p : SerPort) (kind : WindowKind) (w : Fin 8) (acc : BusAccess) (offset : Nat) :
    Agree none none (grantSerial p kind w acc offset s) :=
  Agree.of_tables (Agree.applyAccess (h.of_tables (tables_setDataReq s p.toPort none)) (tables_setDataReq _ _ _) _ _ _ _ _)
    ((tables_endIfReleased _ _).trans (tables_finishSerial _ _ _ _))

theorem Agree.grantData (h : Agree none none s) (p : Port) : Agree none none (grantData p s) := by
  unfold Machine.grantData
  split
  · exact h
  · split
    · exact h.of_tables (tables_setDataReq _ _ _)
    · exact h.of_tables (tables_grantCheck _ _)
  · split
    · exact h.grantParallel _ _ _ _
    · split
      · exact h.grantSerial _ _ _ _ _
      · exact h.of_tables (tables_setDataReq _ _ _)

/-! ### The arbiter (R65, R69) -/

theorem Agree.grantCommand (h : Agree none none s) (p : Port) : Agree none none (grantCommand p s) := by
  unfold Machine.grantCommand
  split
  · exact h
  · exact (h.runCommand p _ _).of_tables (tables_finishCommand _ _)
  · exact ((h.withdrawAttachments p).withdrawEntries p).of_tables (tables_resetPrivate _ _ _)

theorem Agree.grantRequest (h : Agree none none s) (q : Requester) : Agree none none (grantRequest q s) := by
  have h1 : Agree none none (s.setArb q) := h.of_tables (tables_setArb s q)
  cases q with
  | data p => exact h1.grantData p
  | move => exact h1.grantMove
  | command p => exact h1.grantCommand p

theorem Agree.grantWhen (h : Agree none none s) (q : Requester) (sort : State → Bool) : Agree none none (grantWhen q sort s) := by
  unfold Machine.grantWhen
  split
  · exact h.grantRequest q
  · exact h

theorem Agree.grantNext (h : Agree none none s) : Agree none none (grantNext s) := by
  unfold Machine.grantNext
  split
  · exact (h.grantRequest _).of_tables (tables_placeStartCheck _)
  · exact h

theorem Agree.serveFor (p : SerPort) : ∀ (n : Nat) {s : State}, Agree none none s → Agree none none (serveFor p n s)
  | 0, _, h => h
  | n + 1, s, h => by
    unfold Machine.serveFor
    split
    · exact Agree.serveFor p n h.grantNext
    · exact h

theorem Agree.serve (h : Agree none none s) (p : SerPort) : Agree none none (serve p s) := Agree.serveFor p 9 h

theorem Agree.answerWaiting (h : Agree none none s) (p : ParPort) : Agree none none (answerWaiting p s) := by
  unfold Machine.answerWaiting
  split
  · exact (h.examineWaiting _ p).reexamine _
  · exact h

/-! ### What falls due (R72, R73, R138, R159) -/

@[simp] theorem att_takeTick (s : State) (i : Fin 32) : (takeTick s).att i = (s.att i).ticked := by
  simp [takeTick, State.att, tableGet_eq]

/-- A tick lowers a running lease and nothing else. -/
theorem ticked_eq (x : Attachment) : ∃ n, x.ticked = { x with leaseRemaining := n } ∧ (x.inUse = false → x.ticked = x) := by
  unfold Attachment.ticked
  split
  · rename_i hc
    exact ⟨_, rfl, fun hf => absurd hc.1 (by simp [hf])⟩
  · exact ⟨_, rfl, fun _ => rfl⟩

theorem Agree.takeTick (h : Agree none none s) : Agree none none (takeTick s) := by
  have hbond : ∀ i, (s.att i).ticked.bond = (s.att i).bond := fun i => by
    obtain ⟨n, hn, -⟩ := ticked_eq (s.att i)
    rw [hn]
    rfl
  refine h.of_bonds ?_ ⟨h.counted.ring, fun i hi => ?_, fun i hi => ?_⟩
  · unfold State.bonds
    simp only [att_takeTick, hbond]
    rfl
  · obtain ⟨n, hn, hu⟩ := ticked_eq (s.att i)
    rw [att_takeTick] at hi ⊢
    rw [hu (by simpa [hn] using hi)] at hi ⊢
    exact h.counted.unused i hi
  · obtain ⟨n, hn, -⟩ := ticked_eq (s.att i)
    rw [att_takeTick, hn] at hi ⊢
    exact h.counted.cursor i hi

theorem dueExpiry_expired {i : Fin 32} (h : s.dueExpiry = some i) : (s.att i).expired = true := by
  simpa using List.find?_some h

theorem Agree.takeExpiries : ∀ (n : Nat) {s : State}, Agree none none s → Agree none none (takeExpiries n s)
  | 0, _, h => h
  | n + 1, s, h => by
    unfold Machine.takeExpiries
    split
    · rename_i i hi
      exact Agree.takeExpiries n (h.expireLease (dueExpiry_expired hi))
    · exact h

theorem Agree.settleExpiries (h : Agree none none s) : Agree none none (settleExpiries s) := Agree.takeExpiries 32 h

theorem Agree.expirePacer (h : Agree none none s) (n : Fin 4) : Agree none none (expirePacer n s) := by
  unfold Machine.expirePacer
  refine Agree.of_tables (List.foldlRecOn (motive := Agree none none) _ _ h fun t ht e _ => ?_) (tables_setPacer _ _ _)
  split
  · exact ht.deliverTrigger e
  · exact ht

theorem Agree.settleTick (h : Agree none none s) : Agree none none (settleTick s) := by
  unfold Machine.settleTick
  split
  · exact h.takeTick.settleExpiries
  · exact h

theorem Agree.settlePacers (h : Agree none none s) : Agree none none (settlePacers s) := by
  unfold Machine.settlePacers
  refine List.foldlRecOn (motive := Agree none none) _ _ h fun t ht n _ => ?_
  split
  · exact ht.expirePacer n
  · exact ht

theorem Agree.settle (h : Agree none none s) : Agree none none (settle s) := by
  unfold Machine.settle
  split
  · exact h
  · exact h.settleExpiries.settleTick.settlePacers.of_tables
      ((tables_placeStartCheck _).trans ((tables_settleStall _ _).trans (tables_settleStall _ _)))

end

end Sys2Proof.Machine
end

