-- ==== Sys2Proof/Proofs/TablesAgree.lean ====
section
/-! PROOF. Every step keeps the tables in agreement (O56): what the ports and the clock do of their own leaves the tables alone, and every
command is an act made of operations that keep them. -/

namespace Sys2Proof.Machine

/-! ### Acts of the ports and the clock -/

section
variable (s : State)

@[simp] theorem tables_advanceDivider : (advanceDivider s).tables = s.tables := by
  unfold advanceDivider
  split <;> rfl

@[simp] theorem tables_advanceTime : (advanceTime s).tables = s.tables := by
  unfold advanceTime
  dsimp only
  rw [tables_setPar, tables_setPar]
  exact tables_advanceDivider s

@[simp] theorem tables_latchHigh (p : Port) : (latchHigh p s).tables = s.tables := rfl

@[simp] theorem tables_acknowledge (p : Port) : (acknowledge p s).tables = s.tables := rfl

@[simp] theorem tables_controlReadAct (p : Port) (offset : Nat) : (controlReadAct p offset s).tables = s.tables := by
  unfold controlReadAct
  split <;> rfl

@[simp] theorem tables_ariseWithdrawal (p : Port) (asCommand byReset : Bool) :
    (ariseWithdrawal p asCommand byReset s).tables = s.tables := by
  unfold ariseWithdrawal
  dsimp only
  split <;> rfl

@[simp] theorem tables_submit (p : Port) (w : Word) : (submit p w s).tables = s.tables := by
  unfold submit refuseSubmit
  dsimp only
  split
  · split <;> simp
  · rfl
  · split <;> rfl

@[simp] theorem tables_writeStallLimit (p : Port) (v : Word) : (writeStallLimit p v s).tables = s.tables := by
  unfold writeStallLimit
  split
  · split <;> rfl
  · rfl

@[simp] theorem tables_controlWriteAct (p : Port) (offset : Nat) (v : Word) : (controlWriteAct p offset v s).tables = s.tables := by
  unfold controlWriteAct
  dsimp only
  split
  · rfl
  · split
    · rfl
    · split <;> simp

@[simp] theorem tables_startCycle (p : ParPort) (acc : BusAccess) (addr : BitVec 12) : (startCycle p acc addr s).tables = s.tables := by
  unfold startCycle
  split
  · cases acc <;> simp [controlCycle]
  · simp [unmappedCycle]
  · unfold windowCycle
    dsimp only
    split <;> simp

@[simp] theorem tables_setStrobe (p : ParPort) (held : Bool) : (setStrobe p held s).tables = s.tables := rfl

@[simp] theorem tables_setResetPin (p : ParPort) (held : Bool) : (setResetPin p held s).tables = s.tables := rfl

@[simp] theorem tables_abandonWaiting (p : ParPort) : (abandonWaiting p s).tables = s.tables := by
  unfold abandonWaiting
  split <;> rfl

@[simp] theorem tables_releaseStrobe (p : ParPort) : (releaseStrobe p s).tables = s.tables := by
  unfold releaseStrobe
  dsimp only
  split <;> simp

@[simp] theorem tables_setSelect (p : SerPort) (held : Bool) : (setSelect p held s).tables = s.tables := rfl

@[simp] theorem tables_beginFrame (p : SerPort) : (beginFrame p s).tables = s.tables := by
  unfold beginFrame
  dsimp only
  split <;> rfl

@[simp] theorem tables_placeCheck (p : SerPort) : (placeCheck p s).tables = s.tables := by
  unfold placeCheck
  split <;> rfl

@[simp] theorem tables_headerCalls (p : SerPort) (op : SerialOp) : (headerCalls p op s).tables = s.tables := by
  cases op <;> simp [headerCalls]

@[simp] theorem tables_clockHeader (p : SerPort) (op : SerialOp) (w : Fin 8) (count : BitVec 10) :
    (clockHeader p op w count s).tables = s.tables := by
  rw [clockHeader_eq]
  split <;> simp

@[simp] theorem tables_takeAddress (p : SerPort) (address : Word) : (takeAddress p address s).tables = s.tables := by
  unfold takeAddress
  dsimp only
  split
  · rfl
  · split <;> rfl

@[simp] theorem tables_beyondWord (p : SerPort) : (beyondWord p s).tables = s.tables := rfl

@[simp] theorem tables_beginRead (p : SerPort) (offset : Nat) : (beginRead p offset s).tables = s.tables := by
  unfold beginRead
  dsimp only
  split <;> rfl

@[simp] theorem tables_beginCounted (p : SerPort) : (beginCounted p s).tables = s.tables := by
  unfold beginCounted beginControlRead beginWrite
  dsimp only
  split <;> simp

@[simp] theorem tables_completeWrite (p : SerPort) (w : Word) (offset : Nat) : (completeWrite p w offset s).tables = s.tables := by
  unfold completeWrite
  dsimp only
  split <;> rfl

@[simp] theorem tables_completeCounted (p : SerPort) (w : Word) : (completeCounted p w s).tables = s.tables := by
  unfold completeCounted completeRead completeControlWrite
  dsimp only
  split <;> simp

@[simp] theorem tables_dataWord (p : SerPort) (moment : DataBit) : (dataWord p moment s).tables = s.tables := by
  cases moment with
  | first =>
    simp only [dataWord, beginWord]
    split
    · rfl
    · split
      · split <;> simp
      · rfl
  | last w =>
    simp only [dataWord, completeWord]
    split <;> simp

@[simp] theorem tables_beginBeyond (p : SerPort) : (beginBeyond p s).tables = s.tables := by
  unfold beginBeyond
  dsimp only
  split
  · rfl
  · split <;> simp

@[simp] theorem tables_releaseSelect (p : SerPort) : (releaseSelect p s).tables = s.tables := by
  unfold releaseSelect
  dsimp only
  split <;> simp

theorem tables_clocked (p : SerPort) {f : State → State} (hf : ∀ t, (f t).tables = t.tables) : (clocked p f s).tables = s.tables := by
  unfold clocked
  split
  · exact hf s
  · rfl

end

/-! ### Acts -/

section
variable {s : State}

/-- An effect that keeps the tables in agreement. -/
def KeepsAgreement (f : State → State) : Prop := ∀ s, Agree none none s → Agree none none (f s)

theorem keepsAgreement_of_tables {f : State → State} (hf : ∀ s, (f s).tables = s.tables) : KeepsAgreement f :=
  fun s h => h.of_tables (hf s)

/-- A next state in which the tables agree. -/
def AgreesNext (o : Out) : Prop := ∀ t, o = .next t → Agree none none t

theorem agreesNext (h : Agree none none s) : AgreesNext (.next s) := fun _ ht => Host.Outcome.next.inj ht ▸ h

theorem Agree.act (h : Agree none none s) {f : State → State} (hf : KeepsAgreement f) : AgreesNext (act f s) := by
  unfold Machine.act
  split
  · exact agreesNext h
  · exact agreesNext ((hf _ h.settle).of_tables (tables_placeStartCheck _))

theorem Agree.pinAct (h : Agree none none s) {pin f : State → State} (hp : ∀ t, (pin t).tables = t.tables) (hf : KeepsAgreement f) :
    AgreesNext (pinAct pin f s) := by
  unfold Machine.pinAct
  split
  · exact agreesNext (h.of_tables (hp s))
  · exact agreesNext ((hf _ h.settle).of_tables (tables_placeStartCheck _))

theorem Agree.dueAct (h : Agree none none s) {f : State → State} (hf : KeepsAgreement f) : AgreesNext (dueAct f s) := by
  unfold Machine.dueAct
  split
  · exact agreesNext h
  · exact agreesNext ((hf _ h).of_tables (tables_placeStartCheck _))

/-- A grant in the rotation. -/
theorem Agree.grantAct (h : Agree none none s) (q : Requester) (sort : State → Bool) : AgreesNext (Machine.act (Machine.grantWhen q sort) s) :=
  h.act fun _ ht => ht.grantWhen q sort

/-- A header clocked in. -/
theorem Agree.headerAct (h : Agree none none s) (p : SerPort) (op : SerialOp) (w : Fin 8) (count : BitVec 10) :
    AgreesNext (Machine.act (clockHeader p op w count) s) :=
  h.act (keepsAgreement_of_tables fun t => tables_clockHeader t p op w count)

/-- An access of a control page, after the earlier request of a serial port is served. -/
theorem Agree.controlAct (h : Agree none none s) (p : Port) {f : State → State} (hf : ∀ t, (f t).tables = t.tables) :
    AgreesNext (Machine.act (controlAccess p f) s) := by
  refine h.act fun t ht => ?_
  have hserved : Agree none none (serveBefore p t) := by
    unfold serveBefore
    split
    · exact ht
    · exact ht.serve _
  unfold controlAccess
  split
  · exact hserved.of_tables (hf _)
  · exact hserved

/-- A word of a serial frame, after the port's earlier request is served. -/
theorem Agree.wordAct (h : Agree none none s) (p : SerPort) {f : State → State} (hf : ∀ t, (f t).tables = t.tables) :
    AgreesNext (Machine.act (fun s => clocked p f (Machine.serve p s)) s) :=
  h.act fun _ ht => (ht.serve p).of_tables (tables_clocked _ p hf)

theorem agree_resetAll (s : State) : Agree none none (resetAll s) := by
  have hr : ∀ r, (resetAll s).ring r = Ring.freed := fun r => by simp [resetAll, State.ring, State.reset, tableGet_eq]
  have ha : ∀ i, (resetAll s).att i = Attachment.freed 0 := fun i => by simp [resetAll, State.att, State.reset, tableGet_eq]
  have hm : ∀ e, (resetAll s).move e = MoveEntry.cleared := fun e => by simp [resetAll, State.move, State.reset, tableGet_eq]
  have hplace : ∀ role, Ring.freed.place role = none := Ring.attachmentCount_eq_zero.mp rfl
  have hq : ∀ q : Fin 128, tableGet (resetAll s).pageMap q = none := fun q => by simp [resetAll, State.reset, tableGet_eq]
  refine ⟨⟨?_, ?_, ?_, ?_, ?_, ?_, ?_, ?_, ?_, ?_, ?_⟩, ⟨?_, ?_, ?_⟩⟩ <;>
    simp only [bonds_ring, bonds_att, bonds_move, bonds_pageMap, bonds_frame, hr, ha, hm, hq, Ring.place_bond, hplace]
  · exact fun _ _ => rfl
  · exact fun _ hf => by simp [Ring.bond, Ring.freed] at hf
  · exact fun _ hf => absurd rfl hf
  · exact fun _ _ _ => rfl
  · exact fun _ _ => iff_of_false (by simp) fun hf => hf.1 rfl
  · exact fun _ _ _ hf => by simp at hf
  · exact fun _ hf => by simp [Attachment.bond, Attachment.freed] at hf
  · exact fun _ _ hf => by simp [Attachment.bond, Attachment.freed] at hf
  · exact fun _ _ => ⟨fun _ => rfl, fun hs => absurd rfl hs, fun _ hk => by simp [MoveEntry.bond, MoveEntry.cleared] at hk,
      fun _ hk => by simp [MoveEntry.bond, MoveEntry.cleared] at hk⟩
  · exact fun _ hf => by simp at hf
  · exact fun f hf => by simp [resetAll, State.reset] at hf
  · exact fun _ => ⟨fun _ => ⟨rfl, rfl, rfl⟩, fun _ => ⟨Nat.le_refl _, fun hf => absurd rfl hf⟩, fun hm' => by simp [Ring.freed] at hm'⟩
  · exact fun _ _ => rfl
  · exact fun _ hf => by simp [Attachment.freed] at hf

/-- Every command keeps the tables in agreement. -/
theorem Agree.exec (h : Agree none none s) (c : Instr) : AgreesNext (exec c s) := by
  cases c with
  | deviceReset => exact agreesNext (agree_resetAll s)
  | deviceResetRelease => exact agreesNext (h.of_tables (tables_setDeviceReset s false))
  | timebaseAdvance => exact h.act (keepsAgreement_of_tables tables_advanceTime)
  | leaseTick =>
    simp only [Machine.exec, execLeaseTick]
    refine h.dueAct fun t ht => ?_
    split
    · exact ht.settleExpiries.takeTick
    · exact ht
  | leaseExpiry =>
    simp only [Machine.exec, execLeaseExpiry]
    refine h.dueAct fun t ht => ?_
    split
    · rename_i i hi
      exact ht.expireLease (dueExpiry_expired hi)
    · exact ht
  | pacerExpiry n =>
    simp only [Machine.exec, execPacerExpiry]
    refine h.dueAct fun t ht => ?_
    split
    · exact ht.settleExpiries.expirePacer n
    · exact ht
  | stallTimeout p =>
    simp only [Machine.exec, execStallTimeout]
    refine h.dueAct fun t ht => Agree.of_tables ?_ (tables_settleStall _ p)
    split
    · exact ht.settleExpiries
    · exact ht
  | parallelCycleStart p acc addr =>
    simp only [Machine.exec, execParallelCycleStart]
    refine h.pinAct (fun t => tables_setStrobe t p true) (keepsAgreement_of_tables fun t => ?_)
    split <;> simp
  | strobeRelease p =>
    exact h.pinAct (fun t => tables_setStrobe t p false) (keepsAgreement_of_tables fun t => tables_releaseStrobe t p)
  | portReset p =>
    simp only [Machine.exec, execPortReset]
    refine h.pinAct (fun t => tables_setResetPin t p true) (keepsAgreement_of_tables fun t => ?_)
    split <;> simp
  | portResetRelease p =>
    exact h.pinAct (fun t => tables_setResetPin t p false) (keepsAgreement_of_tables fun t => tables_setResetPin t p false)
  | serialFrameStart p =>
    simp only [Machine.exec, execSerialFrameStart]
    refine h.pinAct (fun t => tables_setSelect t p true) fun t ht => ?_
    split
    · exact ht
    · exact (ht.serve p).of_tables (tables_beginFrame _ _)
  | serialFrameEnd p =>
    exact h.pinAct (fun t => tables_setSelect t p false) (keepsAgreement_of_tables fun t => tables_releaseSelect t p)
  | statusOnly p w count => exact h.headerAct p .statusOnly w count
  | streamRead p w count => exact h.headerAct p .streamRead w count
  | streamWrite p w count => exact h.headerAct p .streamWrite w count
  | pageRead p w count => exact h.headerAct p .pageRead w count
  | pageWrite p w count => exact h.headerAct p .pageWrite w count
  | controlRead p w count => exact h.headerAct p .controlRead w count
  | controlWrite p w count => exact h.headerAct p .controlWrite w count
  | withdrawFrame p w count => exact h.headerAct p .withdraw w count
  | serialAddressWord p address =>
    exact h.act (keepsAgreement_of_tables fun t => tables_clocked t p fun u => tables_takeAddress u p address)
  | serialDataWord p moment => exact h.wordAct p fun t => tables_dataWord t p moment
  | beyondCountWord p => exact h.wordAct p fun t => tables_beginBeyond t p
  | waitingAccessAnswer p => exact h.act fun _ ht => ht.answerWaiting p
  | timebaseLowRead p => exact h.controlAct p fun _ => rfl
  | eventAcknowledge p _ => exact h.controlAct p fun _ => rfl
  | controlWordWrite p offset v => exact h.controlAct p fun t => tables_controlWriteAct t p offset.toNat v
  | commandSubmit p w => exact h.controlAct p fun t => tables_submit t p w
  | withdraw p => exact h.controlAct p fun t => tables_submit t p codeWithdraw
  | serialWindowCheck p => exact h.grantAct _ _
  | push p => exact h.grantAct _ _
  | pop p => exact h.grantAct _ _
  | pageWindowRead p => exact h.grantAct _ _
  | pageWindowWrite p => exact h.grantAct _ _
  | withdrawal p => exact h.grantAct _ _
  | badCommand p => exact h.grantAct _ _
  | createRing p => exact h.grantAct _ _
  | attach p => exact h.grantAct _ _
  | detach p => exact h.grantAct _ _
  | renew p => exact h.grantAct _ _
  | setThreshold p => exact h.grantAct _ _
  | queryRing p => exact h.grantAct _ _
  | queryAttach p => exact h.grantAct _ _
  | loadMove p => exact h.grantAct _ _
  | startMove p => exact h.grantAct _ _
  | fireMove p => exact h.grantAct _ _
  | stopMove p => exact h.grantAct _ _
  | unloadMove p => exact h.grantAct _ _
  | setPacer p => exact h.grantAct _ _
  | startCheck => exact h.grantAct _ _
  | moveFramePop => exact h.grantAct _ _
  | moveFramePush => exact h.grantAct _ _
  | deferredUnload => exact h.grantAct _ _

end

/-- Settles O56: agreement without exception is kept by every command, and a step runs one command or none. -/
theorem everyStepKeepsTheTablesInAgreement : Obligations.EveryStepKeepsTheTablesInAgreement := by
  intro s t hs ht
  have h := tablesAgree_iff.mp hs
  refine tablesAgree_iff.mpr ?_
  unfold step at ht
  split at ht
  · exact agreesNext h t ht
  · rename_i c rest _
    exact (h.of_tables (t := { s with pending := rest }) rfl).exec c t ht

end Sys2Proof.Machine
end

