-- ==== Sys2Proof/Proofs/StoredPush.lean ====
section
/-! PROOF. What a stored push reaches (O23): one word of the sample memory, the ring record, its readers and its producer. -/

namespace Sys2Proof.Machine

/-! ### What a push's records and notices leave -/

/-- What no record, notice, cursor or lease changes: the page map, the memory, the arbiter, the waiting accesses, the clocks, the ports'
cycles and frames. -/
structure Outside where
  pageMap : Vector (Option (Fin 16)) 128
  mem : Memory
  arb : Requester
  waiting : Two (Option WaitingAccess)
  timebase : BitVec 32
  pacers : Vector Pacer 4
  par : Two ParallelUnit
  ser : Two SerialUnit

def State.outside (s : State) : Outside := ⟨s.pageMap, s.mem, s.arb, s.waiting, s.timebase, s.pacers, s.par, s.ser⟩

section
variable (s : State)

@[simp] theorem outside_setRing (r : Fin 16) (g : Ring) : (s.setRing r g).outside = s.outside := rfl

@[simp] theorem outside_setAtt (i : Fin 32) (x : Attachment) : (s.setAtt i x).outside = s.outside := rfl

@[simp] theorem outside_postAbout (i : Fin 32) (k : EventKind) (d : Word) : (postAbout i k d s).outside = s.outside := by
  unfold postAbout postHolder
  split <;> rfl

@[simp] theorem outside_postCrossing (i : Fin 32) (before after : Nat) : (postCrossing i before after s).outside = s.outside := by
  unfold postCrossing
  split
  · exact outside_postAbout _ _ _ _
  · rfl

@[simp] theorem outside_reportLag (i : Fin 32) : (reportLag i s).outside = s.outside := by
  unfold reportLag
  split
  · rfl
  · exact outside_postAbout _ _ _ _

@[simp] theorem outside_retryHolder (i : Fin 32) : (retryHolder i s).outside = s.outside := by
  unfold retryHolder retryNotice
  split
  · split <;> rfl
  · rfl

@[simp] theorem outside_pushReader (c : Nat) (i : Fin 32) : (pushReader c s i).outside = s.outside := by
  unfold pushReader
  dsimp only
  split
  · rw [outside_retryHolder, outside_postCrossing]
    split <;> simp
  · rw [outside_postCrossing]
    split <;> simp

@[simp] theorem outside_spaceChanged (r : Fin 16) (before : Nat) : (spaceChanged r before s).outside = s.outside := by
  unfold spaceChanged
  split
  · split
    · rw [outside_retryHolder, outside_postCrossing]
    · rfl
  · rfl

end

/-! ### The parts of a stored push -/

/-- A push reaches the readers it brings up to date and no other record. -/
theorem att_pushReaders (c : Nat) {j : Fin 32} :
    ∀ (l : List (Fin 32)) (s : State), j ∉ l → (l.foldl (pushReader c) s).att j = s.att j
  | [], _, _ => rfl
  | i :: l, s, hj => by
    have hne := List.ne_of_not_mem_cons hj
    exact (att_pushReaders c l _ (List.not_mem_of_not_mem_cons hj)).trans (att_pushReader_ne s c hne)

section
variable (s : State) (r : Fin 16) (ofFrame : Bool) (w : Word)

/-- A stored push before its producer's lease is renewed. -/
def State.pushed : State :=
  spaceChanged r (s.space r) ((s.readers r).foldl (pushReader (s.ring r).capacity)
    ((s.setRingWord r (s.ring r).writePos w).setRing r ((s.ring r).afterPush ofFrame)))

/-- A stored push ends with the lease of the ring's producer, if it has one (R29). -/
theorem storePush_cases :
    (∃ k, (s.ring r).producer = some k ∧ storePush r ofFrame w s = renewLease k.index (s.pushed r ofFrame w)) ∨
      storePush r ofFrame w s = s.pushed r ofFrame w := by
  unfold storePush State.pushed
  dsimp only
  split
  · rename_i k hk
    exact .inl ⟨k, hk, rfl⟩
  · exact .inr rfl

theorem outside_storePush : (storePush r ofFrame w s).outside = (s.setRingWord r (s.ring r).writePos w).outside := by
  have hp : (s.pushed r ofFrame w).outside = (s.setRingWord r (s.ring r).writePos w).outside :=
    (outside_spaceChanged _ _ _).trans (foldl_keeps State.outside _ (fun t i => outside_pushReader t _ i) _ _)
  rcases storePush_cases s r ofFrame w with ⟨k, -, h⟩ | h
  · rw [h]; exact hp
  · rw [h]; exact hp

theorem ring_storePush (r' : Fin 16) :
    (storePush r ofFrame w s).ring r' = if r' = r then (s.ring r).afterPush ofFrame else s.ring r' := by
  have hp : (s.pushed r ofFrame w).ring r' = if r' = r then (s.ring r).afterPush ofFrame else s.ring r' := by
    unfold State.pushed
    rw [ring_spaceChanged, foldl_keeps (fun t : State => t.ring r') _ (fun t i => ring_pushReader t _ i r'), State.ring_setRing]
    rfl
  rcases storePush_cases s r ofFrame w with ⟨k, -, h⟩ | h
  · rw [h]; exact hp
  · rw [h]; exact hp

theorem att_storePush {i : Fin 32} (hi : i ∉ s.readers r) (hp : (s.ring r).producer.map (·.index) ≠ some i) :
    (storePush r ofFrame w s).att i = s.att i := by
  have h : (s.pushed r ofFrame w).att i = s.att i := by
    unfold State.pushed
    rw [att_spaceChanged, att_pushReaders _ _ _ hi]
    rfl
  rcases storePush_cases s r ofFrame w with ⟨k, hk, hs⟩ | hs
  · have hne : i ≠ k.index := fun e => hp (by rw [hk, e]; rfl)
    rw [hs, renewLease, State.att_setAtt, if_neg hne, h]
  · rw [hs, h]

end

/-- The ring record after a stored push, in the words of R4, R5 and R7. -/
theorem Ring.afterPush_eq (g : Ring) (ofFrame : Bool) :
    g.afterPush ofFrame =
      { g with
        writePos := if g.mode = .circular ∧ g.writePos + 1 = g.capacity then 0 else g.writePos + 1
        valid := if g.mode = .circular ∧ g.valid = g.capacity then g.valid else g.valid + 1
        reserved := if ofFrame = true then g.reserved - 1 else g.reserved } := by
  unfold Ring.afterPush
  cases g.mode <;> simp

/-- Settles O23: the word is written first, and nothing after it touches the memory or another ring. -/
theorem storedPushWritesOneWord : Obligations.StoredPushWritesOneWord := by
  refine ⟨fun s r n => ⟨by simp [Ring.address], rfl⟩, fun s r ofFrame d hwf => ?_⟩
  have hout := outside_storePush s r ofFrame d
  have hmem : (storePush r ofFrame d s).mem = s.mem.write ((s.ring r).address (s.ring r).writePos) d :=
    congrArg Outside.mem hout
  refine ⟨?_, fun a ha => ?_, ?_, ?_, fun r' hr' => ?_, congrArg Outside.pageMap hout, congrArg Outside.arb hout,
    congrArg Outside.waiting hout, congrArg Outside.timebase hout, congrArg Outside.pacers hout, congrArg Outside.par hout,
    congrArg Outside.ser hout, fun i hi hp => att_storePush s r ofFrame d hi hp⟩
  · rw [hmem, Memory.read_write_same _ _ _ hwf]
  · rw [hmem, Memory.read_write_ne _ _ _ _ ha]
  · rw [hmem]
    exact Memory.wf_write _ _ _ (Ring.address_lt _ _) hwf
  · rw [ring_storePush, if_pos rfl, Ring.afterPush_eq]
  · rw [ring_storePush, if_neg hr']

end Sys2Proof.Machine
end

