-- ==== Sys2Proof/Proofs/DeviceReset.lean ====
section
/-! PROOF. Device reset (O3): its values, its release, and that a command changes no more than a pin while the input is held. -/

namespace Sys2Proof.Machine

/-! ### While the input is held (assumption 8) -/

/-- A state that differs from another by the levels of input pins alone. -/
def PinsOnly (s t : State) : Prop :=
  t = { s with
    par :=
      ⟨{ s.par.fst with strobeHeld := t.par.fst.strobeHeld, resetHeld := t.par.fst.resetHeld },
        { s.par.snd with strobeHeld := t.par.snd.strobeHeld, resetHeld := t.par.snd.resetHeld }⟩
    ser :=
      ⟨{ s.ser.fst with selectHeld := t.ser.fst.selectHeld }, { s.ser.snd with selectHeld := t.ser.snd.selectHeld }⟩ }

theorem pinsOnly_refl (s : State) : PinsOnly s s := rfl

theorem pinsOnly_setStrobe (p : ParPort) (held : Bool) (s : State) : PinsOnly s (setStrobe p held s) := by cases p <;> rfl

theorem pinsOnly_setResetPin (p : ParPort) (held : Bool) (s : State) : PinsOnly s (setResetPin p held s) := by cases p <;> rfl

theorem pinsOnly_setSelect (p : SerPort) (held : Bool) (s : State) : PinsOnly s (setSelect p held s) := by cases p <;> rfl

section
variable {s : State} (h : s.deviceReset = true)
include h

theorem act_of_reset (f : State → State) : ∃ t, act f s = .next t ∧ PinsOnly s t := ⟨s, by simp [act, h], pinsOnly_refl s⟩

theorem dueAct_of_reset (f : State → State) : ∃ t, dueAct f s = .next t ∧ PinsOnly s t := ⟨s, by simp [dueAct, h], pinsOnly_refl s⟩

theorem pinAct_of_reset {pin : State → State} (hp : PinsOnly s (pin s)) (f : State → State) :
    ∃ t, pinAct pin f s = .next t ∧ PinsOnly s t := ⟨pin s, by simp [pinAct, h], hp⟩

/-- While the device reset input is held a command other than the two of the input changes no more than a pin. -/
theorem exec_of_reset (c : Instr) (h1 : c ≠ .deviceReset) (h2 : c ≠ .deviceResetRelease) :
    ∃ t, exec c s = .next t ∧ PinsOnly s t := by
  cases c with
  | deviceReset => exact absurd rfl h1
  | deviceResetRelease => exact absurd rfl h2
  | leaseTick => exact dueAct_of_reset h _
  | leaseExpiry =>
    unfold exec execLeaseExpiry
    exact dueAct_of_reset h _
  | pacerExpiry n => exact dueAct_of_reset h _
  | stallTimeout p =>
    unfold exec execStallTimeout
    exact dueAct_of_reset h _
  | parallelCycleStart p acc addr =>
    unfold exec execParallelCycleStart
    exact pinAct_of_reset h (pinsOnly_setStrobe p true s) _
  | strobeRelease p => exact pinAct_of_reset h (pinsOnly_setStrobe p false s) _
  | portReset p =>
    unfold exec execPortReset
    exact pinAct_of_reset h (pinsOnly_setResetPin p true s) _
  | portResetRelease p => exact pinAct_of_reset h (pinsOnly_setResetPin p false s) _
  | serialFrameStart p =>
    unfold exec execSerialFrameStart
    exact pinAct_of_reset h (pinsOnly_setSelect p true s) _
  | serialFrameEnd p => exact pinAct_of_reset h (pinsOnly_setSelect p false s) _
  | beyondCountWord p =>
    unfold exec execBeyondCountWord
    exact act_of_reset h _
  | serialDataWord p moment =>
    unfold exec execSerialDataWord
    exact act_of_reset h _
  | timebaseAdvance | withdrawal | statusOnly | streamRead | streamWrite | pageRead | pageWrite | controlRead | controlWrite
  | withdrawFrame | serialWindowCheck | push | pop | pageWindowRead | pageWindowWrite | waitingAccessAnswer
  | timebaseLowRead | eventAcknowledge | controlWordWrite | commandSubmit | badCommand | createRing | attach | detach | renew
  | setThreshold | queryRing | queryAttach | withdraw | loadMove | startMove | fireMove | stopMove | unloadMove | setPacer
  | startCheck | moveFramePop | moveFramePush | deferredUnload | serialAddressWord =>
    exact act_of_reset h _

end

/-! ### The tables after reset -/

theorem reset_ring (r : Fin 16) : State.reset.ring r = Ring.freed := by simp [State.ring, State.reset, tableGet_eq]

theorem reset_att (i : Fin 32) : State.reset.att i = Attachment.freed 0 := by simp [State.att, State.reset, tableGet_eq]

theorem reset_move (e : Fin 16) : State.reset.move e = MoveEntry.cleared := by simp [State.move, State.reset, tableGet_eq]

theorem reset_pacer (n : Fin 4) : State.reset.pacer n = Pacer.cleared := by simp [State.pacer, State.reset, tableGet_eq]

theorem reset_page (q : Fin 128) : tableGet State.reset.pageMap q = none := by simp [State.reset, tableGet_eq]

theorem reset_port (p : Port) : State.reset.port p = PortUnit.cleared := by cases p <;> rfl

theorem reset_parUnit (p : ParPort) : State.reset.parUnit p = ParallelUnit.cleared := by cases p <;> rfl

theorem reset_serUnit (p : SerPort) : State.reset.serUnit p = SerialUnit.cleared := by cases p <;> rfl

theorem reset_window (p : Port) (w : Fin 8) : State.reset.window p w = Window.cleared := by
  simp [State.window, reset_port, PortUnit.cleared, tableGet_eq]

/-- No requester has a request pending after reset (R64). -/
theorem reset_requests (q : Requester) : State.reset.requests q = false := by
  cases q with
  | data p => simp [State.requests, reset_port, PortUnit.cleared]
  | move => rfl
  | command p => simp [State.requests, reset_port, PortUnit.cleared, CommandUnit.cleared, CommandUnit.requests]

/-- Settles O3: each table after reset read through its own lemma, and the held input by `exec_of_reset`. -/
theorem deviceResetReturnsEveryField : Obligations.DeviceResetReturnsEveryField := by
  refine ⟨fun s => ⟨rfl, rfl⟩, fun c s h h1 h2 => exec_of_reset h c h1 h2, fun r => ?_, reset_att, fun _ => rfl, reset_page, rfl,
    reset_requests, reset_move, rfl, rfl, rfl, rfl, rfl, reset_pacer, fun p => ?_, fun p => ?_, fun p => ?_, fun p => ?_,
    fun _ => rfl, rfl, rfl, rfl⟩
  · rw [reset_ring]
    exact ⟨rfl, rfl, rfl, rfl, rfl, rfl, rfl, fun p => by cases p <;> rfl, rfl, rfl, rfl⟩
  · cases p <;> rfl
  · rw [reset_port]
    exact ⟨rfl, rfl, rfl, rfl, rfl, rfl, rfl, reset_window p⟩
  · rw [reset_parUnit]
    exact ⟨rfl, rfl, rfl, rfl, rfl⟩
  · rw [reset_serUnit]
    exact ⟨rfl, rfl, rfl⟩

end Sys2Proof.Machine
end

