-- ==== Sys2Proof/Proofs/ParallelPush.lean ====
section
/-! PROOF. A PUSH through a parallel port's window, by its answer (O18): the grant of a window access opened once, then the push's answers. -/

namespace Sys2Proof.Machine

section
variable {s : State} {p : ParPort} {w : Fin 8} {acc : BusAccess} {offset : Nat} {i : Fin 32}

/-! ### The grant of a parallel port's window access -/

/-- A granted access is judged on the state as it stands, and carried out with the port's request taken (R66, R156). -/
theorem grantWhen_parallel {kind : WindowKind} (h : s.accessGranted p.toPort w acc offset) (hk : (s.window p.toPort w).kind = kind) :
    grantWhen (.data p.toPort) (accessPending p.toPort kind (storesWord acc)) s =
      finishParallel p w acc (s.window p.toPort w).waitPolicy (judgeAccess p.toPort w kind acc offset s)
        (applyAccess kind acc offset (judgeAccess p.toPort w kind acc offset s) (s.dataTaken p.toPort)) := by
  obtain ⟨-, hnext, hreq⟩ := h
  subst hk
  have hsort : accessPending p.toPort (s.window p.toPort w).kind (storesWord acc) s = true := by
    simp only [accessPending, hreq]
    cases p <;> simp [State.requestKind, Port.split, ParPort.toPort]
  rw [grantWhen_of_next hnext hsort]
  have hreq' : ((s.setArb (.data p.toPort)).port p.toPort).dataReq = some (.access w acc offset) := hreq
  simp only [grantRequest, grantData, hreq']
  cases p <;> rfl

/-- A window bound to an attachment whose role suits the access passes the checks of a stream access (R146). -/
theorem checkAccess_of_bound {q : Port} (hb : s.bound q w .stream i) (hr : roleSuits (s.att i).role .stream acc = true) :
    checkAccess q w .stream acc offset s = .ok i := by
  obtain ⟨hen, -, hcur, hh⟩ := hb
  simp [checkAccess, checkBinding, hen, hcur, hh, hr]

/-- The answer of a push, as the answer of the access that makes it. -/
def PushAnswer.access (i : Fin 32) : PushAnswer → AccessAnswer
  | .stored => .stored i
  | .blocked => .blocked i
  | .exhausted => .exhausted i

/-- What a push through a window bound to the producer is answered (R148). -/
theorem judgeAccess_push {q : Port} {d : Word} (hb : s.bound q w .stream i) (hr : (s.att i).role = .producer) :
    judgeAccess q w .stream (.write d) offset s = (s.judgePush (s.att i).ring).access i := by
  rw [judgeAccess, checkAccess_of_bound hb (by rw [hr]; rfl)]
  dsimp only
  generalize s.judgePush (s.att i).ring = answer
  cases answer <;> rfl

/-- PUSH of a granted access through a window bound to the producer, opened up to its answer. -/
theorem exec_push {d : Word} (h : s.accessGranted p.toPort w (.write d) offset) (hb : s.bound p.toPort w .stream i) :
    exec (.push p.toPort) s = .next (placeStartCheck
      (finishParallel p w (.write d) (s.window p.toPort w).waitPolicy (judgeAccess p.toPort w .stream (.write d) offset s)
        (applyAccess .stream (.write d) offset (judgeAccess p.toPort w .stream (.write d) offset s) (s.dataTaken p.toPort)))) := by
  rw [← grantWhen_parallel h hb.2.1]
  exact act_of_calm _ h.1

end

/-! ### When a push is which (R6, R28) -/

section
variable (s : State) (r : Fin 16)

/-- A condition on the readers of a ring, slot by slot. -/
theorem any_readers {f : Fin 32 → Bool} : (s.readers r).any f = true ↔
    ∃ h, ((s.ring r).slots.one = some h ∨ (s.ring r).slots.two = some h ∨ (s.ring r).slots.three = some h) ∧ f h.index = true := by
  simp only [State.readers, Slots.handles, List.any_eq_true, List.mem_map, List.mem_append, Option.mem_toList, or_assoc]
  constructor
  · rintro ⟨i, ⟨h, hs, rfl⟩, hf⟩
    exact ⟨h, hs, hf⟩
  · rintro ⟨h, hs, hf⟩
    exact ⟨h.index, ⟨h, hs, rfl⟩, hf⟩

/-- A HOLD reader stands C behind (R28). -/
def State.heldUp : Prop :=
  ∃ h, ((s.ring r).slots.one = some h ∨ (s.ring r).slots.two = some h ∨ (s.ring r).slots.three = some h) ∧
    (s.att h.index).policy = .hold ∧ (s.att h.index).fill + (s.ring r).reserved = (s.ring r).capacity

theorem judgePush_onePass (hm : (s.ring r).mode = .onePass) :
    s.judgePush r = if (s.ring r).writePos = (s.ring r).capacity then .exhausted else .stored := by
  simp [State.judgePush, hm]

theorem judgePush_circular (hm : (s.ring r).mode = .circular) :
    (s.heldUp r → s.judgePush r = .blocked) ∧ (¬s.heldUp r → s.judgePush r = .stored) := by
  have hany := any_readers s r
    (f := fun i => (s.att i).policy == .hold && (s.att i).fill + (s.ring r).reserved == (s.ring r).capacity)
  simp only [Bool.and_eq_true, beq_iff_eq] at hany
  change _ ↔ s.heldUp r at hany
  simp only [State.judgePush, hm]
  exact ⟨fun hh => if_pos (hany.mpr hh), fun hh => if_neg fun ha => hh (hany.mp ha)⟩

end

/-- Settles O18: by the push's answer, and by the ring's mode. -/
theorem parallelPushByItsAnswer : Obligations.ParallelPushByItsAnswer := by
  refine ⟨fun s p w offset d i hg hb hr => ?_, fun s r => ?_⟩
  · have hexec := exec_push hg hb
    rw [judgeAccess_push hb hr] at hexec
    refine ⟨fun hj => ?_, fun hj => ?_, fun hj hw => ?_, fun hj hw => ?_⟩
    · rw [hj] at hexec
      exact hexec
    · rw [hj] at hexec
      exact hexec
    · rw [hj, hw] at hexec
      exact hexec
    · rw [hj, hw] at hexec
      exact hexec
  · change (s.judgePush r = .exhausted ↔ (s.ring r).mode = .onePass ∧ (s.ring r).writePos = (s.ring r).capacity) ∧
      (s.judgePush r = .blocked ↔ (s.ring r).mode = .circular ∧ s.heldUp r) ∧
      (s.judgePush r = .stored ↔ ¬((s.ring r).mode = .onePass ∧ (s.ring r).writePos = (s.ring r).capacity) ∧
        ¬((s.ring r).mode = .circular ∧ s.heldUp r))
    cases hm : (s.ring r).mode with
    | onePass =>
      rw [judgePush_onePass s r hm]
      split <;> simp_all
    | circular =>
      obtain ⟨hblocked, hstored⟩ := judgePush_circular s r hm
      by_cases hh : s.heldUp r
      · simp [hblocked hh, hh]
      · simp [hstored hh, hh]

end Sys2Proof.Machine
end

