-- ==== Sys2Proof/Proofs/CommandGrants.lean ====
section
/-! PROOF. What the statements about commands share: a command's grant opened, the lowest record of a table, operand words read by their
bits, and the record of a new attachment written out. -/

namespace Sys2Proof.Machine

/-! ### A command's grant (R69, R90) -/

section
variable {s : State} {p : Port}

/-- A command whose turn it is runs with its argument copy, on the state with the pointer at its requester (R65, R90). -/
theorem act_of_granted {code : Word} (h : s.commandGranted p code) :
    act (grantWhen (.command p) (commandPending p code)) s =
      .next (placeStartCheck (finishCommand p (runCommand p code (s.port p).cmd.argCopy (s.commandTaken p)))) := by
  obtain ⟨hcalm, hnext, hflight⟩ := h
  rw [act_of_calm _ hcalm, grantWhen_of_next hnext (by simp [commandPending, hflight]), grantRequest_command hflight]
  rfl

theorem exec_createRing (h : s.commandGranted p codeCreateRing) : exec (.createRing p) s =
    .next (placeStartCheck (finishCommand p (runCreateRing p (s.port p).cmd.argCopy (s.commandTaken p)))) := act_of_granted h

theorem exec_attach (h : s.commandGranted p codeAttach) : exec (.attach p) s =
    .next (placeStartCheck (finishCommand p (runAttach p (s.port p).cmd.argCopy (s.commandTaken p)))) := act_of_granted h

theorem exec_loadMove (h : s.commandGranted p codeLoadMove) : exec (.loadMove p) s =
    .next (placeStartCheck (finishCommand p (runLoadMove p (s.port p).cmd.argCopy (s.commandTaken p)))) := act_of_granted h

end

/-! ### The lowest record of a table (R10, R19) -/

/-- The first index that a condition holds of is the lowest. -/
theorem find?_finRange {n : Nat} {f : Fin n → Bool} {i : Fin n} :
    (List.finRange n).find? f = some i ↔ f i = true ∧ ∀ j, j < i → f j = false := by
  rw [List.find?_eq_some_iff_getElem]
  refine and_congr_right fun _ => ⟨?_, fun h => ⟨i.val, by simp, by simp, fun j hj => ?_⟩⟩
  · rintro ⟨k, hk, rfl, hlow⟩ j hj
    have := hlow j.val (by simpa [Fin.lt_def] using hj)
    simpa using this
  · have := h ⟨j, by omega⟩ hj
    simpa using this

/-- No index is found when the condition holds of none. -/
theorem find?_finRange_none {n : Nat} {f : Fin n → Bool} : (List.finRange n).find? f = none ↔ ∀ i, f i = false := by
  simp [List.find?_eq_none]

section
variable {s : State}

theorem lowestFree_eq {i : Fin 32} (hi : (s.att i).inUse = false) (hlow : ∀ j, j < i → (s.att j).inUse = true) :
    s.lowestFree = some i := find?_finRange.mpr ⟨by simp [hi], fun j hj => by simp [hlow j hj]⟩

theorem lowestFree_none : s.lowestFree = none ↔ ∀ i, (s.att i).inUse = true := by
  simp [State.lowestFree]

theorem lowestFreeRing_eq {r : Fin 16} (hr : (s.ring r).state = .free) (hlow : ∀ j, j < r → (s.ring j).state ≠ .free) :
    s.lowestFreeRing = some r := find?_finRange.mpr ⟨by simp [hr], fun j hj => by simpa using hlow j hj⟩

theorem lowestFreeRing_none : s.lowestFreeRing = none ↔ ∀ r, (s.ring r).state ≠ .free := by
  simp [State.lowestFreeRing]

end

/-! ### Operand words (R96, R189) -/

theorem bit_eq (w : Word) (n : Nat) : bit w n = decide (w.toNat / 2 ^ n % 2 = 1) := by
  rw [bit, ← BitVec.testBit_toNat, Nat.testBit_eq_decide_div_mod_eq]

/-- A ring id word names its ring. -/
theorem ringOfWord_eq {w : Word} {r : Fin 16} (h : w.toNat = r.val) : ringOfWord w = some r := by
  have := r.isLt
  rw [ringOfWord, if_pos (by omega), h]
  simp

theorem ringOfWord_none {w : Word} (h : 15 < w.toNat) : ringOfWord w = none := if_neg (by omega)

/-- The word of a handle, as the results give it (R20). -/
theorem word_handle (h : Handle) : word h.toNat = word (32 * h.gen.val + h.index.val) := by
  rw [Handle.toNat, Nat.mul_comm]

/-! ### Rights and slots (R8, R9) -/

theorem permits_iff (right : AccessRight) (what : AttachWord) : permits right what = true ↔
    right = .readWrite ∨ (what = .producer ∧ right = .write) ∨ (what ≠ .producer ∧ right = .read) := by
  cases what <;> cases right <;> simp [permits]

/-- The lowest empty slot, and the slots that are filled before it. -/
theorem lowestEmpty_eq (t : Slots) {slot : Fin 4}
    (h : (slot = 1 ∧ t.one = none) ∨ (slot = 2 ∧ t.one ≠ none ∧ t.two = none) ∨
      (slot = 3 ∧ t.one ≠ none ∧ t.two ≠ none ∧ t.three = none)) : t.lowestEmpty = some slot := by
  unfold Slots.lowestEmpty
  rcases h with ⟨rfl, h1⟩ | ⟨rfl, h1, h2⟩ | ⟨rfl, h1, h2, h3⟩
  · simp [h1]
  · simp [h1, h2]
  · simp [h1, h2, h3]

theorem lowestEmpty_none (t : Slots) : t.lowestEmpty = none ↔ t.one ≠ none ∧ t.two ≠ none ∧ t.three ≠ none := by
  unfold Slots.lowestEmpty
  rcases t.one with _ | a <;> rcases t.two with _ | b <;> rcases t.three with _ | c <;> simp

/-! ### The record of a new attachment (R23, R24, R50) -/

section
variable (s : State) (i : Fin 32) (r : Fin 16) (holder : Holder) (threshold lease : Nat)

theorem makeAttachment_producer :
    let x : Attachment := { Attachment.freed (s.att i).gen with
      inUse := true, ring := r, role := .producer, holder := holder, threshold := threshold, leasePeriod := lease, leaseRemaining := lease }
    let t := (s.setAtt i x).setRing r { s.ring r with producer := some (s.handleAt i) }
    makeAttachment i r ⟨.producer, holder, threshold, lease⟩ s = reexamine r (postCrossing i 0 (t.space r) t) := by
  intro x t
  have hlevel : t.level i = t.space r := by
    simp [State.level, t, x]
  rw [← hlevel]
  rfl

/-- The fill and skip of a new reader (R24, R50). -/
theorem startCursor_eq (g : Ring) (order : Order) (blockExp : Nat) (start : Start) :
    let fill0 := g.startFill start
    let gap := g.alignGap fill0 (2 ^ blockExp)
    g.startCursor order blockExp start =
      (if order = .natural then fill0 else fill0 - gap, if order = .natural then 0 else gap - fill0) := by
  intro fill0 gap
  cases order with
  | natural => rfl
  | reversedBlock =>
    change (if gap ≤ fill0 then (fill0 - gap, 0) else (0, gap - fill0)) = (fill0 - gap, gap - fill0)
    split
    case isTrue hle => rw [Nat.sub_eq_zero_of_le hle]
    case isFalse hgt => rw [Nat.sub_eq_zero_of_le (Nat.le_of_not_le hgt)]

theorem makeAttachment_reader (policy : Policy) (order : Order) (blockExp : Nat) (start : Start) {slot : Fin 4}
    (hslot : (s.ring r).slots.lowestEmpty = some slot) :
    let cursor := (s.ring r).startCursor order blockExp start
    let x : Attachment := { Attachment.freed (s.att i).gen with
      inUse := true, ring := r, role := .reader slot, holder := holder, policy := policy, order := order
      blockExp := if order = .natural then 0 else blockExp, fill := cursor.1, skip := cursor.2
      threshold := threshold, leasePeriod := lease, leaseRemaining := lease }
    makeAttachment i r ⟨.reader policy order blockExp start, holder, threshold, lease⟩ s =
      reexamine r (postCrossing i 0 cursor.1
        ((s.setAtt i x).setRing r { s.ring r with slots := (s.ring r).slots.fill slot (s.handleAt i) })) := by
  intro cursor x
  have hrecord : newRecord (s.att i).gen r (s.ring r) slot ⟨.reader policy order blockExp start, holder, threshold, lease⟩ = x := by
    cases order <;> rfl
  unfold makeAttachment
  dsimp only
  rw [hslot, Option.getD_some, hrecord]
  have hlevel : ((s.setAtt i x).setRing r { s.ring r with slots := (s.ring r).slots.fill slot (s.handleAt i) }).level i = cursor.1 := by
    simp [State.level, x]
  rw [hlevel]

/-- Nothing crosses from a level to itself (R39). -/
theorem postCrossing_self (i : Fin 32) (level : Nat) (s : State) : postCrossing i level level s = s := by
  have hc : crosses (s.att i).threshold level level = false := by
    simp only [crosses, Bool.and_eq_false_iff, decide_eq_false_iff_not]
    omega
  simp [postCrossing, hc]

/-- A ring record written, then an attachment record, then the ring record again. -/
theorem setRing_setAtt_setRing (g g' : Ring) (x : Attachment) :
    ((s.setRing r g).setAtt i x).setRing r g' = (s.setAtt i x).setRing r g' := State.setRing_setRing (s.setAtt i x) r g g'

end

end Sys2Proof.Machine
end

