-- ==== Sys2Proof/Proofs/CreateRing.lean ====
section
/-! PROOF. CREATE_RING makes a ring and its first attachment, or is refused by its checks in their order (O34). -/

namespace Sys2Proof.Machine

/-! ### Operands (R96, R97, R189) -/

/-- CREATE_RING accepts its operands exactly when the ring word and the attach word are accepted and each count is in its range. -/
theorem decodeCreate_iff {p : Port} {x : Args} {g : RingMode × Four AccessRight} {what : AttachWord} :
    decodeCreate p x = some (g, what) ↔
      decodeRingWord x.w2 = some g ∧ decodeAttachWord x.w3 = some what ∧ 1 ≤ x.w1.toNat ∧ x.w1.toNat ≤ 128 ∧
        x.w4.toNat ≤ 32768 ∧ x.w5.toNat ≤ 16383 ∧ permits (g.2.get p) what = true := by
  unfold decodeCreate
  split
  · rename_i g' what' hg hwhat
    rw [hg, hwhat]
    constructor
    · intro h
      split at h
      · rename_i hc
        obtain ⟨rfl, rfl⟩ := Prod.mk.inj (Option.some.inj h)
        exact ⟨rfl, rfl, hc⟩
      · simp at h
    · rintro ⟨h1, h2, hc⟩
      obtain rfl := Option.some.inj h1
      obtain rfl := Option.some.inj h2
      exact if_pos hc
  · rename_i hne
    constructor
    · intro h
      simp at h
    · rintro ⟨h1, h2, -⟩
      exact absurd h2 (hne g what h1)

/-- The two bits of an access list entry (R189). -/
def AccessRight.bits : AccessRight → Nat
  | .nothing => 0
  | .read => 1
  | .write => 2
  | .readWrite => 3

theorem bits_lt (x : AccessRight) : x.bits < 4 := by cases x <;> decide

theorem accessRightOf_bits (x : AccessRight) : accessRightOf x.bits = x := by cases x <;> rfl

theorem bits_accessRightOf {n : Nat} (h : n < 4) : (accessRightOf n).bits = n := by
  have : n = 0 ∨ n = 1 ∨ n = 2 ∨ n = 3 := by omega
  rcases this with rfl | rfl | rfl | rfl <;> rfl

/-- The ring word, field by field (R96, R189). -/
theorem decodeRingWord_iff (w : Word) (mode : RingMode) (access : Four AccessRight) :
    decodeRingWord w = some (mode, access) ↔
      (field w 2 2 = 0 ∧ field w 12 4 = 0) ∧ field w 0 2 = mode.code ∧ accessRightOf (field w 4 2) = access.a ∧
        accessRightOf (field w 6 2) = access.b ∧ accessRightOf (field w 8 2) = access.c ∧
        accessRightOf (field w 10 2) = access.d := by
  obtain ⟨a, b, c, d⟩ := access
  unfold decodeRingWord
  dsimp only
  by_cases hz : field w 2 2 = 0 ∧ field w 12 4 = 0
  · rw [if_pos hz, and_iff_right hz]
    generalize field w 0 2 = m
    rcases m with _ | _ | m
    · cases mode <;> simp [RingMode.code]
    · cases mode <;> simp [RingMode.code]
    · cases mode <;> simp [RingMode.code]
  · rw [if_neg hz]
    exact iff_of_false (by simp) fun h => hz h.1

theorem decodeRingWord_eq (w : Word) (mode : RingMode) (access : Four AccessRight) :
    decodeRingWord w = some (mode, access) ↔
      w.toNat = (if mode = .circular then 0 else 1) + 16 * access.a.bits + 64 * access.b.bits + 256 * access.c.bits
        + 1024 * access.d.bits := by
  have hw := w.isLt
  have hmode : mode.code = if mode = .circular then 0 else 1 := by cases mode <;> rfl
  have hmode2 : mode.code < 2 := by cases mode <;> decide
  rw [decodeRingWord_iff, ← hmode]
  simp only [field, Nat.reducePow, Nat.div_one]
  have ha := bits_lt access.a
  have hb := bits_lt access.b
  have hc := bits_lt access.c
  have hd := bits_lt access.d
  constructor
  · rintro ⟨⟨h1, h2⟩, h3, ea, eb, ec, ed⟩
    rw [← ea, ← eb, ← ec, ← ed]
    simp only [bits_accessRightOf (Nat.mod_lt _ (by decide : 0 < 4))]
    omega
  · intro h
    refine ⟨⟨by omega, by omega⟩, by omega, ?_, ?_, ?_, ?_⟩
    · rw [show w.toNat / 16 % 4 = access.a.bits by omega, accessRightOf_bits]
    · rw [show w.toNat / 64 % 4 = access.b.bits by omega, accessRightOf_bits]
    · rw [show w.toNat / 256 % 4 = access.c.bits by omega, accessRightOf_bits]
    · rw [show w.toNat / 1024 % 4 = access.d.bits by omega, accessRightOf_bits]

/-- The attach word, bit by bit (R96, R189). -/
theorem decodeAttachWord_eq (w : Word) : decodeAttachWord w =
    if w.toNat % 2 = 1 then some .producer
    else if w.toNat / 4 % 2 = 1 then
      if 1 ≤ w.toNat / 16 % 16 ∧ w.toNat / 16 % 16 ≤ 8 then
        some (.reader (if w.toNat / 2 % 2 = 1 then .lossy else .hold) .reversedBlock (w.toNat / 16 % 16)
          (if w.toNat / 8 % 2 = 1 then .fromOldest else .fromNew))
      else none
    else some (.reader (if w.toNat / 2 % 2 = 1 then .lossy else .hold) .natural 0
      (if w.toNat / 8 % 2 = 1 then .fromOldest else .fromNew)) := by
  simp [decodeAttachWord, bit_eq, field]

/-- An attach word formed of a policy, a start, a block exponent and ignored bits. -/
def attachBits (policy : Policy) (start : Start) (b junk : Nat) : Nat :=
  (if policy = .hold then 0 else 2) + (if start = .fromNew then 0 else 8) + 16 * b + 256 * junk

theorem attachBits_fields (policy : Policy) (start : Start) {b : Nat} (hb : b < 16) (junk order : Nat) (ho : order < 2) :
    let n := attachBits policy start b junk + 4 * order
    n % 2 = 0 ∧ n / 4 % 2 = order ∧ n / 16 % 16 = b ∧ (n / 2 % 2 = 1 ↔ policy = .lossy) ∧ (n / 8 % 2 = 1 ↔ start = .fromOldest) := by
  cases policy <;> cases start <;> simp only [attachBits] <;> simp <;> omega

theorem decodeAttachWord_bits (w : Word) (policy : Policy) (start : Start) {b : Nat} (hb : b < 16) (junk : Nat) :
    (w.toNat = 1 + 2 * junk → decodeAttachWord w = some .producer) ∧
      (w.toNat = attachBits policy start b junk → decodeAttachWord w = some (.reader policy .natural 0 start)) ∧
      (w.toNat = attachBits policy start b junk + 4 →
        decodeAttachWord w = if 1 ≤ b ∧ b ≤ 8 then some (.reader policy .reversedBlock b start) else none) := by
  have hpolicy : (if policy = .lossy then Policy.lossy else .hold) = policy := by cases policy <;> rfl
  have hstart : (if start = .fromOldest then Start.fromOldest else .fromNew) = start := by cases start <;> rfl
  refine ⟨fun h => ?_, fun h => ?_, fun h => ?_⟩
  · rw [decodeAttachWord_eq, if_pos (by omega)]
  · obtain ⟨h0, h2, -, hp, hs⟩ := attachBits_fields policy start hb junk 0 (by omega)
    rw [Nat.mul_zero, Nat.add_zero, ← h] at h0 h2 hp hs
    rw [decodeAttachWord_eq, if_neg (by omega), if_neg (by omega)]
    simp only [hp, hs, hpolicy, hstart]
  · obtain ⟨h0, h2, hb', hp, hs⟩ := attachBits_fields policy start hb junk 1 (by omega)
    rw [Nat.mul_one, ← h] at h0 h2 hb' hp hs
    rw [decodeAttachWord_eq, if_neg (by omega), if_pos h2]
    simp only [hp, hs, hb', hpolicy, hstart]

/-! ### The ring made, its first attachment made -/

section
variable {s : State} {p : Port} {x : Args}

/-- A new ring, opened on a run of pages. -/
def Ring.opened (mode : RingMode) (q : Fin 128) (n : Nat) (access : Four AccessRight) : Ring :=
  { Ring.freed with state := .opened, mode := mode, firstPage := q, pageCount := n, access := access }

/-- A new ring has nothing to read: every start is at fill and skip 0 (R24, R50). -/
theorem startCursor_opened (mode : RingMode) (q : Fin 128) (n : Nat) (access : Four AccessRight) (order : Order) (b : Nat) (start : Start) :
    (Ring.opened mode q n access).startCursor order b start = (0, 0) := by
  have hfill : (Ring.opened mode q n access).startFill start = 0 := by
    cases start
    · rfl
    · exact Nat.zero_min _
  have hindex : (Ring.opened mode q n access).readIndex 0 = 0 := by
    cases mode
    · simp [Ring.readIndex, Ring.opened, Ring.freed]
    · rfl
  have hgap : (Ring.opened mode q n access).alignGap 0 (2 ^ b) = 0 := by
    rw [Ring.alignGap, hindex, Nat.zero_mod, Nat.sub_zero, Nat.mod_self]
  rw [startCursor_eq, hfill, hgap]
  cases order <;> rfl

/-- With its checks passed CREATE_RING makes the ring and the attachment (R98, R99). -/
theorem runCreateRing_ok {mode : RingMode} {access : Four AccessRight} {what : AttachWord} {r : Fin 16} {i : Fin 32} {q : Fin 128}
    (hdec : decodeCreate p x = some ((mode, access), what)) (hr : s.lowestFreeRing = some r) (hi : s.lowestFree = some i)
    (hq : firstFit s.pageMap x.w1.toNat = some q) :
    runCreateRing p x s =
      ⟨makeAttachment i r ⟨what, .port p, x.w4.toNat, x.w5.toNat⟩ (openRing r q x.w1.toNat mode access s), .ok,
        ⟨word r.val, word (s.handleAt i).toNat, 0, 0⟩, some r, some (s.handleAt i)⟩ := by
  simp only [runCreateRing, hdec, hr, hi, hq]
  rfl

/-- The producer space of a new ring is all of it (R27). -/
theorem space_new {t : State} {r : Fin 16} {mode : RingMode} {q : Fin 128} {n : Nat} {access : Four AccessRight} {h : Handle}
    (hr : t.ring r = { Ring.opened mode q n access with producer := some h }) : t.space r = 256 * n := by
  have hreaders : t.readers r = [] := by simp [State.readers, hr, Ring.opened, Ring.freed, Slots.handles]
  simp only [State.space, State.largestHoldFill, hreaders, List.foldl_nil, hr]
  cases mode <;> simp [Ring.opened, Ring.freed, Ring.capacity]

theorem creator_producer (r : Fin 16) (i : Fin 32) (q : Fin 128) (n : Nat) (mode : RingMode) (access : Four AccessRight)
    (threshold lease : Nat) (s : State) :
    makeAttachment i r ⟨.producer, .port p, threshold, lease⟩ (openRing r q n mode access s) =
      reexamine r (postCrossing i 0 (256 * n)
        (((s.setPageMap (markPages (some r) q.val n s.pageMap)).setAtt i
          { Attachment.freed (s.att i).gen with
            inUse := true, ring := r, role := .producer, holder := .port p, threshold := threshold, leasePeriod := lease
            leaseRemaining := lease }).setRing r { Ring.opened mode q n access with producer := some (s.handleAt i) })) := by
  have hring : (openRing r q n mode access s).ring r = Ring.opened mode q n access := State.ring_setRing_same _ _ _
  rw [makeAttachment_producer, space_new (State.ring_setRing_same _ _ _ |>.trans (by rw [hring])), hring]
  unfold openRing
  rw [setRing_setAtt_setRing]
  rfl

theorem creator_reader (r : Fin 16) (i : Fin 32) (q : Fin 128) (n : Nat) (mode : RingMode) (access : Four AccessRight)
    (threshold lease : Nat) (policy : Policy) (order : Order) (b : Nat) (start : Start) (s : State) :
    makeAttachment i r ⟨.reader policy order b start, .port p, threshold, lease⟩ (openRing r q n mode access s) =
      reexamine r
        (((s.setPageMap (markPages (some r) q.val n s.pageMap)).setAtt i
          { Attachment.freed (s.att i).gen with
            inUse := true, ring := r, role := .reader 1, holder := .port p, policy := policy, order := order
            blockExp := if order = .natural then 0 else b, threshold := threshold, leasePeriod := lease, leaseRemaining := lease }).setRing
          r { Ring.opened mode q n access with slots := ⟨some (s.handleAt i), none, none⟩ }) := by
  have hring : (openRing r q n mode access s).ring r = Ring.opened mode q n access := State.ring_setRing_same _ _ _
  have hslot : ((openRing r q n mode access s).ring r).slots.lowestEmpty = some 1 := by
    rw [hring]
    rfl
  rw [makeAttachment_reader _ _ _ _ _ _ _ _ _ _ hslot, hring, startCursor_opened, postCrossing_self]
  unfold openRing
  rw [setRing_setAtt_setRing]
  rfl

end

/-- Settles O34: the checks of `runCreateRing` one after another, and the making on the new ring. -/
theorem createRingMakesRingAndAttachment : Obligations.CreateRingMakesRingAndAttachment := by
  refine ⟨fun s p mode access what r i q hg => ?_, fun s p hg => ?_, decodeRingWord_eq,
    fun w policy start b junk hb => decodeAttachWord_bits w policy start hb junk, permits_iff⟩
  · intro x n hring hwhat h1 h128 hthr hlease hperm hr hlow hi hilow hq h made g t results
    have hrun := runCreateRing_ok (s := s.commandTaken p) (p := p) (x := x)
      (decodeCreate_iff.mpr ⟨hring, hwhat, h1, h128, hthr, hlease, hperm⟩) (lowestFreeRing_eq hr hlow) (lowestFree_eq hi hilow) hq
    rw [exec_createRing hg, hrun, word_handle]
    refine ⟨fun hw => ?_, fun policy order b start hw => ?_⟩
    · rw [hw, creator_producer]
      rfl
    · rw [hw, creator_reader]
      rfl
  · intro x refused accepted
    have refuse : ∀ c, runCreateRing p x (s.commandTaken p) = failWith c (s.commandTaken p) → refused c := fun c hc =>
      (exec_createRing hg).trans (by rw [show (s.port p).cmd.argCopy = x from rfl, hc]; rfl)
    have hdec : accepted → ∃ y, decodeCreate p x = some y := by
      rintro ⟨mode, access, what, h1, h2, hrest⟩
      exact ⟨((mode, access), what), decodeCreate_iff.mpr ⟨h1, h2, hrest⟩⟩
    refine ⟨fun hna => refuse _ ?_, fun ha hfree => refuse _ ?_, fun ha hfree hfull => refuse _ ?_,
      fun ha hfree hroom hfit => refuse _ ?_⟩
    · have hnone : decodeCreate p x = none := by
        rcases hd : decodeCreate p x with _ | ⟨⟨mode, access⟩, what⟩
        · rfl
        · exact absurd ⟨mode, access, what, decodeCreate_iff.mp hd⟩ hna
      simp only [runCreateRing, hnone]
    · obtain ⟨y, hy⟩ := hdec ha
      have hnone : (s.commandTaken p).lowestFreeRing = none := lowestFreeRing_none.mpr hfree
      simp only [runCreateRing, hy, hnone]
    · obtain ⟨y, hy⟩ := hdec ha
      obtain ⟨r, hr⟩ := Option.ne_none_iff_exists'.mp fun hn : (s.commandTaken p).lowestFreeRing = none =>
        hfree.elim fun r hr => lowestFreeRing_none.mp hn r hr
      have hnone : (s.commandTaken p).lowestFree = none := lowestFree_none.mpr hfull
      simp only [runCreateRing, hy, hr, hnone]
    · obtain ⟨y, hy⟩ := hdec ha
      obtain ⟨r, hr⟩ := Option.ne_none_iff_exists'.mp fun hn : (s.commandTaken p).lowestFreeRing = none =>
        hfree.elim fun r hr => lowestFreeRing_none.mp hn r hr
      obtain ⟨i, hi⟩ := Option.ne_none_iff_exists'.mp fun hn : (s.commandTaken p).lowestFree = none =>
        hroom.elim fun i hi => absurd (hi.symm.trans (lowestFree_none.mp hn i)) (by simp)
      have hfit' : firstFit (s.commandTaken p).pageMap x.w1.toNat = none := hfit
      simp only [runCreateRing, hy, hr, hi, hfit']

end Sys2Proof.Machine
end

