-- ==== Sys2Proof/Proofs/Attach.lean ====
section
/-! PROOF. ATTACH makes an attachment at its start position, or is refused by its checks in their order (O35). -/

namespace Sys2Proof.Machine

section
variable {s : State} {p : Port} {x : Args} {what : AttachWord} {r : Fin 16}

/-! ### The checks (R100 to R102) -/

/-- The ring and room checks, one after another. -/
theorem attachFault_free (h : (s.ring r).state = .free) : attachFault p what r s = some .badRing := if_pos h

theorem attachFault_notPermitted (h : (s.ring r).state ≠ .free) (hp : permits ((s.ring r).access.get p) what = false) :
    attachFault p what r s = some .notPermitted := by
  simp [attachFault, h, hp]

/-- Past the first two checks, those of the role remain. -/
theorem attachFault_permitted (h : (s.ring r).state ≠ .free) (hp : permits ((s.ring r).access.get p) what = true) :
    attachFault p what r s =
      if what = .producer then
        if (s.ring r).state = .sealed then some .ringSealed else if (s.ring r).producer.isSome then some .roleTaken else none
      else if (s.ring r).slots.lowestEmpty = none then some .noReaderSlot else none := by
  by_cases hw : what = .producer
  · subst hw
    simp [attachFault, h, hp]
  · simp [attachFault, h, hp, hw]

/-- The operands in their ranges, the ring named: what is left of ATTACH. -/
theorem runAttach_of_operands (hwhat : decodeAttachWord x.w2 = some what) (h3 : x.w3.toNat ≤ 32768) (h4 : x.w4.toNat ≤ 16383)
    (hr : x.w1.toNat = r.val) {code : ResultCode} (hf : attachFault p what r s = some code) : runAttach p x s = failWith code s := by
  simp only [runAttach, hwhat, ringOfWord_eq hr, hf]
  rw [if_pos ⟨h3, h4⟩]

theorem runAttach_noAttach (hwhat : decodeAttachWord x.w2 = some what) (h3 : x.w3.toNat ≤ 32768) (h4 : x.w4.toNat ≤ 16383)
    (hr : x.w1.toNat = r.val) (hf : attachFault p what r s = none) (hn : s.lowestFree = none) :
    runAttach p x s = failWith .noAttach s := by
  simp only [runAttach, hwhat, ringOfWord_eq hr, hf, hn]
  rw [if_pos ⟨h3, h4⟩]

/-! ### The attachment made (R103) -/

/-- The slot number that ATTACH answers (R103). -/
def Role.slotWord (role : Role) : Nat :=
  match role with
  | .producer => 0
  | .reader slot => slot.val

/-- With its checks passed ATTACH makes the attachment and answers its handle, slot, level and skip (R103). -/
theorem runAttach_ok {i : Fin 32} (hwhat : decodeAttachWord x.w2 = some what) (h3 : x.w3.toNat ≤ 32768) (h4 : x.w4.toNat ≤ 16383)
    (hr : x.w1.toNat = r.val) (hf : attachFault p what r s = none) (hi : s.lowestFree = some i) {u : State} {role : Role}
    (hu : makeAttachment i r ⟨what, .port p, x.w3.toNat, x.w4.toNat⟩ s = u) (hrole : (u.att i).role = role) :
    runAttach p x s =
      ⟨u, .ok, ⟨word (32 * (s.att i).gen.val + i.val), word role.slotWord, word (u.level i), word (u.att i).skip⟩, some r,
        some ⟨(s.att i).gen, i⟩⟩ := by
  subst hrole
  subst hu
  simp only [runAttach, hwhat, ringOfWord_eq hr, hf, hi]
  rw [if_pos ⟨h3, h4⟩, word_handle]
  rfl

/-- A re-examination after the threshold comparison leaves the role of a new attachment. -/
theorem role_after_making {t : State} {i : Fin 32} (level : Nat) :
    ((reexamine r (postCrossing i 0 level t)).att i).role = (t.att i).role := by
  have hb : (reexamine r (postCrossing i 0 level t)).bonds = t.bonds :=
    (bonds_reexamine _ _).trans (bonds_of_tables (tables_postCrossing _ _ _ _))
  obtain ⟨-, -, -, hrole, -⟩ := Attachment.of_bond (att_of_bonds hb i)
  exact hrole

end

/-- Settles O35: the checks of `attachFault` one after another, and the making by `makeAttachment_producer` and
`makeAttachment_reader`. -/
theorem attachMakesAnAttachment : Obligations.AttachMakesAnAttachment := by
  refine ⟨fun s p what r i hg => ?_, fun s p hg => ?_, fun g h => ⟨rfl, rfl, rfl⟩, fun s i => ?_⟩
  · intro x g h hr hwhat h3 h4 hfree hperm hi hilow made
    have hlow : (s.commandTaken p).lowestFree = some i := lowestFree_eq hi hilow
    have hfault := attachFault_permitted (s := s.commandTaken p) hfree hperm
    refine ⟨fun hw hopen hprod => ?_, fun policy order b start slot hw hslot => ?_⟩
    · subst hw
      intro t u
      have hnone : attachFault p .producer r (s.commandTaken p) = none := by
        rw [hfault, if_pos rfl, if_neg (by simp [show ((s.commandTaken p).ring r).state = .opened from hopen]),
          if_neg (by simp [show ((s.commandTaken p).ring r).producer = none from hprod])]
      have hmade := makeAttachment_producer (s.commandTaken p) i r (.port p) x.w3.toNat x.w4.toNat
      rw [exec_attach hg, runAttach_ok hwhat h3 h4 hr hnone hlow (u := u) (role := .producer) hmade]
      · rfl
      · rw [role_after_making]
        simp [t]
    · subst hw
      intro fill0 index0 gap fill t u
      have hslot' : ((s.commandTaken p).ring r).slots.lowestEmpty = some slot := lowestEmpty_eq _ hslot
      have hnone : attachFault p (.reader policy order b start) r (s.commandTaken p) = none := by
        rw [hfault, if_neg (by simp), hslot', if_neg (by simp)]
      have hcursor : ((s.commandTaken p).ring r).startCursor order b start = (fill, if order = .natural then 0 else gap - fill0) := by
        have hfill0 : ((s.commandTaken p).ring r).startFill start = fill0 := by cases start <;> rfl
        have hgap : ((s.commandTaken p).ring r).alignGap fill0 (2 ^ b) = gap := by
          have hindex : ((s.commandTaken p).ring r).readIndex fill0 = index0 := by
            change g.readIndex fill0 = if g.mode = .circular then _ else _
            unfold Ring.readIndex
            cases g.mode <;> rfl
          rw [Ring.alignGap, hindex]
        rw [startCursor_eq, hfill0, hgap]
      have hmade := makeAttachment_reader (s.commandTaken p) i r (.port p) x.w3.toNat x.w4.toNat policy order b start hslot'
      rw [hcursor] at hmade
      rw [exec_attach hg, runAttach_ok hwhat h3 h4 hr hnone hlow (u := u) (role := .reader slot) hmade]
      · rfl
      · rw [role_after_making]
        simp [t]
  · intro x refused
    have refuse : ∀ c, runAttach p x (s.commandTaken p) = failWith c (s.commandTaken p) → refused c := fun c hc =>
      (exec_attach hg).trans (by rw [show (s.port p).cmd.argCopy = x from rfl, hc]; rfl)
    refine ⟨fun hbad => refuse _ ?_, fun what hwhat h3 h4 => ⟨fun hbig => refuse _ ?_, fun r hr => ?_⟩⟩
    · unfold runAttach
      split
      · rfl
      · rename_i what hwhat
        rw [if_neg]
        rintro ⟨h3, h4⟩
        rcases hbad with hn | h3' | h4'
        · rw [hwhat] at hn
          simp at hn
        · omega
        · omega
    · simp only [runAttach, hwhat, ringOfWord_none hbig]
      rw [if_pos ⟨h3, h4⟩]
    · have fault : ∀ {code}, attachFault p what r (s.commandTaken p) = some code → refused code := fun hf =>
        refuse _ (runAttach_of_operands hwhat h3 h4 hr hf)
      refine ⟨fun hfree => fault (attachFault_free hfree), fun hused hnp => fault (attachFault_notPermitted hused hnp),
        fun hused hp => ?_⟩
      have hperm := attachFault_permitted (s := s.commandTaken p) hused hp
      refine ⟨fun hw hs => fault ?_, fun hw ho hn => fault ?_, fun hw h1 h2 h3' => fault ?_, fun hroom hfull => refuse _ ?_⟩
      · rw [hperm, if_pos hw, if_pos (show ((s.commandTaken p).ring r).state = .sealed from hs)]
      · rw [hperm, if_pos hw, if_neg (by simp [show ((s.commandTaken p).ring r).state = .opened from ho]),
          if_pos (show ((s.commandTaken p).ring r).producer.isSome = true from Option.isSome_iff_ne_none.mpr hn)]
      · rw [hperm, if_neg hw,
          if_pos (show ((s.commandTaken p).ring r).slots.lowestEmpty = none from (lowestEmpty_none _).mpr ⟨h1, h2, h3'⟩)]
      · refine runAttach_noAttach hwhat h3 h4 hr ?_ (lowestFree_none.mpr hfull)
        rw [hperm]
        rcases hroom with ⟨hw, ho, hn⟩ | ⟨hw, hs⟩
        · rw [if_pos hw, if_neg (by simp [show ((s.commandTaken p).ring r).state = .opened from ho]),
            if_neg (by simp [show ((s.commandTaken p).ring r).producer = none from hn])]
        · rw [if_neg hw, if_neg]
          rw [lowestEmpty_none]
          rintro ⟨h1, h2, h3'⟩
          rcases hs with hs | hs | hs
          · exact h1 hs
          · exact h2 hs
          · exact h3' hs
  · unfold State.level
    cases (s.att i).role <;> simp

end Sys2Proof.Machine
end

