-- ==== Sys2Proof/Proofs/LoadMove.lean ====
section
/-! PROOF. LOAD_MOVE makes a move entry and its two attachments, or is refused by its checks in their order (O41). -/

namespace Sys2Proof.Machine

/-! ### Operands (R118, R189) -/

/-- The trigger field of word 6 (R189). -/
def Trigger.bits (x : Trigger) : Nat :=
  match x with
  | .software => 0
  | .pacer n => 1 + n.val
  | .sourceReady => 5

theorem trigger_bits_lt (x : Trigger) : x.bits < 6 := by
  cases x with
  | software => decide
  | pacer n =>
    change 1 + n.val < 6
    omega
  | sourceReady => decide

theorem decodeTrigger_iff (n : Nat) (x : Trigger) : decodeTrigger n = some x ↔ n = x.bits := by
  constructor
  · intro h
    unfold decodeTrigger at h
    split at h <;> simp at h <;> subst h <;> rfl
  · rintro rfl
    cases x with
    | software => rfl
    | pacer k => fin_cases k <;> rfl
    | sourceReady => rfl

/-- Words 4 to 6, field by field. -/
theorem decodeMoveOperands_fields (w4 w5 w6 : Word) (m : MoveOperands) : decodeMoveOperands w4 w5 w6 = some m ↔
    (field w4 8 8 < field w4 0 8 + 1 ∧ field w5 0 8 + 1 ≤ field w4 0 8 + 1 ∧ field w5 15 1 = 0 ∧ field w6 10 2 = 0 ∧ field w6 15 1 = 0) ∧
      field w6 12 3 = m.trigger.bits ∧ field w4 0 8 + 1 = m.frameLen ∧ field w4 8 8 = m.phase ∧ field w5 0 8 + 1 = m.stride ∧
      field w5 8 6 + 1 = m.framesPerRun ∧ bit w5 14 = m.propagateEnd ∧ field w6 0 10 = m.runLimit := by
  obtain ⟨frameLen, phase, stride, framesPerRun, propagateEnd, runLimit, trigger⟩ := m
  unfold decodeMoveOperands
  dsimp only
  split
  case isTrue hc =>
    rw [and_iff_right hc, ← decodeTrigger_iff]
    rcases decodeTrigger (field w6 12 3) with _ | found
    · simp
    · simp only [Option.some.injEq, MoveOperands.mk.injEq]
      tauto
  case isFalse hc => exact iff_of_false (by simp) fun h => hc h.1

theorem decodeMoveOperands_iff (w4 w5 w6 : Word) (m : MoveOperands) : decodeMoveOperands w4 w5 w6 = some m ↔
    1 ≤ m.frameLen ∧ m.frameLen ≤ 256 ∧ m.phase < m.frameLen ∧ 1 ≤ m.stride ∧ m.stride ≤ m.frameLen ∧ 1 ≤ m.framesPerRun ∧
      m.framesPerRun ≤ 64 ∧ m.runLimit ≤ 1023 ∧ w4.toNat = m.frameLen - 1 + 256 * m.phase ∧
      w5.toNat = m.stride - 1 + 256 * (m.framesPerRun - 1) + (if m.propagateEnd = true then 16384 else 0) ∧
      w6.toNat = m.runLimit + 4096 * m.trigger.bits := by
  have h4 := w4.isLt
  have h5 := w5.isLt
  have h6 := w6.isLt
  have ht := trigger_bits_lt m.trigger
  rw [decodeMoveOperands_fields]
  simp only [field, bit_eq, Nat.reducePow, Nat.div_one]
  cases hp : m.propagateEnd
  case false =>
    simp only [decide_eq_false_iff_not, Bool.false_eq_true, if_false]
    exact ⟨fun h => by omega, fun h => ⟨by omega, by omega⟩⟩
  case true =>
    simp only [decide_eq_true_eq, if_true]
    exact ⟨fun h => by omega, fun h => ⟨by omega, by omega⟩⟩

/-! ### The checks (R117 to R119) -/

section
variable {s : State} {p : Port} {x : Args} {e src dst : Fin 16}

/-- Fewer than two attachment records are free exactly when no two are. -/
theorem freeRecords_lt_two : s.freeRecords < 2 ↔ ∀ i j, i < j → (s.att i).inUse = true ∨ (s.att j).inUse = true := by
  have hcard : s.freeRecords = (Finset.univ.filter fun i => (!(s.att i).inUse) = true).card := by
    rw [← List.toFinset_finRange, (List.nodup_finRange 32).card_eq_countP]
    simp [State.freeRecords]
  have htwo : (s.freeRecords < 2) = ¬1 < s.freeRecords := by rw [eq_iff_iff, not_lt, Nat.lt_succ_iff]
  rw [htwo, hcard, Finset.one_lt_card]
  constructor
  · intro h i j hij
    by_contra hne
    exact h ⟨i, by simpa using fun hi => hne (.inl hi), j, by simpa using fun hj => hne (.inr hj), hij.ne⟩
  · rintro h ⟨i, hi, j, hj, hne⟩
    simp at hi hj
    rcases lt_or_gt_of_ne hne with hij | hji
    · simpa [hi, hj] using h i j hij
    · simpa [hi, hj] using h j i hji

theorem loadFault_unknown (h : (s.ring src).state = .free ∨ (s.ring dst).state = .free) : loadFault p src dst s = some .badRing :=
  if_pos h

/-- The rights that the two attachments of a move need (R8). -/
def MayMove (p : Port) (gs gd : Ring) : Prop :=
  (gs.access.get p = .read ∨ gs.access.get p = .readWrite) ∧ (gd.access.get p = .write ∨ gd.access.get p = .readWrite)

theorem mayMove_iff {gs gd : Ring} : ¬MayMove p gs gd ↔
    permits (gs.access.get p) (.reader .hold .natural 0 .fromNew) = false ∨ permits (gd.access.get p) .producer = false := by
  simp only [← Bool.not_eq_true, permits_iff, MayMove]
  tauto

theorem loadFault_sealed (hs : (s.ring src).state ≠ .free) (hd : (s.ring dst).state = .sealed)
    (hp : MayMove p (s.ring src) (s.ring dst)) : loadFault p src dst s = some .ringSealed := by
  rw [loadFault, if_neg (by simp [hs, hd]), if_neg fun h => mayMove_iff.mpr h hp, if_pos hd]

/-- Both rings there, the destination OPEN and the rights held: the checks of the role and of the room are left (R119). -/
theorem loadFault_open (hs : (s.ring src).state ≠ .free) (hd : (s.ring dst).state = .opened)
    (hp : MayMove p (s.ring src) (s.ring dst)) : loadFault p src dst s =
      if (s.ring dst).producer.isSome = true then some .roleTaken
      else if (s.ring src).slots.lowestEmpty = none then some .noReaderSlot
      else if s.freeRecords < 2 then some .noAttach
      else none := by
  rw [loadFault, if_neg (by simp [hs, hd]), if_neg fun h => mayMove_iff.mpr h hp, if_neg (by simp [hd])]

theorem loadFault_roleTaken (hs : (s.ring src).state ≠ .free) (hd : (s.ring dst).state = .opened)
    (hp : MayMove p (s.ring src) (s.ring dst)) (hn : (s.ring dst).producer ≠ none) : loadFault p src dst s = some .roleTaken := by
  rw [loadFault_open hs hd hp, if_pos (Option.isSome_iff_ne_none.mpr hn)]

theorem loadFault_noSlot (hs : (s.ring src).state ≠ .free) (hd : (s.ring dst).state = .opened)
    (hp : MayMove p (s.ring src) (s.ring dst)) (hn : (s.ring dst).producer = none) (hfull : (s.ring src).slots.lowestEmpty = none) :
    loadFault p src dst s = some .noReaderSlot := by
  rw [loadFault_open hs hd hp, if_neg (by simp [hn]), if_pos hfull]

/-- With the role and a slot open, what is left is whether two records are free. -/
theorem loadFault_room (hs : (s.ring src).state ≠ .free) (hd : (s.ring dst).state = .opened)
    (hp : MayMove p (s.ring src) (s.ring dst)) (hn : (s.ring dst).producer = none) (hroom : (s.ring src).slots.lowestEmpty ≠ none) :
    loadFault p src dst s = if s.freeRecords < 2 then some .noAttach else none := by
  rw [loadFault_open hs hd hp, if_neg (by simp [hn]), if_neg hroom]

theorem loadFault_notPermitted (hs : (s.ring src).state ≠ .free) (hd : (s.ring dst).state ≠ .free)
    (hp : ¬MayMove p (s.ring src) (s.ring dst)) : loadFault p src dst s = some .notPermitted := by
  rw [loadFault, if_neg (by simp [hs, hd]), if_pos (mayMove_iff.mp hp)]

theorem entryOfWord_eq {w : Word} (h : w.toNat = e.val) : entryOfWord w = some e := ringOfWord_eq h

theorem notOthers_of_empty (hm : (s.move e).state = .empty) : (s.move e).ownedByOther p = false := by
  simp [MoveEntry.ownedByOther, hm]

theorem runLoadMove_busy (he : x.w1.toNat = e.val) (hm : (s.move e).state ≠ .empty) (ho : (s.move e).owner = some p) :
    runLoadMove p x s = failWith .entryBusy s := by
  have hother : (s.move e).ownedByOther p = false := by simp [MoveEntry.ownedByOther, ho]
  simp [runLoadMove, entryOfWord_eq he, hother, hm]

theorem runLoadMove_badArg (he : x.w1.toNat = e.val) (hm : (s.move e).state = .empty)
    (h : decodeMoveOperands x.w4 x.w5 x.w6 = none ∨ x.w2 = x.w3) : runLoadMove p x s = failWith .badArg s := by
  simp only [runLoadMove, entryOfWord_eq he, notOthers_of_empty hm, hm, Bool.false_eq_true, if_false, ne_eq, not_true]
  rcases hd : decodeMoveOperands x.w4 x.w5 x.w6 with _ | m
  · rfl
  · exact if_pos (h.resolve_left (by simp [hd]))

theorem runLoadMove_noRing (he : x.w1.toNat = e.val) (hm : (s.move e).state = .empty)
    (hd : decodeMoveOperands x.w4 x.w5 x.w6 ≠ none) (hne : x.w2 ≠ x.w3) (h : 15 < x.w2.toNat ∨ 15 < x.w3.toNat) :
    runLoadMove p x s = failWith .badRing s := by
  obtain ⟨m, hm'⟩ := Option.ne_none_iff_exists'.mp hd
  simp only [runLoadMove, entryOfWord_eq he, notOthers_of_empty hm, hm, Bool.false_eq_true, if_false, ne_eq, not_true, hm', hne]
  split
  · rename_i hsrc hdst
    rcases h with h | h
    · simp [ringOfWord_none h] at hsrc
    · simp [ringOfWord_none h] at hdst
  · rfl

theorem runLoadMove_fault (he : x.w1.toNat = e.val) (hm : (s.move e).state = .empty)
    (hd : decodeMoveOperands x.w4 x.w5 x.w6 ≠ none) (hne : x.w2 ≠ x.w3) (hsrc : x.w2.toNat = src.val) (hdst : x.w3.toNat = dst.val)
    {code : ResultCode} (hf : loadFault p src dst s = some code) : runLoadMove p x s = failWith code s := by
  obtain ⟨m, hm'⟩ := Option.ne_none_iff_exists'.mp hd
  simp only [runLoadMove, entryOfWord_eq he, notOthers_of_empty hm, hm, Bool.false_eq_true, if_false, ne_eq, not_true, hm', hne,
    ringOfWord_eq hsrc, ringOfWord_eq hdst, hf]

/-- With its checks passed LOAD_MOVE makes the source reader, the destination producer and the entry (R119). -/
theorem runLoadMove_ok (he : x.w1.toNat = e.val) (hm : (s.move e).state = .empty) {m : MoveOperands}
    (hd : decodeMoveOperands x.w4 x.w5 x.w6 = some m) (hne : x.w2 ≠ x.w3) (hsrc : x.w2.toNat = src.val) (hdst : x.w3.toNat = dst.val)
    (hf : loadFault p src dst s = none) {i j : Fin 32} {s1 s2 : State} (hi : s.lowestFree = some i)
    (h1 : makeAttachment i src ⟨.reader .hold .natural 0 .fromNew, .entry e, 0, 0⟩ s = s1) (hj : s1.lowestFree = some j)
    (h2 : makeAttachment j dst ⟨.producer, .entry e, 0, 0⟩ s1 = s2) :
    runLoadMove p x s =
      ⟨s2.setMove e (loadedEntry p (s.handleAt i) (s1.handleAt j) m), .ok,
        ⟨word (s.handleAt i).toNat, word (s1.handleAt j).toNat, 0, 0⟩, some src, some (s.handleAt i)⟩ := by
  subst h1
  subst h2
  simp only [runLoadMove, entryOfWord_eq he, notOthers_of_empty hm, hm, Bool.false_eq_true, if_false, ne_eq, not_true, hd, hne,
    ringOfWord_eq hsrc, ringOfWord_eq hdst, hf, hi, hj]
  rfl

/-! ### The two attachments of a move (R119) -/

/-- Nothing crosses a threshold of 0 (R38, R39). -/
theorem postCrossing_zero {i : Fin 32} (h : (s.att i).threshold = 0) (before after : Nat) : postCrossing i before after s = s := by
  have hc : crosses (s.att i).threshold before after = false := by simp [crosses, h]
  simp [postCrossing, hc]

theorem makeAttachment_source (i : Fin 32) (r : Fin 16) (holder : Holder) {slot : Fin 4}
    (hslot : (s.ring r).slots.lowestEmpty = some slot) :
    makeAttachment i r ⟨.reader .hold .natural 0 .fromNew, holder, 0, 0⟩ s =
      reexamine r ((s.setAtt i { Attachment.freed (s.att i).gen with
        inUse := true, ring := r, role := .reader slot, holder := holder }).setRing r
          { s.ring r with slots := (s.ring r).slots.fill slot ⟨(s.att i).gen, i⟩ }) := by
  rw [makeAttachment_reader _ _ _ _ _ _ _ _ _ _ hslot]
  exact congrArg (reexamine r) (postCrossing_self _ _ _)

theorem makeAttachment_dest (i : Fin 32) (r : Fin 16) (holder : Holder) (s : State) :
    makeAttachment i r ⟨.producer, holder, 0, 0⟩ s =
      reexamine r ((s.setAtt i { Attachment.freed (s.att i).gen with
        inUse := true, ring := r, role := .producer, holder := holder }).setRing r
          { s.ring r with producer := some ⟨(s.att i).gen, i⟩ }) := by
  rw [makeAttachment_producer, postCrossing_zero]
  · rfl
  · exact congrArg Attachment.threshold (State.att_setAtt_same _ _ _)

/-- The attachment made, its ring re-examined: the record is in use and the others keep their use and generation. -/
theorem records_after_making (t : State) (i : Fin 32) {x : Attachment} (hx : x.inUse = true) (r : Fin 16) (g : Ring) (k : Fin 32) :
    let u := reexamine r ((t.setAtt i x).setRing r g)
    (k = i → (u.att k).inUse = true) ∧ (k ≠ i → (u.att k).inUse = (t.att k).inUse ∧ (u.att k).gen = (t.att k).gen) := by
  intro u
  obtain ⟨huse, hgen, -⟩ := Attachment.of_bond (att_of_bonds (bonds_reexamine ((t.setAtt i x).setRing r g) r) k)
  have hk : ((t.setAtt i x).setRing r g).att k = if k = i then x else t.att k := State.att_setAtt t i k x
  rw [hk] at huse hgen
  constructor
  · intro h
    rw [huse, if_pos h, hx]
  · intro h
    rw [huse, hgen, if_neg h]
    exact ⟨rfl, rfl⟩

end

/-- Settles O41: the checks of `runLoadMove` one after another; the re-examination of the source ring leaves the second free record
as it was. -/
theorem loadMoveMakesTheEntry : Obligations.LoadMoveMakesTheEntry := by
  refine ⟨fun s p e src dst m i j slot hg => ?_, fun s p e hg he => ?_, decodeMoveOperands_iff⟩
  · intro x gs gd he hm hdec hsrc hdst hne hs hd hps hpd hprod hslot hi hilow hj hij hjlow hhs hhd s1 s2
    have hslot' : gs.slots.lowestEmpty = some slot := lowestEmpty_eq _ hslot
    have hfault : loadFault p src dst (s.commandTaken p) = none := by
      rw [loadFault_room (s := s.commandTaken p) hs hd ⟨hps, hpd⟩ hprod fun h => absurd (hslot'.symm.trans h) (by simp), if_neg]
      intro hfew
      rcases freeRecords_lt_two.mp hfew i j hij with hu | hu
      · exact absurd (hi.symm.trans hu) (by decide)
      · exact absurd (hj.symm.trans hu) (by decide)
    have hrecs := fun k => records_after_making (s.commandTaken p) i (x := { Attachment.freed (s.att i).gen with
      inUse := true, ring := src, role := .reader slot, holder := .entry e }) rfl src { gs with slots := gs.slots.fill slot hhs } k
    have hj1 : s1.lowestFree = some j := lowestFree_eq (((hrecs j).2 hij.ne').1.trans hj) fun k hk => by
      by_cases hki : k = i
      · exact (hrecs k).1 hki
      · exact ((hrecs k).2 hki).1.trans (hjlow k hk hki)
    have hgen : (s1.att j).gen = (s.att j).gen := ((hrecs j).2 hij.ne').2
    have h2 : makeAttachment j dst ⟨.producer, .entry e, 0, 0⟩ s1 = s2 := by
      rw [makeAttachment_dest, hgen]
    have hwords : x.w2 ≠ x.w3 := fun h => hne (Fin.ext (by rw [← hsrc, ← hdst, h]))
    rw [exec_loadMove hg, runLoadMove_ok (s := s.commandTaken p) (s1 := s1) he hm hdec hwords hsrc hdst hfault (lowestFree_eq hi hilow)
      (makeAttachment_source (s := s.commandTaken p) i src (.entry e) hslot') hj1 h2,
      show s1.handleAt j = hhd from congrArg (Handle.mk · j) hgen, word_handle, word_handle]
    rfl
  · intro x refused
    have refuse : ∀ c, runLoadMove p x (s.commandTaken p) = failWith c (s.commandTaken p) → refused c := fun c hc =>
      (exec_loadMove hg).trans (by rw [show (s.port p).cmd.argCopy = x from rfl, hc]; rfl)
    refine ⟨fun hm ho => refuse _ (runLoadMove_busy he hm ho), fun hm hbad => refuse _ (runLoadMove_badArg he hm hbad),
      fun hm hd hne => ⟨fun hbig => refuse _ (runLoadMove_noRing he hm hd hne hbig), fun src dst hsrc hdst => ?_⟩⟩
    intro gs gd permitted full
    have fault : ∀ {code}, loadFault p src dst (s.commandTaken p) = some code → refused code := fun hf =>
      refuse _ (runLoadMove_fault (s := s.commandTaken p) he hm hd hne hsrc hdst hf)
    refine ⟨fun hfree => fault (loadFault_unknown hfree), fun hs hd' hp => fault (loadFault_notPermitted hs hd' hp),
      fun hs hsealed hp => fault (loadFault_sealed hs hsealed hp), fun hs hopen hp =>
        ⟨fun hn => fault (loadFault_roleTaken hs hopen hp hn),
          fun hn hfull => fault (loadFault_noSlot hs hopen hp hn ((lowestEmpty_none _).mpr hfull)), fun hn hroom hpairs => fault ?_⟩⟩
    rw [loadFault_room (s := s.commandTaken p) hs hopen hp hn fun h => hroom ((lowestEmpty_none _).mp h)]
    exact if_pos (freeRecords_lt_two.mpr hpairs)

end Sys2Proof.Machine
end

