-- ==== Sys2Proof/Proofs/ProducerDeparture.lean ====
section
/-! PROOF. A producer's sealing departure seals its ring, or frees it when it was the last attachment (O27). -/

namespace Sys2Proof.Machine

/-! ### One level of a seal (R12, R13) -/

section
variable {s : State} {cause : SealCause} {i : Fin 32}

/-- The ring of the departing producer: its producer field emptied (R42). -/
theorem ring_removeProducer (s : State) (i : Fin 32) :
    (removeProducer i s).ring (s.att i).ring = { s.ring (s.att i).ring with producer := none } := by
  unfold removeProducer
  rw [ring_of_tables (tables_endWaitingOf _ _)]
  exact State.ring_setRing_same _ _ _

/-- The record of the departing producer: free at its next generation (R20). -/
theorem att_removeProducer (s : State) (i : Fin 32) (j : Fin 32) :
    (removeProducer i s).att j = if j = i then Attachment.freed ((s.att i).gen + 1) else s.att j := by
  unfold removeProducer
  rw [att_of_tables (tables_endWaitingOf _ _)]
  exact State.att_setAtt _ _ _ _

theorem move_removeProducer (s : State) (i : Fin 32) (e : Fin 16) : (removeProducer i s).move e = s.move e :=
  move_of_tables (tables_endWaitingOf _ _) e

theorem pageMap_removeProducer (s : State) (i : Fin 32) : (removeProducer i s).pageMap = s.pageMap := by
  unfold removeProducer
  rw [pageMap_of_tables (tables_endWaitingOf _ _)]
  rfl

theorem mem_removeProducer (s : State) (i : Fin 32) : (removeProducer i s).mem = s.mem :=
  (steps_endWaitingOf (m := ⟨false, false, false⟩) _ _).keeps.mem.resolve_left (by decide)

theorem attachmentCount_without_producer (g : Ring) : ({ g with producer := none } : Ring).attachmentCount = g.slots.occupied := by
  simp [Ring.attachmentCount, flag]

/-- The ring marked SEALED after its producer has left, before its readers are told (R12, steps 1 and 2). -/
def State.marked (s : State) (cause : SealCause) (i : Fin 32) : State :=
  (removeProducer i s).setRing (s.att i).ring
    { s.ring (s.att i).ring with producer := none, state := .sealed, sealCause := some cause }

/-- The readers with nothing left told in slot order (R12, step 3). -/
def State.told (s : State) (cause : SealCause) (i : Fin 32) : State :=
  (s.readers (s.att i).ring).foldl sealReader (s.marked cause i)

/-- The last attachment leaves: the ring is freed (R13, R15). -/
theorem sealProducer_last (h : (s.ring (s.att i).ring).slots.occupied = 0) (depth : Nat) :
    sealProducer depth cause i s = freeIfEmpty (s.att i).ring (removeProducer i s) := by
  unfold sealProducer
  dsimp only
  rw [if_pos]
  rw [ring_removeProducer, attachmentCount_without_producer, h]

/-- Readers are left: the ring is sealed, and the entries that read it are checked (R12, R129). -/
theorem sealProducer_succ (h : (s.ring (s.att i).ring).slots.occupied ≠ 0) (depth : Nat) :
    sealProducer (depth + 1) cause i s = (List.finRange 16).foldl
      (fun u e => if u.checkedAtSeal (s.att i).ring e then sourceEndedCheckWith (sealProducer depth .sourceEnded) e u else u)
      (reexamine (s.att i).ring (s.told cause i)) := by
  have hmarked : ∀ g, g = (removeProducer i s).ring (s.att i).ring →
      (removeProducer i s).setRing (s.att i).ring { g with state := .sealed, sealCause := some cause } = s.marked cause i := by
    rintro g rfl
    rw [ring_removeProducer]
    rfl
  have hreaders : (s.marked cause i).readers (s.att i).ring = s.readers (s.att i).ring := by
    unfold State.readers State.marked
    rw [State.ring_setRing_same]
  rw [sealProducer]
  dsimp only
  rw [if_neg (by rw [ring_removeProducer, attachmentCount_without_producer]; exact h), hmarked _ rfl, hreaders]
  rfl

/-- The entries that a seal checks (R12, step 5). -/
theorem checkedAtSeal_iff (u : State) (r e : Fin 16) : u.checkedAtSeal r e = true ↔
    (∃ h, (u.move e).source = some h ∧ u.current h = true ∧ (u.att h.index).ring = r) ∧
      ((u.move e).state = .armed ∨ (u.move e).state = .waiting) := by
  simp only [State.checkedAtSeal, State.entryReads, Bool.and_eq_true, Bool.or_eq_true, beq_iff_eq]
  refine and_congr_left fun _ => ?_
  rcases (u.move e).source with _ | h <;> simp

/-! ### A seal with no entry started -/

theorem bonds_told (s : State) (cause : SealCause) (i : Fin 32) : (s.told cause i).bonds = (s.marked cause i).bonds :=
  foldl_keeps State.bonds sealReader bonds_sealReader _ _

/-- With no entry ARMED or WAITING a seal ends with the re-examination. -/
theorem sealBy_unstarted (h : (s.ring (s.att i).ring).slots.occupied ≠ 0)
    (hm : ∀ e, (s.move e).state ≠ .armed ∧ (s.move e).state ≠ .waiting) :
    sealBy cause i s = reexamine (s.att i).ring (s.told cause i) := by
  refine (sealProducer_succ h 15).trans ?_
  refine List.foldlRecOn (motive := fun u => u = reexamine (s.att i).ring (s.told cause i)) _ _ rfl fun u hu e _ => ?_
  subst hu
  refine if_neg fun hc => ?_
  have hb := move_of_bonds ((bonds_reexamine (s.told cause i) (s.att i).ring).trans (bonds_told s cause i)) e
  rw [show (s.marked cause i).move e = s.move e from move_removeProducer s i e] at hb
  obtain ⟨-, hstate⟩ := (checkedAtSeal_iff _ _ _).mp hc
  have hs := congrArg MoveEntry.state hb
  simp only [MoveEntry.bond, (hm e).2, if_false] at hs
  rcases hstate with ha | hw
  · exact (hm e).1 (by simpa [ha] using hs.symm)
  · exact (hm e).1 (by simpa [hw] using hs.symm)

theorem bonds_sealBy_unstarted (h : (s.ring (s.att i).ring).slots.occupied ≠ 0)
    (hm : ∀ e, (s.move e).state ≠ .armed ∧ (s.move e).state ≠ .waiting) :
    (sealBy cause i s).bonds = (s.marked cause i).bonds := by
  rw [sealBy_unstarted h hm, bonds_reexamine, bonds_told]

end

/-! ### END_OF_STREAM to the readers with nothing left (R12, R34, R181) -/

/-- A record posted to a port, if there is one. -/
def postTo (q : Option Port) (k : EventKind) (r : Fin 16) (h : Handle) (d : Word) (u : State) : State :=
  match q with
  | some p => post p k (some r) (some h) d u
  | none => u

theorem postHolder_eq (o : Holder) (k : EventKind) (r : Fin 16) (h : Handle) (d : Word) (u : State) :
    postHolder o k r h d u = postTo (u.holderPort o) k r h d u := rfl

/-- What a post makes of the queues depends on the queues and the timebase alone. -/
theorem postTo_congr {u v : State} (hp : u.ports = v.ports) (ht : u.timebase = v.timebase) (q : Option Port) (k : EventKind)
    (r : Fin 16) (h : Handle) (d : Word) :
    (postTo q k r h d u).ports = (postTo q k r h d v).ports ∧ (postTo q k r h d u).timebase = (postTo q k r h d v).timebase := by
  cases q with
  | none => exact ⟨hp, ht⟩
  | some p => exact ⟨by simp [postTo, post, State.setPort, State.port, State.stampNow, hp, ht], ht⟩

/-- The END_OF_STREAM of a seal to one reader, by its record before the seal. -/
def endNotice (s : State) (cause : SealCause) (u : State) (j : Fin 32) : State :=
  if (s.att j).fill = 0 ∧ (s.att j).skip = 0 ∧ (s.att j).endReported = false then
    postTo (s.holderPort (s.att j).holder) .endOfStream (s.att j).ring (s.handleAt j) (word (sealCauseCode (some cause))) u
  else u

/-- A walk through the readers of a sealed ring, `u`, and the notices by the records of `s`, `v`: the queues agree, and the readers
still to come are as they were. -/
structure Telling (s : State) (r : Fin 16) (cause : SealCause) (l : List (Fin 32)) (u v : State) : Prop where
  ports : u.ports = v.ports
  timebase : u.timebase = v.timebase
  moves : ∀ e, u.move e = s.move e
  sealed : (u.ring r).sealCause = some cause
  record : ∀ j ∈ l, u.att j = s.att j

section
variable {s u v : State} {r : Fin 16} {cause : SealCause} {l : List (Fin 32)}

theorem Telling.holderPort (h : Telling s r cause l u v) (o : Holder) : u.holderPort o = s.holderPort o := by
  cases o with
  | port p => rfl
  | entry e => exact congrArg MoveEntry.owner (h.moves e)

theorem Telling.step {j : Fin 32} (h : Telling s r cause (j :: l) u v) (hj : j ∉ l) (hr : (s.att j).ring = r) :
    Telling s r cause l (sealReader u j) (endNotice s cause v j) := by
  have hrec : u.att j = s.att j := h.record j List.mem_cons_self
  have rest : ∀ k ∈ l, u.att k = s.att k := fun k hk => h.record k (List.mem_cons_of_mem j hk)
  have idle : Telling s r cause l u v := ⟨h.ports, h.timebase, h.moves, h.sealed, rest⟩
  unfold sealReader endNotice reportEnd
  rw [hrec]
  by_cases hempty : (s.att j).fill = 0 ∧ (s.att j).skip = 0
  case neg =>
    rw [if_neg hempty, if_neg fun hc => hempty ⟨hc.1, hc.2.1⟩]
    exact idle
  by_cases htold : (s.att j).endReported = true
  case pos =>
    rw [if_pos hempty, if_pos htold, if_neg fun hc => by simp [htold] at hc]
    exact idle
  rw [if_pos hempty, if_neg htold, if_pos ⟨hempty.1, hempty.2, by simpa using htold⟩, hr, h.sealed]
  have hposted : ∀ x : Attachment, x.holder = (s.att j).holder → x.ring = (s.att j).ring → x.gen = (s.att j).gen →
      ∀ d, postAbout j .endOfStream d (u.setAtt j x) =
        postTo (s.holderPort (s.att j).holder) .endOfStream (s.att j).ring (s.handleAt j) d (u.setAtt j x) := by
    intro x hh hx hg d
    have hport : (u.setAtt j x).holderPort (s.att j).holder = s.holderPort (s.att j).holder := by
      rw [← h.holderPort]
      cases (s.att j).holder <;> rfl
    rw [postAbout, postHolder_eq, State.handleAt, State.att_setAtt_same, hh, hx, hg, hport]
    rfl
  have hpost := hposted { s.att j with endReported := true } rfl rfl rfl (word (sealCauseCode (some cause)))
  obtain ⟨hports, htime⟩ := postTo_congr (u := u.setAtt j { s.att j with endReported := true }) (v := v) h.ports h.timebase
    (s.holderPort (s.att j).holder) .endOfStream (s.att j).ring (s.handleAt j) (word (sealCauseCode (some cause)))
  refine ⟨?_, ?_, fun e => ?_, ?_, fun k hk => ?_⟩
  · rw [hpost, hports, hr]
  · rw [hpost, htime, hr]
  · rw [move_of_tables (tables_postAbout _ _ _ _)]
    exact h.moves e
  · rw [ring_of_tables (tables_postAbout _ _ _ _)]
    exact h.sealed
  · rw [att_of_tables (tables_postAbout _ _ _ _), State.att_setAtt, if_neg (show k ≠ j from fun hkj => hj (hkj ▸ hk))]
    exact rest k hk

theorem Telling.foldl : ∀ (l : List (Fin 32)) {u v : State}, Telling s r cause l u v → l.Nodup → (∀ j ∈ l, (s.att j).ring = r) →
    (l.foldl sealReader u).ports = (l.foldl (endNotice s cause) v).ports
  | [], _, _, h, _, _ => h.ports
  | j :: l, _, _, h, hn, hr => by
    obtain ⟨hj, hn⟩ := List.nodup_cons.mp hn
    exact Telling.foldl l (h.step hj (hr j List.mem_cons_self)) hn fun k hk => hr k (List.mem_cons_of_mem j hk)

/-- With no access waiting none of them ends. -/
theorem endWaitingOf_of_none (h : Handle) (hw : s.waiting = noWaiting) : endWaitingOf h s = s := by
  have hnone : ∀ p, s.waitingAt p = none := fun p => by
    simp only [State.waitingAt, hw]
    cases p <;> rfl
  simp [endWaitingOf, hnone]

theorem outside_sealReader (s : State) (j : Fin 32) : (sealReader s j).outside = s.outside := by
  unfold sealReader reportEnd
  split
  · split
    · rfl
    · exact outside_postAbout _ _ _ _
  · rfl

theorem Telling.marked {i : Fin 32} (hw : s.waiting = noWaiting) (hi : i ∉ s.readers r) (hr : (s.att i).ring = r) :
    Telling s r cause (s.readers r) (s.marked cause i) s := by
  subst hr
  have hgone : removeProducer i s = freeRecord i (s.setRing (s.att i).ring { s.ring (s.att i).ring with producer := none }) :=
    endWaitingOf_of_none _ hw
  refine ⟨?_, ?_, move_removeProducer s i, ?_, fun j hj => ?_⟩
  · rw [State.marked, hgone]
    rfl
  · rw [State.marked, hgone]
    rfl
  · rw [State.marked, State.ring_setRing_same]
  · exact (att_removeProducer s i j).trans (if_neg (show j ≠ i from fun hji => hi (hji ▸ hj)))

/-- With no entry started and nothing waiting, the records of a seal are its END_OF_STREAM notices. -/
theorem ports_sealBy_unstarted {i : Fin 32} (h : (s.ring (s.att i).ring).slots.occupied ≠ 0)
    (hm : ∀ e, (s.move e).state ≠ .armed ∧ (s.move e).state ≠ .waiting) (hw : s.waiting = noWaiting)
    (hn : (s.readers (s.att i).ring).Nodup) (hi : i ∉ s.readers (s.att i).ring)
    (hr : ∀ j ∈ s.readers (s.att i).ring, (s.att j).ring = (s.att i).ring) :
    (sealBy cause i s).ports = ((s.readers (s.att i).ring).foldl (endNotice s cause) s).ports := by
  have hquiet : (s.told cause i).waiting = noWaiting := by
    have ho : (s.told cause i).outside = (s.marked cause i).outside := foldl_keeps State.outside sealReader outside_sealReader _ _
    have hmarked : (s.marked cause i).waiting = noWaiting :=
      (steps_endWaitingOf (m := ⟨false, false, false⟩) _ _).keeps.waiting hw
    exact (congrArg Outside.waiting ho).trans hmarked
  rw [sealBy_unstarted h hm, reexamine_of_none _ hquiet]
  exact Telling.foldl _ (Telling.marked hw hi rfl) hn hr

end

/-! ### The last attachment gone (R13, R15, R62) -/

theorem freeIfEmpty_freed {s : State} {r : Fin 16} (hs : (s.ring r).state ≠ .free) (hc : (s.ring r).attachmentCount = 0) :
    freeIfEmpty r s =
      (s.setPageMap (markPages none (s.ring r).firstPage.val (s.ring r).pageCount s.pageMap)).setRing r Ring.freed :=
  if_pos ⟨hs, hc⟩

/-- Settles O27: one level of `sealProducer`, and what it comes to where no entry is started. -/
theorem producerDepartureSealsOrFrees : Obligations.ProducerDepartureSealsOrFrees := by
  refine ⟨fun depth s cause i => ?_, fun s cause i => ?_⟩
  · intro r g gone told
    refine ⟨fun h => ?_, fun h => sealProducer_last h depth, rfl, rfl⟩
    refine (sealProducer_succ h depth).trans ?_
    refine congrArg (fun f => (List.finRange 16).foldl f (reexamine r told)) ?_
    funext u e
    exact if_congr (checkedAtSeal_iff u r e) rfl rfl
  · intro told hm r g t
    have hlast : g.slots.occupied = 0 → t = freeIfEmpty r (removeProducer i s) := fun h => sealProducer_last h _
    have hbonds : g.slots.occupied ≠ 0 → t.bonds = (s.marked cause i).bonds := fun h => bonds_sealBy_unstarted h hm
    have hgone : (removeProducer i s).att i = Attachment.freed ((s.att i).gen + 1) := by rw [att_removeProducer, if_pos rfl]
    have hrecord : (t.att i).inUse = false ∧ (t.att i).gen = (s.att i).gen + 1 := by
      by_cases h : g.slots.occupied = 0
      · have hatt : t.att i = Attachment.freed ((s.att i).gen + 1) := by
          rw [hlast h, ← hgone]
          exact congrArg (tableGet · i) (freeIfEmpty_others _ r).1
        rw [hatt]
        exact ⟨rfl, rfl⟩
      · obtain ⟨huse, hgen, -⟩ := Attachment.of_bond (att_of_bonds (hbonds h) i)
        rw [show (s.marked cause i).att i = _ from hgone] at huse hgen
        exact ⟨huse, hgen⟩
    refine ⟨hrecord.1, hrecord.2, fun h => ?_, fun h hw hn hi hr => ?_, fun h hs => ?_⟩
    · have hring : (s.marked cause i).ring r = { g with producer := none, state := .sealed, sealCause := some cause } :=
        State.ring_setRing_same _ _ _
      have hb := ring_of_bonds (hbonds h) r
      rw [hring] at hb
      obtain ⟨hstate, hmode, hfirst, hcount, haccess, hproducer, hslots, hcause⟩ := Ring.of_bond hb
      exact ⟨hstate, hcause, hproducer, hslots, hmode, haccess, hfirst, hcount,
        (pageMap_of_bonds (hbonds h)).trans (pageMap_removeProducer s i)⟩
    · refine (ports_sealBy_unstarted h hm hw hn hi hr).trans ?_
      refine congrArg (fun f => ((s.readers r).foldl f s).ports) ?_
      funext u j
      cases cause <;> rfl
    · have hring := ring_removeProducer s i
      have hfreed : t = ((removeProducer i s).setPageMap (markPages none g.firstPage.val g.pageCount s.pageMap)).setRing r Ring.freed := by
        rw [hlast h, freeIfEmpty_freed]
        · rw [hring, pageMap_removeProducer]
        · rw [hring]
          exact hs
        · rw [hring, attachmentCount_without_producer]
          exact h
      rw [hfreed]
      exact ⟨State.ring_setRing_same _ _ _, mem_removeProducer s i, tableGet_markPages none _ _ _⟩

end Sys2Proof.Machine
end

