-- ==== Sys2Proof/Proofs/Readiness.lean ====
section
/-! PROOF. What a change of level tells (O26): the party a record about an attachment goes to, a threshold crossed, the producer space
and what its rise does to the queues and to the move list. -/

namespace Sys2Proof.Machine

/-! ### A record about an attachment (R181) -/

/-- A record about attachment `i`, whose fields are those of `x`, to the port that its holder has in state `s`. -/
def State.tell (s : State) (x : Attachment) (i : Fin 32) (k : EventKind) (d : Word) (u : State) : State :=
  postTo (s.holderPort x.holder) k x.ring ⟨x.gen, i⟩ d u

theorem postAbout_eq_tell (i : Fin 32) (k : EventKind) (d : Word) (s : State) : postAbout i k d s = s.tell (s.att i) i k d s := rfl

/-- Two states whose move entries have the same owners send a record to the same port. -/
theorem holderPort_congr {s t : State} (h : ∀ e, (t.move e).owner = (s.move e).owner) (o : Holder) :
    t.holderPort o = s.holderPort o := by
  cases o with
  | port p => rfl
  | entry e => exact h e

/-- The record depends on the owners, the queues and the timebase alone. -/
theorem ports_tell_congr {s t u v : State} (ho : ∀ e, (t.move e).owner = (s.move e).owner) (hp : u.ports = v.ports)
    (ht : u.timebase = v.timebase) (x : Attachment) (i : Fin 32) (k : EventKind) (d : Word) :
    (t.tell x i k d u).ports = (s.tell x i k d v).ports := by
  rw [State.tell, State.tell, holderPort_congr ho]
  exact (postTo_congr hp ht _ _ _ _ _).1

/-- The record names what no cursor or flag is part of: holder, ring and generation. -/
theorem tell_of_bond {x y : Attachment} (h : y.bond = x.bond) (s : State) (i : Fin 32) (k : EventKind) (d : Word) (u : State) :
    s.tell y i k d u = s.tell x i k d u := by
  obtain ⟨-, hgen, hring, -, hholder, -⟩ := Attachment.of_bond h
  rw [State.tell, State.tell, hgen, hring, hholder]

/-- An attachment record written back as it was. -/
@[simp] theorem State.setAtt_att (s : State) (i : Fin 32) : s.setAtt i (s.att i) = s := by
  simp [State.setAtt, State.att]

/-- A record about an attachment, of which only a cursor or flag has been written. -/
theorem postAbout_setAtt {s : State} {i : Fin 32} {x : Attachment} (h : x.bond = (s.att i).bond) (k : EventKind) (d : Word) :
    postAbout i k d (s.setAtt i x) = s.tell (s.att i) i k d (s.setAtt i x) := by
  rw [postAbout_eq_tell, State.att_setAtt_same, tell_of_bond h]
  exact congrArg (postTo · k _ _ d _) (holderPort_congr (fun _ => rfl) _)

/-- No record moves the timebase. -/
@[simp] theorem timebase_tell (s : State) (x : Attachment) (i : Fin 32) (k : EventKind) (d : Word) (u : State) :
    (s.tell x i k d u).timebase = u.timebase := by
  unfold State.tell postTo
  split <;> rfl

/-! ### A threshold crossed (R38, R39) -/

/-- A level that rises to a threshold: a threshold of 0 has no level below it. -/
theorem crosses_iff {threshold before after : Nat} : crosses threshold before after = true ↔ before < threshold ∧ threshold ≤ after := by
  simp only [crosses, Bool.and_eq_true, decide_eq_true_eq]
  omega

theorem postCrossing_eq (i : Fin 32) (before after : Nat) (s : State) :
    postCrossing i before after s =
      if before < (s.att i).threshold ∧ (s.att i).threshold ≤ after then
        s.tell (s.att i) i (readyKind (s.att i).role) (word after) s
      else s := if_congr crosses_iff rfl rfl

/-- A level that has not risen crosses nothing. -/
theorem postCrossing_of_le {before after : Nat} (h : after ≤ before) (i : Fin 32) (s : State) : postCrossing i before after s = s := by
  rw [postCrossing_eq, if_neg]
  omega

theorem readyKind_eq (role : Role) : readyKind role = if role = .producer then .spaceReady else .dataReady := by
  cases role <;> simp [readyKind]

/-! ### Retry notices (R125) -/

/-- A move entry after a retry notice that comes under a condition. -/
def MoveEntry.retried (m : MoveEntry) (told : Prop) [Decidable told] : MoveEntry :=
  if m.state = .waiting ∧ told then { m with state := .armed } else m

theorem MoveEntry.retried_of_not (m : MoveEntry) {told : Prop} [Decidable told] (h : ¬told) : m.retried told = m :=
  if_neg fun hc => h hc.2

/-- Two notices make no more of an entry than one. -/
theorem MoveEntry.retried_retried (m : MoveEntry) (a b : Prop) [Decidable a] [Decidable b] :
    (m.retried a).retried b = m.retried (a ∨ b) := by
  by_cases hm : m.state = .waiting
  · by_cases ha : a
    · simp [MoveEntry.retried, hm, ha]
    · simp [MoveEntry.retried, hm, ha]
  · simp [MoveEntry.retried, hm]

theorem MoveEntry.retried_congr (m : MoveEntry) {a b : Prop} [Decidable a] [Decidable b] (h : a ↔ b) : m.retried a = m.retried b :=
  if_congr (and_congr_right fun _ => h) rfl rfl

section
variable (s : State)

theorem move_retryHolder (i : Fin 32) (e : Fin 16) :
    (retryHolder i s).move e = (s.move e).retried ((s.att i).holder = .entry e) := by
  unfold retryHolder
  cases hh : (s.att i).holder with
  | port p => exact (MoveEntry.retried_of_not _ (by simp)).symm
  | entry e' =>
    by_cases he : e = e'
    · subst he
      unfold retryNotice MoveEntry.retried
      by_cases hw : (s.move e).state = .waiting
      · simp [hw]
      · simp [hw]
    · rw [MoveEntry.retried_of_not _ (by simpa using fun h => he h.symm)]
      change (retryNotice e' s).move e = s.move e
      unfold retryNotice
      split
      · rw [State.move_setMove, if_neg he]
      · rfl

@[simp] theorem ports_retryHolder (i : Fin 32) : (retryHolder i s).ports = s.ports := by
  unfold retryHolder retryNotice
  split
  · split <;> rfl
  · rfl

/-! ### The producer space has changed (R39, R125) -/

variable (r : Fin 16) (before : Nat)

theorem spaceChanged_of_not_risen (h : (s.ring r).producer = none ∨ s.space r ≤ before) : spaceChanged r before s = s := by
  unfold spaceChanged
  split
  · rename_i k hk
    exact if_neg (Nat.not_lt.mpr (h.resolve_left (by simp [hk])))
  · rfl

theorem spaceChanged_of_risen {k : Handle} (hk : (s.ring r).producer = some k) (h : before < s.space r) :
    spaceChanged r before s = retryHolder k.index (postCrossing k.index before (s.space r) s) := by
  unfold spaceChanged
  rw [hk]
  exact if_pos h

/-- Its notices change no record that the space is formed from. -/
@[simp] theorem space_spaceChanged (r' : Fin 16) : (spaceChanged r before s).space r' = s.space r' := by
  simp only [State.space, State.largestHoldFill, State.readers, ring_spaceChanged, att_spaceChanged]

/-- The queues after a change of the space: the producer's threshold is judged. -/
theorem ports_spaceChanged {k : Handle} (hk : (s.ring r).producer = some k) :
    (spaceChanged r before s).ports = (postCrossing k.index before (s.space r) s).ports := by
  by_cases h : before < s.space r
  · rw [spaceChanged_of_risen s r before hk h, ports_retryHolder]
  · rw [spaceChanged_of_not_risen s r before (.inr (Nat.not_lt.mp h)), postCrossing_of_le (Nat.not_lt.mp h)]

/-- The move list after a change of the space: a rise retries the entry that holds the producer. -/
theorem move_spaceChanged (e : Fin 16) :
    (spaceChanged r before s).move e =
      (s.move e).retried (before < s.space r ∧ ∃ h, (s.ring r).producer = some h ∧ (s.att h.index).holder = .entry e) := by
  by_cases h : (s.ring r).producer = none ∨ s.space r ≤ before
  · rw [spaceChanged_of_not_risen s r before h, MoveEntry.retried_of_not]
    rintro ⟨hlt, k, hk, -⟩
    rcases h with hn | hle
    · simp [hn] at hk
    · omega
  · rw [not_or, Nat.not_le] at h
    obtain ⟨k, hk⟩ := Option.ne_none_iff_exists'.mp h.1
    rw [spaceChanged_of_risen s r before hk h.2, move_retryHolder, move_of_tables (tables_postCrossing _ _ _ _), att_postCrossing]
    exact MoveEntry.retried_congr _ (by simp [h.2, hk])

/-! ### The producer space formed (R27) -/

/-- A running maximum over the members that a condition admits: it bounds each, and is one of them or where it began. -/
theorem foldl_max_spec {α : Type} (p : α → Prop) [DecidablePred p] (f : α → Nat) : ∀ (l : List α) (m : Nat),
    let n := l.foldl (fun m x => if p x then max m (f x) else m) m
    m ≤ n ∧ (∀ x ∈ l, p x → f x ≤ n) ∧ (n = m ∨ ∃ x ∈ l, p x ∧ f x = n)
  | [], m => ⟨le_rfl, by simp, .inl rfl⟩
  | x :: l, m => by
    obtain ⟨hstart, hbound, hone⟩ := foldl_max_spec p f l (if p x then max m (f x) else m)
    obtain ⟨hm, hx, hfirst⟩ : (m ≤ if p x then max m (f x) else m) ∧ (p x → f x ≤ if p x then max m (f x) else m) ∧
        ((if p x then max m (f x) else m) = m ∨ p x ∧ f x = if p x then max m (f x) else m) := by
      by_cases hp : p x
      · simp only [if_pos hp]
        exact ⟨le_max_left _ _, fun _ => le_max_right _ _, (max_choice m (f x)).imp id fun h => ⟨hp, h.symm⟩⟩
      · simp only [if_neg hp]
        exact ⟨le_rfl, fun h => absurd h hp, .inl trivial⟩
    refine ⟨hm.trans hstart, fun y hy hp => ?_, ?_⟩
    · rcases List.mem_cons.mp hy with rfl | hy
      · exact (hx hp).trans hstart
      · exact hbound y hy hp
    · rcases hone with hn | ⟨y, hy, hp, hf⟩
      · rcases hfirst with hs | ⟨hp, hs⟩
        · exact .inl (hn.trans hs)
        · exact .inr ⟨x, List.mem_cons_self, hp, hs.trans hn.symm⟩
      · exact .inr ⟨y, List.mem_cons_of_mem x hy, hp, hf⟩

theorem occupied_eq_length : (s.ring r).slots.occupied = (s.readers r).length := by
  have hflag : ∀ o : Option Handle, flag o.isSome = o.toList.length := fun o => by cases o <;> rfl
  simp [State.readers, Slots.handles, Slots.occupied, hflag, Nat.add_assoc]

end

/-- Settles O26: the space by the ring's mode, the crossing by `postCrossing_eq`, its rise by `spaceChanged_of_risen`. -/
theorem producerSpaceIsFormed : Obligations.ProducerSpaceIsFormed := by
  refine ⟨fun s r => ?_, fun s i before after => ?_, fun s r before => ⟨spaceChanged_of_not_risen s r before, fun k hk hlt => ?_⟩⟩
  · refine ⟨fun hm => by simp [State.space, hm], fun hm => ⟨s.largestHoldFill r, by simp [State.space, hm], ?_⟩, rfl, rfl,
      occupied_eq_length s r⟩
    exact (foldl_max_spec (fun i => (s.att i).policy = .hold) (fun i => (s.att i).fill) (s.readers r) 0).2
  · intro told
    rw [postCrossing_eq, readyKind_eq]
    rfl
  · intro u
    have hmove : ∀ e, u.move e = s.move e := move_of_tables (tables_postCrossing _ _ _ _)
    rw [spaceChanged_of_risen s r before hk hlt, retryHolder, att_postCrossing]
    cases (s.att k.index).holder with
    | port p => rfl
    | entry e =>
      change retryNotice e u = _
      rw [retryNotice, hmove]

end Sys2Proof.Machine
end

