-- ==== Sys2Proof/Proofs/Pop.lean ====
section
/-! PROOF. What a pop reaches (O24): its reader's cursor, the records it posts, and the entry that holds the producer. -/

namespace Sys2Proof.Machine

section
variable (s : State) (i : Fin 32)

/-! ### END_OF_STREAM (R34) -/

theorem reportEnd_eq :
    reportEnd i s =
      if (s.att i).endReported = true then s
      else s.tell (s.att i) i .endOfStream (word (sealCauseCode (s.ring (s.att i).ring).sealCause))
        (s.setAtt i { s.att i with endReported := true }) :=
  if_congr Iff.rfl rfl (postAbout_setAtt (by rfl) _ _)

@[simp] theorem outside_reportEnd : (reportEnd i s).outside = s.outside := by
  unfold reportEnd
  split
  · rfl
  · exact outside_postAbout _ _ _ _

/-- END_OF_STREAM writes one flag of the tables. -/
theorem tables_reportEnd : (reportEnd i s).tables = (s.setAtt i { s.att i with endReported := true }).tables := by
  unfold reportEnd
  split
  · rename_i h
    rw [show ({ s.att i with endReported := true } : Attachment) = s.att i by rw [← h], State.setAtt_att]
  · exact tables_postAbout _ _ _ _

/-! ### The answer of a pop (R32, R33, R47, R49) -/

/-- A pop can be answered with a word, in the words of R32 and R47. -/
def Attachment.takes (x : Attachment) : Prop :=
  (x.order = .natural ∧ 0 < x.fill) ∨ (x.order = .reversedBlock ∧ (0 < x.progress ∨ 2 ^ x.blockExp ≤ x.fill))

theorem Attachment.canPop_iff (x : Attachment) : x.canPop = true ↔ x.takes := by
  unfold Attachment.canPop Attachment.takes Attachment.blockSize
  cases x.order <;> simp

theorem judgePop_of_takes (h : (s.att i).takes) :
    s.judgePop i = .data (s.ringWord (s.att i).ring ((s.att i).popIndex (s.ring (s.att i).ring))) :=
  if_pos ((Attachment.canPop_iff _).mpr h)

theorem judgePop_of_not_takes (h : ¬(s.att i).takes) :
    s.judgePop i = if (s.ring (s.att i).ring).state = .sealed then .ended else .empty :=
  if_neg fun hc => h ((Attachment.canPop_iff _).mp hc)

/-- The read index, in the words of R26. -/
theorem Ring.readIndex_eq (g : Ring) (fill : Nat) :
    g.readIndex fill =
      if g.mode = .circular then (g.writePos + g.capacity - fill) % g.capacity else g.writePos - fill := by
  unfold Ring.readIndex
  cases g.mode <;> rfl

/-! ### The effects of a pop -/

theorem takePop_of_takes (h : (s.att i).takes) :
    takePop i s = spaceChanged (s.att i).ring (s.space (s.att i).ring) (s.setAtt i (s.att i).afterPop) := by
  rw [takePop, judgePop_of_takes s i h]

theorem takePop_of_ended (h : ¬(s.att i).takes) (hs : (s.ring (s.att i).ring).state = .sealed) :
    s.judgePop i = .ended ∧ takePop i s = reportEnd i s := by
  have hj : s.judgePop i = .ended := (judgePop_of_not_takes s i h).trans (if_pos hs)
  exact ⟨hj, by rw [takePop, hj]⟩

theorem takePop_of_empty (h : ¬(s.att i).takes) (hs : (s.ring (s.att i).ring).state ≠ .sealed) :
    s.judgePop i = .empty ∧ takePop i s = s := by
  have hj : s.judgePop i = .empty := (judgePop_of_not_takes s i h).trans (if_neg hs)
  exact ⟨hj, by rw [takePop, hj]⟩

/-- A pop writes the record of its reader, and nothing else of rings and attachments. -/
theorem takePop_records : ∃ x, (takePop i s).rings = s.rings ∧ (takePop i s).atts = tablePut s.atts i x ∧
    (takePop i s).outside = s.outside := by
  by_cases h : (s.att i).takes
  · rw [takePop_of_takes s i h]
    exact ⟨_, rings_spaceChanged _ _ _, atts_spaceChanged _ _ _, outside_spaceChanged _ _ _⟩
  by_cases hs : (s.ring (s.att i).ring).state = .sealed
  · rw [(takePop_of_ended s i h hs).2]
    have ht := tables_reportEnd s i
    exact ⟨_, congrArg Tables.rings ht, congrArg Tables.atts ht, outside_reportEnd s i⟩
  · rw [(takePop_of_empty s i h hs).2]
    exact ⟨s.att i, rfl, (tablePut_tableGet _ _).symm, rfl⟩

section
variable (h : (s.att i).takes)
include h

theorem att_takePop : (takePop i s).att i = (s.att i).afterPop := by
  rw [takePop_of_takes s i h, att_spaceChanged, State.att_setAtt_same]

/-- The space after the pop is the space that its notices judge. -/
theorem space_takePop (r : Fin 16) : (takePop i s).space r = (s.setAtt i (s.att i).afterPop).space r := by
  rw [takePop_of_takes s i h, space_spaceChanged]

/-- SPACE_READY of a pop (R39). -/
theorem ports_takePop {k : Handle} (hk : (s.ring (s.att i).ring).producer = some k) (hne : k.index ≠ i) :
    (takePop i s).ports =
      (if s.space (s.att i).ring < (s.att k.index).threshold ∧ (s.att k.index).threshold ≤ (takePop i s).space (s.att i).ring then
        s.tell (s.att k.index) k.index (readyKind (s.att k.index).role) (word ((takePop i s).space (s.att i).ring)) s
      else s).ports := by
  have hatt : (s.setAtt i (s.att i).afterPop).att k.index = s.att k.index := by rw [State.att_setAtt, if_neg hne]
  rw [space_takePop s i h, takePop_of_takes s i h, ports_spaceChanged (s.setAtt i _) _ _ hk, postCrossing_eq, hatt]
  split
  · refine ports_tell_congr (fun e => ?_) ?_ ?_ _ _ _ _ <;> rfl
  · rfl

theorem move_takePop (e : Fin 16) :
    (takePop i s).move e = (s.move e).retried (s.space (s.att i).ring < (takePop i s).space (s.att i).ring ∧
      ∃ h, (s.ring (s.att i).ring).producer = some h ∧ (s.att h.index).holder = .entry e) := by
  have hholder : ∀ j, ((s.setAtt i (s.att i).afterPop).att j).holder = (s.att j).holder := fun j => by
    rw [State.att_setAtt]
    split
    · rename_i hj
      rw [hj]
      rfl
    · rfl
  rw [space_takePop s i h, takePop_of_takes s i h, move_spaceChanged]
  refine MoveEntry.retried_congr _ (and_congr_right fun _ => exists_congr fun k => ?_)
  rw [hholder]
  rfl

end

end

/-- Settles O24: by whether the reader can be answered with a word, and then by the ring's state. -/
theorem popMovesOnlyItsReader : Obligations.PopMovesOnlyItsReader := by
  intro s i told x g t start takes ended
  have hended : reportEnd i s = ended := by
    rw [reportEnd_eq]
    refine if_congr Iff.rfl rfl (congrArg (fun d => told x i .endOfStream d (s.setAtt i { x with endReported := true })) ?_)
    rcases g.sealCause with _ | _ | _ | _ <;> rfl
  have hindex : g.readIndex x.fill = start := Ring.readIndex_eq g x.fill
  obtain ⟨y, hrings, hatts, hout⟩ := takePop_records s i
  refine ⟨fun ho hf => ?_, fun ho hf => ?_, fun k htakes hk hne hrole => ?_, fun htakes hk => ?_, fun htakes e => ?_,
    fun hno => ?_, fun hno => ⟨fun hs => ?_, fun hs => takePop_of_empty s i hno hs⟩, hended, hrings, congrArg Outside.mem hout,
    congrArg Outside.pageMap hout, congrArg Outside.waiting hout, congrArg Outside.par hout, congrArg Outside.ser hout,
    fun j hj => ?_⟩
  · have htakes : takes := .inl ⟨ho, hf⟩
    refine ⟨?_, ?_⟩
    · rw [judgePop_of_takes s i htakes, Attachment.popIndex, ho, ← hindex]
      rfl
    · rw [att_takePop s i htakes, Attachment.afterPop, ho]
  · have htakes : takes := .inr ⟨ho, hf⟩
    refine ⟨?_, ?_⟩
    · rw [judgePop_of_takes s i htakes, Attachment.popIndex, ho, ← hindex]
      rfl
    · rw [att_takePop s i htakes, Attachment.afterPop, ho]
      rfl
  · have hports := ports_takePop s i htakes hk hne
    rw [hrole] at hports
    exact hports
  · have hsame : t = s.setAtt i x.afterPop :=
      (takePop_of_takes s i htakes).trans (spaceChanged_of_not_risen _ _ _ (.inl hk))
    rw [hsame]
    rfl
  · exact move_takePop s i htakes e
  · by_cases hs : g.state = .sealed
    · rw [show t = _ from (takePop_of_ended s i hno hs).2]
      exact congrArg Tables.moves (tables_reportEnd s i)
    · rw [show t = s from (takePop_of_empty s i hno hs).2]
  · obtain ⟨hj, ht⟩ := takePop_of_ended s i hno hs
    refine ⟨hj, ht.trans hended, ?_⟩
    rw [show t = _ from ht, att_of_tables (tables_reportEnd s i), State.att_setAtt_same]
  · exact (congrArg (tableGet · j) hatts).trans (tableGet_tablePut_ne _ _ _ _ hj)

end Sys2Proof.Machine
end

