-- ==== Sys2Proof/Proofs/PushReaders.lean ====
section
/-! PROOF. A stored push brings each reader of its ring up to date (O25): the reader's record, what is told in slot order, and which
entries are retried. -/

namespace Sys2Proof.Machine

/-! ### One reader's record (R29, R30, R51, R52) -/

section
variable {x : Attachment} {c : Nat}

theorem Attachment.dropsAt_iff : x.dropsAt c = true ↔ x.skip = 0 ∧ c ≤ x.fill ∧ x.policy = .lossy := by
  simp [Attachment.dropsAt, and_assoc]

theorem Attachment.afterPush_skipping (h : 0 < x.skip) : x.afterPush c = { x with skip := x.skip - 1 } := if_pos h

theorem Attachment.afterPush_rising (hs : x.skip = 0) (hf : x.fill < c) : x.afterPush c = { x with fill := x.fill + 1 } := by
  rw [Attachment.afterPush, if_neg (by omega), if_pos hf]

/-- At fill C: a HOLD reader stays, a LOSSY reader drops one word or its oldest block. -/
theorem Attachment.afterPush_full (hs : x.skip = 0) (hf : c ≤ x.fill) :
    (x.policy = .hold → x.afterPush c = x) ∧
    (x.policy = .lossy → x.order = .natural → x.afterPush c = { x with dropCount := saturate16 (x.dropCount + 1) }) ∧
    (x.policy = .lossy → x.order = .reversedBlock →
      x.afterPush c =
        { x with
          fill := x.fill - 2 ^ x.blockExp + 1
          dropCount := saturate16 (x.dropCount + 2 ^ x.blockExp)
          progress := 0 }) := by
  rw [Attachment.afterPush, if_neg (by omega), if_neg (by omega)]
  refine ⟨fun hp => ?_, fun hp ho => ?_, fun hp ho => ?_⟩
  · rw [hp]
  · rw [hp, ho]
  · rw [hp, ho]
    rfl

/-- At fill C no fill rises: a block dropped has a word at least. -/
theorem Attachment.fill_afterPush_full (hc : 0 < c) (hs : x.skip = 0) (hf : c ≤ x.fill) : (x.afterPush c).fill ≤ x.fill := by
  obtain ⟨hhold, hnatural, hblock⟩ := Attachment.afterPush_full hs hf
  cases hp : x.policy with
  | hold => rw [hhold hp]
  | lossy =>
    cases ho : x.order with
    | natural => rw [hnatural hp ho]
    | reversedBlock =>
      have hB : 0 < 2 ^ x.blockExp := Nat.two_pow_pos _
      rw [hblock hp ho]
      change x.fill - 2 ^ x.blockExp + 1 ≤ x.fill
      omega

/-- Which fills rise at a push. -/
theorem Attachment.fill_lt_afterPush (hc : 0 < c) : x.fill < (x.afterPush c).fill ↔ x.skip = 0 ∧ x.fill < c := by
  by_cases hs : x.skip = 0
  case neg =>
    rw [Attachment.afterPush_skipping (Nat.pos_of_ne_zero hs)]
    simp [hs]
  by_cases hf : x.fill < c
  · rw [Attachment.afterPush_rising hs hf]
    simp [hs, hf]
  · have := Attachment.fill_afterPush_full hc hs (Nat.not_lt.mp hf)
    simp only [hs, hf, and_false, iff_false]
    omega

/-- The record of a reader that a push has brought up to date: a drop sets lag reported (R30). -/
def Attachment.updated (x : Attachment) (c : Nat) : Attachment :=
  { x.afterPush c with lagReported := x.dropsAt c || x.lagReported }

theorem Attachment.updated_of_not_drops (h : x.dropsAt c ≠ true) : x.updated c = x.afterPush c := by
  have hlag : (x.afterPush c).lagReported = x.lagReported := by
    unfold Attachment.afterPush
    split
    · rfl
    · split
      · rfl
      · split <;> rfl
  rw [Attachment.updated, Bool.eq_false_iff.mpr h, Bool.false_or, ← hlag]

theorem Attachment.updated_of_drops (h : x.dropsAt c = true) : x.updated c = { x.afterPush c with lagReported := true } := by
  rw [Attachment.updated, h, Bool.true_or]

end

/-! ### One reader brought up to date -/

section
variable (s : State) (c : Nat) (i : Fin 32)

theorem reportLag_eq :
    reportLag i s =
      if (s.att i).lagReported = true then s
      else s.tell (s.att i) i .lagged (word (s.att i).dropCount) (s.setAtt i { s.att i with lagReported := true }) :=
  if_congr Iff.rfl rfl (postAbout_setAtt (by rfl) _ _)

theorem tables_reportLag : (reportLag i s).tables = (s.setAtt i { s.att i with lagReported := true }).tables := by
  unfold reportLag
  split
  · rename_i h
    rw [show ({ s.att i with lagReported := true } : Attachment) = s.att i by rw [← h], State.setAtt_att]
  · exact tables_postAbout _ _ _ _

/-- The record written and LAGGED posted, before the threshold is judged. -/
def State.cursorMoved : State :=
  if (s.att i).dropsAt c then reportLag i (s.setAtt i ((s.att i).afterPush c)) else s.setAtt i ((s.att i).afterPush c)

/-- A reader brought up to date: its cursor moved, its threshold judged, and its entry retried where its fill has risen. -/
theorem pushReader_def :
    pushReader c s i =
      let t := postCrossing i (s.att i).fill ((s.att i).afterPush c).fill (s.cursorMoved c i)
      if (s.att i).fill < ((s.att i).afterPush c).fill then retryHolder i t else t := rfl

/-- Nothing beyond its cursor where its fill does not rise. -/
theorem pushReader_eq (hc : 0 < c) :
    pushReader c s i =
      if (s.att i).skip = 0 ∧ (s.att i).fill < c then
        retryHolder i (postCrossing i (s.att i).fill ((s.att i).fill + 1) (s.cursorMoved c i))
      else s.cursorMoved c i := by
  rw [pushReader_def]
  by_cases h : (s.att i).skip = 0 ∧ (s.att i).fill < c
  · rw [if_pos h, Attachment.afterPush_rising h.1 h.2]
    exact if_pos (Nat.lt_succ_self _)
  · have hle := Nat.not_lt.mp (mt (Attachment.fill_lt_afterPush hc).mp h)
    rw [if_neg h, postCrossing_of_le hle]
    exact if_neg (Nat.not_lt.mpr hle)

theorem tables_cursorMoved : (s.cursorMoved c i).tables = (s.setAtt i ((s.att i).updated c)).tables := by
  unfold State.cursorMoved
  split
  · rename_i h
    rw [tables_reportLag, State.att_setAtt_same, State.setAtt_setAtt, Attachment.updated_of_drops h]
  · rename_i h
    rw [Attachment.updated_of_not_drops h]

theorem att_cursorMoved_same : (s.cursorMoved c i).att i = (s.att i).updated c :=
  (att_of_tables (tables_cursorMoved s c i) i).trans (State.att_setAtt_same _ _ _)

theorem att_pushReader_same : (pushReader c s i).att i = (s.att i).updated c := by
  rw [pushReader_def, ← att_cursorMoved_same]
  dsimp only
  split
  · rw [att_retryHolder, att_postCrossing]
  · rw [att_postCrossing]

theorem move_pushReader (hc : 0 < c) (e : Fin 16) :
    (pushReader c s i).move e =
      (s.move e).retried ((s.att i).holder = .entry e ∧ (s.att i).skip = 0 ∧ (s.att i).fill < c) := by
  have hmove : (s.cursorMoved c i).move e = s.move e := move_of_tables (tables_cursorMoved s c i) e
  have hholder : ((s.att i).updated c).holder = (s.att i).holder := (Attachment.afterPush_party (s.att i) c).2.2.2
  rw [pushReader_eq s c i hc]
  split
  · rename_i h
    rw [move_retryHolder, move_of_tables (tables_postCrossing _ _ _ _), att_postCrossing, hmove, att_cursorMoved_same, hholder]
    exact MoveEntry.retried_congr _ (by simp [h])
  · rename_i h
    rw [hmove, MoveEntry.retried_of_not _ fun hh => h hh.2]

end

/-! ### What one reader is told (R30, R38, R40) -/

/-- LAGGED or DATA_READY of a push on a ring of a capacity to one reader, by its record in `s`. -/
def State.pushNotice (s : State) (c : Nat) (u : State) (j : Fin 32) : State :=
  let x := s.att j
  if 0 < x.skip then u
  else if x.fill < c then
    if x.threshold = x.fill + 1 then s.tell x j .dataReady (word (x.fill + 1)) u else u
  else if x.policy = .lossy ∧ x.lagReported = false then
    s.tell x j .lagged (word (saturate16 (x.dropCount + if x.order = .natural then 1 else 2 ^ x.blockExp))) u
  else u

@[simp] theorem timebase_pushNotice (s : State) (c : Nat) (u : State) (j : Fin 32) : (s.pushNotice c u j).timebase = u.timebase := by
  unfold State.pushNotice
  dsimp only
  split
  · rfl
  · split
    · split <;> simp
    · split <;> simp

section
variable {s u v : State} {c : Nat} {j : Fin 32}

/-- A record told from a state that differs in attachment records only. -/
theorem ports_tell_setAtt {x y z z' : Attachment} (hy : y.bond = x.bond) (k : EventKind) (d : Word) :
    ((u.setAtt j z).tell y j k d (u.setAtt j z')).ports = (u.tell x j k d u).ports := by
  rw [tell_of_bond hy]
  refine ports_tell_congr (fun e => ?_) ?_ ?_ _ _ _ _ <;> rfl

/-- DATA_READY of a fill that rises. -/
theorem ports_pushReader_rising (hc : 0 < c) (hr : (u.att j).role ≠ .producer) (hs : (u.att j).skip = 0) (hf : (u.att j).fill < c) :
    (pushReader c u j).ports = (u.pushNotice c u j).ports := by
  have hmoved : u.cursorMoved c j = u.setAtt j { u.att j with fill := (u.att j).fill + 1 } := by
    rw [State.cursorMoved, Attachment.afterPush_rising hs hf, if_neg fun hd => by
      have := (Attachment.dropsAt_iff.mp hd).2.1
      omega]
  have hkind : readyKind (u.att j).role = .dataReady := by rw [readyKind_eq, if_neg hr]
  rw [pushReader_eq u c j hc, if_pos ⟨hs, hf⟩, ports_retryHolder, postCrossing_eq, hmoved, State.att_setAtt_same]
  simp only [State.pushNotice, hs, hf, Nat.lt_irrefl, if_true, if_false, hkind]
  by_cases ht : (u.att j).threshold = (u.att j).fill + 1
  · rw [if_pos ht, if_pos (by omega)]
    exact ports_tell_setAtt rfl _ _
  · rw [if_neg ht, if_neg (by omega)]
    rfl

/-- LAGGED of a drop: where lag is not yet reported it is told, with the drop count after it. -/
theorem ports_pushReader_drops (hc : 0 < c) (hs : (u.att j).skip = 0) (hf : c ≤ (u.att j).fill) (hp : (u.att j).policy = .lossy) :
    (pushReader c u j).ports = (u.pushNotice c u j).ports := by
  have hafter : ((u.att j).afterPush c).lagReported = (u.att j).lagReported ∧ ((u.att j).afterPush c).dropCount =
      saturate16 ((u.att j).dropCount + if (u.att j).order = .natural then 1 else 2 ^ (u.att j).blockExp) := by
    obtain ⟨-, hnatural, hblock⟩ := Attachment.afterPush_full hs hf
    cases ho : (u.att j).order with
    | natural => rw [hnatural hp ho]; exact ⟨rfl, rfl⟩
    | reversedBlock => rw [hblock hp ho]; exact ⟨rfl, rfl⟩
  have hdrops : (u.att j).dropsAt c = true := Attachment.dropsAt_iff.mpr ⟨hs, hf, hp⟩
  rw [pushReader_eq u c j hc, if_neg (by omega), State.cursorMoved, if_pos hdrops, reportLag_eq, State.att_setAtt_same, hafter.1,
    hafter.2, State.setAtt_setAtt]
  unfold State.pushNotice
  dsimp only
  rw [if_neg (show ¬0 < (u.att j).skip by omega), if_neg (Nat.not_lt.mpr hf)]
  by_cases hl : (u.att j).lagReported = true
  · rw [if_pos hl, if_neg fun h : _ ∧ _ => by simp [hl] at h]
    rfl
  · rw [if_neg hl, if_pos (⟨hp, by simpa using hl⟩ : _ ∧ _)]
    exact ports_tell_setAtt (bond_afterPush _ c) _ _

/-- The queues after one reader is brought up to date. -/
theorem ports_pushReader (hc : 0 < c) (hr : (u.att j).role ≠ .producer) : (pushReader c u j).ports = (u.pushNotice c u j).ports := by
  by_cases hrise : (u.att j).skip = 0 ∧ (u.att j).fill < c
  · exact ports_pushReader_rising hc hr hrise.1 hrise.2
  by_cases hdrops : (u.att j).dropsAt c = true
  · obtain ⟨hs, hf, hp⟩ := Attachment.dropsAt_iff.mp hdrops
    exact ports_pushReader_drops hc hs hf hp
  have hnotice : u.pushNotice c u j = u := by
    by_cases hs : (u.att j).skip = 0
    · have hf : ¬(u.att j).fill < c := fun hf => hrise ⟨hs, hf⟩
      have hp : (u.att j).policy ≠ .lossy := fun hp => hdrops (Attachment.dropsAt_iff.mpr ⟨hs, Nat.not_lt.mp hf, hp⟩)
      simp [State.pushNotice, hs, hf, hp]
    · exact if_pos (Nat.pos_of_ne_zero hs)
  rw [hnotice, pushReader_eq u c j hc, if_neg hrise, State.cursorMoved, if_neg hdrops]
  rfl

/-- What a reader is told depends on its record, the owners, the queues and the timebase. -/
theorem ports_pushNotice_congr (ho : ∀ e, (u.move e).owner = (s.move e).owner) (hp : u.ports = v.ports) (ht : u.timebase = v.timebase)
    (hj : u.att j = s.att j) : (u.pushNotice c u j).ports = (s.pushNotice c v j).ports := by
  have told : ∀ k d, (u.tell (s.att j) j k d u).ports = (s.tell (s.att j) j k d v).ports := fun k d =>
    ports_tell_congr ho hp ht _ _ _ _
  unfold State.pushNotice
  rw [hj]
  dsimp only
  simp only [apply_ite State.ports, told, hp]

/-- The queues after the readers of a ring, in slot order. -/
theorem ports_pushReaders (hc : 0 < c) : ∀ (l : List (Fin 32)) {u v : State}, u.ports = v.ports → u.timebase = v.timebase →
    u.bonds = s.bonds → l.Nodup → (∀ j ∈ l, u.att j = s.att j ∧ (s.att j).role ≠ .producer) →
    (l.foldl (pushReader c) u).ports = (l.foldl (s.pushNotice c) v).ports
  | [], _, _, hp, _, _, _, _ => hp
  | j :: l, u, v, hp, ht, hb, hn, hl => by
    obtain ⟨hj, hn⟩ := List.nodup_cons.mp hn
    obtain ⟨hrec, hrole⟩ := hl j List.mem_cons_self
    have ho : ∀ e, (u.move e).owner = (s.move e).owner := fun e => (MoveEntry.of_bond (move_of_bonds hb e)).1
    refine ports_pushReaders hc l ?_ ?_ ((bonds_pushReader _ _ _).trans hb) hn fun k hk => ?_
    · rw [ports_pushReader hc (by rw [hrec]; exact hrole), ports_pushNotice_congr ho hp ht hrec]
    · rw [timebase_pushNotice, ← ht]
      exact congrArg Outside.timebase (outside_pushReader u c j)
    · rw [att_pushReader_ne u c (show k ≠ j from fun hkj => hj (hkj ▸ hk))]
      exact hl k (List.mem_cons_of_mem j hk)

end

/-! ### The readers of a ring -/

section
variable {c : Nat}

/-- A reader among those a push brings up to date. -/
theorem att_pushReaders_mem {i : Fin 32} : ∀ (l : List (Fin 32)) (u : State), i ∈ l → l.Nodup →
    (l.foldl (pushReader c) u).att i = (u.att i).updated c
  | [], _, hi, _ => absurd hi List.not_mem_nil
  | j :: l, u, hi, hn => by
    obtain ⟨hj, hn⟩ := List.nodup_cons.mp hn
    rw [List.foldl_cons]
    by_cases h : i = j
    · subst h
      rw [att_pushReaders c l _ hj, att_pushReader_same u c i]
    · rw [att_pushReaders_mem l _ ((List.mem_cons.mp hi).resolve_left h) hn, att_pushReader_ne u c h]

/-- The entries retried: those that hold a reader whose fill rises. -/
theorem move_pushReaders (hc : 0 < c) (e : Fin 16) : ∀ (l : List (Fin 32)) (u : State), l.Nodup →
    (l.foldl (pushReader c) u).move e =
      (u.move e).retried (∃ j ∈ l, (u.att j).holder = .entry e ∧ (u.att j).skip = 0 ∧ (u.att j).fill < c)
  | [], u, _ => (MoveEntry.retried_of_not _ (by simp)).symm
  | j :: l, u, hn => by
    obtain ⟨hj, hn⟩ := List.nodup_cons.mp hn
    have hrest : ∀ k ∈ l, (pushReader c u j).att k = u.att k := fun k hk =>
      att_pushReader_ne u c fun hkj => hj (hkj ▸ hk)
    rw [List.foldl_cons, move_pushReaders hc e l _ hn, move_pushReader u c j hc e, MoveEntry.retried_retried]
    refine MoveEntry.retried_congr _ ?_
    rw [List.exists_mem_cons_iff]
    exact or_congr_right (exists_congr fun k => and_congr_right fun hk => by rw [hrest k hk])

end

/-! ### The stored push -/

section
variable (s : State) (r : Fin 16) (ofFrame : Bool) (w : Word)

/-- A stored push up to its readers: the word, the ring record, the readers in slot order. -/
def State.readersUpdated : State :=
  (s.readers r).foldl (pushReader (s.ring r).capacity) ((s.setRingWord r (s.ring r).writePos w).setRing r ((s.ring r).afterPush ofFrame))

theorem pushed_eq : s.pushed r ofFrame w = spaceChanged r (s.space r) (s.readersUpdated r ofFrame w) := rfl

/-- A lease renewed changes no other field of a record. -/
theorem fill_policy_renewLease (t : State) (i j : Fin 32) :
    ((renewLease i t).att j).fill = (t.att j).fill ∧ ((renewLease i t).att j).policy = (t.att j).policy := by
  rw [renewLease, State.att_setAtt]
  split
  · rename_i h
    rw [h]
    exact ⟨rfl, rfl⟩
  · exact ⟨rfl, rfl⟩

/-- The space is formed from no lease. -/
theorem space_renewLease (t : State) (i : Fin 32) (r : Fin 16) : (renewLease i t).space r = t.space r := by
  have hfill : ∀ j, ((renewLease i t).att j).fill = (t.att j).fill := fun j => (fill_policy_renewLease t i j).1
  have hpolicy : ∀ j, ((renewLease i t).att j).policy = (t.att j).policy := fun j => (fill_policy_renewLease t i j).2
  simp only [State.space, State.largestHoldFill, State.readers, ring_renewLease, hfill, hpolicy]

/-- The producer's lease aside, the queues, the move list and the space after a stored push are those of its last notice. -/
theorem storePush_after_notices :
    (storePush r ofFrame w s).ports = (spaceChanged r (s.space r) (s.readersUpdated r ofFrame w)).ports ∧
      (storePush r ofFrame w s).moves = (spaceChanged r (s.space r) (s.readersUpdated r ofFrame w)).moves ∧
      (storePush r ofFrame w s).space r = (s.readersUpdated r ofFrame w).space r := by
  rw [← pushed_eq, ← space_spaceChanged (s.readersUpdated r ofFrame w) r (s.space r) r, ← pushed_eq]
  rcases storePush_cases s r ofFrame w with ⟨k, -, h⟩ | h
  · rw [h]
    exact ⟨rfl, rfl, space_renewLease _ _ _⟩
  · rw [h]
    exact ⟨rfl, rfl, rfl⟩

theorem producer_readersUpdated : ((s.readersUpdated r ofFrame w).ring r).producer = (s.ring r).producer := by
  have hring : (s.readersUpdated r ofFrame w).ring r = (s.ring r).afterPush ofFrame := by
    unfold State.readersUpdated
    rw [foldl_keeps (fun t : State => t.ring r) _ (fun t i => ring_pushReader t _ i r), State.ring_setRing_same]
  rw [hring]
  rfl

theorem bonds_readersUpdated : (s.readersUpdated r ofFrame w).bonds = s.bonds :=
  (foldl_keeps State.bonds _ (fun t i => bonds_pushReader t _ i) _ _).trans (bonds_setRing _ r _ rfl)

theorem att_readersUpdated {i : Fin 32} (hi : i ∉ s.readers r) : (s.readersUpdated r ofFrame w).att i = s.att i :=
  att_pushReaders _ _ _ hi

/-- A reader's record after a stored push. -/
theorem att_storePush_reader {i : Fin 32} (hi : i ∈ s.readers r) (hn : (s.readers r).Nodup)
    (hp : ∀ h, (s.ring r).producer = some h → h.index ≠ i) :
    (storePush r ofFrame w s).att i = (s.att i).updated (s.ring r).capacity := by
  have hpushed : (s.pushed r ofFrame w).att i = (s.att i).updated (s.ring r).capacity := by
    rw [pushed_eq, att_spaceChanged]
    exact att_pushReaders_mem _ _ hi hn
  rcases storePush_cases s r ofFrame w with ⟨k, hk, h⟩ | h
  · rw [h, renewLease, State.att_setAtt, if_neg (hp k hk).symm, hpushed]
  · rw [h, hpushed]

theorem timebase_readersUpdated : (s.readersUpdated r ofFrame w).timebase = s.timebase :=
  congrArg Outside.timebase (foldl_keeps State.outside _ (fun t i => outside_pushReader t (s.ring r).capacity i) (s.readers r) _)

variable {s r} (hc : 0 < (s.ring r).capacity) (hn : (s.readers r).Nodup) (hr : ∀ i ∈ s.readers r, (s.att i).role ≠ .producer)
include hc hn

theorem move_readersUpdated (e : Fin 16) :
    (s.readersUpdated r ofFrame w).move e = (s.move e).retried
      (∃ j ∈ s.readers r, (s.att j).holder = .entry e ∧ (s.att j).skip = 0 ∧ (s.att j).fill < (s.ring r).capacity) :=
  move_pushReaders hc e _ _ hn

include hr

theorem ports_readersUpdated :
    (s.readersUpdated r ofFrame w).ports = ((s.readers r).foldl (s.pushNotice (s.ring r).capacity) s).ports :=
  ports_pushReaders hc _ rfl rfl (bonds_setRing _ r _ rfl) hn fun j hj => ⟨rfl, hr j hj⟩

/-- The records of a stored push where the ring has a producer: the readers', then SPACE_READY on a crossing. -/
theorem ports_storePush {k : Handle} (hk : (s.ring r).producer = some k) (hkr : k.index ∉ s.readers r) :
    (storePush r ofFrame w s).ports =
      (if s.space r < (s.att k.index).threshold ∧ (s.att k.index).threshold ≤ (storePush r ofFrame w s).space r then
        s.tell (s.att k.index) k.index (readyKind (s.att k.index).role) (word ((storePush r ofFrame w s).space r))
          ((s.readers r).foldl (s.pushNotice (s.ring r).capacity) s)
      else (s.readers r).foldl (s.pushNotice (s.ring r).capacity) s).ports := by
  obtain ⟨hports, -, hspace⟩ := storePush_after_notices s r ofFrame w
  have hu := ports_readersUpdated ofFrame w hc hn hr
  rw [hports, hspace, ports_spaceChanged _ _ _ ((producer_readersUpdated s r ofFrame w).trans hk), postCrossing_eq,
    att_readersUpdated s r ofFrame w hkr]
  split
  · refine ports_tell_congr (fun e => ?_) hu ?_ _ _ _ _
    · exact (MoveEntry.of_bond (move_of_bonds (bonds_readersUpdated s r ofFrame w) e)).1
    · rw [timebase_readersUpdated, foldl_keeps State.timebase _ (fun u j => timebase_pushNotice s _ u j)]
  · exact hu

end

/-- Settles O25: the readers by the record each had, `Attachment.updated`; then the notices in slot order, the space and the retries. -/
theorem pushBringsEachReaderUpToDate : Obligations.PushBringsEachReaderUpToDate := by
  refine ⟨fun s r ofFrame d i hi hn hp => ?_, fun s r ofFrame d hn hc hr hprod => ?_⟩
  · intro x full y
    have hy : y = x.updated (s.ring r).capacity := att_storePush_reader s r ofFrame d hi hn hp
    have kept : ∀ {z}, x.afterPush (s.ring r).capacity = z → ¬(x.skip = 0 ∧ (s.ring r).capacity ≤ x.fill ∧ x.policy = .lossy) →
        y = z := fun hz hd => by rw [hy, Attachment.updated_of_not_drops (mt Attachment.dropsAt_iff.mp hd), hz]
    have dropped : ∀ {z}, full → x.policy = .lossy → x.afterPush (s.ring r).capacity = z → y = { z with lagReported := true } :=
      fun hf hpol hz => by rw [hy, Attachment.updated_of_drops (Attachment.dropsAt_iff.mpr ⟨hf.1, hf.2, hpol⟩), hz]
    refine ⟨fun hs => kept (Attachment.afterPush_skipping hs) ?_, fun hs hf => kept (Attachment.afterPush_rising hs hf) ?_,
      fun hf hpol => kept ((Attachment.afterPush_full hf.1 hf.2).1 hpol) ?_,
      fun hf hpol ho => dropped hf hpol ((Attachment.afterPush_full hf.1 hf.2).2.1 hpol ho),
      fun hf hpol ho => dropped hf hpol ((Attachment.afterPush_full hf.1 hf.2).2.2 hpol ho)⟩
    · exact fun h => absurd h.1 (by omega)
    · exact fun h => absurd h.2.1 (by omega)
    · exact fun h => by simp [hpol] at h
  · intro told t reader u
    obtain ⟨hports, hmoves, hspace⟩ := storePush_after_notices s r ofFrame d
    have hu : (s.readers r).foldl (s.pushNotice (s.ring r).capacity) s = u := rfl
    refine ⟨fun k hk => ?_, fun hk => ?_, fun e => ?_⟩
    · have h := ports_storePush ofFrame d hc hn hr hk (hprod k hk).1
      rw [(hprod k hk).2, hu] at h
      exact h
    · have hnone := (producer_readersUpdated s r ofFrame d).trans hk
      rw [show t.ports = _ from hports, spaceChanged_of_not_risen _ _ _ (.inl hnone), ports_readersUpdated ofFrame d hc hn hr, hu]
    · have hmove : t.move e = (spaceChanged r (s.space r) (s.readersUpdated r ofFrame d)).move e := congrArg (tableGet · e) hmoves
      rw [hmove, move_spaceChanged, move_readersUpdated ofFrame d hc hn, MoveEntry.retried_retried, producer_readersUpdated, ← hspace]
      refine MoveEntry.retried_congr _ (or_congr_right (and_congr_right fun _ => exists_congr fun k => and_congr_right fun hk => ?_))
      rw [att_readersUpdated s r ofFrame d (hprod k hk).1]

end Sys2Proof.Machine
end

