-- ==== Sys2Proof/Proofs/ParallelAccess.lean ====
section
/-! PROOF. A window access on a parallel port that pops (O17), and one that fails a check (O21): each grant opened up to its answer. -/

namespace Sys2Proof.Machine

/-! ### POP by its answer (R148, R151, R156, R157) -/

section
variable {s : State} {p : ParPort} {w : Fin 8} {offset : Nat} {i : Fin 32}

/-- The answer of a pop, as the answer of the access that makes it. -/
def PopAnswer.access (i : Fin 32) : PopAnswer → AccessAnswer
  | .data d => .word i d
  | .empty => .empty i
  | .ended => .ended i

/-- What a pop through a window bound to a reader is answered (R148). -/
theorem judgeAccess_pop {q : Port} {slot : Fin 4} (hb : s.bound q w .stream i) (hr : (s.att i).role = .reader slot) :
    judgeAccess q w .stream .read offset s = (s.judgePop i).access i := by
  rw [judgeAccess, checkAccess_of_bound hb (by rw [hr]; rfl)]
  dsimp only
  generalize s.judgePop i = answer
  cases answer <;> rfl

theorem popAct_of_ended (h : s.judgePop i = .ended) : popAct i s = reportEnd i s := by
  rw [popAct, h]
  dsimp only
  rw [takePop, h]

theorem popAct_of_empty (h : s.judgePop i = .empty) : popAct i s = s := by
  rw [popAct, h]

/-- POP of a granted access through a window bound to a reader: the pop on the state with the request taken, then the port's answer. -/
theorem exec_pop {slot : Fin 4} (h : s.accessGranted p.toPort w .read offset) (hb : s.bound p.toPort w .stream i)
    (hr : (s.att i).role = .reader slot) :
    exec (.pop p.toPort) s = .next (placeStartCheck
      (finishParallel p w .read (s.window p.toPort w).waitPolicy ((s.judgePop i).access i) (popAct i (s.dataTaken p.toPort)))) := by
  have hact : exec (.pop p.toPort) s = _ := act_of_calm (grantWhen (.data p.toPort) (accessPending p.toPort .stream false)) h.1
  rw [hact]
  have hgrant := grantWhen_parallel h hb.2.1
  rw [judgeAccess_pop hb hr] at hgrant
  refine congrArg (fun t => Host.Outcome.next (placeStartCheck t)) (hgrant.trans ?_)
  cases s.judgePop i <;> rfl

end

/-- Settles O17: by the pop's answer, and under EMPTY by the window's wait policy. -/
theorem parallelPopByItsAnswer : Obligations.ParallelPopByItsAnswer := by
  intro s p w offset i slot hg hb hr q t
  have hexec := exec_pop hg hb hr
  have hsame : t.judgePop i = s.judgePop i := rfl
  refine ⟨fun d hj => ?_, fun hj => ?_, fun hj hw => ?_, fun hj hw => ?_⟩
  · rw [hj] at hexec
    exact hexec
  · rw [hj, popAct_of_ended (hsame.trans hj)] at hexec
    exact hexec
  · rw [hj, hw, popAct_of_empty (hsame.trans hj)] at hexec
    exact hexec
  · rw [hj, hw, popAct_of_empty (hsame.trans hj)] at hexec
    exact hexec

/-! ### What a handle word names (R20, R188) -/

theorem handleOfWord_iff {v : Word} {h : Handle} : handleOfWord v = some h ↔ v.toNat = 32 * h.gen.val + h.index.val := by
  obtain ⟨⟨g, hg⟩, ⟨k, hk⟩⟩ := h
  unfold handleOfWord
  split
  · simp only [Option.some.injEq, Handle.mk.injEq, Fin.ext_iff, Fin.val_ofNat]
    omega
  · simp only [reduceCtorEq, false_iff]
    omega

theorem current_iff {s : State} {h : Handle} : s.current h = true ↔ (s.att h.index).inUse = true ∧ (s.att h.index).gen = h.gen := by
  simp [State.current]

theorem currentIndex_iff {s : State} {v : Word} {i : Fin 32} :
    s.currentIndex v = some i ↔ (s.att i).inUse = true ∧ v.toNat = 32 * (s.att i).gen.val + i.val := by
  unfold State.currentIndex
  split
  · rename_i h hh
    have hv := handleOfWord_iff.mp hh
    rw [Option.ite_none_right_eq_some, current_iff, Option.some.injEq]
    constructor
    · rintro ⟨⟨huse, hgen⟩, rfl⟩
      exact ⟨huse, by rw [hgen, hv]⟩
    · rintro ⟨huse, hi⟩
      have hsame : some h = some ⟨(s.att i).gen, i⟩ := hh.symm.trans (handleOfWord_iff.mpr hi)
      obtain rfl := Option.some.inj hsame
      exact ⟨⟨huse, rfl⟩, rfl⟩
  · rename_i hn
    simp only [reduceCtorEq, false_iff, not_and]
    intro _ hi
    have hsome := handleOfWord_iff (h := ⟨(s.att i).gen, i⟩).mpr hi
    simp [hn] at hsome

/-- A word above 255 is no handle. -/
theorem currentIndex_of_large {s : State} {v : Word} (h : 255 < v.toNat) : s.currentIndex v = none := by
  have hn : handleOfWord v = none := if_neg (by omega)
  rw [State.currentIndex, hn]

/-! ### A failed check (R146, R147) -/

section
variable {s : State} {p : ParPort} {w : Fin 8} {acc : BusAccess} {offset : Nat} {kind : WindowKind}

/-- The reasons of R146 that come before the offset's, in their order. -/
def State.failsWith (s : State) (q : Port) (x : Window) (kind : WindowKind) (acc : BusAccess) (reason : WindowReason) : Prop :=
  (reason = .noWindow ∧ x.enabled = false) ∨
    (reason = .staleHandle ∧ x.enabled = true ∧ s.currentIndex x.handleWord = none) ∨
    (∃ i, x.enabled = true ∧ s.currentIndex x.handleWord = some i ∧
      ((reason = .notHolder ∧ (s.att i).holder ≠ .port q) ∨
        (reason = .wrongRole ∧ (s.att i).holder = .port q ∧ roleSuits (s.att i).role kind acc = false)))

theorem checkAccess_of_fails {q : Port} {reason : WindowReason} (h : s.failsWith q (s.window q w) kind acc reason) :
    checkAccess q w kind acc offset s = .error reason := by
  rcases h with ⟨rfl, hd⟩ | ⟨rfl, he, hstale⟩ | ⟨i, he, hi, ⟨rfl, hh⟩ | ⟨rfl, hh, hr⟩⟩
  · simp [checkAccess, hd]
  · simp [checkAccess, checkBinding, he, hstale]
  · simp [checkAccess, checkBinding, he, hi, hh]
  · simp [checkAccess, checkBinding, he, hi, hh, hr]

/-- The request taken leaves the window table. -/
theorem window_dataTaken (s : State) (q : Port) (w : Fin 8) : (s.dataTaken q).window q w = s.window q w := by
  unfold State.window State.dataTaken State.setDataReq
  rw [State.port_setPort_same]
  rfl

/-- The grant of an access that fails a check: the record and the fill word, on the state with the request taken (R147). -/
theorem grantWhen_of_fails {reason : WindowReason} (hg : s.accessGranted p.toPort w acc offset) (hk : (s.window p.toPort w).kind = kind)
    (h : s.failsWith p.toPort (s.window p.toPort w) kind acc reason) :
    grantWhen (.data p.toPort) (accessPending p.toPort kind (storesWord acc)) s =
      answerFill p acc (postWindowFault p.toPort w reason (s.dataTaken p.toPort)) := by
  have hj : judgeAccess p.toPort w kind acc offset s = .fault reason := by
    rw [judgeAccess, checkAccess_of_fails h]
  rw [grantWhen_parallel hg hk, hj]
  rfl

theorem storesWord_of_write (h : acc ≠ .read) : storesWord acc = true := by
  cases acc with
  | read => exact absurd rfl h
  | write d => rfl

/-- The four commands of a window access are its grant, by kind and direction. -/
theorem exec_access {q : Port} {c : Instr} (hc : s.calm)
    (h : (c = .pop q ∧ acc = .read ∧ kind = .stream) ∨ (c = .push q ∧ acc ≠ .read ∧ kind = .stream) ∨
      (c = .pageWindowRead q ∧ acc = .read ∧ kind = .page) ∨ (c = .pageWindowWrite q ∧ acc ≠ .read ∧ kind = .page)) :
    exec c s = .next (placeStartCheck (grantWhen (.data q) (accessPending q kind (storesWord acc)) s)) := by
  rcases h with ⟨rfl, rfl, rfl⟩ | ⟨rfl, ha, rfl⟩ | ⟨rfl, rfl, rfl⟩ | ⟨rfl, ha, rfl⟩
  · exact act_of_calm _ hc
  · rw [storesWord_of_write ha]
    exact act_of_calm _ hc
  · exact act_of_calm _ hc
  · rw [storesWord_of_write ha]
    exact act_of_calm _ hc

end

/-- Settles O21: the checks in their order by `checkAccess_of_fails`, the handle words by `handleOfWord_iff`. -/
theorem parallelWindowFaultReachesNoRing : Obligations.ParallelWindowFaultReachesNoRing := by
  refine ⟨fun s p w acc offset c reason hg => ?_, fun s v i => ⟨currentIndex_iff, currentIndex_of_large⟩, fun s h => current_iff,
    fun v h => handleOfWord_iff, rfl, rfl, rfl, rfl⟩
  intro x hc hfails
  rw [exec_access hg.1 hc, grantWhen_of_fails hg rfl hfails, postWindowFault, window_dataTaken]
  rfl

end Sys2Proof.Machine
end

