-- ==== Sys2Proof/Proofs/HandleCommands.lean ====
section
/-! PROOF. Two commands on a handle that the port holds: DETACH (O36) and SET_THRESHOLD (O38), each done or refused by its checks. -/

namespace Sys2Proof.Machine

/-! ### The handle (R96) -/

section
variable {s : State} {p : Port}

theorem exec_detach (h : s.commandGranted p codeDetach) : exec (.detach p) s =
    .next (placeStartCheck (finishCommand p (runDetach p (s.port p).cmd.argCopy (s.commandTaken p)))) := act_of_granted h

theorem exec_setThreshold (h : s.commandGranted p codeSetThreshold) : exec (.setThreshold p) s =
    .next (placeStartCheck (finishCommand p (runSetThreshold p (s.port p).cmd.argCopy (s.commandTaken p)))) := act_of_granted h

theorem ownHandle_of_held {v : Word} {i : Fin 32} (hi : s.currentIndex v = some i) (hh : (s.att i).holder = .port p) :
    s.ownHandle p v = some i := by
  rw [State.ownHandle, hi]
  exact if_pos hh

/-- A stale handle, or one that the port does not hold. -/
theorem ownHandle_none {v : Word} (h : s.currentIndex v = none ∨ ∃ i, s.currentIndex v = some i ∧ (s.att i).holder ≠ .port p) :
    s.ownHandle p v = none := by
  rcases h with hn | ⟨i, hi, hh⟩
  · rw [State.ownHandle, hn]
  · rw [State.ownHandle, hi]
    exact if_neg hh

theorem flagOfWord_iff {w : Word} {b : Bool} : flagOfWord w = some b ↔ w.toNat = if b = true then 1 else 0 := by
  unfold flagOfWord
  split
  · rename_i h
    subst h
    cases b <;> simp
  · rename_i h0
    split
    · rename_i h1
      subst h1
      cases b <;> simp
    · rename_i h1
      have hne : w.toNat ≠ 0 ∧ w.toNat ≠ 1 := ⟨fun h => h0 (BitVec.eq_of_toNat_eq h), fun h => h1 (BitVec.eq_of_toNat_eq h)⟩
      cases b
      · simpa using hne.1
      · simpa using hne.2

theorem word_flag (b : Bool) : word (flag b) = if b = true then 1 else 0 := by cases b <;> rfl

/-! ### DETACH (R104, R105) -/

variable {x : Args}

/-- A flag word above 1 is refused (R96). -/
theorem runDetach_badArg (h : 1 < x.w2.toNat) : runDetach p x s = failWith .badArg s := by
  have hn : flagOfWord x.w2 = none := by
    rw [Option.eq_none_iff_forall_ne_some]
    intro b hb
    rw [flagOfWord_iff] at hb
    split at hb <;> omega
  rw [runDetach, hn]

theorem runDetach_badHandle (h : x.w2.toNat ≤ 1) (hn : s.ownHandle p x.w1 = none) : runDetach p x s = failWith .badHandle s := by
  obtain ⟨b, hb⟩ : ∃ b, flagOfWord x.w2 = some b := by
    rcases Nat.le_one_iff_eq_zero_or_eq_one.mp h with h0 | h1
    · exact ⟨false, flagOfWord_iff.mpr h0⟩
    · exact ⟨true, flagOfWord_iff.mpr h1⟩
  simp only [runDetach, hb, hn]

/-- With its checks passed DETACH detaches, and answers the ring and whether it was freed (R105). -/
theorem runDetach_ok {b : Bool} {i : Fin 32} {t : State} (hb : flagOfWord x.w2 = some b) (hi : s.ownHandle p x.w1 = some i)
    (ht : detachVoluntary b i s = t) :
    runDetach p x s =
      ⟨t, .ok, ⟨word (s.att i).ring.val, if (t.ring (s.att i).ring).state = .free then 1 else 0, 0, 0⟩, some (s.att i).ring,
        some (s.handleAt i)⟩ := by
  subst ht
  simp only [runDetach, hb, hi, word_flag, beq_iff_eq]
  rfl

theorem detachVoluntary_reader {i : Fin 32} {slot : Fin 4} (h : (s.att i).role = .reader slot) (b : Bool) :
    detachVoluntary b i s = detachReader i s := by
  rw [detachVoluntary, h]

theorem detachVoluntary_producer {i : Fin 32} (h : (s.att i).role = .producer) (b : Bool) :
    detachVoluntary b i s = if b = true then sealBy .sealedByProducer i s else detachProducerOpen i s := by
  rw [detachVoluntary, h]

end

/-! ### A ring without attachments (R15, R62) -/

/-- A ring has no attachment when its producer field and its three slots are empty (R1). -/
theorem attachmentCount_eq_zero_iff (g : Ring) :
    g.attachmentCount = 0 ↔ g.producer = none ∧ g.slots.one = none ∧ g.slots.two = none ∧ g.slots.three = none := by
  rw [Ring.attachmentCount_eq_zero]
  constructor
  · exact fun h => ⟨h .producer, h (.reader 1), h (.reader 2), h (.reader 3)⟩
  · rintro ⟨h0, h1, h2, h3⟩ role
    by_cases hr : role.seated
    · rcases Role.cases_seated hr with rfl | rfl | rfl | rfl <;> assumption
    · rw [not_not.mp hr]
      rfl

theorem freeIfEmpty_of_attached {s : State} {r : Fin 16} (h : ¬((s.ring r).state ≠ .free ∧ (s.ring r).attachmentCount = 0)) :
    freeIfEmpty r s = s := if_neg h

/-- Settles O36: `runDetach` by its checks, the two detaches as they are defined, the freeing by the attachments left. -/
theorem detachReleasesTheAttachment : Obligations.DetachReleasesTheAttachment := by
  refine ⟨fun s p i flagWord hg => ?_, fun s p hg => ?_, fun w b => flagOfWord_iff, fun s i => ⟨rfl, rfl⟩, fun s r => ?_⟩
  · intro x r h s1 hflag hi hh answers
    have done : ∀ {t}, detachVoluntary flagWord i s1 = t → answers t := fun ht =>
      (exec_detach hg).trans (by
        rw [runDetach_ok hflag (ownHandle_of_held (s := s.commandTaken p) hi hh) ht]
        rfl)
    refine ⟨fun slot hr => done (detachVoluntary_reader (s := s1) hr flagWord), fun hr hf => done ?_, fun hr hf => done ?_⟩
    · rw [detachVoluntary_producer (s := s1) hr, hf]
      rfl
    · rw [detachVoluntary_producer (s := s1) hr, hf]
      rfl
  · intro x refused
    have refuse : ∀ {c}, runDetach p x (s.commandTaken p) = failWith c (s.commandTaken p) → refused c := fun hc =>
      (exec_detach hg).trans (by
        rw [show (s.port p).cmd.argCopy = x from rfl, hc]
        rfl)
    exact ⟨fun h => refuse (runDetach_badArg h), fun h hbad =>
      refuse (runDetach_badHandle h (ownHandle_none (s := s.commandTaken p) hbad))⟩
  · intro g last
    have hlast : last ↔ g.state ≠ .free ∧ g.attachmentCount = 0 := and_congr_right fun _ => (attachmentCount_eq_zero_iff g).symm
    exact ⟨fun h => freeIfEmpty_freed (hlast.mp h).1 (hlast.mp h).2, fun h => freeIfEmpty_of_attached (mt hlast.mpr h)⟩

/-! ### SET_THRESHOLD (R38, R107) -/

/-- The level of an attachment, by its role (R38, R39). -/
theorem level_eq (s : State) (i : Fin 32) :
    s.level i = if (s.att i).role = .producer then s.space (s.att i).ring else (s.att i).fill := by
  unfold State.level
  cases (s.att i).role <;> simp

/-- A record about an attachment that a port holds goes to the port (R181). -/
theorem tell_of_held {s : State} {x : Attachment} {p : Port} (h : x.holder = .port p) (i : Fin 32) (k : EventKind) (d : Word)
    (u : State) : s.tell x i k d u = post p k (some x.ring) (some ⟨x.gen, i⟩) d u := by
  rw [State.tell, h]
  rfl

section
variable {s : State} {p : Port} {x : Args}

/-- With its checks passed SET_THRESHOLD sets the threshold, judges it against the level at once, and answers the level (R107). -/
theorem runSetThreshold_ok {i : Fin 32} (hw : x.w2.toNat ≤ 32768) (hi : s.ownHandle p x.w1 = some i)
    (hh : (s.att i).holder = .port p) :
    let t := s.setAtt i { s.att i with threshold := x.w2.toNat }
    runSetThreshold p x s =
      if 0 < x.w2.toNat ∧ x.w2.toNat ≤ s.level i then
        ⟨post p (readyKind (s.att i).role) (some (s.att i).ring) (some (s.handleAt i)) (word (s.level i)) t, .ok,
          ⟨word (s.level i), 1, 0, 0⟩, some (s.att i).ring, some (s.handleAt i)⟩
      else ⟨t, .ok, ⟨word (s.level i), 0, 0, 0⟩, some (s.att i).ring, some (s.handleAt i)⟩ := by
  intro t
  have hcross : postCrossing i 0 (s.level i) t = if 0 < x.w2.toNat ∧ x.w2.toNat ≤ s.level i then
      post p (readyKind (s.att i).role) (some (s.att i).ring) (some (s.handleAt i)) (word (s.level i)) t else t := by
    rw [postCrossing_eq, State.att_setAtt_same]
    exact if_congr Iff.rfl (tell_of_held (by exact hh) _ _ _ _) rfl
  have hopen : runSetThreshold p x s =
      answerOk ⟨word (s.level i), word (flag (crosses x.w2.toNat 0 (s.level i))), 0, 0⟩ (some (s.att i).ring) (some (s.handleAt i))
        (postCrossing i 0 (s.level i) t) := by
    rw [runSetThreshold, if_pos hw, hi]
  rw [hopen, hcross, word_flag]
  simp only [crosses_iff]
  by_cases h : 0 < x.w2.toNat ∧ x.w2.toNat ≤ s.level i
  · simp only [if_pos h]
    rfl
  · simp only [if_neg h]
    rfl

end

/-- Settles O38: `runSetThreshold` by its checks, and the new threshold judged from level 0. -/
theorem setThresholdComparesAtOnce : Obligations.SetThresholdComparesAtOnce := by
  refine ⟨fun s p i hg => ?_, fun s p hg => ?_⟩
  · intro x level t hw hi hh
    have hrun := runSetThreshold_ok (s := s.commandTaken p) (x := x) hw (ownHandle_of_held (s := s.commandTaken p) hi hh) hh
    have hlevel : (s.commandTaken p).level i = level := level_eq s i
    rw [hlevel, readyKind_eq] at hrun
    rw [exec_setThreshold hg, show (s.port p).cmd.argCopy = x from rfl, hrun]
    rfl
  · intro x refused
    have refuse : ∀ {c}, runSetThreshold p x (s.commandTaken p) = failWith c (s.commandTaken p) → refused c := fun hc =>
      (exec_setThreshold hg).trans (by
        rw [show (s.port p).cmd.argCopy = x from rfl, hc]
        rfl)
    refine ⟨fun h => refuse (if_neg (Nat.not_le.mpr h)), fun h hbad => refuse ?_⟩
    rw [runSetThreshold, if_pos h, ownHandle_none (s := s.commandTaken p) hbad]

end Sys2Proof.Machine
end

