-- ==== Sys2Proof/Proofs/BlockOrder.lean ====
section
/-! PROOF. The order of a REVERSED_BLOCK reader's words within a block (O52): the binary digits of `reverseBits`, and from them its range,
its inverse and its fixed points. -/

namespace Sys2Proof.Machine

/-! ### The digits of rev_b (R46) -/

theorem reverseBits_succ (b p : Nat) : reverseBits (b + 1) p = 2 ^ b * (p % 2) + reverseBits b (p / 2) :=
  congrArg (· + _) (Nat.mul_comm _ _)

theorem reverseBits_lt (b : Nat) : ∀ p, reverseBits b p < 2 ^ b := by
  induction b with
  | zero => exact fun _ => Nat.one_pos
  | succ b ih =>
    intro p
    have htop : p % 2 ≤ 1 := Nat.lt_succ_iff.mp (Nat.mod_lt p Nat.two_pos)
    calc reverseBits (b + 1) p = 2 ^ b * (p % 2) + reverseBits b (p / 2) := reverseBits_succ b p
      _ < 2 ^ b * 1 + 2 ^ b := Nat.add_lt_add_of_le_of_lt (Nat.mul_le_mul_left _ htop) (ih (p / 2))
      _ = 2 ^ (b + 1) := by rw [Nat.mul_one, Nat.pow_succ, Nat.mul_two]

/-- Digit j of rev_b(p) is digit b-1-j of p: the top digit is bit 0 of p, those below are the reversal of the rest. -/
theorem testBit_reverseBits {b j : Nat} (hj : j < b) (p : Nat) : (reverseBits b p).testBit j = p.testBit (b - 1 - j) := by
  induction b generalizing p with
  | zero => omega
  | succ b ih =>
    rw [reverseBits_succ, Nat.testBit_two_pow_mul_add _ (reverseBits_lt b _)]
    split
    case isTrue hlow =>
      rw [ih hlow, Nat.testBit_div_two]
      congr 1
      omega
    case isFalse htop =>
      obtain rfl : j = b := by omega
      simp [Nat.testBit_zero]

/-- Two numbers below B are equal when their b digits are. -/
theorem eq_of_digits {b m n : Nat} (hm : m < 2 ^ b) (hn : n < 2 ^ b) (h : ∀ j, j < b → m.testBit j = n.testBit j) : m = n :=
  Nat.eq_of_testBit_eq fun j => by
    by_cases hj : j < b
    · exact h j hj
    · have hle : 2 ^ b ≤ 2 ^ j := Nat.pow_le_pow_right Nat.two_pos (Nat.le_of_not_lt hj)
      rw [Nat.testBit_lt_two_pow (hm.trans_le hle), Nat.testBit_lt_two_pow (hn.trans_le hle)]

/-! ### Each word once, the first and the last in their places (R46) -/

theorem reverseBits_reverseBits {b p : Nat} (hp : p < 2 ^ b) : reverseBits b (reverseBits b p) = p :=
  eq_of_digits (reverseBits_lt b _) hp fun j hj => by
    rw [testBit_reverseBits hj, testBit_reverseBits (by omega)]
    congr 1
    omega

/-- A number below B whose b digits are all alike is its own reversal. -/
theorem reverseBits_of_constant {b p : Nat} (hp : p < 2 ^ b) (d : Bool) (h : ∀ j, j < b → p.testBit j = d) : reverseBits b p = p :=
  eq_of_digits (reverseBits_lt b p) hp fun j hj => by
    rw [testBit_reverseBits hj, h j hj, h (b - 1 - j) (by omega)]

theorem reverseBits_first (b : Nat) : reverseBits b 0 = 0 :=
  reverseBits_of_constant (Nat.two_pow_pos b) false fun j _ => Nat.zero_testBit j

theorem reverseBits_last (b : Nat) : reverseBits b (2 ^ b - 1) = 2 ^ b - 1 :=
  reverseBits_of_constant (Nat.sub_lt (Nat.two_pow_pos b) Nat.one_pos) true fun j hj => by
    rw [Nat.testBit_two_pow_sub_one, decide_eq_true hj]

/-! ### The word a pop is answered with -/

theorem Attachment.popIndex_reversed {x : Attachment} (h : x.order = .reversedBlock) (g : Ring) :
    x.popIndex g = g.readIndex x.fill + reverseBits x.blockExp x.progress := by
  rw [Attachment.popIndex, h]

/-- Settles O52: the pop by `judgePop_of_takes`, the order by the digits of rev_b; the rule's table is computed. -/
theorem reversalDeliversEachWordOnce : Obligations.ReversalDeliversEachWordOnce := by
  refine ⟨fun s i ho hready => ?_, fun b p hp => ⟨reverseBits_lt b p, reverseBits_reverseBits hp, fun j hj => ?_,
    reverseBits_first b, reverseBits_last b⟩, by decide, by decide, by decide, by decide, by decide⟩
  · rw [judgePop_of_takes s i (.inr ⟨ho, hready⟩), Attachment.popIndex_reversed ho]
  · rw [testBit_reverseBits (by omega)]
    congr 1
    omega

end Sys2Proof.Machine
end

