-- ==== Sys2Proof/Proofs/PortActs.lean ====
section
/-! PROOF. What the port units do of their own reaches the port units and the list of waiting accesses, and nothing behind them: one
equation for each of their operations. -/

namespace Sys2Proof.Machine

/-- The state without its port units and the list of waiting accesses: the queue of commands, the tables, the memory, the arbiter, the
move engine, the clocks. -/
def State.inner (s : State) : State :=
  { s with waiting := noWaiting, ports := State.reset.ports, par := State.reset.par, ser := State.reset.ser }

section
variable (s : State)

/-! ### Writes of a port unit -/

@[simp] theorem inner_setPort (p : Port) (x : PortUnit) : (s.setPort p x).inner = s.inner := rfl
@[simp] theorem inner_setPar (p : ParPort) (x : ParallelUnit) : (s.setPar p x).inner = s.inner := rfl
@[simp] theorem inner_setSer (p : SerPort) (x : SerialUnit) : (s.setSer p x).inner = s.inner := rfl
@[simp] theorem inner_setWaiting (p : ParPort) (x : Option WaitingAccess) : (s.setWaiting p x).inner = s.inner := rfl
@[simp] theorem inner_setDataOut (p : Port) (w : Word) : (s.setDataOut p w).inner = s.inner := rfl
@[simp] theorem inner_setDataReq (p : Port) (q : Option DataRequest) : (s.setDataReq p q).inner = s.inner := rfl

@[simp] theorem inner_post (p : Port) (k : EventKind) (r : Option (Fin 16)) (h : Option Handle) (d : Word) :
    (post p k r h d s).inner = s.inner := rfl

@[simp] theorem inner_answerCycle (p : ParPort) (acc : BusAccess) (w : Word) : (answerCycle p acc w s).inner = s.inner := by
  cases acc <;> rfl

@[simp] theorem inner_answerFill (p : ParPort) (acc : BusAccess) : (answerFill p acc s).inner = s.inner :=
  inner_answerCycle _ _ _ _

/-! ### A granted access, answered (R156, R170 to R174) -/

@[simp] theorem inner_placeWaiting (p : ParPort) (w : Fin 8) (i : Fin 32) (acc : BusAccess) :
    (placeWaiting p w i acc s).inner = s.inner := rfl

@[simp] theorem inner_finishParallel (p : ParPort) (w : Fin 8) (acc : BusAccess) (policy : WaitPolicy) (a : AccessAnswer) :
    (finishParallel p w acc policy a s).inner = s.inner := by
  cases a with
  | empty i | blocked i => cases policy <;> simp [finishParallel]
  | fault | word | ended | stored | exhausted => simp [finishParallel, postWindowFault]

@[simp] theorem inner_endIfReleased (p : SerPort) : (endIfReleased p s).inner = s.inner := by
  unfold endIfReleased
  split <;> rfl

@[simp] theorem inner_finishSerial (p : SerPort) (acc : BusAccess) (a : AccessAnswer) :
    (finishSerial p acc a s).inner = s.inner := by
  cases a <;> cases acc <;> rfl

@[simp] theorem inner_grantCheck (p : SerPort) : (grantCheck p s).inner = s.inner := by
  unfold grantCheck
  dsimp only
  rw [inner_endIfReleased]
  split <;> rfl

/-! ### Commands and withdrawals (R82, R88, R91) -/

@[simp] theorem inner_finishCommand (p : Port) (x : CommandAnswer) : (finishCommand p x).inner = x.after.inner := rfl

@[simp] theorem inner_resetPrivate (p : Port) (asCommand : Bool) : (resetPrivate p asCommand s).inner = s.inner := by
  cases p <;> cases asCommand <;> rfl

@[simp] theorem inner_ariseWithdrawal (p : Port) (asCommand byReset : Bool) :
    (ariseWithdrawal p asCommand byReset s).inner = s.inner := by
  cases p <;> rfl

@[simp] theorem inner_submit (p : Port) (w : Word) : (submit p w s).inner = s.inner := by
  unfold submit
  dsimp only
  split
  · split
    · exact inner_ariseWithdrawal s p true false
    · rfl
  · rfl
  · split <;> rfl

/-! ### The control page (R188) -/

@[simp] theorem inner_controlReadAct (p : Port) (offset : Nat) : (controlReadAct p offset s).inner = s.inner := by
  unfold controlReadAct
  split <;> rfl

@[simp] theorem inner_writeStallLimit (p : Port) (v : Word) : (writeStallLimit p v s).inner = s.inner := by
  unfold writeStallLimit
  split
  · split <;> rfl
  · rfl

@[simp] theorem inner_controlWriteAct (p : Port) (offset : Nat) (v : Word) : (controlWriteAct p offset v s).inner = s.inner := by
  unfold controlWriteAct
  dsimp only
  split
  · rfl
  · split
    · rfl
    · split
      case h_2 => exact inner_writeStallLimit s p v
      case h_6 => exact inner_submit s p v
      all_goals rfl

/-! ### The bus of a parallel port (R155, R161) -/

@[simp] theorem inner_startCycle (p : ParPort) (acc : BusAccess) (addr : BitVec 12) : (startCycle p acc addr s).inner = s.inner := by
  unfold startCycle
  split
  · cases acc <;> simp [controlCycle]
  · simp [unmappedCycle]
  · unfold windowCycle
    dsimp only
    split <;> simp

@[simp] theorem inner_releaseStrobe (p : ParPort) : (releaseStrobe p s).inner = s.inner := by
  unfold releaseStrobe
  dsimp only
  split
  case h_5 =>
    unfold abandonWaiting
    split <;> rfl
  all_goals rfl

/-! ### The frames of a serial port (R167 to R176) -/

@[simp] theorem inner_beginFrame (p : SerPort) : (beginFrame p s).inner = s.inner := by
  unfold beginFrame
  dsimp only
  split <;> rfl

@[simp] theorem inner_headerCalls (p : SerPort) (op : SerialOp) : (headerCalls p op s).inner = s.inner := by
  have hcheck : (placeCheck p s).inner = s.inner := by
    unfold placeCheck
    split <;> rfl
  cases op with
  | statusOnly | controlRead | controlWrite => rfl
  | streamRead | streamWrite | pageRead | pageWrite => exact hcheck
  | withdraw => exact inner_ariseWithdrawal s p.toPort false false

@[simp] theorem inner_clockHeader (p : SerPort) (op : SerialOp) (w : Fin 8) (count : BitVec 10) :
    (clockHeader p op w count s).inner = s.inner := by
  rw [clockHeader_eq]
  split <;> simp

@[simp] theorem inner_takeAddress (p : SerPort) (address : Word) : (takeAddress p address s).inner = s.inner := by
  unfold takeAddress
  dsimp only
  split
  · rfl
  · split <;> rfl

@[simp] theorem inner_beyondWord (p : SerPort) : (beyondWord p s).inner = s.inner := rfl

@[simp] theorem inner_beginCounted (p : SerPort) : (beginCounted p s).inner = s.inner := by
  have hread : ∀ offset, (beginRead p offset s).inner = s.inner := fun offset => by
    unfold beginRead
    dsimp only
    split <;> rfl
  unfold beginCounted
  dsimp only
  split <;> simp [hread, beginControlRead, beginWrite]

@[simp] theorem inner_completeCounted (p : SerPort) (w : Word) : (completeCounted p w s).inner = s.inner := by
  have hwrite : ∀ offset, (completeWrite p w offset s).inner = s.inner := fun offset => by
    unfold completeWrite
    dsimp only
    split <;> rfl
  unfold completeCounted
  dsimp only
  split <;> simp [hwrite, completeRead, completeControlWrite]

@[simp] theorem inner_dataWord (p : SerPort) (moment : DataBit) : (dataWord p moment s).inner = s.inner := by
  cases moment with
  | first =>
    simp only [dataWord, beginWord]
    split
    · rfl
    · split
      · split <;> simp
      · rfl
  | last w =>
    simp only [dataWord, completeWord]
    split <;> simp

@[simp] theorem inner_beginBeyond (p : SerPort) : (beginBeyond p s).inner = s.inner := by
  unfold beginBeyond
  dsimp only
  split
  · rfl
  · split <;> simp

@[simp] theorem inner_releaseSelect (p : SerPort) : (releaseSelect p s).inner = s.inner := by
  unfold releaseSelect
  dsimp only
  split
  · rfl
  · exact inner_endIfReleased _ p

theorem inner_clocked (p : SerPort) {f : State → State} (hf : ∀ t, (f t).inner = t.inner) : (clocked p f s).inner = s.inner := by
  unfold clocked
  split
  · exact hf s
  · rfl

end

end Sys2Proof.Machine
end

