-- ==== Sys2Proof/Proofs/GrantedActs.lean ====
section
/-! PROOF. What a grant makes of the queue, the arbiter and the sample memory: the commands' and accesses' chains of primitive steps, and
round them the writes of the move engine and of the ports. -/

namespace Sys2Proof.Machine

section
variable {m : May} {s t u : State}

/-! ### What a grant keeps -/

/-- What every act makes of the queue of commands and of the sample memory: the queue stays, the memory stays in its canonical form,
and stays as it was where the act may not store. -/
structure Ran (m : May) (s t : State) : Prop where
  pending : t.pending = s.pending
  wf : s.mem.wf = true → t.mem.wf = true
  mem : m.store = true ∨ t.mem = s.mem

/-- The same of what the grant of a request makes, which leaves the rotation pointer alone besides. -/
structure Kept (m : May) (s t : State) : Prop extends Ran m s t where
  arb : t.arb = s.arb

theorem Ran.trans (h : Ran m s t) (k : Ran m t u) : Ran m s u where
  pending := k.pending.trans h.pending
  wf := fun w => k.wf (h.wf w)
  mem := h.mem.elim .inl fun a => k.mem.elim .inl fun b => .inr (b.trans a)

theorem Kept.trans (h : Kept m s t) (k : Kept m t u) : Kept m s u := ⟨h.toRan.trans k.toRan, k.arb.trans h.arb⟩

/-- Writes of neither queue, pointer nor memory. -/
theorem Kept.of_fields (hp : t.pending = s.pending) (ha : t.arb = s.arb) (hm : t.mem = s.mem) : Kept m s t :=
  ⟨⟨hp, fun h => hm ▸ h, .inr hm⟩, ha⟩

theorem Kept.refl (m : May) (s : State) : Kept m s s := .of_fields rfl rfl rfl

theorem Kept.of_inner (h : t.inner = s.inner) : Kept m s t :=
  .of_fields (congrArg State.pending h :) (congrArg State.arb h :) (congrArg State.mem h :)

theorem RingSteps.kept (h : RingSteps m s t) : Kept m s t := ⟨⟨h.keeps.pending, h.keeps.wf, h.keeps.mem⟩, h.keeps.arb⟩

/-! ### The chains of the ring and attachment commands (06) -/

section
variable (ha : m.attach = true) (hf : m.free = true) (q : Quietly m s) (p : Port) (x : Args)
include q

include ha in
theorem steps_runCreateRing : RingSteps m s (runCreateRing p x s).after := by
  unfold runCreateRing
  split
  · exact .refl s
  split
  · exact .refl s
  split
  · exact .refl s
  split
  · exact .refl s
  · exact RingSteps.next ((RingSteps.pages s _).trans (RingSteps.ring _ _ _)) q (steps_makeAttachment ha _ _ _ (openRing _ _ _ _ _ s))

include ha in
theorem steps_runAttach : RingSteps m s (runAttach p x s).after := by
  unfold runAttach
  split
  · exact .refl s
  split
  case isFalse => exact .refl s
  split
  · exact .refl s
  split
  · exact .refl s
  split
  · exact .refl s
  · exact steps_makeAttachment ha _ _ _ s q

include hf in
theorem steps_detachVoluntary (sealFlag : Bool) (i : Fin 32) : RingSteps m s (detachVoluntary sealFlag i s) := by
  unfold detachVoluntary
  split
  · exact steps_detachReader hf i s q
  · split
    · exact steps_sealBy hf .sealedByProducer i s q
    · exact steps_detachProducerOpen hf i s q

include hf in
theorem steps_runDetach : RingSteps m s (runDetach p x s).after := by
  unfold runDetach
  split
  · exact .refl s
  split
  · exact .refl s
  · exact steps_detachVoluntary hf q _ _

theorem steps_runRenew : RingSteps m s (runRenew p x s).after := by
  unfold runRenew
  split
  · exact .refl s
  · exact steps_foldl _ (fun t i _ => steps_renewLease i t) _ s q
  split
  · exact .refl s
  · exact steps_renewLease _ s

omit q in
theorem steps_runSetThreshold : RingSteps m s (runSetThreshold p x s).after := by
  unfold runSetThreshold
  split
  case isFalse => exact .refl s
  split
  · exact .refl s
  · rename_i i hi
    exact (steps_setAtt_same i { s.att i with threshold := x.w2.toNat } s ⟨rfl, rfl, rfl, rfl⟩).trans (steps_postCrossing _ _ _ _)

omit q in
theorem kept_runQueryRing : Kept m s (runQueryRing x s).after := by
  unfold runQueryRing
  split <;> exact .refl m s

omit q in
theorem kept_runQueryAttach : Kept m s (runQueryAttach p x s).after := by
  unfold runQueryAttach
  split <;> exact .refl m s

/-! ### The chains of the move commands (07) -/

include ha in
theorem steps_runLoadMove : RingSteps m s (runLoadMove p x s).after := by
  unfold runLoadMove
  split
  · exact .refl s
  rename_i e he
  split
  · exact .refl s
  split
  · exact .refl s
  split
  · exact .refl s
  split
  · exact .refl s
  split
  case h_2 => exact .refl s
  rename_i src dst _ _
  split
  · exact .refl s
  split
  · exact .refl s
  rename_i i _
  have h1 := steps_makeAttachment ha i src ⟨.reader .hold .natural 0 .fromNew, .entry e, 0, 0⟩ s q
  dsimp only
  split
  · exact .refl s
  · exact (h1.next q (steps_makeAttachment ha _ _ _ _)).trans (RingSteps.move _ e _)

include hf in
theorem steps_runStartMove : RingSteps m s (runStartMove p x s).after := by
  unfold runStartMove
  split
  · exact .refl s
  rename_i e he
  dsimp only
  split
  · exact .refl s
  split
  · exact (RingSteps.move s e _).next q (steps_sourceEndedCheck hf e _)
  · exact .refl s

omit q in
theorem steps_runFireMove : RingSteps m s (runFireMove p x s).after := by
  unfold runFireMove
  split
  · exact .refl s
  dsimp only
  split
  · exact .refl s
  split
  · exact steps_deliverTrigger _ s
  · exact .refl s

omit q in
theorem steps_runStopMove : RingSteps m s (runStopMove p x s).after := by
  unfold runStopMove
  split
  · exact .refl s
  rename_i e he
  dsimp only
  split
  · exact .refl s
  split
  · exact .refl s
  split
  case h_2 => exact steps_haltEntry e .stopped s
  case h_3 => exact steps_haltEntry e .stopped s
  case h_4 => exact RingSteps.move s e _
  all_goals exact .refl s

include hf in
theorem steps_runUnloadMove : RingSteps m s (runUnloadMove p x s).after := by
  unfold runUnloadMove
  split
  · exact .refl s
  dsimp only
  split
  · exact .refl s
  split
  · exact .refl s
  · exact steps_unloadVoluntary hf _ s q

omit q in
theorem kept_runSetPacer : Kept m s (runSetPacer x s).after := by
  unfold runSetPacer
  split
  · exact .refl m s
  split
  · exact .of_fields rfl rfl rfl
  · exact .refl m s

/-! ### The grant of a command requester (R69, R90) -/

omit q in
theorem kept_ite {c : Prop} [Decidable c] {a b : CommandAnswer} (hthen : Kept m s a.after) (helse : Kept m s b.after) :
    Kept m s (if c then a else b).after := by
  split
  · exact hthen
  · exact helse

include ha hf

theorem kept_runCommand (w : Word) : Kept m s (runCommand p w x s).after :=
  kept_ite (steps_runCreateRing ha q p x).kept <|
  kept_ite (steps_runAttach ha q p x).kept <|
  kept_ite (steps_runDetach hf q p x).kept <|
  kept_ite (steps_runRenew q p x).kept <|
  kept_ite (steps_runSetThreshold p x).kept <|
  kept_ite (kept_runQueryRing x) <|
  kept_ite (kept_runQueryAttach p x) <|
  kept_ite (steps_runLoadMove ha q p x).kept <|
  kept_ite (steps_runStartMove hf q p x).kept <|
  kept_ite (steps_runFireMove p x).kept <|
  kept_ite (steps_runStopMove p x).kept <|
  kept_ite (steps_runUnloadMove hf q p x).kept <|
  kept_ite (kept_runSetPacer x) <|
  .refl m s

theorem kept_grantCommand : Kept m s (grantCommand p s) := by
  unfold grantCommand
  split
  · exact .refl m s
  · exact (kept_runCommand ha hf q p _ _).trans (.of_inner (inner_finishCommand _ _))
  · have hatts := steps_withdrawAttachments hf p s q
    exact (hatts.next q (steps_withdrawEntries hf p _)).kept.trans (.of_inner (inner_resetPrivate _ _ _))

end

/-! ### The grant of the move engine (R126 to R128, R132) -/

theorem kept_startFrame (e : Fin 16) (s : State) : Kept m s (startFrame e s) := by
  unfold startFrame
  dsimp only
  split <;> exact .of_fields rfl rfl rfl

theorem kept_examineEntry (acc : State × Bool) (e : Fin 16) : Kept m acc.1 (examineEntry acc e).1 := by
  unfold examineEntry
  dsimp only
  split
  · exact .refl m _
  split
  · exact .refl m _
  split
  · exact kept_startFrame e _
  · exact .of_fields rfl rfl rfl

theorem kept_startCheckAct (s : State) : Kept m s (startCheckAct s) :=
  List.foldlRecOn (motive := fun acc : State × Bool => Kept m s acc.1) _ _ (.of_fields rfl rfl rfl)
    fun acc hacc e _ => hacc.trans (kept_examineEntry acc e)

section
variable (hf : m.free = true) (q : Quietly m s)
include hf q

theorem kept_frameEnd (e : Fin 16) : Kept m s (frameEnd e s) := by
  unfold frameEnd
  split
  · exact .of_fields rfl rfl rfl
  dsimp only
  split
  · refine Kept.trans ?_ (steps_postMove e .moveDone _ _).kept
    exact .of_fields rfl rfl rfl
  split
  · refine Kept.trans ?_ (steps_haltEntry e .stopped _).kept
    exact .of_fields rfl rfl rfl
  · refine Kept.trans ?_ (steps_sourceEndedCheck hf e _ ?_).kept
    · exact .of_fields rfl rfl rfl
    · exact q

theorem kept_advanceFrame (e : Fin 16) (position : Nat) : Kept m s (advanceFrame e position s) := by
  unfold advanceFrame
  split
  · exact kept_frameEnd hf q e
  · exact .of_fields rfl rfl rfl

theorem kept_framePopAct : Kept m s (framePopAct s) := by
  unfold framePopAct
  split
  · exact .refl m s
  split
  · exact .refl m s
  rename_i h _
  have hpop := steps_popAct h.index s q
  split
  case h_1 =>
    dsimp only
    split
    · exact hpop.kept.trans (.of_fields rfl rfl rfl)
    · exact hpop.kept.trans (kept_advanceFrame hf (hpop.quietly q) _ _)
  all_goals exact .refl m s

omit q in
theorem kept_framePushAct (hm : m.store = true) : Kept m s (framePushAct s) := by
  unfold framePushAct
  split
  · exact .refl m s
  split
  · exact (steps_pushAct hm _ true _ s).kept.trans (kept_advanceFrame hf (.inl hm) _ _)
  · exact .refl m s

theorem kept_unloadAct : Kept m s (unloadAct s) := by
  unfold unloadAct
  split
  · exact .of_fields rfl rfl rfl
  · exact (steps_unloadWithdrawn hf _ _ s q).kept.trans (.of_fields rfl rfl rfl)

/-- A grant of the move engine; only the push of a frame stores. -/
theorem kept_grantMove (h : m.store = true ∨ s.moveReq ≠ some .framePush) : Kept m s (grantMove s) := by
  unfold grantMove
  split
  · exact .refl m s
  · exact kept_startCheckAct s
  · exact kept_framePopAct hf q
  · rename_i hreq
    exact kept_framePushAct hf (h.resolve_right (not_not.mpr hreq))
  · exact kept_unloadAct hf q

end

/-! ### The grant of a data requester (R148 to R151, R156) -/

/-- What a granted access does on the rings is a chain; only a write stores. -/
theorem steps_applyAccess {acc : BusAccess} (h : m.store = true ∨ storesWord acc = false) (kind : WindowKind) (offset : Nat)
    (answer : AccessAnswer) (s : State) (q : Quietly m s) : RingSteps m s (applyAccess kind acc offset answer s) := by
  cases answer with
  | fault | blocked | exhausted => exact .refl s
  | empty i | ended i => exact steps_popAct i s q
  | word i w =>
    cases kind with
    | stream => exact steps_popAct i s q
    | page => exact steps_renewLease i s
  | stored i =>
    cases acc with
    | read => cases kind <;> exact .refl s
    | write d =>
      have hm : m.store = true := h.resolve_right (by simp [storesWord])
      cases kind with
      | stream => exact steps_pushAct hm _ false d s
      | page => exact (RingSteps.store s _ offset d hm).trans (steps_renewLease i _)

section
variable (q : Quietly m s) {acc : BusAccess} (h : m.store = true ∨ storesWord acc = false)
include q h

theorem kept_grantParallel (p : ParPort) (w : Fin 8) (offset : Nat) : Kept m s (grantParallel p w acc offset s) :=
  (Kept.of_inner (inner_setDataReq s p.toPort none)).trans
    ((steps_applyAccess h _ offset _ (s.setDataReq p.toPort none) q).kept.trans (.of_inner (inner_finishParallel _ _ _ _ _ _)))

theorem kept_grantSerial (p : SerPort) (kind : WindowKind) (w : Fin 8) (offset : Nat) :
    Kept m s (grantSerial p kind w acc offset s) :=
  (Kept.of_inner (inner_setDataReq s p.toPort none)).trans
    ((steps_applyAccess h kind offset _ (s.setDataReq p.toPort none) q).kept.trans
      (.of_inner ((inner_endIfReleased _ _).trans (inner_finishSerial _ _ _ _))))

end

/-- A data request that may store a word: a write. -/
def DataRequest.stores : DataRequest → Bool
  | .check => false
  | .access _ acc _ => storesWord acc

theorem kept_grantData (q : Quietly m s) {p : Port} (h : m.store = true ∨ ∀ x, (s.port p).dataReq = some x → x.stores = false) :
    Kept m s (grantData p s) := by
  unfold grantData
  split
  · exact .refl m s
  · split
    · exact .of_inner (inner_setDataReq _ _ _)
    · exact .of_inner (inner_grantCheck _ _)
  · rename_i w acc offset hreq
    have hacc : m.store = true ∨ storesWord acc = false := h.imp_right fun hx => hx _ hreq
    split
    · exact kept_grantParallel q hacc _ w offset
    · split
      · exact kept_grantSerial q hacc _ _ w offset
      · exact .of_inner (inner_setDataReq _ _ _)

/-! ### A grant (R65, R66) -/

/-- The pending request of a requester may store a word: a write of a window, or the push of a move frame. -/
def State.requestStores (s : State) : Requester → Bool
  | .data p => (s.port p).dataReq.any DataRequest.stores
  | .move => s.moveReq == some .framePush
  | .command _ => false

/-- A grant moves the rotation pointer to its requester and leaves the queue; only a request that stores reaches the memory. -/
theorem kept_grantRequest (ha : m.attach = true) (hf : m.free = true) (q : Quietly m s) {x : Requester}
    (h : m.store = true ∨ s.requestStores x = false) : Kept m (s.setArb x) (grantRequest x s) := by
  cases x with
  | data p =>
    refine kept_grantData (s := s.setArb (.data p)) q (h.imp_right fun hn y hy => ?_)
    have hy' : (s.port p).dataReq = some y := hy
    simpa [State.requestStores, hy'] using hn
  | move => exact kept_grantMove (s := s.setArb .move) hf q (h.imp_right fun hn => by simpa [State.requestStores] using hn)
  | command p => exact kept_grantCommand (s := s.setArb (.command p)) ha hf q p

end

end Sys2Proof.Machine
end

