-- ==== Sys2Proof/Proofs/QueueAndMemory.lean ====
section
/-! PROOF. What every command makes of the queue and of the sample memory (O2, O54, O60): what falls due first, then the command's own act,
then the start check. -/

namespace Sys2Proof.Machine

section
variable {m : May} {s t u : State}

theorem Ran.of_fields (hp : t.pending = s.pending) (hm : t.mem = s.mem) : Ran m s t := ⟨hp, fun h => hm ▸ h, .inr hm⟩

theorem Ran.refl (m : May) (s : State) : Ran m s s := .of_fields rfl rfl

theorem ran_placeStartCheck (s : State) : Ran m s (placeStartCheck s) := by
  rcases placeStartCheck_eq s with h | h
  · rw [h]
    exact .refl m s
  · rw [h]
    exact .of_fields rfl rfl

/-! ### What falls due (R72, R73, R138, R159) -/

/-- An operation after which the next one still finds nothing to store where the act may not. -/
structure Settled (m : May) (s t : State) : Prop extends Ran m s t where
  quiet : Quietly m s → Quietly m t

theorem Settled.trans (h : Settled m s t) (k : Settled m t u) : Settled m s u :=
  ⟨h.toRan.trans k.toRan, fun q => k.quiet (h.quiet q)⟩

theorem Settled.refl (m : May) (s : State) : Settled m s s := ⟨.refl m s, id⟩

theorem RingSteps.settled (h : RingSteps m s t) : Settled m s t := ⟨h.kept.toRan, h.quietly⟩

theorem settled_placeStartCheck (s : State) : Settled m s (placeStartCheck s) := by
  refine ⟨ran_placeStartCheck s, fun q => ?_⟩
  rcases placeStartCheck_eq s with h | h
  · rw [h]
    exact q
  · rw [h]
    exact q

theorem settled_setPacer (n : Fin 4) (x : Pacer) (s : State) : Settled m s (s.setPacer n x) := ⟨.of_fields rfl rfl, id⟩

theorem settled_takeTick (s : State) : Settled m s (takeTick s) := ⟨.of_fields rfl rfl, id⟩

section
variable (hf : m.free = true)
include hf

theorem steps_takeExpiries : ∀ (n : Nat) (s : State), Quietly m s → RingSteps m s (takeExpiries n s)
  | 0, s, _ => .refl s
  | n + 1, s, q => by
    unfold takeExpiries
    split
    · exact (steps_expireLease hf _ s q).next q (steps_takeExpiries n _)
    · exact .refl s

theorem steps_settleExpiries (s : State) (q : Quietly m s) : RingSteps m s (settleExpiries s) := steps_takeExpiries hf 32 s q

omit hf in
theorem settled_expirePacer (n : Fin 4) (s : State) (q : Quietly m s) : Settled m s (expirePacer n s) := by
  have triggers : RingSteps m s ((List.finRange 16).foldl
      (fun s e => if (s.move e).trigger = .pacer n then deliverTrigger e s else s) s) := by
    refine steps_foldl _ (fun t e _ => ?_) _ s q
    split
    · exact steps_deliverTrigger e t
    · exact .refl t
  exact triggers.settled.trans (settled_setPacer n _ _)

omit hf in
theorem steps_settleStall (p : ParPort) (s : State) : RingSteps m s (settleStall p s) := by
  unfold settleStall
  split
  · exact steps_expireStall p s
  · exact .refl s

theorem settled_settleTick (s : State) (q : Quietly m s) : Settled m s (settleTick s) := by
  unfold settleTick
  split
  · exact (settled_takeTick s).trans (steps_settleExpiries hf (takeTick s) q).settled
  · exact .refl m s

omit hf in
theorem settled_settlePacers (s : State) (q : Quietly m s) : Settled m s (settlePacers s) := by
  unfold settlePacers
  refine List.foldlRecOn (motive := Settled m s) _ _ (.refl m s) fun t ht n _ => ?_
  split
  · exact ht.trans (settled_expirePacer n t (ht.quiet q))
  · exact ht

theorem settled_settle (s : State) (q : Quietly m s) : Settled m s (settle s) := by
  unfold settle
  split
  · exact .refl m s
  · have h1 := (steps_settleExpiries hf s q).settled
    have h2 := h1.trans (settled_settleTick hf _ (h1.quiet q))
    have h3 := h2.trans (settled_settlePacers _ (h2.quiet q))
    have h4 := h3.trans ((steps_settleStall .a _).trans (steps_settleStall .b _)).settled
    exact h4.trans (settled_placeStartCheck _)

end

/-! ### Acts -/

/-- A command completes, with what every act makes of the queue and the memory. -/
def Completes (m : May) (s : State) (o : Out) : Prop := ∃ t, o = .next t ∧ Ran m s t

/-- The effect of an act, on whatever state has settled. -/
def RunsQuietly (m : May) (f : State → State) : Prop := ∀ s, Quietly m s → Ran m s (f s)

theorem runsQuietly_of_inner {f : State → State} (h : ∀ s, (f s).inner = s.inner) : RunsQuietly m f :=
  fun s _ => (Kept.of_inner (h s)).toRan

section
variable (hf : m.free = true) (q : Quietly m s) {f : State → State} (h : RunsQuietly m f)
include q h

theorem completes_dueAct : Completes m s (dueAct f s) := by
  unfold dueAct
  split
  · exact ⟨s, rfl, .refl m s⟩
  · exact ⟨_, rfl, (h s q).trans (ran_placeStartCheck _)⟩

include hf

theorem completes_act : Completes m s (act f s) := by
  have hs := settled_settle hf s q
  unfold act
  split
  · exact ⟨s, rfl, .refl m s⟩
  · exact ⟨_, rfl, (hs.toRan.trans (h _ (hs.quiet q))).trans (ran_placeStartCheck _)⟩

theorem completes_pinAct {pin : State → State} (hp : ∀ s, (pin s).inner = s.inner) : Completes m s (pinAct pin f s) := by
  have hs := settled_settle hf s q
  unfold pinAct
  split
  · exact ⟨_, rfl, (Kept.of_inner (hp s)).toRan⟩
  · exact ⟨_, rfl, (hs.toRan.trans (h _ (hs.quiet q))).trans (ran_placeStartCheck _)⟩

end

/-! ### Grants, and the requests served before a word of a serial port (R65, R67) -/

section
variable (ha : m.attach = true) (hf : m.free = true)
include ha hf

theorem ran_grantRequest (q : Quietly m s) {x : Requester} (h : m.store = true ∨ s.requestStores x = false) :
    Ran m s (grantRequest x s) :=
  Ran.trans (t := s.setArb x) (.of_fields rfl rfl) (kept_grantRequest ha hf q h).toRan

/-- A command that is the grant of a request of some sort, none of which stores unless the act may. -/
theorem completes_grant (q : Quietly m s) {x : Requester} {sort : State → Bool}
    (h : m.store = true ∨ ∀ t : State, sort t = true → t.requestStores x = false) : Completes m s (act (grantWhen x sort) s) := by
  refine completes_act hf q fun t qt => ?_
  unfold grantWhen
  split
  · rename_i hg
    exact ran_grantRequest ha hf qt (h.imp_right fun hs => hs t hg.2)
  · exact .refl m t

section
variable (hm : m.store = true)
include hm

theorem ran_grantNext (s : State) : Ran m s (grantNext s) := by
  unfold grantNext
  split
  · exact (ran_grantRequest ha hf (.inl hm) (.inl hm)).trans (ran_placeStartCheck _)
  · exact .refl m s

theorem ran_serveFor (p : SerPort) : ∀ (n : Nat) (s : State), Ran m s (serveFor p n s)
  | 0, s => .refl m s
  | n + 1, s => by
    unfold serveFor
    split
    · exact (ran_grantNext ha hf hm s).trans (ran_serveFor p n _)
    · exact .refl m s

theorem ran_serve (p : SerPort) (s : State) : Ran m s (serve p s) := ran_serveFor ha hf hm p 9 s

/-- A word of a serial frame, after the port's earlier request is served. -/
theorem completes_word (p : SerPort) {f : State → State} (h : ∀ t, (f t).inner = t.inner) :
    Completes m s (act (fun t => clocked p f (serve p t)) s) :=
  completes_act hf (.inl hm) fun t _ => (ran_serve ha hf hm p t).trans (Kept.of_inner (inner_clocked _ p h)).toRan

end

/-- An access of a control page; only a serial port serves a request before it, which may store. -/
theorem completes_control (q : Quietly m s) {p : Port} {f : State → State} (hp : m.store = true ∨ (p == .a || p == .b) = true)
    (h : ∀ t, (f t).inner = t.inner) : Completes m s (act (controlAccess p f) s) := by
  refine completes_act hf q fun t _ => ?_
  have hserved : Ran m t (serveBefore p t) := by
    cases p with
    | a | b => exact .refl m t
    | c => exact ran_serve ha hf (hp.resolve_right (by decide)) .c t
    | d => exact ran_serve ha hf (hp.resolve_right (by decide)) .d t
  unfold controlAccess
  split
  · exact hserved.trans (Kept.of_inner (h _)).toRan
  · exact hserved

end

/-! ### The sorts of a request that stores nothing -/

/-- A data request that is a read stores nothing. -/
theorem requestStores_of_read {p : Port} {kind : WindowKind} (h : accessPending p kind false s = true) :
    s.requestStores (.data p) = false := by
  unfold accessPending at h
  split at h
  · simp at h
  · simp at h
  · rename_i hreq
    simp only [Bool.and_eq_true, beq_iff_eq] at h
    simp [State.requestStores, hreq, DataRequest.stores, h.2]

theorem requestStores_of_check {p : Port} (h : checkPending p s = true) : s.requestStores (.data p) = false := by
  have hreq : (s.port p).dataReq = some .check := by simpa [checkPending] using h
  simp [State.requestStores, hreq, DataRequest.stores]

theorem requestStores_of_move {x : MoveRequest} (hx : x ≠ .framePush) (h : movePending x s = true) :
    s.requestStores .move = false := by
  have hreq : s.moveReq = some x := by simpa [movePending] using h
  simpa [State.requestStores, hreq] using hx

/-! ### Every command -/

theorem ran_resetAll (hm : m.store = true) (s : State) : Ran m s (resetAll s) := ⟨rfl, fun _ => reset_mem_wf, .inl hm⟩

theorem ran_advanceTime (s : State) : Ran m s (advanceTime s) := by
  have hdivider : Ran m s (advanceDivider s) := by
    unfold advanceDivider
    split <;> exact .of_fields rfl rfl
  exact hdivider.trans (.of_fields rfl rfl)

theorem ran_answerWaiting (p : ParPort) (q : Quietly m s) : Ran m s (answerWaiting p s) := by
  unfold answerWaiting
  split
  · exact ((steps_examineWaiting _ p s q).next q (steps_reexamine _ _)).kept.toRan
  · exact .refl m s

/-- Every command completes from every state. It keeps the queue and the canonical form of the memory; and it keeps the memory as it was
where its own act stores nothing and no access waits. -/
theorem completes_exec (ha : m.attach = true) (hf : m.free = true) (q : Quietly m s) (c : Instr)
    (h : m.store = true ∨ c.storesNothing = true) : Completes m s (exec c s) := by
  have store : c.storesNothing = false → m.store = true := fun hc => h.resolve_right (by simp [hc])
  have grant : ∀ {x sort}, (∀ t : State, sort t = true → t.requestStores x = false) → Completes m s (act (grantWhen x sort) s) :=
    fun hs => completes_grant ha hf q (.inr hs)
  have command : ∀ {p sort}, Completes m s (act (grantWhen (.command p) sort) s) := grant fun _ _ => rfl
  have header : ∀ {p op w count}, Completes m s (act (clockHeader p op w count) s) :=
    completes_act hf q (runsQuietly_of_inner fun t => inner_clockHeader t _ _ _ _)
  cases c with
  | deviceReset => exact ⟨_, rfl, ran_resetAll (store rfl) s⟩
  | deviceResetRelease => exact ⟨_, rfl, .of_fields rfl rfl⟩
  | timebaseAdvance => exact completes_act hf q fun t _ => ran_advanceTime t
  | leaseTick =>
    unfold exec execLeaseTick
    refine completes_dueAct q fun t qt => ?_
    split
    · exact (steps_settleExpiries hf t qt).kept.toRan.trans (.of_fields rfl rfl)
    · exact .refl m t
  | leaseExpiry =>
    unfold exec execLeaseExpiry
    refine completes_dueAct q fun t qt => ?_
    split
    · exact (steps_expireLease hf _ t qt).kept.toRan
    · exact .refl m t
  | pacerExpiry n =>
    unfold exec execPacerExpiry
    refine completes_dueAct q fun t qt => ?_
    split
    · have hs := (steps_settleExpiries hf t qt).settled
      exact (hs.trans (settled_expirePacer n _ (hs.quiet qt))).toRan
    · exact .refl m t
  | stallTimeout p =>
    unfold exec execStallTimeout
    refine completes_dueAct q fun t qt => RingSteps.kept ?_ |>.toRan
    refine RingSteps.trans ?_ (steps_settleStall p _)
    split
    · exact steps_settleExpiries hf t qt
    · exact .refl t
  | parallelCycleStart p acc addr =>
    unfold exec execParallelCycleStart
    refine completes_pinAct hf q (runsQuietly_of_inner fun t => ?_) fun _ => rfl
    split
    · exact inner_startCycle _ p acc addr
    · rfl
  | strobeRelease p => exact completes_pinAct hf q (runsQuietly_of_inner fun t => inner_releaseStrobe t p) fun _ => rfl
  | portReset p =>
    unfold exec execPortReset
    refine completes_pinAct hf q (runsQuietly_of_inner fun t => ?_) fun _ => rfl
    split
    · rfl
    · exact inner_ariseWithdrawal _ p.toPort false true
  | portResetRelease p =>
    exact completes_pinAct hf q (pin := setResetPin p false) (f := setResetPin p false) (runsQuietly_of_inner fun _ => rfl) fun _ => rfl
  | serialFrameStart p =>
    unfold exec execSerialFrameStart
    refine completes_pinAct hf q (fun t _ => ?_) fun _ => rfl
    split
    · exact .refl m t
    · exact (ran_serve ha hf (store rfl) p t).trans (Kept.of_inner (inner_beginFrame _ p)).toRan
  | serialFrameEnd p => exact completes_pinAct hf q (runsQuietly_of_inner fun t => inner_releaseSelect t p) fun _ => rfl
  | serialAddressWord p address =>
    exact completes_act hf q (runsQuietly_of_inner fun t => inner_clocked t p fun u => inner_takeAddress u p address)
  | serialDataWord p moment => exact completes_word ha hf (store rfl) p fun t => inner_dataWord t p moment
  | beyondCountWord p => exact completes_word ha hf (store rfl) p fun t => inner_beginBeyond t p
  | waitingAccessAnswer p => exact completes_act hf q fun _ => ran_answerWaiting p
  | timebaseLowRead p => exact completes_control ha hf q h fun _ => rfl
  | eventAcknowledge p _ => exact completes_control ha hf q h fun _ => rfl
  | controlWordWrite p offset v => exact completes_control ha hf q h fun t => inner_controlWriteAct t p offset.toNat v
  | commandSubmit p w => exact completes_control ha hf q h fun t => inner_submit t p w
  | withdraw p => exact completes_control ha hf q h fun t => inner_submit t p codeWithdraw
  | push p | pageWindowWrite p => exact completes_grant ha hf q (.inl (store rfl))
  | moveFramePush => exact completes_grant ha hf q (.inl (store rfl))
  | serialWindowCheck p => exact grant fun _ => requestStores_of_check
  | pop p | pageWindowRead p => exact grant fun _ => requestStores_of_read
  | startCheck | moveFramePop | deferredUnload => exact grant fun _ => requestStores_of_move (by decide)
  | statusOnly | streamRead | streamWrite | pageRead | pageWrite | controlRead | controlWrite | withdrawFrame => exact header
  | withdrawal | badCommand | createRing | attach | detach | renew | setThreshold | queryRing | queryAttach | loadMove | startMove
  | fireMove | stopMove | unloadMove | setPacer => exact command

end

/-- What any act may do: store, make attachments, free them. -/
def May.all (store : Bool) : May := ⟨store, true, true⟩

/-- Every command completes, and keeps the queue and the canonical form of the memory. -/
theorem every_command_completes (c : Instr) (s : State) : Completes (May.all true) s (exec c s) :=
  completes_exec rfl rfl (.inl rfl) c (.inl rfl)

/-- Settles O2: every command completes from every state, by its act. -/
theorem everyCommandCompletesAndKeepsTheQueue : Obligations.EveryCommandCompletesAndKeepsTheQueue := fun c s =>
  (every_command_completes c s).imp fun _ ⟨hnext, hran⟩ => ⟨hnext, hran.pending⟩

/-- Settles O54: a step runs one command or none, and the memory is written by `Memory.write` alone. -/
theorem everyStepKeepsTheMemoryCanonical : Obligations.EveryStepKeepsTheMemoryCanonical := by
  intro s t hs ht
  unfold step at ht
  split at ht
  · obtain rfl := Host.Outcome.next.inj ht
    exact hs
  · rename_i c rest _
    obtain ⟨u, hnext, hran⟩ := every_command_completes c { s with pending := rest }
    obtain rfl := Host.Outcome.next.inj (hnext.symm.trans ht)
    exact hran.wf hs

/-- Settles O60: with no access waiting, what falls due stores nothing either. -/
theorem commandsThatStoreNothingLeaveTheMemory : Obligations.CommandsThatStoreNothingLeaveTheMemory := by
  intro c s t hc hw ht
  obtain ⟨u, hnext, hran⟩ := completes_exec (m := May.all false) rfl rfl (.inr hw) c (.inr hc)
  obtain rfl := Host.Outcome.next.inj (hnext.symm.trans ht)
  exact hran.mem.resolve_left (by decide)

end Sys2Proof.Machine
end

