-- ==== Sys2Proof/Proofs/Rotation.lean ====
section
/-! PROOF. The arbiter (O53): the requester that the rotation reaches next, what its grant makes of the pointer, the command that is that
grant, and a serial port's request granted within nine grants. -/

namespace Sys2Proof.Machine

/-! ### The cyclic order (R65) -/

/-- The nine requesters in their order. -/
def Requester.inOrder : List Requester :=
  [.data .a, .data .b, .data .c, .data .d, .move, .command .a, .command .b, .command .c, .command .d]

theorem Requester.mem_inOrder (q : Requester) : q ∈ Requester.inOrder := by
  cases q with
  | move => decide
  | data p | command p => cases p <;> decide

/-- From any requester the rotation comes to each within nine places, its own last. -/
theorem Requester.exists_iterate_next (q x : Requester) : ∃ k, k < 9 ∧ Requester.next^[k + 1] q = x := by
  have reach : ∀ q ∈ Requester.inOrder, ∀ x ∈ Requester.inOrder, ∃ k, k < 9 ∧ Requester.next^[k + 1] q = x := by decide
  exact reach q q.mem_inOrder x x.mem_inOrder

section
variable {s : State}

/-! ### The requester granted next (R64, R65) -/

theorem requests_data {p : Port} : s.requests (.data p) = true ↔ (s.port p).dataReq ≠ none := by
  simp [State.requests, Option.isSome_iff_ne_none]

theorem requests_move : s.requests .move = true ↔ s.moveReq ≠ none := by simp [State.requests, Option.isSome_iff_ne_none]

theorem requests_command {p : Port} : s.requests (.command p) = true ↔ (s.port p).cmd.inFlight ≠ .nothing := by
  simp only [State.requests, CommandUnit.requests]
  cases (s.port p).cmd.inFlight <;> simp

/-- None is found among n requesters exactly when none of them has a request pending. -/
theorem firstRequest_eq_none {n : Nat} {q : Requester} :
    s.firstRequest n q = none ↔ ∀ k, k < n → s.requests (Requester.next^[k] q) = false := by
  induction n generalizing q with
  | zero => simp [State.firstRequest]
  | succ n ih =>
    rw [State.firstRequest, Nat.forall_lt_succ_left]
    cases h : s.requests q with
    | true => simp [h]
    | false => simp [h, ih]

/-- The one found is the first that has a request pending. -/
theorem firstRequest_eq_some {n : Nat} {q x : Requester} :
    s.firstRequest n q = some x ↔ ∃ k, k < n ∧ Requester.next^[k] q = x ∧ s.requests x = true ∧
      ∀ k', k' < k → s.requests (Requester.next^[k'] q) = false := by
  induction n generalizing q with
  | zero => simp [State.firstRequest]
  | succ n ih =>
    rw [State.firstRequest]
    cases h : s.requests q with
    | true =>
      simp only [if_true, Option.some.injEq]
      constructor
      · rintro rfl
        exact ⟨0, Nat.succ_pos n, rfl, h, fun k' hk' => absurd hk' (Nat.not_lt_zero k')⟩
      · rintro ⟨k, -, rfl, -, hlow⟩
        cases k with
        | zero => rfl
        | succ k => simpa [h] using hlow 0 (Nat.succ_pos k)
    | false =>
      simp only [Bool.false_eq_true, if_false, ih]
      constructor
      · rintro ⟨k, hk, hx, hr, hlow⟩
        exact ⟨k + 1, Nat.succ_lt_succ hk, hx, hr, Nat.forall_lt_succ_left.mpr ⟨h, hlow⟩⟩
      · rintro ⟨k, hk, rfl, hr, hlow⟩
        cases k with
        | zero => simp [h] at hr
        | succ k => exact ⟨k, Nat.lt_of_succ_lt_succ hk, rfl, hr, (Nat.forall_lt_succ_left.mp hlow).2⟩

theorem nextGrant_eq_some {x : Requester} :
    s.nextGrant = some x ↔ ∃ k, k < 9 ∧ Requester.next^[k + 1] s.arb = x ∧ s.requests x = true ∧
      ∀ k', k' < k → s.requests (Requester.next^[k' + 1] s.arb) = false := firstRequest_eq_some

theorem requests_of_nextGrant {x : Requester} (h : s.nextGrant = some x) : s.requests x = true := by
  obtain ⟨-, -, -, hr, -⟩ := nextGrant_eq_some.mp h
  exact hr

/-- None is granted exactly when nothing is pending: the rotation comes to every requester. -/
theorem nextGrant_eq_none : s.nextGrant = none ↔ ∀ q, s.requests q = false := by
  refine firstRequest_eq_none.trans ⟨fun h q => ?_, fun h k _ => h _⟩
  obtain ⟨k, hk, rfl⟩ := Requester.exists_iterate_next s.arb q
  exact h k hk

/-! ### The pointer after a grant (R65; of a withdrawal, assumption 29) -/

theorem arb_grantRequest (q : Requester) (s : State) : (grantRequest q s).arb = q :=
  (kept_grantRequest (m := May.all true) rfl rfl (.inl rfl) (.inl rfl)).arb

theorem arb_placeStartCheck (s : State) : (placeStartCheck s).arb = s.arb := by
  rcases placeStartCheck_eq s with h | h
  · rw [h]
  · rw [h]
    rfl

theorem port_placeStartCheck (s : State) (p : Port) : (placeStartCheck s).port p = s.port p := by
  rcases placeStartCheck_eq s with h | h
  · rw [h]
  · rw [h]
    rfl

theorem grantWhen_of_not_next {q : Requester} {sort : State → Bool} (h : s.nextGrant ≠ some q) : grantWhen q sort s = s :=
  if_neg fun hg => h hg.1

/-! ### The command that a grant is -/

theorem act_grantWhen {q : Requester} {sort : State → Bool} (hc : s.calm) (hn : s.nextGrant = some q) (hs : sort s = true) :
    act (grantWhen q sort) s = .next (placeStartCheck (grantRequest q s)) := by
  rw [act_of_calm _ hc, grantWhen_of_next hn hs]

/-- A window access is granted by PUSH, POP, PAGE_WINDOW_READ or PAGE_WINDOW_WRITE, by its kind and its direction. -/
theorem exists_exec_access {p : Port} {w : Fin 8} {acc : BusAccess} {offset : Nat} {kind : WindowKind}
    (hg : s.accessGranted p w acc offset) (hk : s.requestKind p w = some kind) :
    ∃ c, exec c s = .next (placeStartCheck (grantRequest (.data p) s)) := by
  obtain ⟨hc, hn, hreq⟩ := hg
  have hs : accessPending p kind (storesWord acc) s = true := by simp [accessPending, hreq, hk]
  have hact := act_grantWhen hc hn hs
  cases kind with
  | stream =>
    cases acc with
    | read => exact ⟨.pop p, hact⟩
    | write d => exact ⟨.push p, hact⟩
  | page =>
    cases acc with
    | read => exact ⟨.pageWindowRead p, hact⟩
    | write d => exact ⟨.pageWindowWrite p, hact⟩

theorem exists_exec_parallel {p : ParPort} (hc : s.calm) (hn : s.nextGrant = some (.data p.toPort))
    (hcheck : (s.port p.toPort).dataReq ≠ some .check) :
    ∃ c, exec c s = .next (placeStartCheck (grantRequest (.data p.toPort) s)) := by
  cases hreq : (s.port p.toPort).dataReq with
  | none => exact absurd hreq (requests_data.mp (requests_of_nextGrant hn))
  | some x =>
    cases x with
    | check => exact absurd hreq hcheck
    | access w acc offset => exact exists_exec_access (kind := (s.window p.toPort w).kind) ⟨hc, hn, hreq⟩ (by cases p <;> rfl)

theorem exists_exec_serial {p : SerPort} (hc : s.calm) (hn : s.nextGrant = some (.data p.toPort))
    (hop : (s.port p.toPort).dataReq ≠ some .check → ∃ op x, (s.serUnit p).op = some op ∧ opKind op = some x) :
    ∃ c, exec c s = .next (placeStartCheck (grantRequest (.data p.toPort) s)) := by
  cases hreq : (s.port p.toPort).dataReq with
  | none => exact absurd hreq (requests_data.mp (requests_of_nextGrant hn))
  | some x =>
    cases x with
    | check => exact ⟨.serialWindowCheck p, act_grantWhen hc hn (by simp [checkPending, hreq])⟩
    | access w acc offset =>
      obtain ⟨op, x, hop, hx⟩ := hop (by simp [hreq])
      have hkind : s.requestKind p.toPort w = some x.1 := by
        cases p <;> simp [State.requestKind, Port.split, SerPort.toPort, hop, hx]
      exact exists_exec_access ⟨hc, hn, hreq⟩ hkind

theorem exists_exec_move (hc : s.calm) (hn : s.nextGrant = some .move) :
    ∃ c, exec c s = .next (placeStartCheck (grantRequest .move s)) := by
  cases hreq : s.moveReq with
  | none => exact absurd hreq (requests_move.mp (requests_of_nextGrant hn))
  | some x =>
    have hact := act_grantWhen (sort := movePending x) hc hn (by simp [movePending, hreq])
    cases x with
    | startCheck => exact ⟨.startCheck, hact⟩
    | framePop => exact ⟨.moveFramePop, hact⟩
    | framePush => exact ⟨.moveFramePush, hact⟩
    | unload => exact ⟨.deferredUnload, hact⟩

/-- A command word is granted by the command of its code, and by BAD_COMMAND when it has none. -/
theorem exists_exec_command {p : Port} (hc : s.calm) (hn : s.nextGrant = some (.command p))
    (hw : (s.port p).cmd.inFlight ≠ .command codeWithdraw) :
    ∃ c, exec c s = .next (placeStartCheck (grantRequest (.command p) s)) := by
  cases hreq : (s.port p).cmd.inFlight with
  | nothing => exact absurd hreq (requests_command.mp (requests_of_nextGrant hn))
  | withdrawal b => exact ⟨.withdrawal p, act_grantWhen hc hn (by simp [State.withdrawalPending, hreq])⟩
  | command w =>
    by_cases hcode : w ∈ commandCodes
    · have hact := act_grantWhen (sort := commandPending p w) hc hn (by simp [commandPending, hreq])
      simp only [commandCodes, List.mem_cons, List.not_mem_nil, or_false] at hcode
      rcases hcode with rfl | rfl | rfl | rfl | rfl | rfl | rfl | rfl | rfl | rfl | rfl | rfl | rfl | rfl
      · exact ⟨.createRing p, hact⟩
      · exact ⟨.attach p, hact⟩
      · exact ⟨.detach p, hact⟩
      · exact ⟨.renew p, hact⟩
      · exact ⟨.setThreshold p, hact⟩
      · exact ⟨.queryRing p, hact⟩
      · exact ⟨.queryAttach p, hact⟩
      · exact ⟨.loadMove p, hact⟩
      · exact ⟨.startMove p, hact⟩
      · exact ⟨.fireMove p, hact⟩
      · exact ⟨.stopMove p, hact⟩
      · exact ⟨.unloadMove p, hact⟩
      · exact ⟨.setPacer p, hact⟩
      · exact absurd hreq hw
    · exact ⟨.badCommand p, act_grantWhen hc hn (by simp [badCommandPending, hreq, hcode])⟩

/-! ### A serial port's request is granted in its turn (R67) -/

/-- No chain of the ring controller touches a data request. -/
theorem RingSteps.dataReq {m : May} {t : State} (h : RingSteps m s t) (p : Port) : (t.port p).dataReq = (s.port p).dataReq := by
  obtain ⟨-, -, -, -, -, -, hreq, -⟩ := h.keeps.port p
  exact hreq

theorem port_endIfReleased (p : SerPort) (s : State) (q : Port) : (endIfReleased p s).port q = s.port q := by
  unfold endIfReleased
  split <;> rfl

theorem dataReq_finishSerial (p : SerPort) (acc : BusAccess) (a : AccessAnswer) (s : State) :
    ((finishSerial p acc a s).port p.toPort).dataReq = (s.port p.toPort).dataReq := by
  cases p <;> cases a <;> cases acc <;> rfl

theorem dataReq_setDataReq (s : State) (p : Port) (x : Option DataRequest) : ((s.setDataReq p x).port p).dataReq = x := by
  rw [State.setDataReq, State.port_setPort_same]

/-- The grant of a serial port's data request takes the request. -/
theorem dataReq_grantData (p : SerPort) (s : State) : ((grantData p.toPort s).port p.toPort).dataReq = none := by
  have hcheck : ((grantCheck p s).port p.toPort).dataReq = none := by
    unfold grantCheck
    dsimp only
    rw [port_endIfReleased]
    split <;> exact dataReq_setDataReq s p.toPort none
  have haccess : ∀ kind w acc offset, ((grantSerial p kind w acc offset s).port p.toPort).dataReq = none := by
    intro kind w acc offset
    have hsteps := steps_applyAccess (m := May.all true) (acc := acc) (.inl rfl) kind offset
      (judgeAccess p.toPort w kind acc offset s) (s.setDataReq p.toPort none) (.inl rfl)
    unfold grantSerial
    dsimp only
    rw [port_endIfReleased, dataReq_finishSerial, hsteps.dataReq]
    exact dataReq_setDataReq s p.toPort none
  have hsplit : p.toPort.split = .inr p := by cases p <;> rfl
  unfold grantData
  rw [hsplit]
  split
  · assumption
  · exact hcheck
  · dsimp only
    split
    · exact haccess _ _ _ _
    · exact dataReq_setDataReq s p.toPort none

/-- With the port's request pending, a grant takes it, or brings the pointer nearer to the port. -/
theorem grantNext_nearer {p : SerPort} {k : Nat} (hk : k < 9) (hat : Requester.next^[k + 1] s.arb = .data p.toPort)
    (hreq : s.requests (.data p.toPort) = true) :
    ((grantNext s).port p.toPort).dataReq = none ∨
      ∃ j, j < k ∧ Requester.next^[j + 1] (grantNext s).arb = .data p.toPort := by
  cases hn : s.nextGrant with
  | none => simp [nextGrant_eq_none.mp hn] at hreq
  | some x =>
    obtain ⟨j, -, hx, -, hlow⟩ := nextGrant_eq_some.mp hn
    have hnext : grantNext s = placeStartCheck (grantRequest x s) := by rw [grantNext, hn]
    have hjk : j ≤ k := Nat.le_of_not_lt fun h => by
      rw [← hat, hlow k h] at hreq
      exact absurd hreq (by decide)
    rcases Nat.eq_or_lt_of_le hjk with rfl | hlt
    · refine .inl ?_
      rw [hnext, port_placeStartCheck, ← hx, hat]
      exact dataReq_grantData p _
    · refine .inr ⟨k - j - 1, by omega, ?_⟩
      rw [hnext, arb_placeStartCheck, arb_grantRequest, ← hx, ← Function.iterate_add_apply, ← hat]
      congr 1
      omega

/-- So many grants as the port stands behind the pointer take its request. -/
theorem dataReq_serveFor {p : SerPort} {n k : Nat} (hkn : k < n) (hk : k < 9)
    (hat : Requester.next^[k + 1] s.arb = .data p.toPort) : ((serveFor p n s).port p.toPort).dataReq = none := by
  induction n generalizing s k with
  | zero => exact absurd hkn (Nat.not_lt_zero k)
  | succ n ih =>
    unfold serveFor
    split
    · rename_i hreq
      rcases grantNext_nearer hk hat hreq with hnone | ⟨j, hj, hat'⟩
      · cases n <;> simp [serveFor, hnone]
      · exact ih (by omega) (by omega) hat'
    · rename_i hreq
      simpa using hreq

theorem dataReq_serve (p : SerPort) (s : State) : ((serve p s).port p.toPort).dataReq = none := by
  obtain ⟨k, hk, hat⟩ := Requester.exists_iterate_next s.arb (.data p.toPort)
  exact dataReq_serveFor hk hk hat

end

/-- A port is a parallel or a serial one. -/
theorem Port.cases_toPort (p : Port) : (∃ q : ParPort, p = q.toPort) ∨ ∃ q : SerPort, p = q.toPort := by
  cases p with
  | a => exact .inl ⟨.a, rfl⟩
  | b => exact .inl ⟨.b, rfl⟩
  | c => exact .inr ⟨.c, rfl⟩
  | d => exact .inr ⟨.d, rfl⟩

/-- Settles O53: the rotation by `nextGrant_eq_some`, the grants by the sort of each request, R67 by the pointer coming nearer. -/
theorem arbiterGrantsInTheRotation : Obligations.ArbiterGrantsInTheRotation := by
  refine ⟨⟨rfl, rfl, rfl, rfl, rfl, rfl, rfl, rfl, rfl⟩, fun s p => ⟨requests_data, requests_move, requests_command⟩,
    fun s q hc hn hpar hser hcmd => ?_, fun s p => dataReq_serve p s, fun s => ⟨fun k hk hr hlow => ?_, nextGrant_eq_none,
    fun q sort => ⟨fun hn hs => ?_, grantWhen_of_not_next⟩⟩⟩
  · cases q with
    | move => exact exists_exec_move hc hn
    | command p => exact exists_exec_command hc hn (hcmd p rfl)
    | data p =>
      rcases Port.cases_toPort p with ⟨x, rfl⟩ | ⟨x, rfl⟩
      · exact exists_exec_parallel hc hn (hpar x rfl)
      · exact exists_exec_serial hc hn (hser x rfl)
  · exact nextGrant_eq_some.mpr ⟨k, hk, rfl, hr, hlow⟩
  · rw [grantWhen_of_next hn hs, arb_grantRequest]

end Sys2Proof.Machine
end

