-- ==== Sys2Proof/Proofs/FirstFit.lean ====
section
/-! PROOF. First fit (O51), and the state after reset (O57). -/

namespace Sys2Proof.Machine

/-! ### The run that first fit finds (R60) -/

/-- A run of pages is found free exactly when all its pages exist and are free. -/
theorem runIsFree_iff {m : Vector (Option (Fin 16)) 128} {n q : Nat} :
    runIsFree m n q = true ↔ q + n ≤ 128 ∧ ∀ k : Fin 128, q ≤ k.val → k.val < q + n → tableGet m k = none := by
  simp only [runIsFree, Bool.and_eq_true, decide_eq_true_eq, List.all_eq_true, List.mem_range, beq_iff_eq]
  refine and_congr_right fun hle => ⟨fun hall k hk hk' => ?_, fun hfree j hj => ?_⟩
  · have hkn := hall (k.val - q) (by omega)
    rw [show q + (k.val - q) = k.val by omega, Vector.getElem?_eq_getElem k.isLt] at hkn
    exact Option.some.inj hkn
  · have hlt : q + j < 128 := by omega
    rw [Vector.getElem?_eq_getElem hlt]
    exact congrArg some (hfree ⟨q + j, hlt⟩ (Nat.le_add_right q j) (Nat.add_lt_add_left hj q))

/-- Settles O51: first fit is the first page of `List.finRange 128` whose run is free. -/
theorem firstFitTakesTheLowestRun : Obligations.FirstFitTakesTheLowestRun := by
  refine ⟨fun m n => ?_, fun owner q n m k => tableGet_markPages owner q n m k⟩
  intro fits
  have hfits : ∀ q : Fin 128, runIsFree m n q.val = true ↔ fits q := fun q => runIsFree_iff
  refine ⟨fun q => ?_, ?_⟩
  · rw [firstFit, find?_finRange]
    exact and_congr (hfits q) (forall₂_congr fun q' _ => Bool.eq_false_iff.trans (not_congr (hfits q')))
  · rw [firstFit, find?_finRange_none]
    exact forall_congr' fun q => Bool.eq_false_iff.trans (not_congr (hfits q))

/-! ### The state after reset -/

theorem reset_legal : State.reset.legal = true := by
  have hport : PortUnit.cleared.legal = true := by decide
  have hpar : ParallelUnit.cleared.legal = true := by decide
  have hpacer : Pacer.cleared.legal = true := by decide
  simp [State.legal, reset_port, reset_parUnit, reset_pacer, hport, hpar, hpacer]

/-- Settles O57: the agreement of the tables is that of a device reset, which leaves the tables of the state after reset. -/
theorem resetMeetsTheInvariants : Obligations.ResetMeetsTheInvariants :=
  ⟨reset_mem_wf, reset_legal, tablesAgree_iff.mpr ((agree_resetAll State.reset).of_tables rfl)⟩

end Sys2Proof.Machine
end

