-- ==== Sys2Proof/Proofs/WaitingAccesses.lean ====
section
/-! PROOF. The waiting accesses (O22): what an examination does with one, and that a re-examination leaves none that it could take. -/

namespace Sys2Proof.Machine

section
variable {s : State} {r : Fin 16} {p : ParPort} {x : WaitingAccess}

/-! ### One access examined (R158) -/

/-- An access of a ring is judged when its attachment is current, is on that ring, and is not due to expire (assumption 26). -/
def State.judges (s : State) (r : Fin 16) (x : WaitingAccess) : Prop :=
  s.current x.handle = true ∧ (s.att x.handle.index).ring = r ∧ (s.att x.handle.index).expired = false

theorem Attachment.expired_eq_false {x : Attachment} :
    x.expired = false ↔ ¬(x.inUse = true ∧ 0 < x.leasePeriod ∧ x.leaseRemaining = 0) := by
  simp [Attachment.expired]

theorem examineWaiting_of_absent (h : s.waitingAt p = none) : examineWaiting r p s = s := by
  rw [examineWaiting, h]

theorem judges_iff : (s.current x.handle && (s.att x.handle.index).ring == r && !(s.att x.handle.index).expired) = true ↔
    s.judges r x := by
  simp [State.judges, and_assoc]

theorem examineWaiting_of_not_judged (h : s.waitingAt p = some x) (hj : ¬s.judges r x) : examineWaiting r p s = s := by
  simp only [examineWaiting, h, mt judges_iff.mp hj, Bool.false_eq_true, if_false]

section
variable (h : s.waitingAt p = some x) (hj : s.judges r x)
include h hj

theorem examineWaiting_data {d : Word} (ha : x.acc = .read) (hp : s.judgePop x.handle.index = .data d) :
    examineWaiting r p s = answerCycle p .read d (takePop x.handle.index (s.setWaiting p none)) := by
  simp only [examineWaiting, h, judges_iff.mpr hj, if_true, ha, hp]

theorem examineWaiting_ended (ha : x.acc = .read) (hp : s.judgePop x.handle.index = .ended) :
    examineWaiting r p s = answerFill p .read (reportEnd x.handle.index (s.setWaiting p none)) := by
  have htake : takePop x.handle.index (s.setWaiting p none) = reportEnd x.handle.index (s.setWaiting p none) := by
    rw [takePop, show (s.setWaiting p none).judgePop x.handle.index = .ended from hp]
  simp only [examineWaiting, h, judges_iff.mpr hj, if_true, ha, hp, htake]

theorem examineWaiting_empty (ha : x.acc = .read) (hp : s.judgePop x.handle.index = .empty) : examineWaiting r p s = s := by
  simp only [examineWaiting, h, judges_iff.mpr hj, if_true, ha, hp]

theorem examineWaiting_stored {d : Word} (ha : x.acc = .write d) (hp : s.judgePush r = .stored) :
    examineWaiting r p s = answerCycle p (.write d) 0 (storePush r false d (s.setWaiting p none)) := by
  simp only [examineWaiting, h, judges_iff.mpr hj, if_true, ha, hp]

theorem examineWaiting_not_stored {d : Word} (ha : x.acc = .write d) (hp : s.judgePush r ≠ .stored) :
    examineWaiting r p s = s := by
  simp only [examineWaiting, h, judges_iff.mpr hj, if_true, ha]
  cases hs : s.judgePush r with
  | stored => exact absurd hs hp
  | blocked | exhausted => rfl

end

/-! ### The list after an examination -/

theorem waiting_answerCycle (p : ParPort) (acc : BusAccess) (w : Word) (s : State) : (answerCycle p acc w s).waiting = s.waiting := by
  cases acc <;> rfl

theorem waiting_takePop (i : Fin 32) (s : State) : (takePop i s).waiting = s.waiting := by
  obtain ⟨-, -, -, hout⟩ := takePop_records s i
  exact congrArg Outside.waiting hout

theorem waiting_storePush (r : Fin 16) (ofFrame : Bool) (w : Word) (s : State) :
    (storePush r ofFrame w s).waiting = s.waiting :=
  congrArg Outside.waiting (outside_storePush s r ofFrame w)

/-- An examination leaves all as it was, or takes its access out of the list, and no other (R158). -/
theorem examineWaiting_cases (r : Fin 16) (p : ParPort) (s : State) :
    examineWaiting r p s = s ∨ (examineWaiting r p s).waiting = (s.setWaiting p none).waiting := by
  cases h : s.waitingAt p with
  | none => exact .inl (examineWaiting_of_absent h)
  | some x =>
    by_cases hj : s.judges r x
    · cases ha : x.acc with
      | read =>
        cases hp : s.judgePop x.handle.index with
        | data d =>
          rw [examineWaiting_data h hj ha hp]
          exact .inr ((waiting_answerCycle _ _ _ _).trans (waiting_takePop _ _))
        | ended =>
          rw [examineWaiting_ended h hj ha hp]
          exact .inr ((waiting_answerCycle _ _ _ _).trans (congrArg Outside.waiting (outside_reportEnd _ _)))
        | empty => exact .inl (examineWaiting_empty h hj ha hp)
      | write d =>
        by_cases hp : s.judgePush r = .stored
        · rw [examineWaiting_stored h hj ha hp]
          exact .inr ((waiting_answerCycle _ _ _ _).trans (waiting_storePush _ _ _ _))
        · exact .inl (examineWaiting_not_stored h hj ha hp)
    · exact .inl (examineWaiting_of_not_judged h hj)

/-- After an examination that took its access, the port has none; the other port has its own as before. -/
theorem waitingAt_of_taken {t : State} (h : t.waiting = (s.setWaiting p none).waiting) (q : ParPort) :
    t.waitingAt q = if q = p then none else s.waitingAt q := by
  rw [State.waitingAt, h]
  exact State.waitingAt_setWaiting s p q none

/-- An examination never puts an access into the list. -/
theorem examineWaiting_absent (r : Fin 16) (p : ParPort) {q : ParPort} (h : s.waitingAt q = none) :
    (examineWaiting r p s).waitingAt q = none := by
  rcases examineWaiting_cases r p s with hs | ht
  · rw [hs, h]
  · rw [waitingAt_of_taken ht, h, ite_self]

/-- An examination of the same access again finds nothing more to take. -/
theorem examineWaiting_again (r : Fin 16) (p : ParPort) (s : State) :
    examineWaiting r p (examineWaiting r p s) = examineWaiting r p s := by
  rcases examineWaiting_cases r p s with hs | ht
  · rw [hs, hs]
  · exact examineWaiting_of_absent ((waitingAt_of_taken ht p).trans (if_pos rfl))

/-! ### The re-examination (R66, R158) -/

/-- After the re-examination neither port's access is satisfiable: port B's was taken or found to stay, and a third examination, which
port B's taking calls for, leaves nothing of port A. -/
theorem examineWaiting_reexamine (r : Fin 16) (p : ParPort) (s : State) :
    examineWaiting r p (reexamine r s) = reexamine r s := by
  unfold reexamine
  generalize hA : examineWaiting r .a s = s1
  cases p with
  | a => exact examineWaiting_again r .a _
  | b =>
    rcases examineWaiting_cases r .b s1 with hB | hB
    · have hA1 : examineWaiting r .a s1 = s1 := hA ▸ examineWaiting_again r .a s
      rw [hB, hA1, hB]
    · exact examineWaiting_of_absent (examineWaiting_absent r .a ((waitingAt_of_taken hB .b).trans (if_pos rfl)))

/-! ### The command (R158) -/

/-- With nothing due no lease has run out. -/
theorem expired_of_calm (h : s.calm) (i : Fin 32) : (s.att i).expired = false := by
  have hq := h.2
  simp only [State.quiet, Bool.and_eq_true, Option.isNone_iff_eq_none] at hq
  obtain ⟨⟨⟨⟨-, hdue⟩, -⟩, -⟩, -⟩ := hq
  exact find?_finRange_none.mp hdue i

theorem exec_waitingAccessAnswer (hc : s.calm) (h : s.waitingAt p = some x) :
    exec (.waitingAccessAnswer p) s = .next (placeStartCheck
      (reexamine (s.att x.handle.index).ring (examineWaiting (s.att x.handle.index).ring p s))) := by
  have hact : exec (.waitingAccessAnswer p) s = .next (placeStartCheck (answerWaiting p s)) := act_of_calm _ hc
  rw [hact, answerWaiting, h]

end

/-! ### The waiting accesses of an attachment that goes (R79, R160) -/

/-- The waiting access of one port, when it is of an attachment that goes, leaves the list without data. -/
def endWaitingAt (h : Handle) (u : State) (p : ParPort) : State :=
  match u.waitingAt p with
  | some x => if x.handle = h then answerFill p x.acc (u.setWaiting p none) else u
  | none => u

theorem endWaitingOf_eq (h : Handle) (s : State) : endWaitingOf h s = [ParPort.a, .b].foldl (endWaitingAt h) s := by
  have one : ∀ (p : ParPort) (u : State), (match u.waitingAt p with
      | some x => if x.handle = h then endWaiting p u else u
      | none => u) = endWaitingAt h u p := by
    intro p u
    unfold endWaitingAt endWaiting
    cases u.waitingAt p <;> rfl
  exact (one .b _).trans (congrArg (endWaitingAt h · .b) (one .a s))

/-- Settles O22: one examination by what it judges, the re-examination by what each examination leaves in the list. -/
theorem waitingAccessIsAnsweredWhenSatisfiable : Obligations.WaitingAccessIsAnsweredWhenSatisfiable := by
  refine ⟨fun s p x hc hw hcur => ?_, fun s r p => ⟨examineWaiting_of_absent, fun x hw => ?_⟩,
    fun s r => ⟨rfl, fun p => examineWaiting_reexamine r p s⟩, fun s r ofFrame d i => ⟨rfl, fun v hv => ?_, fun hv => ?_, fun hv => ?_⟩,
    fun s h => endWaitingOf_eq h s⟩
  · intro i r
    have hj : s.judges r x := ⟨hcur, rfl, expired_of_calm hc i⟩
    refine ⟨fun d ha hp => ?_, fun d ha hp => ?_⟩
    · rw [exec_waitingAccessAnswer hc hw, examineWaiting_data hw hj ha hp]
    · rw [exec_waitingAccessAnswer hc hw, examineWaiting_stored hw hj ha hp]
  · intro i taken judged
    have hj : judged ↔ s.judges r x := and_congr_right fun _ => and_congr_right fun _ => Attachment.expired_eq_false.symm
    exact ⟨fun hn => examineWaiting_of_not_judged hw (mt hj.mpr hn),
      fun hy ha => ⟨fun d => examineWaiting_data hw (hj.mp hy) ha, examineWaiting_ended hw (hj.mp hy) ha,
        examineWaiting_empty hw (hj.mp hy) ha⟩,
      fun d hy ha => ⟨examineWaiting_stored hw (hj.mp hy) ha, examineWaiting_not_stored hw (hj.mp hy) ha⟩⟩
  · rw [popAct, hv]
  · rw [popAct, hv]
    dsimp only
    rw [takePop, hv]
  · rw [popAct, hv]

end Sys2Proof.Machine
end

