-- ==== Sys2Proof/Proofs/HostActs.lean ====
section
/-! PROOF. What the host of a port does, and what its port unit does of its own, reaches no other port's unit: one equation for each of
their operations. -/

namespace Sys2Proof.Machine

/-- The four port units with that of one port blanked: what the acts of its host leave as it was. -/
def State.others (s : State) (p : Port) : Four PortUnit := s.ports.put p PortUnit.cleared

theorem port_of_others {s t : State} {p q : Port} (h : t.others p = s.others p) (hq : q ≠ p) : t.port q = s.port q := by
  have hget := congrArg (Four.get · q) h
  simpa only [State.others, State.port, Four.get_put_ne _ _ _ _ hq] using hget

section
variable (s : State)

/-! ### Writes of a port unit -/

@[simp] theorem others_setPort (p : Port) (x : PortUnit) : (s.setPort p x).others p = s.others p := by
  simp [State.others, State.setPort]

@[simp] theorem others_setPar (p : ParPort) (x : ParallelUnit) (q : Port) : (s.setPar p x).others q = s.others q := rfl
@[simp] theorem others_setSer (p : SerPort) (x : SerialUnit) (q : Port) : (s.setSer p x).others q = s.others q := rfl
@[simp] theorem others_setWaiting (p : ParPort) (x : Option WaitingAccess) (q : Port) : (s.setWaiting p x).others q = s.others q := rfl

@[simp] theorem others_setDataOut (p : Port) (w : Word) : (s.setDataOut p w).others p = s.others p := others_setPort _ _ _

@[simp] theorem others_setDataReq (p : Port) (q : Option DataRequest) : (s.setDataReq p q).others p = s.others p :=
  others_setPort _ _ _

@[simp] theorem others_post (p : Port) (k : EventKind) (r : Option (Fin 16)) (h : Option Handle) (d : Word) :
    (post p k r h d s).others p = s.others p := others_setPort _ _ _

@[simp] theorem others_answerFill (p : ParPort) (acc : BusAccess) : (answerFill p acc s).others p.toPort = s.others p.toPort := by
  cases acc <;> simp [answerFill, answerCycle]

/-! ### Commands and withdrawals (R82, R88, R91) -/

@[simp] theorem others_resetPrivate (p : Port) (asCommand : Bool) : (resetPrivate p asCommand s).others p = s.others p := by
  unfold resetPrivate
  cases asCommand <;> cases p <;> simp [Port.split]

@[simp] theorem others_ariseWithdrawal (p : Port) (asCommand byReset : Bool) :
    (ariseWithdrawal p asCommand byReset s).others p = s.others p := by
  unfold ariseWithdrawal
  cases p <;> simp [Port.split]

@[simp] theorem others_submit (p : Port) (w : Word) : (submit p w s).others p = s.others p := by
  unfold submit refuseSubmit
  dsimp only
  split
  · split <;> simp
  · simp
  · split <;> simp

/-! ### The control page (R188) -/

@[simp] theorem others_latchHigh (p : Port) : (latchHigh p s).others p = s.others p := others_setPort _ _ _

@[simp] theorem others_acknowledge (p : Port) : (acknowledge p s).others p = s.others p := others_setPort _ _ _

@[simp] theorem others_controlReadAct (p : Port) (offset : Nat) : (controlReadAct p offset s).others p = s.others p := by
  unfold controlReadAct
  split
  · exact others_latchHigh s p
  · rfl

@[simp] theorem others_writeStallLimit (p : Port) (v : Word) (q : Port) : (writeStallLimit p v s).others q = s.others q := by
  unfold writeStallLimit
  split
  · split <;> rfl
  · rfl

@[simp] theorem others_controlWriteAct (p : Port) (offset : Nat) (v : Word) : (controlWriteAct p offset v s).others p = s.others p := by
  unfold controlWriteAct
  dsimp only
  split
  · simp [writeWindow]
  split
  · simp [writeArgument]
  split <;> simp

/-! ### The bus of a parallel port (R155, R161) -/

@[simp] theorem others_startCycle (p : ParPort) (acc : BusAccess) (addr : BitVec 12) :
    (startCycle p acc addr s).others p.toPort = s.others p.toPort := by
  unfold startCycle
  split
  · cases acc <;> simp [controlCycle]
  · simp [unmappedCycle]
  · unfold windowCycle
    dsimp only
    split <;> simp

@[simp] theorem others_releaseStrobe (p : ParPort) : (releaseStrobe p s).others p.toPort = s.others p.toPort := by
  have hwait : ∀ t : State, (abandonWaiting p t).others p.toPort = t.others p.toPort := fun t => by
    unfold abandonWaiting
    split <;> simp
  unfold releaseStrobe
  dsimp only
  split <;> simp [setStrobe, hwait]

/-! ### The frames of a serial port (R167 to R176) -/

@[simp] theorem others_beginFrame (p : SerPort) : (beginFrame p s).others p.toPort = s.others p.toPort := by
  unfold beginFrame
  dsimp only
  split <;> simp [setSelect]

@[simp] theorem others_headerCalls (p : SerPort) (op : SerialOp) : (headerCalls p op s).others p.toPort = s.others p.toPort := by
  have hcheck : (placeCheck p s).others p.toPort = s.others p.toPort := by
    unfold placeCheck
    split <;> simp
  cases op with
  | statusOnly | controlRead | controlWrite => rfl
  | streamRead | streamWrite | pageRead | pageWrite => exact hcheck
  | withdraw => exact others_ariseWithdrawal s p.toPort false false

@[simp] theorem others_clockHeader (p : SerPort) (op : SerialOp) (w : Fin 8) (count : BitVec 10) :
    (clockHeader p op w count s).others p.toPort = s.others p.toPort := by
  rw [clockHeader_eq]
  split <;> simp

@[simp] theorem others_takeAddress (p : SerPort) (address : Word) : (takeAddress p address s).others p.toPort = s.others p.toPort := by
  unfold takeAddress
  dsimp only
  split
  · simp
  · split <;> simp

@[simp] theorem others_beyondWord (p : SerPort) : (beyondWord p s).others p.toPort = s.others p.toPort := others_setDataOut _ _ _

@[simp] theorem others_beginCounted (p : SerPort) : (beginCounted p s).others p.toPort = s.others p.toPort := by
  have hread : ∀ offset, (beginRead p offset s).others p.toPort = s.others p.toPort := fun offset => by
    unfold beginRead
    dsimp only
    split <;> simp
  unfold beginCounted
  dsimp only
  split <;> simp [hread, beginControlRead, beginWrite]

@[simp] theorem others_completeCounted (p : SerPort) (w : Word) : (completeCounted p w s).others p.toPort = s.others p.toPort := by
  have hwrite : ∀ offset, (completeWrite p w offset s).others p.toPort = s.others p.toPort := fun offset => by
    unfold completeWrite
    dsimp only
    split <;> simp
  unfold completeCounted
  dsimp only
  split <;> simp [hwrite, completeRead, completeControlWrite]

@[simp] theorem others_dataWord (p : SerPort) (moment : DataBit) : (dataWord p moment s).others p.toPort = s.others p.toPort := by
  cases moment with
  | first =>
    simp only [dataWord, beginWord]
    split
    · simp
    split
    · split <;> simp
    · rfl
  | last w =>
    simp only [dataWord, completeWord]
    split <;> simp

@[simp] theorem others_beginBeyond (p : SerPort) : (beginBeyond p s).others p.toPort = s.others p.toPort := by
  unfold beginBeyond
  dsimp only
  split
  · simp
  · split <;> simp

/-- The end of a frame writes no port unit but the serial one. -/
@[simp] theorem others_releaseSelect (p : SerPort) (q : Port) : (releaseSelect p s).others q = s.others q := by
  unfold releaseSelect endIfReleased
  dsimp only
  split
  · rfl
  · split <;> rfl

theorem others_clocked (p : SerPort) {f : State → State} (hf : ∀ t, (f t).others p.toPort = t.others p.toPort) :
    (clocked p f s).others p.toPort = s.others p.toPort := by
  unfold clocked
  split
  · exact hf s
  · rfl

end

end Sys2Proof.Machine
end

