-- ==== Sys2Proof/Proofs/PortSettings.lean ====
section
/-! PROOF. The settings of a port (O59): no chain of the ring controller, no grant and no due event reaches them, but the port's own
withdrawal; what its host does reaches them, and no other host's acts. -/

namespace Sys2Proof.Machine

/-- What a port's own host and its own withdrawal keep to themselves: the settings, and whether a withdrawal waits at the command
requester. -/
def State.hostSide (s : State) (q : Port) : (Vector Window 8 × Word × Word × Word × Word × Args) × Bool :=
  ((s.port q).settings, s.withdrawalPending q)

section
variable {m : May} {s t : State} {q : Port}

theorem hostSide_of_port (h : t.port q = s.port q) : t.hostSide q = s.hostSide q := by
  simp only [State.hostSide, State.withdrawalPending, h]

/-- A port unit that keeps its settings and what is in flight at its command requester. -/
theorem hostSide_of_unit (hset : (t.port q).settings = (s.port q).settings) (hcmd : (t.port q).cmd.inFlight = (s.port q).cmd.inFlight) :
    t.hostSide q = s.hostSide q := by
  simp only [State.hostSide, State.withdrawalPending, hset, hcmd]

theorem settings_of_hostSide (h : t.hostSide q = s.hostSide q) : (t.port q).settings = (s.port q).settings := congrArg Prod.fst h

theorem withdrawalPending_of_hostSide (h : t.hostSide q = s.hostSide q) : t.withdrawalPending q = s.withdrawalPending q :=
  congrArg Prod.snd h

/-- No chain of the ring controller reaches the settings of any port. -/
theorem RingSteps.hostSide (h : RingSteps m s t) (q : Port) : t.hostSide q = s.hostSide q := by
  obtain ⟨hwin, hfill, hlatch, hmask0, hmask1, hcmd, -, -⟩ := h.keeps.port q
  exact hostSide_of_unit (by simp only [PortUnit.settings, hwin, hfill, hlatch, hmask0, hmask1, hcmd]) (by rw [hcmd])

@[simp] theorem hostSide_setDataReq (s : State) (p : Port) (x : Option DataRequest) (q : Port) :
    (s.setDataReq p x).hostSide q = s.hostSide q := by
  have hport : ((s.setDataReq p x).port q) = if q = p then { s.port p with dataReq := x } else s.port q := State.port_setPort _ _ _ _
  by_cases hq : q = p
  · rw [if_pos hq] at hport
    subst hq
    exact hostSide_of_unit (by rw [hport]; rfl) (by rw [hport])
  · rw [if_neg hq] at hport
    exact hostSide_of_port hport

theorem hostSide_placeStartCheck (s : State) (q : Port) : (placeStartCheck s).hostSide q = s.hostSide q :=
  hostSide_of_port (port_placeStartCheck s q)

/-! ### The grant of a data requester (R156, R170 to R174) -/

theorem hostSide_finishParallel (p : ParPort) (w : Fin 8) (acc : BusAccess) (policy : WaitPolicy) (a : AccessAnswer) (s : State)
    (q : Port) : (finishParallel p w acc policy a s).hostSide q = s.hostSide q := by
  have posted : ∀ k r h d, (answerFill p acc (post p.toPort k r h d s)).hostSide q = s.hostSide q := fun k r h d =>
    ((steps_post (m := May.all true) _ k r h d s).trans (steps_answerFill _ _ _)).hostSide q
  cases a with
  | fault reason => exact posted _ _ _ _
  | exhausted i => exact posted _ _ _ _
  | ended i => exact (steps_answerFill (m := May.all true) _ _ _).hostSide q
  | word i d => exact (steps_answerCycle (m := May.all true) _ _ _ _).hostSide q
  | stored i => exact (steps_answerCycle (m := May.all true) _ _ _ _).hostSide q
  | empty i | blocked i =>
    cases policy with
    | wait => rfl
    | nowait => exact posted _ _ _ _

theorem hostSide_endIfReleased (p : SerPort) (s : State) (q : Port) : (endIfReleased p s).hostSide q = s.hostSide q :=
  hostSide_of_port (port_endIfReleased p s q)

theorem hostSide_finishSerial (p : SerPort) (acc : BusAccess) (a : AccessAnswer) (s : State) (q : Port) :
    (finishSerial p acc a s).hostSide q = s.hostSide q := by
  have driven : ∀ (x : SerialUnit) (w : Word), ((s.setSer p x).setDataOut p.toPort w).hostSide q = s.hostSide q := fun x w =>
    (RingSteps.drive (m := May.all true) (s.setSer p x) p.toPort w).hostSide q
  have failed : ∀ c, (failWord p acc c s).hostSide q = s.hostSide q := fun c => by
    cases acc with
    | read => exact driven _ _
    | write d => rfl
  cases a with
  | word i d => exact driven _ _
  | stored i => rfl
  | fault | empty | ended | blocked | exhausted => exact failed _

theorem hostSide_grantCheck (p : SerPort) (s : State) (q : Port) : (grantCheck p s).hostSide q = s.hostSide q := by
  unfold grantCheck
  dsimp only
  rw [hostSide_endIfReleased]
  split
  · exact hostSide_setDataReq _ _ _ _
  · exact hostSide_setDataReq _ _ _ _

theorem hostSide_applyAccess (kind : WindowKind) (acc : BusAccess) (offset : Nat) (a : AccessAnswer) (s : State) (q : Port) :
    (applyAccess kind acc offset a s).hostSide q = s.hostSide q :=
  (steps_applyAccess (m := May.all true) (.inl rfl) kind offset a s (.inl rfl)).hostSide q

theorem hostSide_grantData (p : Port) (s : State) (q : Port) : (grantData p s).hostSide q = s.hostSide q := by
  unfold grantData
  split
  · rfl
  · split
    · exact hostSide_setDataReq _ _ _ _
    · exact hostSide_grantCheck _ _ _
  · split
    · exact (hostSide_finishParallel _ _ _ _ _ _ _).trans ((hostSide_applyAccess _ _ _ _ _ _).trans (hostSide_setDataReq _ _ _ _))
    · split
      · exact (hostSide_endIfReleased _ _ _).trans ((hostSide_finishSerial _ _ _ _ _).trans
          ((hostSide_applyAccess _ _ _ _ _ _).trans (hostSide_setDataReq _ _ _ _)))
      · exact hostSide_setDataReq _ _ _ _

/-! ### The grant of the move engine (R126 to R128, R132) -/

theorem hostSide_examineEntry (acc : State × Bool) (e : Fin 16) (q : Port) : (examineEntry acc e).1.hostSide q = acc.1.hostSide q := by
  unfold examineEntry
  dsimp only
  split
  · rfl
  split
  · rfl
  split
  · unfold startFrame
    dsimp only
    split <;> rfl
  · rfl

theorem hostSide_startCheckAct (s : State) (q : Port) : (startCheckAct s).hostSide q = s.hostSide q :=
  List.foldlRecOn (motive := fun acc : State × Bool => acc.1.hostSide q = s.hostSide q) _ _ rfl
    fun acc hacc e _ => (hostSide_examineEntry acc e q).trans hacc

theorem hostSide_frameEnd (e : Fin 16) (s : State) (q : Port) : (frameEnd e s).hostSide q = s.hostSide q := by
  unfold frameEnd
  split
  · rfl
  dsimp only
  split
  · exact (steps_postMove (m := May.all true) _ _ _ _).hostSide q
  split
  · exact (steps_haltEntry (m := May.all true) _ _ _).hostSide q
  · exact (steps_sourceEndedCheck (m := May.all true) rfl _ _ (.inl rfl)).hostSide q

theorem hostSide_advanceFrame (e : Fin 16) (position : Nat) (s : State) (q : Port) :
    (advanceFrame e position s).hostSide q = s.hostSide q := by
  unfold advanceFrame
  split
  · exact hostSide_frameEnd e s q
  · rfl

theorem hostSide_framePopAct (s : State) (q : Port) : (framePopAct s).hostSide q = s.hostSide q := by
  unfold framePopAct
  split
  · rfl
  split
  · rfl
  rename_i h _
  have hpop := (steps_popAct (m := May.all true) h.index s (.inl rfl)).hostSide q
  split
  case h_1 =>
    dsimp only
    split
    · exact hpop
    · exact (hostSide_advanceFrame _ _ _ q).trans hpop
  all_goals rfl

theorem hostSide_framePushAct (s : State) (q : Port) : (framePushAct s).hostSide q = s.hostSide q := by
  unfold framePushAct
  split
  · rfl
  split
  · exact (hostSide_advanceFrame _ _ _ q).trans ((steps_pushAct (m := May.all true) rfl _ _ _ _).hostSide q)
  · rfl

theorem hostSide_unloadAct (s : State) (q : Port) : (unloadAct s).hostSide q = s.hostSide q := by
  unfold unloadAct
  split
  · rfl
  · exact (steps_unloadWithdrawn (m := May.all true) rfl _ _ s (.inl rfl)).hostSide q

theorem hostSide_grantMove (s : State) (q : Port) : (grantMove s).hostSide q = s.hostSide q := by
  unfold grantMove
  split
  · rfl
  · exact hostSide_startCheckAct s q
  · exact hostSide_framePopAct s q
  · exact hostSide_framePushAct s q
  · exact hostSide_unloadAct s q

/-! ### The grant of a command requester (R69, R90) -/

/-- A command's effects are a chain of the ring controller, or write no more than a pacer. -/
theorem runCommand_steps (p : Port) (w : Word) (x : Args) (s : State) :
    RingSteps (May.all true) s (runCommand p w x s).after ∨ (runCommand p w x s).after.ports = s.ports := by
  have split_ite : ∀ {c : Prop} [Decidable c] {a b : CommandAnswer},
      RingSteps (May.all true) s a.after ∨ a.after.ports = s.ports → RingSteps (May.all true) s b.after ∨ b.after.ports = s.ports →
      RingSteps (May.all true) s (if c then a else b).after ∨ (if c then a else b).after.ports = s.ports := fun ha hb => by
    split
    · exact ha
    · exact hb
  have hring : (runQueryRing x s).after = s := by
    unfold runQueryRing
    split <;> rfl
  have hattach : (runQueryAttach p x s).after = s := by
    unfold runQueryAttach
    split <;> rfl
  have hpacer : (runSetPacer x s).after.ports = s.ports := by
    unfold runSetPacer
    split
    · rfl
    · split <;> rfl
  have hq : Quietly (May.all true) s := .inl rfl
  exact split_ite (.inl (steps_runCreateRing rfl hq p x)) <|
    split_ite (.inl (steps_runAttach rfl hq p x)) <|
    split_ite (.inl (steps_runDetach rfl hq p x)) <|
    split_ite (.inl (steps_runRenew hq p x)) <|
    split_ite (.inl (steps_runSetThreshold p x)) <|
    split_ite (.inr (congrArg State.ports hring)) <|
    split_ite (.inr (congrArg State.ports hattach)) <|
    split_ite (.inl (steps_runLoadMove rfl hq p x)) <|
    split_ite (.inl (steps_runStartMove rfl hq p x)) <|
    split_ite (.inl (steps_runFireMove p x)) <|
    split_ite (.inl (steps_runStopMove p x)) <|
    split_ite (.inl (steps_runUnloadMove rfl hq p x)) <|
    split_ite (.inr hpacer) <|
    .inr rfl

theorem hostSide_runCommand (p : Port) (w : Word) (x : Args) (s : State) (q : Port) :
    (runCommand p w x s).after.hostSide q = s.hostSide q :=
  (runCommand_steps p w x s).elim (fun h => h.hostSide q) fun h => hostSide_of_port (congrArg (Four.get · q) h)

/-- The end of a command's grant: no withdrawal is pending after it, and the arguments stay (R90). -/
theorem hostSide_finishCommand {p : Port} {x : CommandAnswer} (h : x.after.withdrawalPending p = false) (q : Port) :
    (finishCommand p x).hostSide q = x.after.hostSide q := by
  refine ((steps_post (m := May.all true) _ _ _ _ _ _).hostSide q).trans ?_
  by_cases hq : q = p
  · subst hq
    simp only [State.hostSide, State.withdrawalPending, State.port_setPort_same] at h ⊢
    rw [h]
    rfl
  · exact hostSide_of_port ((State.port_setPort _ _ _ _).trans (if_neg hq))

/-- The grant of a withdrawal resets its own port alone (R82). -/
theorem hostSide_withdrawalAct {p q : Port} (hq : q ≠ p) (s : State) : (withdrawalAct p s).hostSide q = s.hostSide q := by
  have hatts := steps_withdrawAttachments (m := May.all true) rfl p s (.inl rfl)
  have hentries := hatts.trans (steps_withdrawEntries rfl p _ (.inl rfl))
  exact (hostSide_of_port (port_of_others (others_resetPrivate _ p _) hq)).trans (hentries.hostSide q)

theorem hostSide_grantCommand (h : s.withdrawalPending q = false) (p : Port) : (grantCommand p s).hostSide q = s.hostSide q := by
  unfold grantCommand
  split
  · rfl
  · rename_i w hw
    have hrun := hostSide_runCommand p w (s.port p).cmd.argCopy s
    have hnone : s.withdrawalPending p = false := by rw [State.withdrawalPending, hw]
    exact (hostSide_finishCommand ((withdrawalPending_of_hostSide (hrun p)).trans hnone) q).trans (hrun q)
  · rename_i b hb
    refine hostSide_withdrawalAct (fun hq => ?_) s
    simp [hq, State.withdrawalPending, hb] at h

/-! ### Acts that spare a port -/

/-- An effect that leaves the settings of a port alone while the port has no withdrawal pending. -/
def Spares (q : Port) (f : State → State) : Prop := ∀ s, s.withdrawalPending q = false → (f s).hostSide q = s.hostSide q

theorem Spares.comp {f g : State → State} (hg : Spares q g) (hf : Spares q f) : Spares q fun s => g (f s) := fun s h =>
  (hg _ ((withdrawalPending_of_hostSide (hf s h)).trans h)).trans (hf s h)

theorem spares_id : Spares q fun s => s := fun _ _ => rfl

theorem spares_ite {c : State → Prop} [∀ s, Decidable (c s)] {f g : State → State} (hf : Spares q f) (hg : Spares q g) :
    Spares q fun s => if c s then f s else g s := fun s h => by
  dsimp only
  split
  · exact hf s h
  · exact hg s h

/-- An effect that reaches the port units only through a chain of the ring controller. -/
theorem spares_of_steps {f : State → State} (hf : ∀ s, RingSteps (May.all true) s (f s)) : Spares q f := fun s _ => (hf s).hostSide q

/-- An act of another port's host. -/
theorem spares_of_others {p : Port} {f : State → State} (hq : q ≠ p) (hf : ∀ s, (f s).others p = s.others p) : Spares q f :=
  fun s _ => hostSide_of_port (port_of_others (hf s) hq)

theorem spares_grantRequest (x : Requester) : Spares q (grantRequest x) := fun s h => by
  cases x with
  | data p => exact hostSide_grantData p (s.setArb (.data p)) q
  | move => exact hostSide_grantMove (s.setArb .move) q
  | command p => exact hostSide_grantCommand (s := s.setArb (.command p)) h p

theorem spares_placeStartCheck : Spares q placeStartCheck := fun s _ => hostSide_placeStartCheck s q

theorem spares_grantWhen (x : Requester) (sort : State → Bool) : Spares q (grantWhen x sort) :=
  spares_ite (spares_grantRequest x) spares_id

theorem spares_grantNext : Spares q grantNext := fun s h => by
  unfold grantNext
  split
  · exact spares_placeStartCheck.comp (spares_grantRequest _) s h
  · rfl

theorem spares_serveFor (p : SerPort) : ∀ n : Nat, Spares q (serveFor p n)
  | 0 => spares_id
  | n + 1 => fun s h => by
    unfold serveFor
    split
    · exact (spares_serveFor p n).comp spares_grantNext s h
    · rfl

theorem spares_serve (p : SerPort) : Spares q (serve p) := spares_serveFor p 9

/-! ### What falls due (R72, R73, R138, R159) -/

theorem spares_settleExpiries : Spares q settleExpiries := spares_of_steps fun s => steps_settleExpiries rfl s (.inl rfl)

theorem hostSide_setPacer (s : State) (n : Fin 4) (x : Pacer) (q : Port) : (s.setPacer n x).hostSide q = s.hostSide q := rfl

theorem spares_expirePacer (n : Fin 4) : Spares q (expirePacer n) := fun s _ => by
  have triggers : RingSteps (May.all true) s ((List.finRange 16).foldl
      (fun s e => if (s.move e).trigger = .pacer n then deliverTrigger e s else s) s) := by
    refine steps_foldl _ (fun t e _ => ?_) _ s (.inl rfl)
    split
    · exact steps_deliverTrigger e t
    · exact .refl t
  exact (hostSide_setPacer _ n _ q).trans (triggers.hostSide q)

theorem spares_settleTick : Spares q settleTick := spares_ite (spares_settleExpiries.comp fun _ _ => rfl) spares_id

theorem spares_settlePacers : Spares q settlePacers := fun s h => by
  refine List.foldlRecOn (motive := fun t : State => t.hostSide q = s.hostSide q) _ _ rfl fun t ht n _ => ?_
  split
  · exact (spares_expirePacer n t ((withdrawalPending_of_hostSide ht).trans h)).trans ht
  · exact ht

theorem spares_settleStall (p : ParPort) : Spares q (settleStall p) := spares_of_steps (steps_settleStall p)

theorem spares_settle : Spares q settle :=
  spares_ite spares_id <| spares_placeStartCheck.comp <| (spares_settleStall .b).comp <| (spares_settleStall .a).comp <|
    spares_settlePacers.comp <| spares_settleTick.comp spares_settleExpiries

/-! ### Every command -/

/-- A next state in which the port has its settings as before. -/
def SparesNext (q : Port) (s : State) (o : Out) : Prop := ∀ t, o = .next t → t.hostSide q = s.hostSide q

theorem sparesNext (h : t.hostSide q = s.hostSide q) : SparesNext q s (.next t) := fun _ ht => Host.Outcome.next.inj ht ▸ h

section
variable (hq : s.withdrawalPending q = false) {f : State → State}
include hq

theorem Spares.dueAct (hf : Spares q f) : SparesNext q s (dueAct f s) := by
  unfold Machine.dueAct
  split
  · exact sparesNext rfl
  · exact sparesNext (spares_placeStartCheck.comp hf s hq)

theorem Spares.act (hf : Spares q f) : SparesNext q s (act f s) := by
  unfold Machine.act
  split
  · exact sparesNext rfl
  · exact sparesNext (spares_placeStartCheck.comp (hf.comp spares_settle) s hq)

theorem Spares.pinAct {pin : State → State} (hp : ∀ s, (pin s).ports = s.ports) (hf : Spares q f) : SparesNext q s (pinAct pin f s) := by
  unfold Machine.pinAct
  split
  · exact sparesNext (hostSide_of_port (congrArg (Four.get · q) (hp s)))
  · exact sparesNext (spares_placeStartCheck.comp (hf.comp spares_settle) s hq)

/-- An access of another port's control page, after the earlier request of a serial port is served. -/
theorem sparesNext_control {p : Port} (hp : q ≠ p) (hf : ∀ s, (f s).others p = s.others p) :
    SparesNext q s (act (controlAccess p f) s) := by
  have hserved : Spares q (serveBefore p) := fun t ht => by
    unfold serveBefore
    split
    · rfl
    · exact spares_serve _ t ht
  refine Spares.act hq fun t ht => ?_
  unfold controlAccess
  split
  · exact (spares_of_others hp hf).comp hserved t ht
  · exact hserved t ht

end

/-- A command of another port, or of none, leaves the settings of a port alone while the port has no withdrawal pending. -/
theorem sparesNext_exec (hq : s.withdrawalPending q = false) (c : Instr) (hc : c ≠ .deviceReset) (hp : c.portOf ≠ some q) :
    SparesNext q s (exec c s) := by
  have other : ∀ {p}, c.portOf = some p → q ≠ p := fun h e => hp (h.trans (congrArg some e.symm))
  have grant : ∀ {x sort}, SparesNext q s (act (grantWhen x sort) s) := (spares_grantWhen _ _).act hq
  have header : ∀ {p : SerPort} {op w count}, c.portOf = some p.toPort → SparesNext q s (act (clockHeader p op w count) s) :=
    fun h => (spares_of_others (other h) fun t => others_clockHeader t _ _ _ _).act hq
  cases c with
  | deviceReset => exact absurd rfl hc
  | deviceResetRelease => exact sparesNext rfl
  | timebaseAdvance =>
    refine Spares.act hq fun t _ => hostSide_of_port (congrArg (Four.get · q) (?_ : (advanceDivider t).ports = t.ports))
    unfold advanceDivider
    split <;> rfl
  | leaseTick =>
    unfold exec execLeaseTick
    exact (spares_ite (Spares.comp (g := takeTick) (fun _ _ => rfl) spares_settleExpiries) spares_id).dueAct hq
  | leaseExpiry =>
    unfold exec execLeaseExpiry
    refine Spares.dueAct hq fun t _ => ?_
    split
    · exact (steps_expireLease (m := May.all true) rfl _ t (.inl rfl)).hostSide q
    · rfl
  | pacerExpiry n =>
    unfold exec execPacerExpiry
    exact (spares_ite ((spares_expirePacer n).comp spares_settleExpiries) spares_id).dueAct hq
  | stallTimeout p =>
    unfold exec execStallTimeout
    exact ((spares_settleStall p).comp (spares_ite spares_settleExpiries spares_id)).dueAct hq
  | parallelCycleStart p acc addr =>
    unfold exec execParallelCycleStart
    refine Spares.pinAct hq (fun _ => rfl) (spares_of_others (other rfl) fun t => ?_)
    split
    · exact others_startCycle (setStrobe p true t) p acc addr
    · rfl
  | strobeRelease p => exact (spares_of_others (other rfl) fun t => others_releaseStrobe t p).pinAct hq fun _ => rfl
  | portReset p =>
    unfold exec execPortReset
    refine Spares.pinAct hq (fun _ => rfl) (spares_of_others (other rfl) fun t => ?_)
    split
    · rfl
    · exact others_ariseWithdrawal (setResetPin p true t) p.toPort false true
  | portResetRelease p => exact Spares.pinAct hq (pin := setResetPin p false) (f := setResetPin p false) (fun _ => rfl) fun _ _ => rfl
  | serialFrameStart p =>
    unfold exec execSerialFrameStart
    refine Spares.pinAct hq (fun _ => rfl) (spares_ite spares_id ?_)
    exact (spares_of_others (other rfl) fun t => others_beginFrame t p).comp (spares_serve p)
  | serialFrameEnd p => exact (spares_of_others (other rfl) fun t => others_releaseSelect t p _).pinAct hq fun _ => rfl
  | serialAddressWord p address =>
    exact (spares_of_others (other rfl) fun t => others_clocked t p fun u => others_takeAddress u p address).act hq
  | serialDataWord p moment =>
    exact ((spares_of_others (other rfl) fun t => others_clocked t p fun u => others_dataWord u p moment).comp (spares_serve p)).act hq
  | beyondCountWord p =>
    exact ((spares_of_others (other rfl) fun t => others_clocked t p fun u => others_beginBeyond u p).comp (spares_serve p)).act hq
  | waitingAccessAnswer p =>
    refine (spares_of_steps fun t => ?_ : Spares q (answerWaiting p)).act hq
    unfold answerWaiting
    split
    · exact (steps_examineWaiting _ p t (.inl rfl)).trans (steps_reexamine _ _ (.inl rfl))
    · exact .refl t
  | timebaseLowRead p => exact sparesNext_control hq (other rfl) fun t => by simp
  | eventAcknowledge p _ => exact sparesNext_control hq (other rfl) fun t => others_acknowledge t p
  | controlWordWrite p offset v => exact sparesNext_control hq (other rfl) fun t => others_controlWriteAct t p offset.toNat v
  | commandSubmit p w => exact sparesNext_control hq (other rfl) fun t => others_submit t p w
  | withdraw p => exact sparesNext_control hq (other rfl) fun t => others_submit t p codeWithdraw
  | statusOnly | streamRead | streamWrite | pageRead | pageWrite | controlRead | controlWrite | withdrawFrame => exact header rfl
  | serialWindowCheck | push | pop | pageWindowRead | pageWindowWrite | withdrawal | badCommand | createRing | attach | detach | renew
  | setThreshold | queryRing | queryAttach | loadMove | startMove | fireMove | stopMove | unloadMove | setPacer | startCheck
  | moveFramePop | moveFramePush | deferredUnload => exact grant

end

/-- Settles O59: grants spare every port but the one whose withdrawal they are, and the acts of a host spare every port but its own. -/
theorem noOtherPortReachesAPortsSettings : Obligations.NoOtherPortReachesAPortsSettings := fun c _ t _ ht hc hp hq =>
  settings_of_hostSide (sparesNext_exec hq c hc hp t ht)

end Sys2Proof.Machine
end

