-- ==== Sys2Proof/Proofs/Leases.lean ====
section
/-! PROOF. Leases (O5): the tick that has fallen, the expiry that is next, and who is told that a party is lost. -/

namespace Sys2Proof.Machine

section
variable {s u : State} {i : Fin 32}

/-! ### The tick (R72, R73) -/

theorem settleExpiries_of_none (h : s.dueExpiry = none) : settleExpiries s = s := by
  unfold settleExpiries takeExpiries
  rw [h]

theorem exec_leaseTick (hr : s.deviceReset = false) (ht : s.tickDue = true) :
    exec .leaseTick s = .next (placeStartCheck (takeTick (settleExpiries s))) := by
  refine (dueAct_of_running _ hr).trans ?_
  rw [if_pos ht]

/-! ### The next expiry (R73, R77) -/

theorem dueExpiry_eq_some : s.dueExpiry = some i ↔ (s.att i).expired = true ∧ ∀ j, j < i → (s.att j).expired = false :=
  find?_finRange

theorem expired_iff {x : Attachment} : x.expired = true ↔ x.inUse = true ∧ 0 < x.leasePeriod ∧ x.leaseRemaining = 0 := by
  simp [Attachment.expired, and_assoc]

theorem exec_leaseExpiry (hr : s.deviceReset = false) (hi : s.dueExpiry = some i) :
    exec .leaseExpiry s = .next (placeStartCheck (expireLease i s)) := by
  unfold exec execLeaseExpiry
  rw [dueAct_of_running _ hr, hi]

/-- A loss by its role, which the records before it do not change. -/
theorem detachLost_of_tables (h : u.tables = s.tables) :
    detachLost i u = match (s.att i).role with
      | .reader _ => detachReader i u
      | .producer => sealBy .producerLost i u := by
  cases hrole : (s.att i).role <;> simp [detachLost, att_of_tables h, hrole]

/-! ### Who is told PEER_LOST (R77, R78, R83) -/

/-- A record about an attachment in a state whose tables are still those of `s`. -/
theorem postAbout_of_tables (h : u.tables = s.tables) (j : Fin 32) (k : EventKind) (d : Word) :
    postAbout j k d u = s.tell (s.att j) j k d u := by
  have howner : ∀ e, (u.move e).owner = (s.move e).owner := fun e => by rw [move_of_tables h]
  rw [postAbout_eq_tell, State.tell, State.tell, att_of_tables h, holderPort_congr howner]

theorem detailPeerLost_eq (role : Role) (withdrawn : Bool) :
    detailPeerLost role withdrawn = word ((match role with
      | .producer => 0
      | .reader slot => slot.val) + if withdrawn = true then 256 else 0) := by
  cases withdrawn <;> rfl

/-- The parties of a ring: its producer, then its readers in slot order. -/
theorem parties_eq (r : Fin 16) : s.parties r =
    ((s.ring r).producer.toList ++ (s.ring r).slots.one.toList ++ (s.ring r).slots.two.toList ++
      (s.ring r).slots.three.toList).map (·.index) := by
  simp [State.parties, State.readers, Slots.handles]

/-- PEER_LOST to one party, by its record in `s`, unless it is the lost one or goes with it. -/
def State.tellPeer (s : State) (lost : Fin 32) (remains : Attachment → Bool) (d : Word) (u : State) (j : Fin 32) : State :=
  if j = lost ∨ remains (s.att j) = false then u else s.tell (s.att j) j .peerLost d u

/-- No record changes the tables, so each party is told by its record before the first. -/
theorem foldl_tellPeer (lost : Fin 32) (remains : Attachment → Bool) (d : Word) : ∀ (l : List (Fin 32)) {u : State},
    u.tables = s.tables →
    l.foldl (fun u j => if j ≠ lost ∧ remains (u.att j) then postAbout j .peerLost d u else u) u =
      l.foldl (s.tellPeer lost remains d) u
  | [], _, _ => rfl
  | j :: l, u, h => by
    have hstep : (if j ≠ lost ∧ remains (u.att j) then postAbout j .peerLost d u else u) = s.tellPeer lost remains d u j := by
      rw [State.tellPeer, att_of_tables h, postAbout_of_tables h, ← ite_not]
      refine if_congr ?_ rfl rfl
      rw [not_and_or, not_not, Bool.not_eq_true]
    have hkeeps : (s.tellPeer lost remains d u j).tables = s.tables := by
      rw [← hstep]
      split
      · exact (tables_postAbout _ _ _ _).trans h
      · exact h
    rw [List.foldl_cons, List.foldl_cons, hstep]
    exact foldl_tellPeer lost remains d l hkeeps

theorem postPeerLost_eq (lost : Fin 32) (withdrawn : Bool) (remains : Attachment → Bool) (s : State) :
    postPeerLost lost withdrawn remains s =
      (s.parties (s.att lost).ring).foldl (s.tellPeer lost remains (detailPeerLost (s.att lost).role withdrawn)) s :=
  foldl_tellPeer lost remains _ _ rfl

end

/-- Settles O5: the tick with no expiry before it, the expiry that `dueExpiry` finds, PEER_LOST along the parties of the ring. -/
theorem leaseTickAndExpiryInTheirOrder : Obligations.LeaseTickAndExpiryInTheirOrder := by
  refine ⟨fun s hr ht hd => ?_, fun s i => ?_, fun s i withdrawn remains => ?_, fun s p x r hw hu hl hz => ?_⟩
  · rw [exec_leaseTick hr ht, settleExpiries_of_none hd]
    rfl
  · intro told hr hu hl hz hlow t
    have hdue : s.dueExpiry = some i :=
      dueExpiry_eq_some.mpr ⟨expired_iff.mpr ⟨hu, hl, hz⟩, fun j hj => Attachment.expired_eq_false.mpr (hlow j hj)⟩
    have htables : t.tables = s.tables := (tables_postPeerLost _ _ _ _).trans (tables_postAbout s i .leaseExpired _)
    rw [exec_leaseExpiry hr hdue]
    exact congrArg (fun v => Host.Outcome.next (placeStartCheck v)) (detachLost_of_tables htables)
  · intro told g detail
    rw [postPeerLost_eq, parties_eq, detailPeerLost_eq]
    rfl
  · exact examineWaiting_of_not_judged hw fun hj => Attachment.expired_eq_false.mp hj.2.2 ⟨hu, hl, hz⟩

end Sys2Proof.Machine
end

