-- ==== Sys2Proof/Proofs/WithdrawalChain.lean ====
section
/-! PROOF. What the departures of a withdrawal leave of the move entries and of the parallel ports' cycles: only an entry that was ARMED or
WAITING is touched in passing, and only the cycle of a waiting access is answered. -/

namespace Sys2Proof.Machine

/-! ### What departures leave -/

/-- A move entry passed by: it stays as it was, unless it was ARMED or WAITING, and then it keeps its owner and no frame of it starts. -/
def MoveEntry.PassedBy (m n : MoveEntry) : Prop := n = m ∨ (m.started = true ∧ n.owner = m.owner ∧ n.state ≠ .running)

/-- What departures leave: each move entry passed by, and the cycle of each parallel port that has no waiting access. -/
structure Departs (s t : State) : Prop where
  entry : ∀ e, (s.move e).PassedBy (t.move e)
  cycle : ∀ q, s.waitingAt q = none → t.waitingAt q = none ∧ t.parUnit q = s.parUnit q

theorem MoveEntry.PassedBy.trans {m n o : MoveEntry} (h : m.PassedBy n) (k : n.PassedBy o) : m.PassedBy o := by
  rcases h with rfl | ⟨hm, ho, hr⟩
  · exact k
  · rcases k with rfl | ⟨-, ho', hr'⟩
    · exact .inr ⟨hm, ho, hr⟩
    · exact .inr ⟨hm, ho'.trans ho, hr'⟩

theorem MoveEntry.PassedBy.eq {m n : MoveEntry} (h : m.PassedBy n) (hm : m.started = false) : n = m :=
  h.resolve_right fun hs => by simp [hm] at hs

theorem MoveEntry.PassedBy.owner {m n : MoveEntry} (h : m.PassedBy n) : n.owner = m.owner :=
  h.elim (congrArg MoveEntry.owner) fun hs => hs.2.1

theorem MoveEntry.PassedBy.not_running {m n : MoveEntry} (h : m.PassedBy n) (hm : m.state ≠ .running) : n.state ≠ .running :=
  h.elim (fun he => he ▸ hm) fun hs => hs.2.2

theorem MoveEntry.started_iff {m : MoveEntry} : m.started = true ↔ m.state = .armed ∨ m.state = .waiting := by
  simp [MoveEntry.started]

/-- An entry with its bond as before is ARMED for WAITING or WAITING for ARMED at most. -/
theorem MoveEntry.passedBy_of_bond {m n : MoveEntry} (h : n.bond = m.bond) : m.PassedBy n := by
  have hstate : (if n.state = .waiting then MoveState.armed else n.state) = if m.state = .waiting then .armed else m.state :=
    congrArg MoveEntry.state h
  by_cases hm : m.started = true
  · refine .inr ⟨hm, (congrArg MoveEntry.owner h :), fun hr => ?_⟩
    rcases MoveEntry.started_iff.mp hm with ha | hw <;> simp_all
  · obtain ⟨ha, hw⟩ := not_or.mp (mt MoveEntry.started_iff.mpr hm)
    have hnw : n.state ≠ .waiting := fun hn => ha (by simpa [hn, hw] using hstate.symm)
    have hmm : m.bond = m := by simp [MoveEntry.bond, hw]
    have hnn : n.bond = n := by simp [MoveEntry.bond, hnw]
    exact .inl (hnn.symm.trans (h.trans hmm))

section
variable {s t u : State}

theorem Departs.refl (s : State) : Departs s s := ⟨fun _ => .inl rfl, fun _ h => ⟨h, rfl⟩⟩

theorem Departs.trans (h : Departs s t) (k : Departs t u) : Departs s u where
  entry e := (h.entry e).trans (k.entry e)
  cycle q hq := by
    obtain ⟨hw, hp⟩ := h.cycle q hq
    obtain ⟨kw, kp⟩ := k.cycle q hw
    exact ⟨kw, kp.trans hp⟩

/-- An operation that keeps the bonds, the list of waiting accesses and the cycles. -/
theorem Departs.of_bonds (hb : t.bonds = s.bonds) (ho : t.outside = s.outside) : Departs s t where
  entry e := MoveEntry.passedBy_of_bond (move_of_bonds hb e)
  cycle q hq := by
    have hw : t.waitingAt q = s.waitingAt q := congrArg (fun x => x.waiting.getPar q) ho
    exact ⟨hw.trans hq, congrArg (fun x => x.par.getPar q) ho⟩

/-- Writes of neither entries, waiting accesses nor cycles. -/
theorem Departs.of_fields (hm : t.moves = s.moves) (hw : t.waiting = s.waiting) (hp : t.par = s.par) : Departs s t where
  entry e := .inl (congrArg (tableGet · e) hm)
  cycle q hq := by
    have hq' : t.waitingAt q = s.waitingAt q := congrArg (Two.getPar · q) hw
    exact ⟨hq'.trans hq, congrArg (Two.getPar · q) hp⟩

theorem departs_foldl {α : Type} (f : State → α → State) (hf : ∀ s x, Departs s (f s x)) (l : List α) (s : State) :
    Departs s (l.foldl f s) :=
  List.foldlRecOn (motive := Departs s) _ _ (.refl s) fun _ ht x _ => ht.trans (hf _ x)

/-! ### Waiting accesses answered (R158, R160) -/

/-- A cycle answered leaves the other port's cycle. -/
theorem parUnit_answerCycle_ne {p q : ParPort} (hq : q ≠ p) (acc : BusAccess) (w : Word) (s : State) :
    (answerCycle p acc w s).parUnit q = s.parUnit q := by
  cases acc <;> exact (State.parUnit_setPar _ _ _ _).trans (if_neg hq)

/-- A port's waiting access taken out of the list and answered: the port had one, and the other port is not reached. -/
theorem departs_answered {p : ParPort} {x : WaitingAccess} (hx : s.waitingAt p = some x) (hb : t.bonds = (s.setWaiting p none).bonds)
    (hw : t.waiting = (s.setWaiting p none).waiting) (hp : t.par = (s.setWaiting p none).par) (acc : BusAccess) (w : Word) :
    Departs s (answerCycle p acc w t) where
  entry e := MoveEntry.passedBy_of_bond (move_of_bonds ((bonds_answerCycle _ _ _ _).trans hb) e)
  cycle q hq := by
    have hqp : q ≠ p := fun h => by simp [h, hx] at hq
    refine ⟨?_, (parUnit_answerCycle_ne hqp acc w t).trans (congrArg (Two.getPar · q) hp)⟩
    rw [waitingAt_of_taken ((waiting_answerCycle _ _ _ _).trans hw) q, if_neg hqp, hq]

theorem departs_examineWaiting (r : Fin 16) (p : ParPort) (s : State) : Departs s (examineWaiting r p s) := by
  have same : examineWaiting r p s = s → Departs s (examineWaiting r p s) := fun h => by
    rw [h]
    exact .refl s
  cases h : s.waitingAt p with
  | none => exact same (examineWaiting_of_absent h)
  | some x =>
    by_cases hj : s.judges r x
    case neg => exact same (examineWaiting_of_not_judged h hj)
    cases ha : x.acc with
    | read =>
      cases hp : s.judgePop x.handle.index with
      | data d =>
        obtain ⟨-, -, -, hout⟩ := takePop_records (s.setWaiting p none) x.handle.index
        rw [examineWaiting_data h hj ha hp]
        exact departs_answered h (bonds_takePop _ _) (congrArg Outside.waiting hout) (congrArg Outside.par hout) _ _
      | ended =>
        have hout := outside_reportEnd (s.setWaiting p none) x.handle.index
        rw [examineWaiting_ended h hj ha hp]
        exact departs_answered h (bonds_reportEnd _ _) (congrArg Outside.waiting hout) (congrArg Outside.par hout) _ _
      | empty => exact same (examineWaiting_empty h hj ha hp)
    | write d =>
      by_cases hp : s.judgePush r = .stored
      · have hout := outside_storePush (s.setWaiting p none) r false d
        rw [examineWaiting_stored h hj ha hp]
        exact departs_answered h (bonds_storePush _ _ _ _) (congrArg Outside.waiting hout) (congrArg Outside.par hout) _ _
      · exact same (examineWaiting_not_stored h hj ha hp)

theorem departs_reexamine (r : Fin 16) (s : State) : Departs s (reexamine r s) :=
  (departs_examineWaiting r .a s).trans ((departs_examineWaiting r .b _).trans (departs_examineWaiting r .a _))

theorem departs_endWaitingOf (h : Handle) (s : State) : Departs s (endWaitingOf h s) := by
  rw [endWaitingOf_eq]
  refine departs_foldl _ (fun u p => ?_) _ s
  unfold endWaitingAt
  split
  · rename_i x hx
    split
    · exact departs_answered (t := u.setWaiting p none) hx rfl rfl rfl _ _
    · exact .refl u
  · exact .refl u

/-! ### One departure (R41, R42, R12, R129) -/

theorem departs_freeIfEmpty (r : Fin 16) (s : State) : Departs s (freeIfEmpty r s) := by
  unfold freeIfEmpty
  dsimp only
  split
  · exact .of_fields rfl rfl rfl
  · exact .refl s

theorem departs_detachReader (i : Fin 32) (s : State) : Departs s (detachReader i s) := by
  unfold detachReader
  dsimp only
  refine Departs.trans ?_ (departs_freeIfEmpty _ _)
  refine Departs.trans ?_ (departs_reexamine _ _)
  refine Departs.trans ?_ (departs_endWaitingOf _ _)
  refine Departs.trans ?_ (.of_bonds (bonds_spaceChanged _ _ _) (outside_spaceChanged _ _ _))
  exact .of_fields rfl rfl rfl

theorem departs_removeProducer (i : Fin 32) (s : State) : Departs s (removeProducer i s) := by
  unfold removeProducer
  refine Departs.trans ?_ (departs_endWaitingOf _ _)
  exact .of_fields rfl rfl rfl

theorem outside_postMove (e : Fin 16) (k : EventKind) (d : Word) (s : State) : (postMove e k d s).outside = s.outside := by
  unfold postMove
  split <;> rfl

/-- An entry that was ARMED or WAITING is written in passing. -/
theorem departs_entry {e : Fin 16} {m : MoveEntry} (ht : ∀ e', t.move e' = if e' = e then m else s.move e')
    (hout : t.outside = s.outside) (hs : (s.move e).started = true) (ho : m.owner = (s.move e).owner) (hr : m.state ≠ .running) :
    Departs s t where
  entry e' := by
    rw [ht]
    split
    · rename_i he
      subst he
      exact .inr ⟨hs, ho, hr⟩
    · exact .inl rfl
  cycle := (Departs.of_fields (s := s) (t := { s with waiting := t.waiting, par := t.par }) rfl (congrArg Outside.waiting hout)
    (congrArg Outside.par hout)).cycle

/-- The moves after an entry has halted. -/
theorem move_haltEntry_eq (s : State) (e e' : Fin 16) (reason : HaltReason) : (haltEntry e reason s).move e' =
    if e' = e then { s.move e with state := .halted, haltReason := some reason } else s.move e' :=
  (move_of_tables (tables_postMove _ _ _ _) e').trans (State.move_setMove _ _ _ _)

theorem outside_haltEntry (s : State) (e : Fin 16) (reason : HaltReason) : (haltEntry e reason s).outside = s.outside :=
  outside_postMove _ _ _ _

/-- The fill of an entry's source reader discarded (R129). -/
def State.fillDiscarded (s : State) (e : Fin 16) : State :=
  match (s.move e).source with
  | some h => s.setAtt h.index { s.att h.index with fill := 0 }
  | none => s

theorem move_fillDiscarded (s : State) (e e' : Fin 16) : (s.fillDiscarded e).move e' = s.move e' := by
  unfold State.fillDiscarded
  split <;> rfl

theorem outside_fillDiscarded (s : State) (e : Fin 16) : (s.fillDiscarded e).outside = s.outside := by
  unfold State.fillDiscarded
  split <;> rfl

/-- The entry whose source has ended, halted (R129). -/
def State.sourceHalted (s : State) (e : Fin 16) : State := haltEntry e .sourceEnded (s.fillDiscarded e)

theorem move_sourceHalted (s : State) (e e' : Fin 16) : (s.sourceHalted e).move e' =
    if e' = e then { s.move e with state := .halted, haltReason := some .sourceEnded } else s.move e' := by
  rw [State.sourceHalted, move_haltEntry_eq, move_fillDiscarded, move_fillDiscarded]

theorem outside_sourceHalted (s : State) (e : Fin 16) : (s.sourceHalted e).outside = s.outside :=
  (outside_haltEntry _ _ _).trans (outside_fillDiscarded s e)

/-- A source-ended check finds nothing, or halts the entry, or halts it and lets its destination go besides (R129). -/
theorem sourceEndedCheckWith_cases (f : Fin 32 → State → State) (e : Fin 16) (s : State) :
    sourceEndedCheckWith f e s = s ∨ sourceEndedCheckWith f e s = s.sourceHalted e ∨ ∃ i, sourceEndedCheckWith f e s =
      f i ((s.sourceHalted e).setMove e { (s.sourceHalted e).move e with dest := none }) := by
  unfold sourceEndedCheckWith
  split
  case isFalse => exact .inl rfl
  refine .inr ?_
  dsimp only
  split
  case isFalse => exact .inl rfl
  split
  · rename_i h _
    exact .inr ⟨h.index, rfl⟩
  · exact .inl rfl

/-- The source-ended check of an entry that is ARMED or WAITING. -/
theorem departs_sourceEndedCheckWith {f : Fin 32 → State → State} (hf : ∀ i t, Departs t (f i t)) {e : Fin 16}
    (hs : (s.move e).started = true) : Departs s (sourceEndedCheckWith f e s) := by
  rcases sourceEndedCheckWith_cases f e s with h | h | ⟨i, h⟩
  · rw [h]
    exact .refl s
  · rw [h]
    exact departs_entry (move_sourceHalted s e) (outside_sourceHalted s e) hs rfl (by simp)
  · rw [h]
    refine Departs.trans ?_ (hf i _)
    refine departs_entry (m := { s.move e with state := .halted, haltReason := some .sourceEnded, dest := none }) (fun e' => ?_)
      (outside_sourceHalted s e) hs rfl (by simp)
    rw [State.move_setMove, move_sourceHalted, move_sourceHalted, if_pos rfl]
    split <;> rfl

theorem departs_sealProducer : ∀ (depth : Nat) (cause : SealCause) (i : Fin 32) (s : State), Departs s (sealProducer depth cause i s)
  | depth, cause, i, s => by
    unfold sealProducer
    dsimp only
    refine (departs_removeProducer i s).trans ?_
    split
    · exact departs_freeIfEmpty _ _
    generalize removeProducer i s = s1
    have h2 : Departs s1 (s1.setRing (s.att i).ring { s1.ring (s.att i).ring with state := .sealed, sealCause := some cause }) :=
      .of_fields rfl rfl rfl
    refine h2.trans ?_
    generalize s1.setRing (s.att i).ring { s1.ring (s.att i).ring with state := .sealed, sealCause := some cause } = s2
    have h3 := departs_foldl sealReader (fun t j => .of_bonds (bonds_sealReader t j) (outside_sealReader t j))
      (s2.readers (s.att i).ring) s2
    have h4 := h3.trans (departs_reexamine (s.att i).ring _)
    cases depth with
    | zero => exact h4
    | succ depth =>
      refine h4.trans (departs_foldl _ (fun t e => ?_) _ _)
      split
      · rename_i hc
        exact departs_sourceEndedCheckWith (fun j u => departs_sealProducer depth .sourceEnded j u)
          (MoveEntry.started_iff.mpr ((checkedAtSeal_iff _ _ _).mp hc).2)
      · exact .refl t

theorem departs_detachLost (i : Fin 32) (s : State) : Departs s (detachLost i s) := by
  unfold detachLost
  split
  · exact departs_detachReader i s
  · exact departs_sealProducer _ _ i s

theorem outside_postPeerLost (i : Fin 32) (withdrawn : Bool) (remains : Attachment → Bool) (s : State) :
    (postPeerLost i withdrawn remains s).outside = s.outside := by
  refine foldl_keeps State.outside _ (fun t j => ?_) _ _
  split
  · exact outside_postAbout _ _ _ _
  · rfl

theorem departs_withdrawAttachment (remains : Attachment → Bool) (i : Fin 32) (s : State) :
    Departs s (withdrawAttachment remains i s) :=
  Departs.trans (.of_bonds (bonds_of_tables (tables_postPeerLost _ _ _ _)) (outside_postPeerLost _ _ _ _)) (departs_detachLost i _)

end

/-! ### The entries and attachments of a withdrawn port (R82, R84) -/

section
variable (p : Port)

theorem departs_withdrawAttachments (s : State) : Departs s (withdrawAttachments p s) := by
  unfold withdrawAttachments
  refine departs_foldl _ (fun t i => ?_) _ s
  split
  · exact departs_withdrawAttachment _ i t
  · exact .refl t

/-- An entry unloaded by withdrawal, up to the entry's record itself. -/
theorem departs_unloadWithdrawn (remains : Attachment → Bool) (e : Fin 16) (s : State) :
    ∃ t, Departs s t ∧ unloadWithdrawn remains e s = t.setMove e MoveEntry.cleared := by
  have lost : ∀ (h : Option Handle) (u : State), Departs u (match h with
      | some h => withdrawAttachment remains h.index u
      | none => u) := fun h u => by
    cases h with
    | none => exact .refl u
    | some h => exact departs_withdrawAttachment remains h.index u
  exact ⟨_, (lost (s.move e).source s).trans (lost _ _), rfl⟩

/-- Step 2 of a withdrawal's grant for one entry, with those that remain as judged in `s` (R82, R84). -/
def State.withdrawEntry (s : State) (p : Port) (t : State) (e : Fin 16) : State :=
  if (t.move e).owner = some p then
    if (t.move e).state = .running then t.setMove e { t.move e with unloadPending := true }
    else unloadWithdrawn (fun x => !s.goesWith p x) e t
  else t

theorem withdrawEntries_eq (s : State) : withdrawEntries p s = (List.finRange 16).foldl (s.withdrawEntry p) s := rfl

section
variable {p} {s t : State} {e : Fin 16}

theorem withdrawEntry_other (h : (t.move e).owner ≠ some p) : s.withdrawEntry p t e = t := if_neg h

theorem withdrawEntry_running (h : (t.move e).owner = some p) (hr : (t.move e).state = .running) :
    s.withdrawEntry p t e = t.setMove e { t.move e with unloadPending := true } := by
  rw [State.withdrawEntry, if_pos h, if_pos hr]

theorem withdrawEntry_idle (h : (t.move e).owner = some p) (hr : (t.move e).state ≠ .running) :
    s.withdrawEntry p t e = unloadWithdrawn (fun x => !s.goesWith p x) e t := by
  rw [State.withdrawEntry, if_pos h, if_neg hr]

end

/-- What becomes of one entry leaves the cycles, and passes the other entries by. -/
theorem withdrawEntry_leaves (s t : State) (e : Fin 16) :
    (∀ e', e' ≠ e → (t.move e').PassedBy ((s.withdrawEntry p t e).move e')) ∧
      ∀ q, t.waitingAt q = none → (s.withdrawEntry p t e).waitingAt q = none ∧ (s.withdrawEntry p t e).parUnit q = t.parUnit q := by
  by_cases ho : (t.move e).owner = some p
  case neg =>
    rw [withdrawEntry_other ho]
    exact ⟨fun _ _ => .inl rfl, fun _ hq => ⟨hq, rfl⟩⟩
  by_cases hr : (t.move e).state = .running
  · rw [withdrawEntry_running ho hr]
    exact ⟨fun e' he => .inl ((State.move_setMove _ _ _ _).trans (if_neg he)), fun _ hq => ⟨hq, rfl⟩⟩
  · obtain ⟨u, hu, hcleared⟩ := departs_unloadWithdrawn (fun x => !s.goesWith p x) e t
    rw [withdrawEntry_idle ho hr, hcleared]
    refine ⟨fun e' he => ?_, hu.cycle⟩
    rw [State.move_setMove, if_neg he]
    exact hu.entry e'

theorem passedBy_withdrawEntries_of_not_mem (s : State) {e : Fin 16} : ∀ (l : List (Fin 16)) (t : State), e ∉ l →
    (t.move e).PassedBy ((l.foldl (s.withdrawEntry p) t).move e)
  | [], _, _ => .inl rfl
  | e' :: l, t, he =>
    ((withdrawEntry_leaves p s t e').1 e (List.ne_of_not_mem_cons he)).trans
      (passedBy_withdrawEntries_of_not_mem s l _ (List.not_mem_of_not_mem_cons he))

/-- Each entry is taken once, between entries that pass it by. -/
theorem move_withdrawEntries (s : State) (e : Fin 16) : ∃ t, (s.move e).PassedBy (t.move e) ∧
    ((s.withdrawEntry p t e).move e).PassedBy ((withdrawEntries p s).move e) := by
  obtain ⟨before, after, hl⟩ := List.append_of_mem (List.mem_finRange e)
  have hn := List.nodup_finRange 16
  rw [hl] at hn
  obtain ⟨-, htail, hdisjoint⟩ := List.nodup_append.mp hn
  have hbefore : e ∉ before := fun hm => hdisjoint e hm e List.mem_cons_self rfl
  have hafter : e ∉ after := (List.nodup_cons.mp htail).1
  refine ⟨before.foldl (s.withdrawEntry p) s, passedBy_withdrawEntries_of_not_mem p s before s hbefore, ?_⟩
  rw [withdrawEntries_eq, hl, List.foldl_append, List.foldl_cons]
  exact passedBy_withdrawEntries_of_not_mem p s after _ hafter

/-- An entry of the port that is not RUNNING is emptied (R82, R84). -/
theorem move_withdrawEntries_idle {s : State} {e : Fin 16} (ho : (s.move e).owner = some p) (hr : (s.move e).state ≠ .running) :
    (withdrawEntries p s).move e = MoveEntry.cleared := by
  obtain ⟨t, hbefore, hafter⟩ := move_withdrawEntries p s e
  have hcleared : (s.withdrawEntry p t e).move e = MoveEntry.cleared := by
    rw [withdrawEntry_idle (hbefore.owner.trans ho) (hbefore.not_running hr)]
    exact move_unloadWithdrawn _ _ _
  rw [hcleared] at hafter
  exact hafter.eq rfl

/-- A RUNNING entry of the port has unload pending, and is as it was besides (R84, R132). -/
theorem move_withdrawEntries_running {s : State} {e : Fin 16} (ho : (s.move e).owner = some p) (hr : (s.move e).state = .running) :
    (withdrawEntries p s).move e = { s.move e with unloadPending := true } := by
  have hnot : (s.move e).started = false := by simp [MoveEntry.started, hr]
  obtain ⟨t, hbefore, hafter⟩ := move_withdrawEntries p s e
  have hsame := hbefore.eq hnot
  have hmarked : (s.withdrawEntry p t e).move e = { s.move e with unloadPending := true } := by
    rw [withdrawEntry_running (by rw [hsame, ho]) (by rw [hsame, hr]), State.move_setMove_same, hsame]
  rw [hmarked] at hafter
  exact hafter.eq hnot

/-- The cycle of a parallel port that has no waiting access outlives the first two steps of a withdrawal's grant (R162). -/
theorem parUnit_withdrawn {s : State} {q : ParPort} (hq : s.waitingAt q = none) :
    (withdrawEntries p (withdrawAttachments p s)).parUnit q = s.parUnit q := by
  obtain ⟨hw, hp⟩ := (departs_withdrawAttachments p s).cycle q hq
  generalize withdrawAttachments p s = u at hw hp ⊢
  have walk : (withdrawEntries p u).waitingAt q = none ∧ (withdrawEntries p u).parUnit q = s.parUnit q := by
    rw [withdrawEntries_eq]
    refine List.foldlRecOn (motive := fun t : State => t.waitingAt q = none ∧ t.parUnit q = s.parUnit q) _ _ ⟨hw, hp⟩
      fun t ht e _ => ?_
    obtain ⟨tw, tp⟩ := ht
    obtain ⟨ew, ep⟩ := (withdrawEntry_leaves p u t e).2 q tw
    exact ⟨ew, ep.trans tp⟩
  exact walk.2

end

end Sys2Proof.Machine
end

