-- ==== Sys2Proof/Proofs/Withdrawals.lean ====
section
/-! PROOF. The grant of a withdrawal (O31, O32): what it leaves of the port's own state, and that it leaves the port no attachment. -/

namespace Sys2Proof.Machine

section
variable {s t : State} {p : Port}

/-! ### The grant (R65, R82) -/

/-- The grant's first two steps, which reset nothing of the port's own state. -/
def State.withdrawn (s : State) (p : Port) : State := withdrawEntries p (withdrawAttachments p s)

theorem steps_withdrawn (s : State) (p : Port) : RingSteps ⟨true, false, true⟩ s (s.withdrawn p) :=
  (steps_withdrawAttachments rfl p s (.inl rfl)).trans (steps_withdrawEntries rfl p _ (.inl rfl))

theorem withdrawalPending_iff : s.withdrawalPending p = true ↔ ∃ b, (s.port p).cmd.inFlight = .withdrawal b := by
  unfold State.withdrawalPending
  cases (s.port p).cmd.inFlight <;> simp

/-- The start check at the end of an act writes the engine's request alone. -/
theorem placeStartCheck_eq_setMoveReq (s : State) : ∃ x, placeStartCheck s = s.setMoveReq x :=
  (placeStartCheck_eq s).elim (fun h => ⟨s.moveReq, h⟩) fun h => ⟨_, h⟩

/-- The grant of a withdrawal: its two steps on the tables, then the port's own state; and the engine's request as the start check
leaves it. -/
theorem exec_withdrawal {b : Bool} (hc : s.calm) (hn : s.nextGrant = some (.command p)) (hb : (s.port p).cmd.inFlight = .withdrawal b) :
    ∃ x, exec (.withdrawal p) s = .next ((resetPrivate p b ((s.commandTaken p).withdrawn p)).setMoveReq x) := by
  have hact : exec (.withdrawal p) s = .next (placeStartCheck (grantCommand p (s.commandTaken p))) :=
    act_grantWhen (sort := fun s => s.withdrawalPending p) hc hn (withdrawalPending_iff.mpr ⟨b, hb⟩)
  have hb' : ((s.commandTaken p).port p).cmd.inFlight = .withdrawal b := hb
  obtain ⟨x, hx⟩ := placeStartCheck_eq_setMoveReq (resetPrivate p b ((s.commandTaken p).withdrawn p))
  rw [hact, grantCommand, hb']
  dsimp only
  rw [withdrawalAct, PortUnit.answeredAsWithdraw, hb']
  exact ⟨x, congrArg Host.Outcome.next hx⟩

/-! ### The port's own state (R82, R95, R154, R166, R177) -/

/-- A record of a subscribed kind joins a queue with room (R183). -/
theorem offered_of_room {u : PortUnit} {e : Event} (hs : u.subscribed e.kind = true) (hr : u.queue.length < Config.queueDepth) :
    offered u e = { u with queue := u.queue ++ [e] } := by
  rw [offered, if_pos hs, if_pos hr]

/-- COMMAND_DONE of a withdrawal answered as WITHDRAW is the one record of the emptied queue (R95). -/
theorem port_resetPrivate (p : Port) (b : Bool) (s : State) : (resetPrivate p b s).port p =
    { (s.port p).afterWithdrawal b with
      queue := if b = true then [⟨.commandDone, none, none, 0x001F, s.timebase.setWidth 16⟩] else [] } := by
  have split_port : ∀ u : State, (match p.split with
      | .inl q => u.setPar q { u.parUnit q with stallLimit := Config.stallLimitReset }
      | .inr q => u.setSer q ((u.serUnit q).afterWithdrawal (u.port p).notify)).port p = u.port p := fun u => by
    cases p <;> rfl
  refine (split_port _).trans ?_
  cases b with
  | false => exact State.port_setPort_same _ _ _
  | true =>
    have hmask : ((s.port p).afterWithdrawal true).subscribed .commandDone = true :=
      (by decide : bit 0xFFFE EventKind.commandDone.code = true)
    have hdetail : detailCommandDone .ok codeWithdraw = 0x001F := by decide
    have hroom : ((s.port p).afterWithdrawal true).queue.length < Config.queueDepth := (by decide : 0 < Config.queueDepth)
    refine (State.port_setPort_same _ _ _).trans ?_
    rw [State.port_setPort_same, offered_of_room (e := ⟨.commandDone, none, none, _, _⟩) hmask hroom, hdetail]
    rfl

theorem parUnit_resetPrivate (q : ParPort) (b : Bool) (s : State) :
    (resetPrivate q.toPort b s).parUnit q = { s.parUnit q with stallLimit := 255 } := by
  cases q <;> cases b <;> rfl

theorem serUnit_resetPrivate (q : SerPort) (b : Bool) (s : State) :
    (resetPrivate q.toPort b s).serUnit q = (s.serUnit q).afterWithdrawal b := by
  have hflags : (resetPrivate q.toPort b s).serUnit q =
      (s.serUnit q).afterWithdrawal ((resetPrivate q.toPort b s).port q.toPort).notify := by
    cases q <;> cases b <;> rfl
  rw [hflags, port_resetPrivate]
  cases b <;> rfl

theorem waiting_resetPrivate (p : Port) (b : Bool) (s : State) : (resetPrivate p b s).waiting = s.waiting := by
  cases p <;> cases b <;> rfl

/-- Settles O31: the chain of the first two steps keeps what is not the port's, and `resetPrivate` writes the rest. -/
theorem withdrawalResetsThePortsPrivateState : Obligations.WithdrawalResetsThePortsPrivateState := by
  intro s p b hc hn hb
  obtain ⟨x, hexec⟩ := exec_withdrawal hc hn hb
  have hsteps := steps_withdrawn (s.commandTaken p) p
  have hbus : ∀ q, s.waitingAt q = none → ((s.commandTaken p).withdrawn p).parUnit q = s.parUnit q := fun q hq =>
    parUnit_withdrawn p (s := s.commandTaken p) hq
  generalize (s.commandTaken p).withdrawn p = u at hexec hsteps hbus
  have hkeeps := hsteps.keeps
  have hinner := inner_resetPrivate u p b
  have hport := port_resetPrivate p b u
  have hser : ∀ q, p = SerPort.toPort q → (resetPrivate p b u).serUnit q = (s.serUnit q).afterWithdrawal b := by
    rintro q rfl
    rw [serUnit_resetPrivate, State.serUnit, hkeeps.ser]
    rfl
  rw [hkeeps.timebase] at hport
  refine ⟨_, hexec, fun w => ?_, congrArg PortUnit.fillWord hport, congrArg PortUnit.latchedHigh hport, congrArg PortUnit.mask0 hport,
    congrArg PortUnit.mask1 hport, congrArg PortUnit.lostCount hport, congrArg PortUnit.queue hport, congrArg PortUnit.cmd hport,
    fun q hq => ?_, fun q hq => ?_, (congrArg State.arb hinner :).trans hkeeps.arb, (congrArg State.timebase hinner :).trans hkeeps.timebase,
    (congrArg State.divider hinner :).trans hkeeps.divider, (congrArg State.tickDue hinner :).trans hkeeps.tickDue,
    (congrArg State.pacers hinner :).trans hkeeps.pacers, fun q hq => ?_⟩
  · refine (congrArg (fun v : PortUnit => tableGet v.windows w) hport :).trans ?_
    simp [PortUnit.afterWithdrawal, PortUnit.cleared, tableGet_eq]
  · subst hq
    have hpar := parUnit_resetPrivate q b u
    refine ⟨congrArg ParallelUnit.stallLimit hpar, fun hnone => ?_⟩
    rw [hbus q hnone] at hpar
    exact hpar
  · have hunit := hser q hq
    refine ⟨congrArg SerialUnit.op hunit, congrArg SerialUnit.window hunit, congrArg SerialUnit.count hunit,
      congrArg SerialUnit.address hunit, congrArg SerialUnit.wordIndex hunit, congrArg SerialUnit.condition hunit,
      congrArg SerialUnit.completed hunit, congrArg SerialUnit.status hunit, (congrArg SerialUnit.phase hunit :),
      (congrArg SerialUnit.selectHeld hunit :), ?_⟩
    have hinert : ((resetPrivate p b u).serUnit q).inert = ((s.serUnit q).phase != .idle) := congrArg SerialUnit.inert hunit
    exact (Bool.eq_iff_iff.mp hinert).trans bne_iff_ne
  · have hother : (resetPrivate p b u).port q = u.port q := port_of_others (others_resetPrivate u p b) hq
    exact (congrArg PortUnit.settings hother).trans (settings_of_hostSide (hsteps.hostSide q))

/-! ### No attachment left (R44, R82) -/

/-- The port holds the attachment at an index. -/
def State.holds (s : State) (p : Port) (i : Fin 32) : Prop := (s.att i).inUse = true ∧ (s.att i).holder = .port p

/-- A chain that makes no attachment makes no record used that was free. -/
theorem RingSteps.not_inUse {m : May} (h : RingSteps m s t) (ha : m.attach = false) {i : Fin 32} (hi : (s.att i).inUse = false) :
    (t.att i).inUse = false := by
  rcases h.keeps.att.resolve_left (by simp [ha]) i with ⟨hu, -, -, -⟩ | ⟨-, hfree⟩
  · exact hu.trans hi
  · exact hfree

/-- A chain that makes no attachment gives a port none that it did not hold. -/
theorem RingSteps.not_holds {m : May} (h : RingSteps m s t) (ha : m.attach = false) {i : Fin 32} (hi : ¬s.holds p i) :
    ¬t.holds p i := by
  rintro ⟨hu, hh⟩
  rcases h.keeps.att.resolve_left (by simp [ha]) i with ⟨hu', -, -, hh'⟩ | ⟨-, hfree⟩
  · exact hi ⟨hu'.symm.trans hu, hh'.symm.trans hh⟩
  · rw [hfree] at hu
    exact absurd hu (by decide)

theorem not_inUse_detachReader (i : Fin 32) (s : State) : ((detachReader i s).att i).inUse = false := by
  have hfreed := att_of_bonds (bonds_before_free s i) i
  rw [freeRecord, State.att_setAtt_same] at hfreed
  have hfield := congrArg Attachment.inUse hfreed
  exact (congrArg (fun v => (tableGet v i).inUse) (freeIfEmpty_others _ _).1).trans hfield

theorem not_inUse_sealBy (cause : SealCause) (i : Fin 32) (s : State) : ((sealBy cause i s).att i).inUse = false := by
  have hremoved : ((removeProducer i s).att i).inUse = false := by
    rw [att_removeProducer, if_pos rfl]
    rfl
  by_cases hlast : (s.ring (s.att i).ring).slots.occupied = 0
  · rw [sealBy, sealProducer_last hlast]
    exact (congrArg (fun v => (tableGet v i).inUse) (freeIfEmpty_others _ _).1).trans hremoved
  · have htold : ((reexamine (s.att i).ring (s.told cause i)).att i).inUse = false :=
      (congrArg Attachment.inUse (att_of_bonds ((bonds_reexamine _ _).trans (bonds_told s cause i)) i)).trans hremoved
    rw [sealBy, sealProducer_succ hlast 15]
    refine RingSteps.not_inUse (m := ⟨true, false, true⟩) (steps_foldl _ (fun u e qu => ?_) _ _ (.inl rfl)) rfl htold
    split
    · exact steps_sourceEndedCheckWith _ (fun j v qv => steps_sealProducer rfl 15 .sourceEnded j v qv) e u qu
    · exact .refl u

/-- A lost attachment is in use no more, whatever state it is lost in. -/
theorem not_inUse_withdrawAttachment (remains : Attachment → Bool) (i : Fin 32) (s : State) :
    ((withdrawAttachment remains i s).att i).inUse = false := by
  unfold withdrawAttachment detachLost
  split
  · exact not_inUse_detachReader i _
  · exact not_inUse_sealBy _ i _

/-- Step 1 of a withdrawal's grant for one attachment, with those that remain as judged in `s` (R82, R83). -/
def State.withdrawAt (s : State) (p : Port) (t : State) (i : Fin 32) : State :=
  if (t.att i).inUse ∧ (t.att i).holder = .port p then withdrawAttachment (fun x => !s.goesWith p x) i t else t

theorem withdrawAttachments_eq (p : Port) (s : State) : withdrawAttachments p s = (List.finRange 32).foldl (s.withdrawAt p) s := rfl

theorem steps_withdrawAt (s : State) (p : Port) (t : State) (i : Fin 32) : RingSteps ⟨true, false, true⟩ t (s.withdrawAt p t i) := by
  unfold State.withdrawAt
  split
  · exact steps_withdrawAttachment rfl _ i t (.inl rfl)
  · exact .refl t

theorem not_holds_withdrawAt (s : State) (p : Port) (t : State) (i : Fin 32) : ¬(s.withdrawAt p t i).holds p i := by
  unfold State.withdrawAt
  split
  · rintro ⟨hu, -⟩
    rw [not_inUse_withdrawAttachment] at hu
    exact absurd hu (by decide)
  · assumption

/-- Each index is taken, and none after it makes an attachment. -/
theorem not_holds_withdrawAttachments (p : Port) (s : State) (i : Fin 32) : ¬(withdrawAttachments p s).holds p i := by
  obtain ⟨before, after, hl⟩ := List.append_of_mem (List.mem_finRange i)
  rw [withdrawAttachments_eq, hl, List.foldl_append, List.foldl_cons]
  exact RingSteps.not_holds (m := ⟨true, false, true⟩)
    (steps_foldl _ (fun t j _ => steps_withdrawAt s p t j) after _ (.inl rfl)) rfl (not_holds_withdrawAt s p _ i)

theorem not_holds_withdrawn (p : Port) (s : State) (i : Fin 32) : ¬(s.withdrawn p).holds p i :=
  (steps_withdrawEntries (m := ⟨true, false, true⟩) rfl p _ (.inl rfl)).not_holds rfl (not_holds_withdrawAttachments p s i)

/-! ### The entries (R84, R132) -/

theorem move_withdrawn_idle {e : Fin 16} (ho : (s.move e).owner = some p) (hr : (s.move e).state ≠ .running) :
    (s.withdrawn p).move e = MoveEntry.cleared := by
  have hpassed := (departs_withdrawAttachments p s).entry e
  exact move_withdrawEntries_idle p (hpassed.owner.trans ho) (hpassed.not_running hr)

theorem move_withdrawn_running {e : Fin 16} (ho : (s.move e).owner = some p) (hr : (s.move e).state = .running) :
    (s.withdrawn p).move e = { s.move e with unloadPending := true } := by
  have hsame := ((departs_withdrawAttachments p s).entry e).eq (by simp [MoveEntry.started, hr])
  rw [State.withdrawn, move_withdrawEntries_running p (by rw [hsame, ho]) (by rw [hsame, hr]), hsame]

/-- Settles O32: the two steps by what becomes of each attachment and each entry; written out, they are the model's own. -/
theorem withdrawalLeavesThePortNoAttachment : Obligations.WithdrawalLeavesThePortNoAttachment := by
  refine ⟨fun s t p hc hn hw ht => ?_, fun s p hc hn hw => ?_⟩
  · obtain ⟨b, hb⟩ := withdrawalPending_iff.mp hw
    obtain ⟨x, hexec⟩ := exec_withdrawal hc hn hb
    obtain rfl := Host.Outcome.next.inj (hexec.symm.trans ht)
    have htables : ((resetPrivate p b ((s.commandTaken p).withdrawn p)).setMoveReq x).tables = ((s.commandTaken p).withdrawn p).tables :=
      (tables_setMoveReq _ _).trans (tables_resetPrivate _ _ _)
    refine ⟨fun i => ?_, fun e ho hr => ?_, fun e ho hr => ?_⟩
    · rw [att_of_tables htables]
      exact not_holds_withdrawn p _ i
    · rw [move_of_tables htables]
      exact move_withdrawn_idle (s := s.commandTaken p) ho hr
    · rw [move_of_tables htables]
      exact move_withdrawn_running (s := s.commandTaken p) ho hr
  · obtain ⟨b, hb⟩ := withdrawalPending_iff.mp hw
    obtain ⟨x, hexec⟩ := exec_withdrawal hc hn hb
    intro goes lose loseIf s0 s1 s2
    have hsteps : (s.commandTaken p).withdrawn p = s2 := rfl
    rw [hsteps] at hexec
    clear_value s2
    have hinner := inner_resetPrivate s2 p b
    exact ⟨_, hexec, (congrArg State.rings hinner :), (congrArg State.atts hinner :), (congrArg State.moves hinner :),
      (congrArg State.pageMap hinner :), (congrArg State.mem hinner :), waiting_resetPrivate p b s2, (congrArg State.frame hinner :),
      (congrArg State.rotation hinner :), fun q hq => port_of_others (others_resetPrivate s2 p b) hq⟩

end

end Sys2Proof.Machine
end

