-- ==== Sys2Proof/Proofs/CommandAnswers.lean ====
section
/-! PROOF. How a command is answered: the end of its grant, a word that is no command code (O33), and the refusals, which change nothing
(O40). -/

namespace Sys2Proof.Machine

/-! ### The end of a command's grant (R91, R92, R190) -/

theorem detailCommandDone_eq (code : ResultCode) (command : Word) :
    detailCommandDone code command = word (256 * code.code + command.toNat % 256) := by
  simp [detailCommandDone, field]

theorem finishCommand_eq (p : Port) (a : CommandAnswer) :
    let u := a.after.port p
    finishCommand p a =
      post p .commandDone a.ring a.handle (word (256 * a.code.code + u.cmd.commandWord.toNat % 256))
        (a.after.setPort p { u with cmd := { u.cmd with
          state := .done, inFlight := .nothing, resultCode := a.code, results := a.results } }) := by
  intro u
  rw [← detailCommandDone_eq]
  rfl

section
variable {s : State} {p : Port} {x : Args} {w : Word}

/-! ### A word that is no command code (R90) -/

theorem badCommandPending_of_flight (h : (s.port p).cmd.inFlight = .command w) (hw : w ∉ commandCodes) :
    badCommandPending p s = true := by
  simpa [badCommandPending, h] using hw

theorem runCommand_of_noCode (h : w ∉ commandCodes) : runCommand p w x s = failWith .badCommand s := by
  simp only [commandCodes, List.mem_cons, List.not_mem_nil, or_false, not_or] at h
  simp only [runCommand, h, if_false]
  rfl

theorem exec_badCommand (h : s.commandGranted p w) (hw : w ∉ commandCodes) :
    exec (.badCommand p) s = .next (placeStartCheck (finishCommand p (failWith .badCommand (s.commandTaken p)))) := by
  obtain ⟨hcalm, hnext, hflight⟩ := h
  have hact : exec (.badCommand p) s = .next (placeStartCheck (grantWhen (.command p) (badCommandPending p) s)) :=
    act_of_calm _ hcalm
  rw [hact, grantWhen_of_next hnext (badCommandPending_of_flight hflight hw), grantRequest_command hflight, runCommand_of_noCode hw]
  rfl

end

/-- Settles O33: the grant's end by `finishCommand_eq`, a word without a code by `exec_badCommand`. -/
theorem badCommandIsAnswered : Obligations.BadCommandIsAnswered :=
  ⟨fun _ p _ hg hw => (exec_badCommand hg hw).trans
      (congrArg (fun t => Host.Outcome.next (placeStartCheck t)) (finishCommand_eq p _)),
    finishCommand_eq, rfl, rfl⟩

/-! ### Refusals (R91, R92) -/

/-- An answer with a code other than OK is the refusal with that code, at the state it was asked in. -/
def CommandAnswer.RefusesAt (a : CommandAnswer) (s : State) : Prop := a.code ≠ .ok → a = failWith a.code s

section
variable {s : State} {a b : CommandAnswer}

theorem refusesAt_failWith (code : ResultCode) (s : State) : (failWith code s).RefusesAt s := fun _ => rfl

theorem refusesAt_of_ok (h : a.code = .ok) : a.RefusesAt s := fun hne => absurd h hne

theorem refusesAt_ite {c : Prop} [Decidable c] (hthen : a.RefusesAt s) (helse : b.RefusesAt s) :
    (if c then a else b).RefusesAt s := by
  split
  · exact hthen
  · exact helse

/-! ### Ring and attachment commands -/

variable (p : Port) (x : Args) (s)

theorem refusesAt_runCreateRing : (runCreateRing p x s).RefusesAt s := by
  unfold runCreateRing
  split
  · exact refusesAt_failWith _ s
  split
  · exact refusesAt_failWith _ s
  split
  · exact refusesAt_failWith _ s
  split
  · exact refusesAt_failWith _ s
  · exact refusesAt_of_ok rfl

theorem refusesAt_runAttach : (runAttach p x s).RefusesAt s := by
  unfold runAttach
  split
  · exact refusesAt_failWith _ s
  refine refusesAt_ite ?_ (refusesAt_failWith _ s)
  split
  · exact refusesAt_failWith _ s
  split
  · exact refusesAt_failWith _ s
  split
  · exact refusesAt_failWith _ s
  · exact refusesAt_of_ok rfl

theorem refusesAt_runDetach : (runDetach p x s).RefusesAt s := by
  unfold runDetach
  split
  · exact refusesAt_failWith _ s
  split
  · exact refusesAt_failWith _ s
  · exact refusesAt_of_ok rfl

theorem refusesAt_runRenew : (runRenew p x s).RefusesAt s := by
  unfold runRenew
  split
  · exact refusesAt_failWith _ s
  · exact refusesAt_of_ok rfl
  split
  · exact refusesAt_failWith _ s
  · exact refusesAt_of_ok rfl

theorem refusesAt_runSetThreshold : (runSetThreshold p x s).RefusesAt s := by
  refine refusesAt_ite ?_ (refusesAt_failWith _ s)
  split
  · exact refusesAt_failWith _ s
  · exact refusesAt_of_ok rfl

theorem refusesAt_runQueryRing : (runQueryRing x s).RefusesAt s := by
  unfold runQueryRing
  split
  · exact refusesAt_failWith _ s
  · exact refusesAt_of_ok rfl

theorem refusesAt_runQueryAttach : (runQueryAttach p x s).RefusesAt s := by
  unfold runQueryAttach
  split
  · exact refusesAt_failWith _ s
  · exact refusesAt_of_ok rfl

/-! ### Move and pacer commands -/

theorem refusesAt_runLoadMove : (runLoadMove p x s).RefusesAt s := by
  unfold runLoadMove
  split
  · exact refusesAt_failWith _ s
  refine refusesAt_ite (refusesAt_failWith _ s) (refusesAt_ite (refusesAt_failWith _ s) ?_)
  split
  · exact refusesAt_failWith _ s
  refine refusesAt_ite (refusesAt_failWith _ s) ?_
  split
  case h_2 => exact refusesAt_failWith _ s
  split
  · exact refusesAt_failWith _ s
  split
  · exact refusesAt_failWith _ s
  dsimp only
  split
  · exact refusesAt_failWith _ s
  · exact refusesAt_of_ok rfl

theorem refusesAt_runStartMove : (runStartMove p x s).RefusesAt s := by
  unfold runStartMove
  split
  · exact refusesAt_failWith _ s
  · exact refusesAt_ite (refusesAt_failWith _ s) (refusesAt_ite (refusesAt_of_ok rfl) (refusesAt_failWith _ s))

theorem refusesAt_runFireMove : (runFireMove p x s).RefusesAt s := by
  unfold runFireMove
  split
  · exact refusesAt_failWith _ s
  · exact refusesAt_ite (refusesAt_failWith _ s) (refusesAt_ite (refusesAt_of_ok rfl) (refusesAt_failWith _ s))

theorem refusesAt_runStopMove : (runStopMove p x s).RefusesAt s := by
  unfold runStopMove
  split
  · exact refusesAt_failWith _ s
  refine refusesAt_ite (refusesAt_failWith _ s) (refusesAt_ite (refusesAt_failWith _ s) ?_)
  split
  case h_1 => exact refusesAt_failWith _ s
  all_goals exact refusesAt_of_ok rfl

theorem refusesAt_runUnloadMove : (runUnloadMove p x s).RefusesAt s := by
  unfold runUnloadMove
  split
  · exact refusesAt_failWith _ s
  · exact refusesAt_ite (refusesAt_failWith _ s) (refusesAt_ite (refusesAt_failWith _ s) (refusesAt_of_ok rfl))

theorem refusesAt_runSetPacer : (runSetPacer x s).RefusesAt s := by
  unfold runSetPacer
  split
  · exact refusesAt_failWith _ s
  · exact refusesAt_ite (refusesAt_of_ok rfl) (refusesAt_failWith _ s)

theorem refusesAt_runCommand (w : Word) : (runCommand p w x s).RefusesAt s :=
  refusesAt_ite (refusesAt_runCreateRing s p x) <|
  refusesAt_ite (refusesAt_runAttach s p x) <|
  refusesAt_ite (refusesAt_runDetach s p x) <|
  refusesAt_ite (refusesAt_runRenew s p x) <|
  refusesAt_ite (refusesAt_runSetThreshold s p x) <|
  refusesAt_ite (refusesAt_runQueryRing s x) <|
  refusesAt_ite (refusesAt_runQueryAttach s p x) <|
  refusesAt_ite (refusesAt_runLoadMove s p x) <|
  refusesAt_ite (refusesAt_runStartMove s p x) <|
  refusesAt_ite (refusesAt_runFireMove s p x) <|
  refusesAt_ite (refusesAt_runStopMove s p x) <|
  refusesAt_ite (refusesAt_runUnloadMove s p x) <|
  refusesAt_ite (refusesAt_runSetPacer s x) <|
  refusesAt_failWith _ s

end

/-! ### The checks of a move command (R117) -/

/-- The checks that the move commands share, in their order; the condition says which entries of the port's own, or EMPTY, are answered
ENTRY_BUSY. -/
structure EntryChecked (busy : MoveEntry → Prop) (p : Port) (x : Args) (s : State) (a : CommandAnswer) : Prop where
  noEntry : 15 < x.w1.toNat → a = failWith .noEntry s
  notOwner : ∀ {e : Fin 16}, x.w1.toNat = e.val → (s.move e).ownedByOther p = true → a = failWith .notOwner s
  entryBusy : ∀ {e : Fin 16}, x.w1.toNat = e.val → (s.move e).ownedByOther p = false → busy (s.move e) → a = failWith .entryBusy s

/-- The entries that the four commands after LOAD_MOVE answer ENTRY_BUSY for. -/
def MoveEntry.Unavailable (m : MoveEntry) : Prop := m.unloadPending = true ∨ m.state = .empty

theorem entryOfWord_none {w : Word} (h : 15 < w.toNat) : entryOfWord w = none := ringOfWord_none h

theorem ownedByOther_iff {m : MoveEntry} {p : Port} : m.ownedByOther p = true ↔ m.state ≠ .empty ∧ m.owner ≠ some p := by
  simp [MoveEntry.ownedByOther]

section
variable (p : Port) (x : Args) (s : State)

theorem entryChecked_runLoadMove : EntryChecked (fun m => m.state ≠ .empty) p x s (runLoadMove p x s) where
  noEntry h := by rw [runLoadMove, entryOfWord_none h]
  notOwner he ho := by simp only [runLoadMove, entryOfWord_eq he, ho, if_true]
  entryBusy he ho hb := by simp [runLoadMove, entryOfWord_eq he, ho, hb]

theorem entryChecked_runStartMove : EntryChecked MoveEntry.Unavailable p x s (runStartMove p x s) where
  noEntry h := by rw [runStartMove, entryOfWord_none h]
  notOwner he ho := by simp only [runStartMove, entryOfWord_eq he, ho, if_true]
  entryBusy he ho hb := by rcases hb with hb | hb <;> simp [runStartMove, entryOfWord_eq he, ho, hb]

theorem entryChecked_runFireMove : EntryChecked MoveEntry.Unavailable p x s (runFireMove p x s) where
  noEntry h := by rw [runFireMove, entryOfWord_none h]
  notOwner he ho := by simp only [runFireMove, entryOfWord_eq he, ho, if_true]
  entryBusy he ho hb := by rcases hb with hb | hb <;> simp [runFireMove, entryOfWord_eq he, ho, hb, MoveEntry.started]

theorem entryChecked_runStopMove : EntryChecked MoveEntry.Unavailable p x s (runStopMove p x s) where
  noEntry h := by rw [runStopMove, entryOfWord_none h]
  notOwner he ho := by simp only [runStopMove, entryOfWord_eq he, ho, if_true]
  entryBusy he ho hb := by rcases hb with hb | hb <;> simp [runStopMove, entryOfWord_eq he, ho, hb]

theorem entryChecked_runUnloadMove : EntryChecked MoveEntry.Unavailable p x s (runUnloadMove p x s) where
  noEntry h := by rw [runUnloadMove, entryOfWord_none h]
  notOwner he ho := by simp only [runUnloadMove, entryOfWord_eq he, ho, if_true]
  entryBusy he ho hb := by rcases hb with hb | hb <;> simp [runUnloadMove, entryOfWord_eq he, ho, hb]

end

section
variable {s : State} {p : Port}

theorem exec_startMove (h : s.commandGranted p codeStartMove) : exec (.startMove p) s =
    .next (placeStartCheck (finishCommand p (runStartMove p (s.port p).cmd.argCopy (s.commandTaken p)))) := act_of_granted h

theorem exec_fireMove (h : s.commandGranted p codeFireMove) : exec (.fireMove p) s =
    .next (placeStartCheck (finishCommand p (runFireMove p (s.port p).cmd.argCopy (s.commandTaken p)))) := act_of_granted h

theorem exec_stopMove (h : s.commandGranted p codeStopMove) : exec (.stopMove p) s =
    .next (placeStartCheck (finishCommand p (runStopMove p (s.port p).cmd.argCopy (s.commandTaken p)))) := act_of_granted h

theorem exec_unloadMove (h : s.commandGranted p codeUnloadMove) : exec (.unloadMove p) s =
    .next (placeStartCheck (finishCommand p (runUnloadMove p (s.port p).cmd.argCopy (s.commandTaken p)))) := act_of_granted h

/-- The grant of a move command, with the checks that its answer went through. -/
theorem exec_entryChecked {c : Instr} {w : Word} (h : s.commandGranted p w)
    (hc : (c = .loadMove p ∧ w = codeLoadMove) ∨ (c = .startMove p ∧ w = codeStartMove) ∨ (c = .fireMove p ∧ w = codeFireMove) ∨
      (c = .stopMove p ∧ w = codeStopMove) ∨ (c = .unloadMove p ∧ w = codeUnloadMove)) :
    ∃ a, exec c s = .next (placeStartCheck (finishCommand p a)) ∧
      EntryChecked (fun m => if c = .loadMove p then m.state ≠ .empty else m.Unavailable) p (s.port p).cmd.argCopy
        (s.commandTaken p) a := by
  rcases hc with ⟨rfl, rfl⟩ | ⟨rfl, rfl⟩ | ⟨rfl, rfl⟩ | ⟨rfl, rfl⟩ | ⟨rfl, rfl⟩
  · exact ⟨_, exec_loadMove h, by simpa using entryChecked_runLoadMove p _ _⟩
  · exact ⟨_, exec_startMove h, entryChecked_runStartMove p _ _⟩
  · exact ⟨_, exec_fireMove h, entryChecked_runFireMove p _ _⟩
  · exact ⟨_, exec_stopMove h, entryChecked_runStopMove p _ _⟩
  · exact ⟨_, exec_unloadMove h, entryChecked_runUnloadMove p _ _⟩

end

/-- Settles O40: every branch of `runCommand` refuses at the state it was given or answers OK; the checks that the move commands share by
`exec_entryChecked`. -/
theorem failedCommandsChangeNothing : Obligations.FailedCommandsChangeNothing := by
  refine ⟨fun p w x s hne => ?_, fun s p c w hg hc => ?_⟩
  · rw [refusesAt_runCommand s p x w hne]
    exact ⟨rfl, rfl, rfl, rfl⟩
  · intro n refused
    obtain ⟨a, hexec, hchecks⟩ := exec_entryChecked hg hc
    have refuse : ∀ {code}, a = failWith code (s.commandTaken p) → refused code := by
      rintro code rfl
      exact hexec
    refine ⟨fun h => refuse (hchecks.noEntry h), fun e he => ⟨fun hs ho => ?_, fun hs ho hu => ?_, fun hs hload => ?_⟩⟩
    · exact refuse (hchecks.notOwner he (ownedByOther_iff.mpr ⟨hs, ho⟩))
    · have hmine : (s.move e).ownedByOther p = false := Bool.eq_false_iff.mpr fun h => (ownedByOther_iff.mp h).2 ho
      refine refuse (hchecks.entryBusy he hmine ?_)
      split
      · exact hs
      · exact .inl hu
    · refine refuse (hchecks.entryBusy he (notOthers_of_empty hs) ?_)
      rw [if_neg hload]
      exact .inr hs

end Sys2Proof.Machine
end

