-- ==== Sys2Proof/Proofs/CommandSubmits.lean ====
section
/-! PROOF. A submit of a command word: accepted, refused, joined to the withdrawal that is pending, or the arising of one (O30). -/

namespace Sys2Proof.Machine

section
variable {s : State} {p : Port} {w : Word}

/-! ### A submit by what is in flight (R88, R89, R93, R94) -/

theorem submit_accepted (h : (s.port p).cmd.inFlight = .nothing) (hw : w ≠ codeWithdraw) :
    submit p w s = s.setPort p { s.port p with cmd := (s.port p).cmd.accept w } := by
  rw [submit, h]
  exact if_neg hw

theorem submit_arises (h : (s.port p).cmd.inFlight = .nothing) : submit p codeWithdraw s = ariseWithdrawal p true false s := by
  simp [submit, h]

theorem submit_refused {c : Word} (h : (s.port p).cmd.inFlight = .command c) (w : Word) : submit p w s = refuseSubmit p w s := by
  simp [submit, h]

theorem submit_joined {b : Bool} (h : (s.port p).cmd.inFlight = .withdrawal b) :
    submit p codeWithdraw s = s.setPort p { s.port p with cmd := (s.port p).cmd.join } := by
  simp [submit, h]

theorem submit_refused_withdrawing {b : Bool} (h : (s.port p).cmd.inFlight = .withdrawal b) (hw : w ≠ codeWithdraw) :
    submit p w s = refuseSubmit p w s := by
  rw [submit, h]
  exact if_neg hw

/-! ### The two commands -/

/-- A port whose host can make a control access, with nothing due and no data request pending. -/
structure State.Submits (s : State) (p : Port) : Prop where
  calm : s.calm
  controlOpen : s.controlOpen p = true
  idle : (s.port p).dataReq = none

theorem State.Submits.exec_commandSubmit (h : s.Submits p) (w : Word) :
    exec (.commandSubmit p w) s = .next (placeStartCheck (submit p w s)) :=
  (act_of_calm _ h.calm).trans (congrArg (fun t => Host.Outcome.next (placeStartCheck t)) (controlAccess_of_open _ h.idle h.controlOpen))

/-- WITHDRAW is the submit of its code (R80). -/
theorem State.Submits.exec_withdraw (h : s.Submits p) :
    exec (.withdraw p) s = .next (placeStartCheck (submit p codeWithdraw s)) := h.exec_commandSubmit codeWithdraw

/-! ### The withdrawal that arises (R69, R81, R94) -/

theorem port_ariseWithdrawal (p : Port) (asCommand byReset : Bool) (s : State) : (ariseWithdrawal p asCommand byReset s).port p =
    { s.port p with dataReq := none, cmd := (s.port p).cmd.atArising asCommand } := by
  cases p <;> rfl

end

/-- With nothing in flight the withdrawal that arises is answered as it arose (R94, R95). -/
theorem inFlight_atArising {c : CommandUnit} (h : c.inFlight = .nothing) (asCommand : Bool) :
    (c.atArising asCommand).inFlight = .withdrawal asCommand := by
  rw [CommandUnit.atArising, h]

/-- Settles O30: `submit` by what is in flight; a withdrawal that arises reaches its own port's units alone. -/
theorem submitIsAcceptedRefusedOrJoined : Obligations.SubmitIsAcceptedRefusedOrJoined := by
  intro s p w hcalm hopen hidle u refused
  have hs : s.Submits p := ⟨hcalm, hopen, hidle⟩
  have submitted : ∀ {v t}, submit p v s = t → exec (.commandSubmit p v) s = .next (placeStartCheck t) := fun ht =>
    ht ▸ hs.exec_commandSubmit _
  refine ⟨fun h hw => submitted (submit_accepted h hw), fun c h => ⟨submitted (submit_refused h w), ?_⟩,
    fun b h => ⟨fun hw => submitted (submit_refused_withdrawing h hw), ?_⟩, fun h => ?_⟩
  · rw [hs.exec_withdraw, submit_refused h]
    rfl
  · rw [hs.exec_withdraw, submit_joined h]
    rfl
  · obtain ⟨q, hq⟩ := placeStartCheck_eq_setMoveReq (ariseWithdrawal p true false s)
    have hport := port_ariseWithdrawal p true false s
    have hinner := inner_ariseWithdrawal s p true false
    rw [hs.exec_withdraw, submit_arises h, hq]
    refine ⟨_, rfl, ?_⟩
    simp only [State.setMoveReq_port, State.setMoveReq_rings, State.setMoveReq_atts, State.setMoveReq_mem, State.setMoveReq_moves,
      State.setMoveReq_arb, State.setMoveReq_timebase, hport]
    exact ⟨rfl, inFlight_atArising h true, rfl, rfl, rfl, rfl, (congrArg State.rings hinner :), (congrArg State.atts hinner :),
      (congrArg State.mem hinner :), (congrArg State.moves hinner :), (congrArg State.arb hinner :), (congrArg State.timebase hinner :),
      fun q hq => port_of_others (others_ariseWithdrawal s p true false) hq⟩

end Sys2Proof.Machine
end

