-- ==== Sys2Proof/Proofs/RenewAndQuery.lean ====
section
/-! PROOF. RENEW loads leases and nothing else (O37); QUERY_RING and QUERY_ATTACH read the records (O39). -/

namespace Sys2Proof.Machine

section
variable {s : State} {p : Port}

theorem exec_renew (h : s.commandGranted p codeRenew) : exec (.renew p) s =
    .next (placeStartCheck (finishCommand p (runRenew p (s.port p).cmd.argCopy (s.commandTaken p)))) := act_of_granted h

theorem exec_queryRing (h : s.commandGranted p codeQueryRing) : exec (.queryRing p) s =
    .next (placeStartCheck (finishCommand p (runQueryRing (s.port p).cmd.argCopy (s.commandTaken p)))) := act_of_granted h

theorem exec_queryAttach (h : s.commandGranted p codeQueryAttach) : exec (.queryAttach p) s =
    .next (placeStartCheck (finishCommand p (runQueryAttach p (s.port p).cmd.argCopy (s.commandTaken p)))) := act_of_granted h

end

/-! ### Leases loaded one after another (R74, R75) -/

/-- An attachment with its lease remaining loaded with its own period. -/
def Attachment.renewed (y : Attachment) : Attachment := { y with leaseRemaining := y.leasePeriod }

/-- A lease loaded in the attachment table. -/
def renewIn (v : Vector Attachment 32) (i : Fin 32) : Vector Attachment 32 := tablePut v i (tableGet v i).renewed

theorem renewLease_eq (i : Fin 32) (s : State) : renewLease i s = { s with atts := renewIn s.atts i } := rfl

/-- Leases loaded in turn reach the attachment table alone. -/
theorem foldl_renewLease (l : List (Fin 32)) (s : State) :
    l.foldl (fun s i => renewLease i s) s = { s with atts := l.foldl renewIn s.atts } :=
  List.foldl_hom (init := s.atts) (fun v => { s with atts := v }) fun v i => renewLease_eq i { s with atts := v }

/-- Each attachment of the list is renewed, however often it stands there; the others stay. -/
theorem tableGet_foldl_renewIn (i : Fin 32) : ∀ (l : List (Fin 32)) (v : Vector Attachment 32),
    tableGet (l.foldl renewIn v) i = if i ∈ l then (tableGet v i).renewed else tableGet v i
  | [], v => by simp
  | j :: l, v => by
    rw [List.foldl_cons, tableGet_foldl_renewIn i l, renewIn, tableGet_tablePut]
    by_cases hij : i = j
    · subst hij
      simp [Attachment.renewed]
    · simp [hij]

section
variable {s : State} {p : Port} {x : Args}

/-! ### RENEW (R75, R106) -/

theorem mem_heldBy {i : Fin 32} : i ∈ s.heldBy p ↔ (s.att i).inUse = true ∧ (s.att i).holder = .port p := by
  simp [State.heldBy]

theorem length_heldBy : (s.heldBy p).length = (List.finRange 32).countP fun i => (s.att i).inUse && (s.att i).holder == .port p :=
  List.countP_eq_length_filter.symm

/-- The attachment table with the leases of all that a port holds loaded. -/
theorem foldl_renewIn_heldBy : (s.heldBy p).foldl renewIn s.atts =
    s.atts.map fun y => if y.inUse = true ∧ y.holder = .port p then y.renewed else y := by
  apply Vector.ext
  intro k hk
  have hget := tableGet_foldl_renewIn ⟨k, hk⟩ (s.heldBy p) s.atts
  simp only [mem_heldBy] at hget
  rw [Vector.getElem_map]
  exact hget

theorem flagOfWord_zero : flagOfWord 0 = some false := rfl

theorem flagOfWord_one : flagOfWord 1 = some true := rfl

/-- A flag word above 1 is no flag (R96). -/
theorem flagOfWord_none {w : Word} (h : 1 < w.toNat) : flagOfWord w = none := by
  rw [Option.eq_none_iff_forall_ne_some]
  intro b hb
  rw [flagOfWord_iff] at hb
  split at hb <;> omega

theorem runRenew_one {i : Fin 32} (hf : x.w1 = 0) (hi : s.ownHandle p x.w2 = some i) :
    runRenew p x s = ⟨s.setAtt i (s.att i).renewed, .ok, ⟨1, 0, 0, 0⟩, some (s.att i).ring, some (s.handleAt i)⟩ := by
  rw [runRenew, hf, flagOfWord_zero, hi]
  rfl

theorem runRenew_all (hf : x.w1 = 1) : runRenew p x s =
    ⟨{ s with atts := s.atts.map fun y => if y.inUse = true ∧ y.holder = .port p then y.renewed else y }, .ok,
      ⟨word ((List.finRange 32).countP fun i => (s.att i).inUse && (s.att i).holder == .port p), 0, 0, 0⟩, none, none⟩ := by
  rw [runRenew, hf, flagOfWord_one, ← foldl_renewIn_heldBy, ← length_heldBy, ← foldl_renewLease]
  rfl

theorem runRenew_badArg (h : 1 < x.w1.toNat) : runRenew p x s = failWith .badArg s := by
  rw [runRenew, flagOfWord_none h]

theorem runRenew_badHandle (hf : x.w1 = 0) (hn : s.ownHandle p x.w2 = none) : runRenew p x s = failWith .badHandle s := by
  rw [runRenew, hf, flagOfWord_zero, hn]

end

/-- Settles O37: `runRenew` by its flag word; the leases loaded one after another are a map over the attachment table. -/
theorem renewLoadsTheLeases : Obligations.RenewLoadsTheLeases := by
  intro s p hg x renewed refused
  have answered : ∀ {a}, runRenew p x (s.commandTaken p) = a → exec (.renew p) s = .next (placeStartCheck (finishCommand p a)) :=
    fun ha => ha ▸ exec_renew hg
  exact ⟨fun i hf hi hh => answered (runRenew_one hf (ownHandle_of_held (s := s.commandTaken p) hi hh)),
    fun hf => answered (runRenew_all hf), fun h => answered (runRenew_badArg h),
    fun hf hbad => answered (runRenew_badHandle hf (ownHandle_none (s := s.commandTaken p) hbad))⟩

/-! ### QUERY_RING (R108, R189) -/

/-- What the ring status word says of the ring's state: the state and, of a SEALED ring, why production ended. -/
def Ring.statusBits (g : Ring) : Nat :=
  match g.state with
  | .free => 0
  | .opened => 1
  | .sealed => 2 + 16 * (match g.sealCause with
    | none => 0
    | some .sealedByProducer => 1
    | some .producerLost => 2
    | some .sourceEnded => 3)

theorem statusBits_eq (g : Ring) :
    g.state.code + 16 * (if g.state = .sealed then sealCauseCode g.sealCause else 0) = g.statusBits := by
  unfold Ring.statusBits
  cases g.state with
  | free => rfl
  | opened => rfl
  | sealed =>
    rcases g.sealCause with _ | cause
    · rfl
    · cases cause <;> rfl

theorem ringStatusWord_eq (g : Ring) : ringStatusWord g =
    word (g.statusBits + (if g.mode = .onePass then 4 else 0) + (if g.producer = none then 0 else 64) + 256 * g.slots.occupied) := by
  have hmode : 4 * g.mode.code = if g.mode = .onePass then 4 else 0 := by cases g.mode <;> rfl
  have hproducer : 64 * flag g.producer.isSome = if g.producer = none then 0 else 64 := by cases g.producer <;> rfl
  rw [ringStatusWord, hmode, hproducer, ← statusBits_eq]
  exact congrArg word (by omega)

section
variable {s : State} {p : Port} {x : Args}

theorem runQueryRing_ok {r : Fin 16} (hr : x.w1.toNat = r.val) : runQueryRing x s =
    ⟨s, .ok, ⟨ringStatusWord (s.ring r), word (s.ring r).pageCount, word (s.ring r).valid, word (s.ring r).writePos⟩,
      some r, none⟩ := by
  rw [runQueryRing, ringOfWord_eq hr]
  rfl

theorem runQueryRing_badRing (h : 15 < x.w1.toNat) : runQueryRing x s = failWith .badRing s := by
  rw [runQueryRing, ringOfWord_none h]

/-! ### QUERY_ATTACH (R109) -/

theorem runQueryAttach_ok {i : Fin 32} (hi : s.ownHandle p x.w1 = some i) :
    let y := s.att i
    runQueryAttach p x s =
      ⟨s, .ok,
        (if y.role = .producer then ⟨word (s.space y.ring), 0, word y.leaseRemaining, 0⟩
        else ⟨word y.fill, word y.dropCount, word y.leaseRemaining, word y.skip⟩),
        some y.ring, some (s.handleAt i)⟩ := by
  intro y
  rw [runQueryAttach, hi]
  dsimp only
  rw [level_eq]
  cases (s.att i).role with
  | producer => rfl
  | reader slot => rfl

theorem runQueryAttach_badHandle (hn : s.ownHandle p x.w1 = none) : runQueryAttach p x s = failWith .badHandle s := by
  rw [runQueryAttach, hn]

end

/-- Settles O39: the two commands by their checks, the ring status word by the ring's state. -/
theorem queriesReadTheRecords : Obligations.QueriesReadTheRecords := by
  intro s p x t
  refine ⟨fun hg => ?_, fun hg => ?_⟩
  · have answered : ∀ {a}, runQueryRing x t = a → exec (.queryRing p) s = .next (placeStartCheck (finishCommand p a)) :=
      fun ha => ha ▸ exec_queryRing hg
    refine ⟨fun r hr => ?_, fun h => answered (runQueryRing_badRing h)⟩
    rw [answered (runQueryRing_ok hr), ringStatusWord_eq, occupied_eq_length]
    rfl
  · have answered : ∀ {a}, runQueryAttach p x t = a → exec (.queryAttach p) s = .next (placeStartCheck (finishCommand p a)) :=
      fun ha => ha ▸ exec_queryAttach hg
    exact ⟨fun i hi hh => answered (runQueryAttach_ok (ownHandle_of_held (s := t) hi hh)),
      fun hbad => answered (runQueryAttach_badHandle (ownHandle_none (s := t) hbad))⟩

end Sys2Proof.Machine
end

