-- ==== Sys2Proof/Proofs/StartCheck.lean ====
section
/-! PROOF. The start check (O47): which entries a selection passes over and which it chooses, and when the engine places one. -/

namespace Sys2Proof.Machine

/-! ### Work, and the words of a frame (R115, R125) -/

theorem hasWork_iff {m : MoveEntry} : m.hasWork = true ↔ (m.state = .armed ∨ m.state = .waiting) ∧
    (m.trigger = .sourceReady ∨ 0 < m.framesDone ∨ 0 < m.pendingRuns) := by
  simp [MoveEntry.hasWork, MoveEntry.started, or_assoc]

/-- The count of words pushed is the smallest whole number not below (S - p)/k. -/
theorem pushCount_eq {m : MoveEntry} {n : Nat} (hn : m.frameLen - m.phase ≤ n * m.stride)
    (hleast : ∀ n', m.frameLen - m.phase ≤ n' * m.stride → n ≤ n') : m.pushCount = n := by
  have bound : ∀ n', 0 < m.stride → (m.pushCount ≤ n' ↔ m.frameLen - m.phase ≤ n' * m.stride) := fun n' hk => by
    rw [MoveEntry.pushCount, ← Nat.lt_succ_iff, Nat.div_lt_iff_lt_mul hk, Nat.succ_mul]
    omega
  rcases Nat.eq_zero_or_pos m.stride with hk | hk
  · have hzero : n = 0 := Nat.le_zero.mp (hleast 0 (by simpa [hk] using hn))
    simp [MoveEntry.pushCount, hk, hzero]
  · exact le_antisymm ((bound n hk).mpr hn) (hleast _ ((bound _ hk).mp le_rfl))

/-! ### The start check placed (R125) -/

theorem placeStartCheck_writes_moveReq (s : State) :
    placeStartCheck s =
      { s with moveReq :=
          if s.frame = none ∧ s.moveReq = none ∧
              (∃ e, (s.move e).state = .armed ∧
                ((s.move e).trigger = .sourceReady ∨ 0 < (s.move e).framesDone ∨ 0 < (s.move e).pendingRuns)) then
            some .startCheck
          else s.moveReq } := by
  have hcond : (s.frame.isNone && s.moveReq.isNone
        && (List.finRange 16).any fun e => (s.move e).state == .armed && (s.move e).hasWork) = true ↔
      s.frame = none ∧ s.moveReq = none ∧ ∃ e, (s.move e).state = .armed ∧
        ((s.move e).trigger = .sourceReady ∨ 0 < (s.move e).framesDone ∨ 0 < (s.move e).pendingRuns) := by
    simp only [Bool.and_eq_true, Option.isNone_iff_eq_none, List.any_eq_true, List.mem_finRange, true_and, beq_iff_eq, hasWork_iff,
      and_assoc]
    refine and_congr_right fun _ => and_congr_right fun _ => exists_congr fun e => and_congr_right fun harmed => ?_
    exact and_iff_right (.inl harmed)
  unfold placeStartCheck
  split
  · rename_i hplaced
    rw [if_pos (hcond.mp hplaced)]
    rfl
  · rename_i hidle
    rw [if_neg (mt hcond.mpr hidle)]

/-- No start check is placed while a frame is in flight. -/
theorem placeStartCheck_of_frame {s : State} {f : Frame} (h : s.frame = some f) : placeStartCheck s = s := by
  simp [placeStartCheck, h]

/-- No start check is placed while no entry is ARMED with work. -/
theorem placeStartCheck_of_idle {s : State} (h : ∀ e, (s.move e).hasWork = true → (s.move e).state ≠ .armed) :
    placeStartCheck s = s := by
  refine if_neg fun hplaced => ?_
  obtain ⟨e, -, he⟩ := List.any_eq_true.mp (Bool.and_eq_true_iff.mp hplaced).2
  obtain ⟨harmed, hwork⟩ := Bool.and_eq_true_iff.mp he
  exact h e hwork (beq_iff_eq.mp harmed)

/-! ### The entries a selection passes over (R126) -/

/-- An entry has work and its frame can start. -/
def State.startable (s : State) (e : Fin 16) : Bool := (s.move e).hasWork && s.frameCanStart e

/-- What it takes of an entry's rings for its frame to start (R125). -/
theorem startable_iff {s : State} {e : Fin 16} : s.startable e = true ↔ (s.move e).hasWork = true ∧
    ∃ src dst, (s.move e).source = some src ∧ (s.move e).dest = some dst ∧ (s.move e).frameLen ≤ (s.att src.index).fill ∧
      (s.move e).pushCount ≤ s.space (s.att dst.index).ring := by
  rw [State.startable, Bool.and_eq_true, State.frameCanStart]
  refine and_congr_right fun _ => ?_
  rcases (s.move e).source with _ | src <;> rcases (s.move e).dest with _ | dst <;> simp

/-- A move entry after a selection has passed over it: it waits when it has work. -/
def MoveEntry.passed (m : MoveEntry) : MoveEntry := if m.hasWork then { m with state := .waiting } else m

/-- An entry passed over keeps its work, and everything but its state. -/
theorem MoveEntry.passed_eq (m : MoveEntry) : m.passed.hasWork = m.hasWork ∧ m.passed = { m with state := m.passed.state } := by
  unfold MoveEntry.passed
  split
  case isTrue h => exact ⟨h ▸ hasWork_iff.mpr ⟨.inr rfl, (hasWork_iff.mp h).2⟩, rfl⟩
  case isFalse => exact ⟨rfl, rfl⟩

theorem MoveEntry.passed_passed (m : MoveEntry) : m.passed.passed = m.passed := by
  by_cases h : m.hasWork = true
  · rw [MoveEntry.passed, m.passed_eq.1, if_pos h, MoveEntry.passed, if_pos h]
  · rw [MoveEntry.passed, m.passed_eq.1, if_neg h]

/-- An entry passed over with work is not ARMED any more. -/
theorem MoveEntry.passed_not_armed {m : MoveEntry} (h : m.passed.hasWork = true) : m.passed.state ≠ .armed := by
  rw [m.passed_eq.1] at h
  simp [MoveEntry.passed, h]

/-- The entry passed over, in the move list. -/
def State.passedOver (s : State) (e : Fin 16) : State := s.setMove e (s.move e).passed

/-- A move entry written back as it was. -/
@[simp] theorem State.setMove_move (s : State) (e : Fin 16) : s.setMove e (s.move e) = s := by
  simp [State.setMove, State.move]

section
variable {s t : State}

/-- A selection's way through entries it does not choose: those of the list are passed over, and nothing else is touched. -/
structure Passed (l : List (Fin 16)) (s t : State) : Prop where
  moves : t = { s with moves := t.moves }
  move : ∀ e, t.move e = if e ∈ l then (s.move e).passed else s.move e

theorem Passed.nil (s : State) : Passed [] s s := ⟨rfl, by simp⟩

theorem Passed.snoc {l : List (Fin 16)} (h : Passed l s t) (e : Fin 16) : Passed (l ++ [e]) s (t.passedOver e) where
  moves := by
    rw [h.moves]
    rfl
  move e' := by
    rw [State.passedOver, State.move_setMove, h.move, h.move]
    by_cases he : e' = e
    · subst he
      by_cases hl : e' ∈ l
      · simp [hl, MoveEntry.passed_passed]
      · simp [hl]
    · simp [he]

/-- An entry on the way keeps its work, and everything but its state. -/
theorem Passed.entry {l : List (Fin 16)} (h : Passed l s t) (e : Fin 16) :
    (t.move e).hasWork = (s.move e).hasWork ∧ t.move e = { s.move e with state := (t.move e).state } := by
  rw [h.move]
  split
  · exact MoveEntry.passed_eq _
  · exact ⟨rfl, rfl⟩

/-- Passing over makes no frame able to start, and none unable. -/
theorem Passed.startable {l : List (Fin 16)} (h : Passed l s t) (e : Fin 16) : t.startable e = s.startable e := by
  obtain ⟨hwork, hentry⟩ := h.entry e
  have hatts : ∀ i, t.att i = s.att i := fun i => by rw [h.moves]; rfl
  have hspace : ∀ r, t.space r = s.space r := fun r => by rw [h.moves]; rfl
  unfold State.startable State.frameCanStart
  rw [hwork, hentry]
  simp only [hatts, hspace]
  rfl

/-! ### The selection (R126) -/

theorem examineEntry_of_startable {e : Fin 16} (h : s.startable e = true) : examineEntry (s, false) e = (startFrame e s, true) := by
  obtain ⟨hwork, hstart⟩ := Bool.and_eq_true_iff.mp h
  simp [examineEntry, hwork, hstart]

theorem examineEntry_of_not_startable {e : Fin 16} (h : s.startable e = false) :
    examineEntry (s, false) e = (s.passedOver e, false) := by
  unfold examineEntry State.passedOver MoveEntry.passed
  cases hwork : (s.move e).hasWork with
  | false => simp [hwork]
  | true =>
    have hstart : s.frameCanStart e = false := by simpa [State.startable, hwork] using h
    simp [hwork, hstart]

/-- Once an entry is chosen the rest are not examined. -/
theorem foldl_examineEntry_chosen (l : List (Fin 16)) (s : State) : l.foldl examineEntry (s, true) = (s, true) :=
  List.foldlRecOn (motive := fun acc => acc = (s, true)) l examineEntry rfl fun acc hacc e _ => by
    rw [hacc]
    rfl

/-- A selection whose entries cannot start passes over them all. -/
theorem foldl_examineEntry_none (l : List (Fin 16)) (h : ∀ e ∈ l, s.startable e = false) :
    ∃ t, l.foldl examineEntry (s, false) = (t, false) ∧ Passed l s t := by
  induction l using List.reverseRecOn with
  | nil => exact ⟨s, rfl, .nil s⟩
  | append_singleton l e ih =>
    obtain ⟨t, hfold, hpassed⟩ := ih fun e' he' => h e' (List.mem_append_left _ he')
    have he : t.startable e = false := (hpassed.startable e).trans (h e (by simp))
    exact ⟨t.passedOver e, by rw [List.foldl_concat, hfold, examineEntry_of_not_startable he], hpassed.snoc e⟩

/-- A selection passes over the entries before the first that can start, and starts the frame of that one. -/
theorem foldl_examineEntry_some {l l' : List (Fin 16)} {e : Fin 16} (h : ∀ e' ∈ l, s.startable e' = false)
    (he : s.startable e = true) :
    ∃ t, (l ++ e :: l').foldl examineEntry (s, false) = (startFrame e t, true) ∧ Passed l s t := by
  obtain ⟨t, hfold, hpassed⟩ := foldl_examineEntry_none l h
  refine ⟨t, ?_, hpassed⟩
  rw [List.foldl_append, List.foldl_cons, hfold, examineEntry_of_startable ((hpassed.startable e).trans he),
    foldl_examineEntry_chosen]

end

/-! ### The order of a selection (R126) -/

/-- The entries before one of the cyclic order, and those after it. -/
theorem selectionOrder_split (q k : Fin 16) : ∃ l l', selectionOrder q = l ++ (q + 1 + k) :: l' ∧
    ∀ k', q + 1 + k' ∈ l ↔ k' < k := by
  obtain ⟨l, l', hsplit⟩ := List.append_of_mem (List.mem_finRange k)
  have hsorted := List.pairwise_lt_finRange 16
  rw [hsplit, List.pairwise_append, List.pairwise_cons] at hsorted
  obtain ⟨-, ⟨hafter, -⟩, hbefore⟩ := hsorted
  refine ⟨l.map (q + 1 + ·), l'.map (q + 1 + ·), by simp [selectionOrder, hsplit], fun k' => ?_⟩
  rw [List.mem_map_of_injective (add_right_injective _)]
  refine ⟨fun hk' => hbefore k' hk' k List.mem_cons_self, fun hlt => ?_⟩
  have hmem : k' ∈ l ++ k :: l' := hsplit ▸ List.mem_finRange k'
  rcases List.mem_append.mp hmem with hl | hr
  · exact hl
  · rcases List.mem_cons.mp hr with rfl | hr
    · exact absurd hlt (lt_irrefl _)
    · exact absurd (hafter k' hr) hlt.asymm

/-- Every entry has its place in the order. -/
theorem exists_place (q e : Fin 16) : ∃ k, e = q + 1 + k := ⟨e - (q + 1), by simp⟩

theorem mem_selectionOrder (q e : Fin 16) : e ∈ selectionOrder q := by
  obtain ⟨k, rfl⟩ := exists_place q e
  exact List.mem_map.mpr ⟨k, List.mem_finRange k, rfl⟩

/-! ### The start check's grant (R126) -/

section
variable {s : State}

/-- The state of a start check's grant, with the move list as its selection leaves it. -/
def State.selecting (s : State) (moves : Vector MoveEntry 16) : State := { s with moveReq := none, moves := moves }

/-- The start check's grant when a frame can start: the entries before the chosen one are passed over. -/
theorem startCheckAct_some {k : Fin 16} (hk : s.startable (s.rotation + 1 + k) = true)
    (hlow : ∀ k', k' < k → s.startable (s.rotation + 1 + k') = false) :
    ∃ moves, startCheckAct s = startFrame (s.rotation + 1 + k) (s.selecting moves) ∧
      ∀ k', (s.selecting moves).move (s.rotation + 1 + k') =
        if k' < k then (s.move (s.rotation + 1 + k')).passed else s.move (s.rotation + 1 + k') := by
  obtain ⟨l, l', hsplit, hmem⟩ := selectionOrder_split s.rotation k
  have hbefore : ∀ e ∈ l, (s.setMoveReq none).startable e = false := fun e he => by
    obtain ⟨k', rfl⟩ := exists_place s.rotation e
    exact hlow k' ((hmem k').mp he)
  obtain ⟨t, hfold, hmoves, hmove⟩ := foldl_examineEntry_some (l' := l') hbefore hk
  have ht : t = s.selecting t.moves := hmoves
  refine ⟨t.moves, ?_, fun k' => ?_⟩
  · rw [startCheckAct, hsplit, hfold, ← ht]
  · rw [← ht, hmove]
    exact if_congr (hmem k') rfl rfl

/-- The start check's grant when no frame can start: every entry is passed over. -/
theorem startCheckAct_none (h : ∀ e, s.startable e = false) :
    ∃ moves, startCheckAct s = s.selecting moves ∧ ∀ e, (s.selecting moves).move e = (s.move e).passed := by
  obtain ⟨t, hfold, hmoves, hmove⟩ := foldl_examineEntry_none (s := s.setMoveReq none) (selectionOrder s.rotation) fun e _ => h e
  have ht : t = s.selecting t.moves := hmoves
  refine ⟨t.moves, ?_, fun e => ?_⟩
  · rw [startCheckAct, hfold, ← ht]
  · rw [← ht, hmove, if_pos (mem_selectionOrder _ e)]
    rfl

/-- The start of a frame with a destination. -/
theorem startFrame_eq {e : Fin 16} {h : Handle} (hd : (s.move e).dest = some h) :
    let m := s.move e
    let r := (s.att h.index).ring
    let runs := if m.framesDone = 0 ∧ m.trigger ≠ .sourceReady then m.pendingRuns - 1 else m.pendingRuns
    startFrame e s =
      ((((s.setMove e { m with state := .running, pendingRuns := runs }).setRotation e).setRing r
        { s.ring r with reserved := m.pushCount }).setFrame (some ⟨e, 0, none⟩)).setMoveReq (some .framePop) := by
  simp only [startFrame, hd]
  rfl

/-! ### The grant of the move engine (R64, R70) -/

/-- The engine's request is taken on the state with the pointer at the engine (R65, R70). -/
theorem act_of_moveGranted {q : MoveRequest} (h : s.moveGranted q) :
    act (grantWhen .move (movePending q)) s = .next (placeStartCheck (grantMove (s.setArb .move))) := by
  obtain ⟨hcalm, hnext, hreq⟩ := h
  exact act_grantWhen hcalm hnext (by simp [movePending, hreq])

theorem exec_startCheck (h : s.moveGranted .startCheck) :
    exec .startCheck s = .next (placeStartCheck (startCheckAct (s.setArb .move))) := by
  obtain ⟨-, -, hreq⟩ := id h
  refine (act_of_moveGranted h).trans ?_
  simp [grantMove, hreq]

end

/-- Settles O47: placing a check by `placeStartCheck_writes_moveReq`; a selection passes over the entries before the first that can
start, and starts the frame of that one. -/
theorem startCheckChoosesTheFirstThatCanStart : Obligations.StartCheckChoosesTheFirstThatCanStart := by
  refine ⟨placeStartCheck_writes_moveReq, fun s D hg hframe hD => ?_⟩
  intro t work starts examined
  have hcount : ∀ e, (s.move e).pushCount = D e := fun e => pushCount_eq (hD e).1 (hD e).2
  have hwork : ∀ e, (s.move e).hasWork = true ↔ work e := fun e => hasWork_iff
  have hstarts : ∀ e, t.startable e = true ↔ starts e := fun e => by
    rw [startable_iff]
    exact and_congr (hwork e) (by rw [← hcount]; rfl)
  have hnot : ∀ e, ¬starts e → t.startable e = false := fun e he => Bool.eq_false_iff.mpr (mt (hstarts e).mp he)
  have hexamined : ∀ e, examined e (s.move e).passed := fun e =>
    ⟨fun hw => if_pos ((hwork e).mpr hw), fun hw => if_neg (mt (hwork e).mp hw)⟩
  refine ⟨fun k => ?_, fun hnone => ?_⟩
  · intro e he hlow
    obtain ⟨moves, hact, hmove⟩ := startCheckAct_some (s := t) ((hstarts e).mpr he) fun k' hk' => hnot _ (hlow k' hk')
    obtain ⟨-, -, dst, -, hdst, -⟩ := he
    have hchosen : (t.selecting moves).move e = s.move e := (hmove k).trans (if_neg (lt_irrefl k))
    have hstart := startFrame_eq (s := t.selecting moves) (e := e) (h := dst) (by rw [hchosen, hdst])
    have hframed : (startFrame e (t.selecting moves)).frame = some ⟨e, 0, none⟩ := by rw [hstart]; rfl
    have hother : ∀ k', k' ≠ k → (startFrame e (t.selecting moves)).move (s.rotation + 1 + k') =
        if k' < k then (s.move (s.rotation + 1 + k')).passed else s.move (s.rotation + 1 + k') := fun k' hk' => by
      rw [hstart]
      exact ((State.move_setMove _ _ _ _).trans (if_neg fun h => hk' (add_right_injective _ h))).trans (hmove k')
    refine ⟨startFrame e (t.selecting moves), ?_, ?_, hframed, ?_, ?_, fun k' hk' => ?_, fun k' hk' => ?_, fun h hh => ?_, ?_⟩
    · rw [exec_startCheck hg, hact]
      exact congrArg _ (placeStartCheck_of_frame hframed)
    · rw [hstart]
      rfl
    · rw [hstart]
      rfl
    · rw [hstart, ← hchosen]
      exact State.move_setMove_same _ _ _
    · rw [hother k' hk'.ne, if_pos hk']
      exact hexamined _
    · rw [hother k' hk'.ne', if_neg hk'.asymm]
    · obtain rfl : dst = h := Option.some.inj (hdst.symm.trans hh)
      rw [hstart, hchosen, hcount]
      rfl
    · rw [hstart]
      exact ⟨rfl, rfl, rfl, rfl, rfl, rfl⟩
  · obtain ⟨moves, hact, hmove⟩ := startCheckAct_none (s := t) fun e => hnot e (hnone e)
    refine ⟨t.selecting moves, ?_, rfl, hframe, rfl, fun e => ?_, rfl, rfl, rfl, rfl⟩
    · rw [exec_startCheck hg, hact]
      refine congrArg _ (placeStartCheck_of_idle fun e => ?_)
      rw [hmove]
      exact MoveEntry.passed_not_armed
    · rw [hmove]
      exact hexamined e

end Sys2Proof.Machine
end

