-- ==== Sys2Proof/Proofs/MoveFrames.lean ====
section
/-! PROOF. The frame in flight: its requests one after another (O48), its end by the counts (O49), and the deferred unload (O50). -/

namespace Sys2Proof.Machine

/-! ### A record of a move entry (R130) -/

/-- A record of an entry that is posted in state `u`: to its owner, with its source ring and source handle, as they are in state `s`. -/
def State.tellOwner (s : State) (e : Fin 16) (k : EventKind) (d : Word) (u : State) : State :=
  match (s.move e).owner with
  | some p => post p k ((s.move e).source.map fun h => (s.att h.index).ring) (s.move e).source d u
  | none => u

/-- Two states agree on what a record of an entry is made of. -/
structure SameRecord (s u : State) (e : Fin 16) : Prop where
  owner : (u.move e).owner = (s.move e).owner
  source : (u.move e).source = (s.move e).source
  ring : ∀ i, (u.att i).ring = (s.att i).ring

theorem SameRecord.refl (s : State) (e : Fin 16) : SameRecord s s e := ⟨rfl, rfl, fun _ => rfl⟩

theorem tellOwner_some {s : State} {e : Fin 16} {p : Port} (ho : (s.move e).owner = some p) (k : EventKind) (d : Word) (u : State) :
    s.tellOwner e k d u = post p k ((s.move e).source.map fun h => (s.att h.index).ring) (s.move e).source d u := by
  simp [State.tellOwner, ho]

section
variable {s u : State} {e : Fin 16}

theorem sameRecord_setMove {x : MoveEntry} (ho : x.owner = (s.move e).owner) (hs : x.source = (s.move e).source)
    (hr : ∀ i, (u.att i).ring = (s.att i).ring) : SameRecord s (u.setMove e x) e :=
  ⟨by rw [State.move_setMove_same, ho], by rw [State.move_setMove_same, hs], hr⟩

theorem postMove_eq_tellOwner {k : EventKind} {d : Word} (h : SameRecord s u e) : postMove e k d u = s.tellOwner e k d u := by
  unfold postMove State.tellOwner State.sourceRing
  rw [h.owner, h.source]
  cases (s.move e).owner with
  | none => rfl
  | some p => simp only [h.ring]

theorem haltEntry_eq_tellOwner {reason : HaltReason} (h : SameRecord s u e) :
    haltEntry e reason u = s.tellOwner e .moveHalted (detailMoveHalted reason (u.move e).runsDone)
      (u.setMove e { u.move e with state := .halted, haltReason := some reason }) :=
  postMove_eq_tellOwner (sameRecord_setMove h.owner h.source h.ring)

/-- An entry that has just been written halts. -/
theorem haltEntry_setMove {x : MoveEntry} {reason : HaltReason} (h : SameRecord s (u.setMove e x) e) :
    haltEntry e reason (u.setMove e x) = s.tellOwner e .moveHalted (detailMoveHalted reason x.runsDone)
      (u.setMove e { x with state := .halted, haltReason := some reason }) := by
  rw [haltEntry_eq_tellOwner h, State.move_setMove_same, State.setMove_setMove]

end

theorem detailMoveHalted_stopped (runs : Nat) : detailMoveHalted .stopped runs = word (runs % 1024) := rfl

theorem detailMoveHalted_sourceEnded (runs : Nat) : detailMoveHalted .sourceEnded runs = word (runs % 1024 + 32768) := rfl

/-! ### The end of a frame (R128, R132) -/

/-- The runs done after one more frame: one more at a run's last frame, and no more than 1023 where no run limit is set (R128). -/
def MoveEntry.runsCounted (m : MoveEntry) : Nat :=
  if m.framesDone + 1 = m.framesPerRun then if m.runLimit = 0 then min (m.runsDone + 1) 1023 else m.runsDone + 1 else m.runsDone

theorem countFrame_eq (m : MoveEntry) : m.countFrame =
    { m with framesDone := if m.framesDone + 1 = m.framesPerRun then 0 else m.framesDone + 1, runsDone := m.runsCounted } := by
  unfold MoveEntry.countFrame MoveEntry.runsCounted
  split <;> rfl

section
variable {s : State} {e : Fin 16}

/-- With no unload pending the frame is over and the entry goes on by its counts. -/
theorem frameEnd_counted (hu : (s.move e).unloadPending = false) :
    let m := s.move e
    let counted : MoveEntry :=
      { m with framesDone := if m.framesDone + 1 = m.framesPerRun then 0 else m.framesDone + 1, runsDone := m.runsCounted }
    let t := (s.setFrame none).setMoveReq none
    frameEnd e s =
      if m.runLimit ≠ 0 ∧ m.runsCounted = m.runLimit then
        s.tellOwner e .moveDone (word m.runsCounted) (t.setMove e { counted with state := .done, stopPending := false })
      else if m.stopPending then
        s.tellOwner e .moveHalted (word (m.runsCounted % 1024))
          (t.setMove e { counted with state := .halted, stopPending := false, haltReason := some .stopped })
      else sourceEndedCheck e (t.setMove e { counted with state := .armed }) := by
  intro m counted t
  unfold frameEnd
  rw [if_neg (by simp [hu]), countFrame_eq]
  dsimp only
  refine if_congr Iff.rfl ?done (if_congr Iff.rfl ?halted ?armed)
  case done => exact postMove_eq_tellOwner (sameRecord_setMove rfl rfl fun _ => rfl)
  case halted =>
    rw [← detailMoveHalted_stopped]
    exact haltEntry_setMove (sameRecord_setMove rfl rfl fun _ => rfl)
  case armed => rfl

end

/-- Settles O49: with unload pending by definition, else by `frameEnd_counted`. -/
theorem frameEndByTheCounts : Obligations.FrameEndByTheCounts := by
  intro s e m runs counted t tell
  refine ⟨fun hu => if_pos hu, fun hu => ?_⟩
  have hend := frameEnd_counted hu
  refine ⟨fun hlimit hruns => ?_, fun hruns hstop => ?_, fun hruns hstop => ?_⟩
  · rw [hend, if_pos ⟨hlimit, hruns⟩]
    rfl
  · rw [hend, if_neg (by tauto), if_pos hstop]
    rfl
  · rw [hend, if_neg (by tauto), if_neg (by simp [m, hstop])]
    rfl

/-! ### The requests of a frame (R127) -/

section
variable {s : State} {f : Frame}

theorem pushes_iff (m : MoveEntry) (j : Nat) : m.pushes j = true ↔ m.phase ≤ j ∧ (j - m.phase) % m.stride = 0 := by
  simp [MoveEntry.pushes]

/-- A pop answered with a word: the word is held at a pushed position, and dropped at any other. -/
theorem framePopAct_data {h : Handle} {d : Word} (hf : s.frame = some f) (hs : (s.move f.entry).source = some h)
    (hd : s.judgePop h.index = .data d) :
    let u := popAct h.index s
    framePopAct s =
      if (u.move f.entry).pushes f.position then (u.setFrame (some ⟨f.entry, f.position + 1, some d⟩)).setMoveReq (some .framePush)
      else advanceFrame f.entry (f.position + 1) u := by
  simp only [framePopAct, hf, hs, hd]

/-- The push of the held word. -/
theorem framePushAct_held {h : Handle} {d : Word} (hf : s.frame = some f) (hh : f.held = some d) (hd : (s.move f.entry).dest = some h) :
    framePushAct s = advanceFrame f.entry f.position (pushAct (s.att h.index).ring true d s) := by
  simp only [framePushAct, hf, hh, hd]

theorem exec_moveFramePop (h : s.moveGranted .framePop) :
    exec .moveFramePop s = .next (placeStartCheck (framePopAct (s.setArb .move))) := by
  obtain ⟨-, -, hreq⟩ := id h
  refine (act_of_moveGranted h).trans ?_
  simp [grantMove, hreq]

theorem exec_moveFramePush (h : s.moveGranted .framePush) :
    exec .moveFramePush s = .next (placeStartCheck (framePushAct (s.setArb .move))) := by
  obtain ⟨-, -, hreq⟩ := id h
  refine (act_of_moveGranted h).trans ?_
  simp [grantMove, hreq]

end

/-- Settles O48: the pop by its answer, the push by the word held; the frame goes on by `advanceFrame`, as the statement writes it out. -/
theorem moveFrameRequestsInOrder : Obligations.MoveFrameRequestsInOrder := by
  intro s f hf e t goesOn
  refine ⟨fun h d hg hs hd => ?_, fun h d hg hs hd => ?_⟩
  · intro u
    have hpop : framePopAct t = if (u.move e).pushes f.position then
          (u.setFrame (some ⟨e, f.position + 1, some d⟩)).setMoveReq (some .framePush)
        else goesOn (f.position + 1) u := framePopAct_data (s := t) hf hs hd
    refine ⟨fun hp => ?_, fun hp => ?_⟩
    · rw [exec_moveFramePop hg, hpop, if_pos ((pushes_iff _ _).mpr hp)]
    · rw [exec_moveFramePop hg, hpop, if_neg (mt (pushes_iff _ _).mp hp)]
  · exact (exec_moveFramePush hg).trans (congrArg (fun u => Host.Outcome.next (placeStartCheck u)) (framePushAct_held (s := t) hf hd hs))

/-! ### The deferred unload (R84, R132) -/

section
variable {s : State} {f : Frame}

theorem exec_deferredUnload (h : s.moveGranted .unload) :
    exec .deferredUnload s = .next (placeStartCheck (unloadAct (s.setArb .move))) := by
  obtain ⟨-, -, hreq⟩ := id h
  refine (act_of_moveGranted h).trans ?_
  simp [grantMove, hreq]

/-- The entry's destination producer lost, when it is present (R84). -/
def State.destLost (s : State) (remains : Attachment → Bool) (e : Fin 16) : State :=
  match (s.move e).dest with
  | some h => withdrawAttachment remains h.index s
  | none => s

/-- The source reader goes first, then the destination that the entry then has. -/
theorem unloadWithdrawn_of_source {remains : Attachment → Bool} {e : Fin 16} {src : Handle} (hs : (s.move e).source = some src) :
    unloadWithdrawn remains e s =
      ((withdrawAttachment remains src.index s).destLost remains e).setMove e MoveEntry.cleared := by
  unfold unloadWithdrawn
  rw [hs]
  rfl

theorem unloadAct_of_frame (hf : s.frame = some f) :
    unloadAct s = ((unloadWithdrawn (fun _ => true) f.entry s).setFrame none).setMoveReq none := by
  simp only [unloadAct, hf]

end

/-- Settles O50: what the statement does to a lost attachment is `withdrawAttachment`, and the unload is `unloadWithdrawn_of_source`. -/
theorem deferredUnloadEmptiesTheEntry : Obligations.DeferredUnloadEmptiesTheEntry := by
  intro s f src hg hf hs lose
  have hlose : lose = withdrawAttachment (fun _ => true) := by
    funext i u
    change _ = detachLost i (postPeerLost i true (fun _ => true) u)
    simp only [lose]
    generalize postPeerLost i true (fun _ => true) u = told
    unfold detachLost
    cases (told.att i).role <;> rfl
  clear_value lose
  subst hlose
  intro s1 s2
  have hunload : unloadWithdrawn (fun _ => true) f.entry (s.setArb .move) = s2.setMove f.entry MoveEntry.cleared :=
    unloadWithdrawn_of_source (s := s.setArb .move) hs
  rw [exec_deferredUnload hg, unloadAct_of_frame (s := s.setArb .move) hf, hunload]

end Sys2Proof.Machine
end

