-- ==== Sys2Proof/Proofs/MoveCommands.lean ====
section
/-! PROOF. The commands on a move entry that is loaded: START_MOVE with its source-ended check (O42), FIRE_MOVE (O43), STOP_MOVE (O44) and
UNLOAD_MOVE (O45). -/

namespace Sys2Proof.Machine

/-! ### The entry that a command names (R117) -/

section
variable {s : State} {p : Port} {x : Args} {e : Fin 16}

theorem notOthers_of_mine (h : (s.move e).state = .empty ∨ (s.move e).owner = some p) : (s.move e).ownedByOther p = false := by
  rcases h with h | h
  · exact notOthers_of_empty h
  · simp [MoveEntry.ownedByOther, h]

/-- A move command's OK carries the entry's source ring and source handle as they stood before it (R117). -/
theorem answerMove_eq (e : Fin 16) (s u : State) :
    answerMove e s u = ⟨u, .ok, ⟨0, 0, 0, 0⟩, (s.move e).source.map fun h => (s.att h.index).ring, (s.move e).source⟩ := rfl

/-! ### STOP_MOVE (R123) -/

/-- An owned entry halts on STOP_MOVE: its owner is told of the runs done. -/
theorem haltEntry_stopped (ho : (s.move e).owner = some p) :
    haltEntry e .stopped s = post p .moveHalted ((s.move e).source.map fun h => (s.att h.index).ring) (s.move e).source
      (word ((s.move e).runsDone % 1024)) (s.setMove e { s.move e with state := .halted, haltReason := some .stopped }) := by
  rw [haltEntry_eq_tellOwner (SameRecord.refl s e), detailMoveHalted_stopped, tellOwner_some ho]

section
variable (he : x.w1.toNat = e.val) (hmine : (s.move e).ownedByOther p = false) (hu : (s.move e).unloadPending = false)
include he hmine hu

theorem runStopMove_started (h : (s.move e).state = .armed ∨ (s.move e).state = .waiting) :
    runStopMove p x s = answerMove e s (haltEntry e .stopped s) := by
  rcases h with h | h <;> simp [runStopMove, entryOfWord_eq he, hmine, hu, h]

theorem runStopMove_running (h : (s.move e).state = .running) :
    runStopMove p x s = answerMove e s (s.setMove e { s.move e with stopPending := true }) := by
  simp [runStopMove, entryOfWord_eq he, hmine, hu, h]

theorem runStopMove_resting (h : (s.move e).state = .loaded ∨ (s.move e).state = .done ∨ (s.move e).state = .halted) :
    runStopMove p x s = answerMove e s s := by
  rcases h with h | h | h <;> simp [runStopMove, entryOfWord_eq he, hmine, hu, h]

end

end

/-- Settles O44: `runStopMove` by the entry's state. -/
theorem stopMoveByTheEntrysState : Obligations.StopMoveByTheEntrysState := by
  intro s p e hg he hu hown m t ring answers
  have hmine : (t.move e).ownedByOther p = false := notOthers_of_mine (s := t) hown
  have answered : ∀ {u}, runStopMove p (s.port p).cmd.argCopy t = answerMove e t u → answers u := fun hrun =>
    (exec_stopMove hg).trans (by rw [hrun]; rfl)
  refine ⟨fun hstate => ?_, fun hstate => answered (runStopMove_running he hmine hu hstate),
    fun hstate => answered (runStopMove_resting he hmine hu hstate), fun hstate => ?_⟩
  · have howner : (t.move e).owner = some p := hown.resolve_left fun hempty => by
      rcases hstate with h | h <;> simp [hempty, m] at h
    exact answered ((runStopMove_started he hmine hu hstate).trans (congrArg (answerMove e t) (haltEntry_stopped howner)))
  · rw [exec_stopMove hg, (entryChecked_runStopMove p _ t).entryBusy he hmine (.inr hstate)]
    rfl

/-! ### UNLOAD_MOVE (R124) -/

section
variable {s : State} {p : Port} {x : Args} {e : Fin 16}

/-- The destination producer of an entry leaves without a seal, when it is present (R124). -/
def State.destLeft (s : State) (m : MoveEntry) : State :=
  match m.dest with
  | some h => detachProducerOpen h.index s
  | none => s

/-- The source reader leaves first, then the destination producer. -/
theorem unloadVoluntary_of_source {src : Handle} (hs : (s.move e).source = some src) :
    unloadVoluntary e s = ((detachReader src.index s).destLeft (s.move e)).setMove e MoveEntry.cleared := by
  unfold unloadVoluntary
  dsimp only
  rw [hs]
  rfl

theorem runUnloadMove_ok (he : x.w1.toNat = e.val) (hmine : (s.move e).ownedByOther p = false)
    (hu : (s.move e).unloadPending = false) (hempty : (s.move e).state ≠ .empty) (hrun : (s.move e).state ≠ .running) :
    runUnloadMove p x s = answerMove e s (unloadVoluntary e s) := by
  simp [runUnloadMove, entryOfWord_eq he, hmine, hu, hempty, hrun]

theorem runUnloadMove_busy (he : x.w1.toNat = e.val) (hmine : (s.move e).ownedByOther p = false)
    (h : (s.move e).state = .empty ∨ (s.move e).state = .running) : runUnloadMove p x s = failWith .entryBusy s := by
  simp [runUnloadMove, entryOfWord_eq he, hmine, h]

end

/-- Settles O45: `runUnloadMove` by the entry's state; the unload as `unloadVoluntary` has it. -/
theorem unloadMoveEmptiesTheEntry : Obligations.UnloadMoveEmptiesTheEntry := by
  intro s p e hg he hu hown m t
  have hmine : (t.move e).ownedByOther p = false := notOthers_of_mine (s := t) hown
  refine ⟨fun src hempty hrun hsrc => ?_, fun hstate => ?_⟩
  · intro s1 s2
    have hunload : unloadVoluntary e t = s2.setMove e MoveEntry.cleared := unloadVoluntary_of_source (s := t) hsrc
    have hsource : (t.move e).source = some src := hsrc
    rw [exec_unloadMove hg, runUnloadMove_ok he hmine hu hempty hrun, answerMove_eq, hunload, hsource]
    rfl
  · rw [exec_unloadMove hg, runUnloadMove_busy he hmine hstate]
    rfl

/-! ### FIRE_MOVE (R121, R122) -/

section
variable {s : State} {p : Port} {x : Args} {e : Fin 16}

theorem deliverTrigger_pending (hs : (s.move e).started = true) (hr : (s.move e).pendingRuns < 3) :
    deliverTrigger e s = s.setMove e { s.move e with pendingRuns := (s.move e).pendingRuns + 1 } := by
  simp [deliverTrigger, hs, hr]

theorem deliverTrigger_missed (hs : (s.move e).started = true) (hr : 3 ≤ (s.move e).pendingRuns) :
    let missed := min ((s.move e).missedTriggers + 1) 65535
    deliverTrigger e s = s.tellOwner e .triggerMissed (word missed) (s.setMove e { s.move e with missedTriggers := missed }) := by
  intro missed
  unfold deliverTrigger
  rw [if_pos hs, if_neg (Nat.not_lt.mpr hr)]
  exact postMove_eq_tellOwner (sameRecord_setMove rfl rfl fun _ => rfl)

theorem runFireMove_ok (he : x.w1.toNat = e.val) (hmine : (s.move e).ownedByOther p = false)
    (hu : (s.move e).unloadPending = false) (ht : (s.move e).trigger = .software) (hs : (s.move e).started = true) :
    runFireMove p x s = answerMove e s (deliverTrigger e s) := by
  simp [runFireMove, entryOfWord_eq he, hmine, hu, ht, hs]

theorem runFireMove_busy (he : x.w1.toNat = e.val) (hmine : (s.move e).ownedByOther p = false)
    (h : ¬((s.move e).trigger = .software ∧ (s.move e).started = true)) : runFireMove p x s = failWith .entryBusy s := by
  simp only [runFireMove, entryOfWord_eq he, hmine, Bool.false_eq_true, if_false]
  exact if_neg fun hc => h hc.2

end

/-- Settles O43: `runFireMove` by the entry's trigger and state, the delivery by its pending runs. -/
theorem fireMoveDeliversOneTrigger : Obligations.FireMoveDeliversOneTrigger := by
  intro s p e hg he howner hu m t ready answers
  have hmine : (t.move e).ownedByOther p = false := notOthers_of_mine (s := t) (.inr howner)
  have answered : ∀ {u}, ready → deliverTrigger e t = u → answers u := fun hr hu' => by
    refine (exec_fireMove hg).trans ?_
    rw [runFireMove_ok (s := t) he hmine hu hr.1 (MoveEntry.started_iff.mpr hr.2), hu']
    rfl
  refine ⟨fun hr hruns => answered hr (deliverTrigger_pending (s := t) (MoveEntry.started_iff.mpr hr.2) hruns),
    fun hr hruns => ?_, fun hr => ?_⟩
  · exact answered hr ((deliverTrigger_missed (s := t) (MoveEntry.started_iff.mpr hr.2) hruns).trans (tellOwner_some howner _ _ _))
  · rw [exec_fireMove hg, runFireMove_busy (s := t) he hmine fun hc => hr ⟨hc.1, MoveEntry.started_iff.mp hc.2⟩]
    rfl

/-! ### The source-ended check (R129) -/

section
variable {s : State} {e : Fin 16} {h : Handle} {f : Fin 32 → State → State}

/-- The entry's source ring is SEALED and holds less than a frame for it (R129). -/
def State.SourceEnded (s : State) (e : Fin 16) (h : Handle) : Prop :=
  (s.ring (s.att h.index).ring).state = .sealed ∧ (s.att h.index).fill < (s.move e).frameLen

theorem sourceHasEnded_iff (hs : (s.move e).source = some h) : s.sourceHasEnded e = true ↔ s.SourceEnded e h := by
  simp [State.sourceHasEnded, State.SourceEnded, hs]

/-- An attachment whose fill is discarded stays on its ring. -/
theorem attRing_emptied (s : State) (i j : Fin 32) : ((s.setAtt i { s.att i with fill := 0 }).att j).ring = (s.att j).ring := by
  rw [State.att_setAtt]
  split
  · rename_i hj
    rw [hj]
  · rfl

/-- The entry halted with its fill discarded and its owner told (R129, R130). -/
theorem sourceHalted_eq (hs : (s.move e).source = some h) :
    s.sourceHalted e = s.tellOwner e .moveHalted (word ((s.move e).runsDone % 1024 + 32768))
      ((s.setAtt h.index { s.att h.index with fill := 0 }).setMove e
        { s.move e with state := .halted, haltReason := some .sourceEnded }) := by
  have hfill : s.fillDiscarded e = s.setAtt h.index { s.att h.index with fill := 0 } := by
    unfold State.fillDiscarded
    rw [hs]
  rw [State.sourceHalted, hfill]
  exact haltEntry_eq_tellOwner ⟨rfl, rfl, attRing_emptied s h.index⟩

theorem sourceEndedCheckWith_not (hs : (s.move e).source = some h) (hn : ¬s.SourceEnded e h) : sourceEndedCheckWith f e s = s :=
  if_neg (mt (sourceHasEnded_iff hs).mp hn)

theorem sourceEndedCheckWith_halts (hs : (s.move e).source = some h) (hended : s.SourceEnded e h)
    (hd : (s.move e).propagateEnd = false ∨ (s.move e).dest = none) : sourceEndedCheckWith f e s = s.sourceHalted e := by
  unfold sourceEndedCheckWith
  rw [if_pos ((sourceHasEnded_iff hs).mpr hended)]
  dsimp only
  rcases hd with hp | hn
  · rw [if_neg (by simp [hp])]
    rfl
  · rw [hn]
    split <;> rfl

theorem sourceEndedCheckWith_propagates {d : Handle} (hs : (s.move e).source = some h) (hended : s.SourceEnded e h)
    (hp : (s.move e).propagateEnd = true) (hd : (s.move e).dest = some d) :
    sourceEndedCheckWith f e s = f d.index ((s.sourceHalted e).setMove e
      { s.move e with state := .halted, haltReason := some .sourceEnded, dest := none }) := by
  have hmove := move_sourceHalted s e e
  rw [if_pos rfl] at hmove
  unfold sourceEndedCheckWith
  rw [if_pos ((sourceHasEnded_iff hs).mpr hended)]
  dsimp only
  rw [if_pos hp, hd]
  change f d.index ((s.sourceHalted e).setMove e { (s.sourceHalted e).move e with dest := none }) = _
  rw [hmove]

end

/-! ### START_MOVE (R120) -/

/-- An entry started afresh (R120). -/
def MoveEntry.restarted (m : MoveEntry) : MoveEntry :=
  { m with state := .armed, runsDone := 0, pendingRuns := 0, framesDone := 0, stopPending := false, haltReason := none }

/-- The entry as START_MOVE leaves it when its source has ended (R120, R129). -/
def MoveEntry.endedAtStart (m : MoveEntry) : MoveEntry := { m.restarted with state := .halted, haltReason := some .sourceEnded }

/-- START_MOVE names an entry of its port that can be started (R117, R120). -/
structure Starts (s : State) (p : Port) (x : Args) (e : Fin 16) (h d : Handle) : Prop where
  names : x.w1.toNat = e.val
  owner : (s.move e).owner = some p
  notUnloading : (s.move e).unloadPending = false
  state : (s.move e).state = .loaded ∨ (s.move e).state = .done ∨ (s.move e).state = .halted
  source : (s.move e).source = some h
  dest : (s.move e).dest = some d

/-- The state in which the entry's owner has been told that the source has ended. -/
def State.toldEnded (s : State) (p : Port) (e : Fin 16) (h : Handle) : State :=
  post p .moveHalted (some (s.att h.index).ring) (some h) 0x8000
    ((s.setAtt h.index { s.att h.index with fill := 0 }).setMove e (s.move e).endedAtStart)

/-- The state in which the destination producer of the ended entry leaves its ring (R129). -/
def State.passingEnd (s : State) (p : Port) (e : Fin 16) (h : Handle) : State :=
  (s.toldEnded p e h).setMove e { (s.move e).endedAtStart with dest := none }

section
variable {s : State} {p : Port} {x : Args} {e : Fin 16} {h d : Handle}

theorem runStartMove_ok (hst : Starts s p x e h d) : runStartMove p x s =
    ⟨sourceEndedCheck e (s.setMove e (s.move e).restarted), .ok, ⟨0, 0, 0, 0⟩, some (s.att h.index).ring, some h⟩ := by
  have hok : runStartMove p x s = answerMove e s (sourceEndedCheck e (s.setMove e (s.move e).restarted)) := by
    simp only [runStartMove, entryOfWord_eq hst.names, notOthers_of_mine (.inr hst.owner), Bool.false_eq_true, if_false]
    exact if_pos ⟨hst.notUnloading, hst.state, by rw [hst.dest]; rfl⟩
  rw [hok, answerMove_eq, hst.source]
  rfl

theorem runStartMove_busy (he : x.w1.toNat = e.val) (hmine : (s.move e).ownedByOther p = false)
    (h : (s.move e).unloadPending = true ∨ (s.move e).dest = none ∨ (s.move e).state = .armed ∨ (s.move e).state = .waiting ∨
      (s.move e).state = .running) : runStartMove p x s = failWith .entryBusy s := by
  simp only [runStartMove, entryOfWord_eq he, hmine, Bool.false_eq_true, if_false]
  refine if_neg fun ⟨hu, hstate, hd⟩ => ?_
  rcases h with h | h | h | h | h <;> simp [h] at hu hstate hd

theorem move_restarted (s : State) (e : Fin 16) : (s.setMove e (s.move e).restarted).move e = (s.move e).restarted :=
  State.move_setMove_same _ _ _

/-- Starting the entry afresh leaves its source as it is. -/
theorem sourceEnded_restarted : (s.setMove e (s.move e).restarted).SourceEnded e h ↔ s.SourceEnded e h := by
  unfold State.SourceEnded
  rw [move_restarted]
  rfl

theorem sourceHalted_restarted (ho : (s.move e).owner = some p) (hs : (s.move e).source = some h) :
    (s.setMove e (s.move e).restarted).sourceHalted e = s.toldEnded p e h := by
  have hsource : (s.move e).restarted.source = some h := hs
  have hdetail : word (0 % 1024 + 32768) = 0x8000 := by decide
  rw [sourceHalted_eq (h := h) (by rw [move_restarted, hsource]), tellOwner_some (p := p) (by rw [move_restarted]; exact ho),
    move_restarted, hsource]
  change post p .moveHalted _ _ (word (0 % 1024 + 32768))
    (((s.setAtt h.index { s.att h.index with fill := 0 }).setMove e _).setMove e (s.move e).endedAtStart) = _
  rw [State.setMove_setMove, hdetail]
  rfl

theorem runStartMove_arms (hst : Starts s p x e h d) (hn : ¬s.SourceEnded e h) : runStartMove p x s =
    ⟨s.setMove e (s.move e).restarted, .ok, ⟨0, 0, 0, 0⟩, some (s.att h.index).ring, some h⟩ := by
  rw [runStartMove_ok hst, sourceEndedCheck,
    sourceEndedCheckWith_not (h := h) (by rw [move_restarted]; exact hst.source) (mt sourceEnded_restarted.mp hn)]

theorem runStartMove_halts (hst : Starts s p x e h d) (hended : s.SourceEnded e h) (hp : (s.move e).propagateEnd = false) :
    runStartMove p x s = ⟨s.toldEnded p e h, .ok, ⟨0, 0, 0, 0⟩, some (s.att h.index).ring, some h⟩ := by
  rw [runStartMove_ok hst, sourceEndedCheck,
    sourceEndedCheckWith_halts (h := h) (by rw [move_restarted]; exact hst.source) (sourceEnded_restarted.mpr hended)
      (by rw [move_restarted]; exact .inl hp), sourceHalted_restarted hst.owner hst.source]

theorem runStartMove_propagates (hst : Starts s p x e h d) (hended : s.SourceEnded e h) (hp : (s.move e).propagateEnd = true) :
    runStartMove p x s =
      ⟨sealBy .sourceEnded d.index (s.passingEnd p e h), .ok, ⟨0, 0, 0, 0⟩, some (s.att h.index).ring, some h⟩ := by
  rw [runStartMove_ok hst, sourceEndedCheck,
    sourceEndedCheckWith_propagates (h := h) (d := d) (by rw [move_restarted]; exact hst.source)
      (sourceEnded_restarted.mpr hended) (by rw [move_restarted]; exact hp) (by rw [move_restarted]; exact hst.dest),
    sourceHalted_restarted hst.owner hst.source, move_restarted]
  rfl

theorem move_passingEnd (s : State) (p : Port) (e e' : Fin 16) (h : Handle) : (s.passingEnd p e h).move e' =
    if e' = e then { (s.move e).endedAtStart with dest := none } else s.move e' := by
  rw [State.passingEnd, State.move_setMove, State.toldEnded, move_of_tables (tables_post _ _ _ _ _ _), State.move_setMove]
  split <;> rfl

theorem ring_passingEnd (s : State) (p : Port) (e r : Fin 16) (h : Handle) : (s.passingEnd p e h).ring r = s.ring r := rfl

theorem attRing_passingEnd (s : State) (p : Port) (e : Fin 16) (h : Handle) (i : Fin 32) :
    ((s.passingEnd p e h).att i).ring = (s.att i).ring := attRing_emptied s h.index i

/-- With no other entry started the end goes on to the destination ring alone: its producer leaves, and the ring is sealed, or freed when
it was the last attachment (R13, R129). -/
theorem sealBy_passingEnd {d : Handle} (hidle : ∀ e', e' ≠ e → (s.move e').state ≠ .armed ∧ (s.move e').state ≠ .waiting) :
    let r := (s.att d.index).ring
    let t := sealBy .sourceEnded d.index (s.passingEnd p e h)
    t.move e = { (s.move e).endedAtStart with dest := none } ∧ (t.att d.index).inUse = false ∧
      ((s.ring r).slots.occupied ≠ 0 →
        (t.ring r).state = .sealed ∧ (t.ring r).sealCause = some .sourceEnded ∧ (t.ring r).producer = none) ∧
      ((s.ring r).slots.occupied = 0 → (s.ring r).state ≠ .free → t.ring r = Ring.freed) := by
  intro r t
  have hentry : (s.passingEnd p e h).move e = { (s.move e).endedAtStart with dest := none } := by
    rw [move_passingEnd, if_pos rfl]
  have hunstarted : ∀ e', ((s.passingEnd p e h).move e').state ≠ .armed ∧ ((s.passingEnd p e h).move e').state ≠ .waiting := by
    intro e'
    rw [move_passingEnd]
    split
    · simp [MoveEntry.endedAtStart]
    · rename_i hne
      exact hidle e' hne
  have hkept : t.move e = (s.passingEnd p e h).move e := by
    refine ((departs_sealProducer _ _ _ _).entry e).eq (Bool.eq_false_iff.mpr fun hs => ?_)
    exact (MoveEntry.started_iff.mp hs).elim (hunstarted e).1 (hunstarted e).2
  obtain ⟨hgone, -, hsealed, -, hfreed⟩ := producerDepartureSealsOrFrees.2 (s.passingEnd p e h) .sourceEnded d.index hunstarted
  rw [attRing_passingEnd, ring_passingEnd] at hsealed hfreed
  refine ⟨hkept.trans hentry, hgone, fun hn => ?_, fun hn hs => (hfreed hn hs).1⟩
  obtain ⟨hstate, hcause, hproducer, -⟩ := hsealed hn
  exact ⟨hstate, hcause, hproducer⟩

end

/-- Settles O42: the check by whether the source has ended and the entry propagates its end; START_MOVE by the entry's state, and with
no other entry started by `sealBy_passingEnd`. -/
theorem startMoveArmsTheEntry : Obligations.StartMoveArmsTheEntry := by
  refine ⟨fun f s e h hs => ?_, fun s p e h d hg he ho hu hstate hs hd => ?_, fun s p e hg he ho hbusy => ?_⟩
  · intro m x ended halted t told
    have htold : s.sourceHalted e = told := by
      rw [sourceHalted_eq hs]
      unfold State.tellOwner
      rw [hs]
      rfl
    refine ⟨sourceEndedCheckWith_not hs, fun hended hstays => ?_, fun d hended hp hd => ?_, rfl⟩
    · rw [sourceEndedCheckWith_halts hs hended hstays, htold]
    · rw [sourceEndedCheckWith_propagates hs hended hp hd, htold]
  · intro x r armed halted ended told answers
    have hst : Starts (s.commandTaken p) p (s.port p).cmd.argCopy e h d := ⟨he, ho, hu, hstate, hs, hd⟩
    have answered : ∀ {u}, runStartMove p (s.port p).cmd.argCopy (s.commandTaken p) =
        ⟨u, .ok, ⟨0, 0, 0, 0⟩, some x.ring, some h⟩ → answers u := fun hrun => (exec_startMove hg).trans (by rw [hrun])
    refine ⟨fun hn => answered (runStartMove_arms hst hn), fun hend hp => answered (runStartMove_halts hst hend hp),
      fun hend hp => ?_⟩
    have hsealed := answered (runStartMove_propagates hst hend hp)
    refine ⟨hsealed, fun hidle => ⟨_, hsealed, ?_⟩⟩
    have htables : ∀ a, (placeStartCheck (finishCommand p a)).tables = a.after.tables := fun a =>
      (tables_placeStartCheck _).trans (tables_finishCommand _ _)
    simp only [move_of_tables (htables _), att_of_tables (htables _), ring_of_tables (htables _)]
    exact sealBy_passingEnd (s := s.commandTaken p) hidle
  · rw [exec_startMove hg, runStartMove_busy (s := s.commandTaken p) he (notOthers_of_mine (.inr ho)) hbusy]
    rfl

end Sys2Proof.Machine
end

