-- ==== Sys2Proof/Proofs/TimebaseCount.lean ====
section
/-! PROOF. The timebase count (O58): the chains of the ring controller, the port units, the grants and what falls due leave it alone, so
only the clock's own command moves it. Each command is brought once to the form in which it runs. -/

namespace Sys2Proof.Machine

/-- An effect that leaves the timebase count as it was. -/
def KeepsTimebase (f : State → State) : Prop := ∀ s, (f s).timebase = s.timebase

section
variable {s t : State} {f g : State → State}

theorem KeepsTimebase.comp (hg : KeepsTimebase g) (hf : KeepsTimebase f) : KeepsTimebase fun s => g (f s) := fun s =>
  (hg (f s)).trans (hf s)

theorem keepsTimebase_id : KeepsTimebase fun s => s := fun _ => rfl

theorem keepsTimebase_ite {c : State → Prop} [∀ s, Decidable (c s)] (hf : KeepsTimebase f) (hg : KeepsTimebase g) :
    KeepsTimebase fun s => if c s then f s else g s := fun s => by
  dsimp only
  split
  · exact hf s
  · exact hg s

theorem timebase_of_inner (h : t.inner = s.inner) : t.timebase = s.timebase := (congrArg State.timebase h :)

/-- An effect of the port units alone. -/
theorem keepsTimebase_of_inner (h : ∀ s, (f s).inner = s.inner) : KeepsTimebase f := fun s => timebase_of_inner (h s)

/-- An effect that is a chain of the ring controller. -/
theorem keepsTimebase_of_steps (h : ∀ s, RingSteps (May.all true) s (f s)) : KeepsTimebase f := fun s => (h s).keeps.timebase

theorem keepsTimebase_placeStartCheck : KeepsTimebase placeStartCheck := fun s => by
  obtain ⟨x, hx⟩ := placeStartCheck_eq_setMoveReq s
  rw [hx]
  rfl

/-! ### The grant of a data requester (R156, R170 to R174) -/

theorem timebase_applyAccess (kind : WindowKind) (acc : BusAccess) (offset : Nat) (a : AccessAnswer) (s : State) :
    (applyAccess kind acc offset a s).timebase = s.timebase :=
  (steps_applyAccess (m := May.all true) (.inl rfl) kind offset a s (.inl rfl)).keeps.timebase

theorem keepsTimebase_grantData (p : Port) : KeepsTimebase (grantData p) := fun s => by
  unfold grantData
  split
  · rfl
  · split
    · rfl
    · exact timebase_of_inner (inner_grantCheck _ _)
  · split
    · exact (timebase_of_inner (inner_finishParallel _ _ _ _ _ _)).trans (timebase_applyAccess _ _ _ _ _)
    · split
      · exact (timebase_of_inner ((inner_endIfReleased _ _).trans (inner_finishSerial _ _ _ _))).trans (timebase_applyAccess _ _ _ _ _)
      · rfl

/-! ### The grant of the move engine (R126 to R128, R132) -/

theorem timebase_examineEntry (acc : State × Bool) (e : Fin 16) : (examineEntry acc e).1.timebase = acc.1.timebase := by
  unfold examineEntry
  dsimp only
  split
  · rfl
  split
  · rfl
  split
  · unfold startFrame
    dsimp only
    split <;> rfl
  · rfl

theorem timebase_startCheckAct (s : State) : (startCheckAct s).timebase = s.timebase :=
  List.foldlRecOn (motive := fun acc : State × Bool => acc.1.timebase = s.timebase) _ _ rfl
    fun acc hacc e _ => (timebase_examineEntry acc e).trans hacc

theorem timebase_frameEnd (e : Fin 16) (s : State) : (frameEnd e s).timebase = s.timebase := by
  unfold frameEnd
  split
  · rfl
  dsimp only
  split
  · exact (steps_postMove (m := May.all true) _ _ _ _).keeps.timebase
  split
  · exact (steps_haltEntry (m := May.all true) _ _ _).keeps.timebase
  · exact (steps_sourceEndedCheck (m := May.all true) rfl _ _ (.inl rfl)).keeps.timebase

theorem timebase_advanceFrame (e : Fin 16) (position : Nat) (s : State) : (advanceFrame e position s).timebase = s.timebase := by
  unfold advanceFrame
  split
  · exact timebase_frameEnd e s
  · rfl

theorem timebase_framePopAct (s : State) : (framePopAct s).timebase = s.timebase := by
  unfold framePopAct
  split
  · rfl
  split
  · rfl
  rename_i h _
  have hpop : (popAct h.index s).timebase = s.timebase := (steps_popAct (m := May.all true) h.index s (.inl rfl)).keeps.timebase
  split
  case h_1 =>
    dsimp only
    split
    · exact hpop
    · exact (timebase_advanceFrame _ _ _).trans hpop
  all_goals rfl

theorem timebase_framePushAct (s : State) : (framePushAct s).timebase = s.timebase := by
  unfold framePushAct
  split
  · rfl
  split
  · exact (timebase_advanceFrame _ _ _).trans (steps_pushAct (m := May.all true) rfl _ _ _ _).keeps.timebase
  · rfl

theorem timebase_unloadAct (s : State) : (unloadAct s).timebase = s.timebase := by
  unfold unloadAct
  split
  · rfl
  · exact (steps_unloadWithdrawn (m := May.all true) rfl _ _ s (.inl rfl)).keeps.timebase

theorem keepsTimebase_grantMove : KeepsTimebase grantMove := fun s => by
  unfold grantMove
  split
  · rfl
  · exact timebase_startCheckAct s
  · exact timebase_framePopAct s
  · exact timebase_framePushAct s
  · exact timebase_unloadAct s

/-! ### The grant of a command requester (R69, R90) -/

/-- All that a command writes before its answer: a chain of the ring controller, or one pacer. -/
theorem runCommand_steps_or_setPacer (p : Port) (w : Word) (x : Args) (s : State) :
    RingSteps (May.all true) s (runCommand p w x s).after ∨ ∃ n y, (runCommand p w x s).after = s.setPacer n y := by
  have choose : ∀ {c : Prop} [Decidable c] {a b : CommandAnswer},
      (RingSteps (May.all true) s a.after ∨ ∃ n y, a.after = s.setPacer n y) →
      (RingSteps (May.all true) s b.after ∨ ∃ n y, b.after = s.setPacer n y) →
      RingSteps (May.all true) s (if c then a else b).after ∨ ∃ n y, (if c then a else b).after = s.setPacer n y := fun ha hb => by
    split
    · exact ha
    · exact hb
  have hring : RingSteps (May.all true) s (runQueryRing x s).after := by
    unfold runQueryRing
    split <;> exact .refl s
  have hattach : RingSteps (May.all true) s (runQueryAttach p x s).after := by
    unfold runQueryAttach
    split <;> exact .refl s
  have hpacer : RingSteps (May.all true) s (runSetPacer x s).after ∨ ∃ n y, (runSetPacer x s).after = s.setPacer n y := by
    unfold runSetPacer
    split
    · exact .inl (.refl s)
    · split
      · exact .inr ⟨_, _, rfl⟩
      · exact .inl (.refl s)
  have hq : Quietly (May.all true) s := .inl rfl
  exact choose (.inl (steps_runCreateRing rfl hq p x)) <|
    choose (.inl (steps_runAttach rfl hq p x)) <|
    choose (.inl (steps_runDetach rfl hq p x)) <|
    choose (.inl (steps_runRenew hq p x)) <|
    choose (.inl (steps_runSetThreshold p x)) <|
    choose (.inl hring) <|
    choose (.inl hattach) <|
    choose (.inl (steps_runLoadMove rfl hq p x)) <|
    choose (.inl (steps_runStartMove rfl hq p x)) <|
    choose (.inl (steps_runFireMove p x)) <|
    choose (.inl (steps_runStopMove p x)) <|
    choose (.inl (steps_runUnloadMove rfl hq p x)) <|
    choose hpacer <|
    .inl (.refl s)

theorem timebase_runCommand (p : Port) (w : Word) (x : Args) (s : State) : (runCommand p w x s).after.timebase = s.timebase := by
  rcases runCommand_steps_or_setPacer p w x s with h | ⟨n, y, h⟩
  · exact h.keeps.timebase
  · rw [h]
    rfl

theorem keepsTimebase_grantCommand (p : Port) : KeepsTimebase (grantCommand p) := fun s => by
  unfold grantCommand
  split
  · rfl
  · exact (timebase_of_inner (inner_finishCommand _ _)).trans (timebase_runCommand _ _ _ _)
  · exact (timebase_of_inner (inner_resetPrivate _ _ _)).trans (steps_withdrawn s p).keeps.timebase

/-! ### Grants, and the requests served before a word of a serial port (R65, R67) -/

theorem keepsTimebase_grantRequest (x : Requester) : KeepsTimebase (grantRequest x) := fun s => by
  cases x with
  | data p => exact keepsTimebase_grantData p (s.setArb (.data p))
  | move => exact keepsTimebase_grantMove (s.setArb .move)
  | command p => exact keepsTimebase_grantCommand p (s.setArb (.command p))

theorem keepsTimebase_grantWhen (x : Requester) (sort : State → Bool) : KeepsTimebase (grantWhen x sort) :=
  keepsTimebase_ite (keepsTimebase_grantRequest x) keepsTimebase_id

theorem keepsTimebase_grantNext : KeepsTimebase grantNext := fun s => by
  unfold grantNext
  split
  · exact keepsTimebase_placeStartCheck.comp (keepsTimebase_grantRequest _) s
  · rfl

theorem keepsTimebase_serveFor (p : SerPort) : ∀ n : Nat, KeepsTimebase (serveFor p n)
  | 0 => keepsTimebase_id
  | n + 1 => keepsTimebase_ite ((keepsTimebase_serveFor p n).comp keepsTimebase_grantNext) keepsTimebase_id

theorem keepsTimebase_serve (p : SerPort) : KeepsTimebase (serve p) := keepsTimebase_serveFor p 9

/-- A word of a serial frame, after the port's earlier request is served. -/
theorem keepsTimebase_word (p : SerPort) (hf : ∀ s, (f s).inner = s.inner) : KeepsTimebase fun s => clocked p f (serve p s) :=
  (keepsTimebase_of_inner fun s => inner_clocked s p hf).comp (keepsTimebase_serve p)

/-- An access of a control page, after the earlier request of a serial port is served. -/
theorem keepsTimebase_controlAccess (p : Port) (hf : ∀ s, (f s).inner = s.inner) : KeepsTimebase (controlAccess p f) := by
  have hserved : KeepsTimebase (serveBefore p) := fun s => by
    unfold serveBefore
    split
    · rfl
    · exact keepsTimebase_serve _ s
  exact keepsTimebase_ite ((keepsTimebase_of_inner hf).comp hserved) hserved

/-! ### What falls due (R72, R73, R138, R159) -/

theorem keepsTimebase_settleExpiries : KeepsTimebase settleExpiries :=
  keepsTimebase_of_steps fun s => steps_settleExpiries rfl s (.inl rfl)

theorem keepsTimebase_expirePacer (n : Fin 4) : KeepsTimebase (expirePacer n) := fun s => by
  refine (State.setPacer_timebase _ _ _).trans (RingSteps.keeps (m := May.all true) ?_).timebase
  refine steps_foldl _ (fun t e _ => ?_) _ s (.inl rfl)
  split
  · exact steps_deliverTrigger e t
  · exact .refl t

theorem keepsTimebase_settlePacers : KeepsTimebase settlePacers := fun s =>
  List.foldlRecOn (motive := fun t : State => t.timebase = s.timebase) _ _ rfl fun t ht n _ => by
    split
    · exact (keepsTimebase_expirePacer n t).trans ht
    · exact ht

theorem keepsTimebase_settleTick : KeepsTimebase settleTick :=
  keepsTimebase_ite (keepsTimebase_settleExpiries.comp (f := takeTick) fun _ => rfl) keepsTimebase_id

theorem keepsTimebase_settleStall (p : ParPort) : KeepsTimebase (settleStall p) := keepsTimebase_of_steps (steps_settleStall p)

theorem keepsTimebase_settle : KeepsTimebase settle :=
  keepsTimebase_ite keepsTimebase_id <| keepsTimebase_placeStartCheck.comp <| (keepsTimebase_settleStall .b).comp <|
    (keepsTimebase_settleStall .a).comp <| keepsTimebase_settlePacers.comp <|
    keepsTimebase_settleTick.comp keepsTimebase_settleExpiries

theorem keepsTimebase_answerWaiting (p : ParPort) : KeepsTimebase (answerWaiting p) := keepsTimebase_of_steps fun s => by
  unfold answerWaiting
  split
  · exact (steps_examineWaiting _ p s (.inl rfl)).trans (steps_reexamine _ _ (.inl rfl))
  · exact .refl s

/-! ### The form in which a command runs -/

/-- A command is of device reset, or the command of an event that falls due; or it runs `settled`: a pin takes its level, and its effect
comes once what is due is settled (assumption 2), which but for the clock's leaves the count alone. -/
inductive Runs : Instr → Prop where
  | deviceReset : Runs .deviceReset
  | deviceResetRelease : Runs .deviceResetRelease
  | leaseTick : Runs .leaseTick
  | leaseExpiry : Runs .leaseExpiry
  | pacerExpiry (n : Fin 4) : Runs (.pacerExpiry n)
  | stallTimeout (p : ParPort) : Runs (.stallTimeout p)
  | settled {c : Instr} {pin f : State → State} (exec_eq : ∀ s, exec c s = pinAct pin f s) (hpin : KeepsTimebase pin)
      (hf : c ≠ .timebaseAdvance → KeepsTimebase f) : Runs c

/-- An act without a pin. -/
theorem Runs.of_act {c : Instr} (exec_eq : ∀ s, exec c s = act f s) (hf : KeepsTimebase f) : Runs c :=
  .settled (pin := fun s => s) exec_eq keepsTimebase_id fun _ => hf

theorem Runs.of_pinAct {c : Instr} (pin : State → State) (exec_eq : ∀ s, exec c s = pinAct pin f s)
    (hpin : ∀ s, (pin s).timebase = s.timebase) (hf : KeepsTimebase f) : Runs c := .settled exec_eq hpin fun _ => hf

theorem runs (c : Instr) : Runs c := by
  have grant : ∀ {x sort}, (∀ s, exec c s = act (grantWhen x sort) s) → Runs c := fun h => .of_act h (keepsTimebase_grantWhen _ _)
  have header : ∀ {p op w count}, (∀ s, exec c s = act (clockHeader p op w count) s) → Runs c :=
    fun h => .of_act h (keepsTimebase_of_inner fun s => inner_clockHeader s _ _ _ _)
  cases c with
  | deviceReset => exact .deviceReset
  | deviceResetRelease => exact .deviceResetRelease
  | leaseTick => exact .leaseTick
  | leaseExpiry => exact .leaseExpiry
  | pacerExpiry n => exact .pacerExpiry n
  | stallTimeout p => exact .stallTimeout p
  | timebaseAdvance =>
    exact .settled (pin := fun s => s) (f := advanceTime) (fun _ => rfl) keepsTimebase_id fun h => absurd rfl h
  | parallelCycleStart p acc addr =>
    exact .of_pinAct (setStrobe p true) (fun _ => rfl) (fun _ => rfl) <|
      keepsTimebase_ite (c := fun s => (s.parUnit p).takesCycle = true) (g := setStrobe p true)
        (keepsTimebase_of_inner fun s => inner_startCycle (setStrobe p true s) p acc addr) fun _ => rfl
  | strobeRelease p =>
    exact .of_pinAct (setStrobe p false) (fun _ => rfl) (fun _ => rfl) (keepsTimebase_of_inner fun s => inner_releaseStrobe s p)
  | portReset p =>
    exact .of_pinAct (setResetPin p true) (fun _ => rfl) (fun _ => rfl) <|
      keepsTimebase_ite (c := fun s => (s.parUnit p).resetHeld = true) keepsTimebase_id
        (keepsTimebase_of_inner fun s => inner_ariseWithdrawal (setResetPin p true s) p.toPort false true)
  | portResetRelease p => exact .of_pinAct (setResetPin p false) (fun _ => rfl) (fun _ => rfl) fun _ => rfl
  | serialFrameStart p =>
    exact .of_pinAct (setSelect p true) (fun _ => rfl) (fun _ => rfl) <|
      keepsTimebase_ite (c := fun s => (s.serUnit p).selectHeld = true) keepsTimebase_id
        ((keepsTimebase_of_inner fun s => inner_beginFrame s p).comp (keepsTimebase_serve p))
  | serialFrameEnd p =>
    exact .of_pinAct (setSelect p false) (fun _ => rfl) (fun _ => rfl) (keepsTimebase_of_inner fun s => inner_releaseSelect s p)
  | serialAddressWord p address =>
    exact .of_act (fun _ => rfl) (keepsTimebase_of_inner fun s => inner_clocked s p fun t => inner_takeAddress t p address)
  | serialDataWord p moment => exact .of_act (fun _ => rfl) (keepsTimebase_word p fun s => inner_dataWord s p moment)
  | beyondCountWord p => exact .of_act (fun _ => rfl) (keepsTimebase_word p fun s => inner_beginBeyond s p)
  | waitingAccessAnswer p => exact .of_act (fun _ => rfl) (keepsTimebase_answerWaiting p)
  | timebaseLowRead p => exact .of_act (fun _ => rfl) (keepsTimebase_controlAccess p fun _ => rfl)
  | eventAcknowledge p _ => exact .of_act (fun _ => rfl) (keepsTimebase_controlAccess p fun _ => rfl)
  | controlWordWrite p offset v =>
    exact .of_act (fun _ => rfl) (keepsTimebase_controlAccess p fun s => inner_controlWriteAct s p offset.toNat v)
  | commandSubmit p w => exact .of_act (fun _ => rfl) (keepsTimebase_controlAccess p fun s => inner_submit s p w)
  | withdraw p => exact .of_act (fun _ => rfl) (keepsTimebase_controlAccess p fun s => inner_submit s p codeWithdraw)
  | statusOnly | streamRead | streamWrite | pageRead | pageWrite | controlRead | controlWrite | withdrawFrame =>
    exact header fun _ => rfl
  | serialWindowCheck | push | pop | pageWindowRead | pageWindowWrite | withdrawal | badCommand | createRing | attach | detach | renew
  | setThreshold | queryRing | queryAttach | loadMove | startMove | fireMove | stopMove | unloadMove | setPacer | startCheck
  | moveFramePop | moveFramePush | deferredUnload => exact grant fun _ => rfl

/-! ### Every command -/

theorem timebase_dueAct (hf : KeepsTimebase f) (ht : dueAct f s = .next t) : t.timebase = s.timebase := by
  unfold dueAct at ht
  split at ht
  · rw [← Host.Outcome.next.inj ht]
  · rw [← Host.Outcome.next.inj ht, keepsTimebase_placeStartCheck, hf]

theorem timebase_pinAct {pin : State → State} (hpin : KeepsTimebase pin) (hf : KeepsTimebase f) (ht : pinAct pin f s = .next t) :
    t.timebase = s.timebase := by
  unfold pinAct at ht
  split at ht
  · rw [← Host.Outcome.next.inj ht, hpin]
  · rw [← Host.Outcome.next.inj ht, keepsTimebase_placeStartCheck, hf, keepsTimebase_settle]

/-- No command but the clock's and device reset reaches the count. -/
theorem timebase_exec {c : Instr} (hr : c ≠ .deviceReset) (ha : c ≠ .timebaseAdvance) (ht : exec c s = .next t) :
    t.timebase = s.timebase := by
  cases runs c with
  | deviceReset => exact absurd rfl hr
  | deviceResetRelease => exact (congrArg State.timebase (Host.Outcome.next.inj ht)).symm
  | leaseTick =>
    unfold exec execLeaseTick at ht
    exact timebase_dueAct
      (keepsTimebase_ite (KeepsTimebase.comp (g := takeTick) (fun _ => rfl) keepsTimebase_settleExpiries) keepsTimebase_id) ht
  | leaseExpiry =>
    unfold exec execLeaseExpiry at ht
    refine timebase_dueAct (fun u => ?_) ht
    split
    · exact (steps_expireLease (m := May.all true) rfl _ u (.inl rfl)).keeps.timebase
    · rfl
  | pacerExpiry n =>
    unfold exec execPacerExpiry at ht
    exact timebase_dueAct
      (keepsTimebase_ite ((keepsTimebase_expirePacer n).comp keepsTimebase_settleExpiries) keepsTimebase_id) ht
  | stallTimeout p =>
    unfold exec execStallTimeout at ht
    exact timebase_dueAct
      ((keepsTimebase_settleStall p).comp (keepsTimebase_ite keepsTimebase_settleExpiries keepsTimebase_id)) ht
  | settled exec_eq hpin hf => exact timebase_pinAct hpin (hf ha) ((exec_eq s).symm.trans ht)

/-- An advance moves the count by 1 (R133). -/
theorem timebase_advanceTime (s : State) : (advanceTime s).timebase = s.timebase + 1 := rfl

end

/-- Settles O58: each command by the form in which it runs; the clock's effect alone writes the count. -/
theorem onlyTheClockMovesTheTimebase : Obligations.OnlyTheClockMovesTheTimebase := by
  refine fun c s t ht => ⟨fun hc => ?_, fun hc => ?_, fun hr ha => timebase_exec hr ha ht⟩
  · subst hc
    exact (congrArg State.timebase (Host.Outcome.next.inj ht)).symm
  · subst hc
    change act advanceTime s = .next t at ht
    unfold act at ht
    split at ht
    · rename_i hreset
      rw [← Host.Outcome.next.inj ht, if_pos hreset]
    · rename_i hreset
      rw [← Host.Outcome.next.inj ht, if_neg hreset, keepsTimebase_placeStartCheck, timebase_advanceTime, keepsTimebase_settle]

end Sys2Proof.Machine
end

