-- ==== Sys2Proof/Proofs/Pacers.lean ====
section
/-! PROOF. Pacers: the expiry with the triggers it delivers (O6), and the command that programs one (O46). -/

namespace Sys2Proof.Machine

/-! ### A trigger of a pacer (R121, R138) -/

/-- An entry after an expiry of pacer `n`, by its own state: a run more is pending, or, with three pending, the trigger is missed. -/
def MoveEntry.triggered (m : MoveEntry) (n : Fin 4) : MoveEntry :=
  if m.trigger = .pacer n ∧ (m.state = .armed ∨ m.state = .waiting) then
    if m.pendingRuns < 3 then { m with pendingRuns := m.pendingRuns + 1 }
    else { m with missedTriggers := min (m.missedTriggers + 1) 65535 }
  else m

/-- TRIGGER_MISSED for an entry that misses the trigger of pacer `n`, posted in state `u` by the entry's record in `s`. -/
def State.missNotice (s : State) (n : Fin 4) (u : State) (e : Fin 16) : State :=
  if (s.move e).trigger = .pacer n ∧ ((s.move e).state = .armed ∨ (s.move e).state = .waiting) ∧ 3 ≤ (s.move e).pendingRuns then
    s.tellOwner e .triggerMissed (word (min ((s.move e).missedTriggers + 1) 65535)) u
  else u

/-- The delivery of a pacer's trigger to an entry, where it names the pacer. -/
def triggerNamed (n : Fin 4) (u : State) (e : Fin 16) : State :=
  if (u.move e).trigger = .pacer n then deliverTrigger e u else u

section
variable {s u : State} {n : Fin 4} {e : Fin 16}

theorem tellOwner_congr (he : u.move e = s.move e) (ha : u.atts = s.atts) (k : EventKind) (d : Word) (v : State) :
    u.tellOwner e k d v = s.tellOwner e k d v := by
  simp only [State.tellOwner, State.att, he, ha]

/-- An entry that does not name the pacer, or is neither ARMED nor WAITING, has no trigger delivered. -/
theorem triggerNamed_of_unheard (h : ¬((u.move e).trigger = .pacer n ∧ ((u.move e).state = .armed ∨ (u.move e).state = .waiting))) :
    triggerNamed n u e = u := by
  unfold triggerNamed
  split
  · rename_i hn
    exact if_neg fun hs => h ⟨hn, MoveEntry.started_iff.mp hs⟩
  · rfl

/-- An entry not yet reached has its trigger delivered by its record in `s`, which is the one it still has. -/
theorem triggerNamed_eq (he : u.move e = s.move e) (ha : u.atts = s.atts) :
    triggerNamed n u e = s.missNotice n (u.setMove e ((s.move e).triggered n)) e := by
  by_cases hh : (s.move e).trigger = .pacer n ∧ ((s.move e).state = .armed ∨ (s.move e).state = .waiting)
  · have hstarted : (u.move e).started = true := MoveEntry.started_iff.mpr (he ▸ hh.2)
    rw [triggerNamed, if_pos (he ▸ hh.1), MoveEntry.triggered, if_pos hh, State.missNotice]
    by_cases hr : (s.move e).pendingRuns < 3
    · rw [deliverTrigger_pending hstarted (he ▸ hr), he, if_pos hr, if_neg fun hm => Nat.not_lt.mpr hm.2.2 hr]
    · have hr' : 3 ≤ (s.move e).pendingRuns := Nat.not_lt.mp hr
      rw [deliverTrigger_missed hstarted (he ▸ hr'), tellOwner_congr he ha, he, if_neg hr, if_pos ⟨hh.1, hh.2, hr'⟩]
  · rw [triggerNamed_of_unheard (he ▸ hh), MoveEntry.triggered, if_neg hh, State.missNotice, if_neg fun hm => hh ⟨hm.1, hm.2.1⟩,
      ← he, State.setMove_move]

/-! ### The notices reach the ports alone -/

/-- The state with another move list. -/
def State.withMoves (s : State) (v : Vector MoveEntry 16) : State := { s with moves := v }

/-- The state with other port units. -/
def State.withPorts (s : State) (x : Four PortUnit) : State := { s with ports := x }

theorem missNotice_writes_ports (u : State) (e : Fin 16) : s.missNotice n u e = u.withPorts (s.missNotice n u e).ports := by
  unfold State.missNotice State.tellOwner
  split
  · split <;> rfl
  · rfl

theorem missNotice_withMoves (v : Vector MoveEntry 16) (u : State) (e : Fin 16) :
    s.missNotice n (u.withMoves v) e = (s.missNotice n u e).withMoves v := by
  unfold State.missNotice State.tellOwner
  split
  · split <;> rfl
  · rfl

theorem foldl_missNotice_writes_ports (l : List (Fin 16)) (u : State) :
    l.foldl (s.missNotice n) u = u.withPorts (l.foldl (s.missNotice n) u).ports :=
  List.foldlRecOn (motive := fun t : State => t = u.withPorts t.ports) _ _ rfl fun t ht e _ => by
    rw [missNotice_writes_ports t e, ht]
    rfl

theorem foldl_missNotice_withMoves (v : Vector MoveEntry 16) (l : List (Fin 16)) (u : State) :
    l.foldl (s.missNotice n) (u.withMoves v) = (l.foldl (s.missNotice n) u).withMoves v :=
  List.foldl_hom (fun t : State => t.withMoves v) fun t e => missNotice_withMoves v t e

/-! ### All the triggers of an expiry -/

/-- A move list with the entries of `s` at some indices triggered. -/
def State.triggeredMoves (s : State) (n : Fin 4) (v : Vector MoveEntry 16) (l : List (Fin 16)) : Vector MoveEntry 16 :=
  l.foldl (fun v e => tablePut v e ((s.move e).triggered n)) v

theorem tableGet_triggeredMoves (e : Fin 16) : ∀ (l : List (Fin 16)) (v : Vector MoveEntry 16),
    tableGet (s.triggeredMoves n v l) e = if e ∈ l then (s.move e).triggered n else tableGet v e
  | [], v => by simp [State.triggeredMoves]
  | e' :: l, v => by
    refine (tableGet_triggeredMoves e l _).trans ?_
    rw [tableGet_tablePut]
    by_cases h : e = e'
    · subst h
      simp
    · simp [h]

/-- Each entry is reached once, so each is judged by its record in `s`. -/
theorem foldl_triggerNamed : ∀ (l : List (Fin 16)) {u : State}, l.Nodup → (∀ e ∈ l, u.move e = s.move e) → u.atts = s.atts →
    l.foldl (triggerNamed n) u = (l.foldl (s.missNotice n) u).withMoves (s.triggeredMoves n u.moves l)
  | [], _, _, _, _ => rfl
  | e :: l, u, hl, hm, ha => by
    have hstep : triggerNamed n u e = (s.missNotice n u e).withMoves (tablePut u.moves e ((s.move e).triggered n)) :=
      (triggerNamed_eq (hm e List.mem_cons_self) ha).trans (missNotice_withMoves _ u e)
    have hatts : (s.missNotice n u e).atts = s.atts := (congrArg State.atts (missNotice_writes_ports u e) :).trans ha
    have hrest : ∀ e' ∈ l, ((s.missNotice n u e).withMoves (tablePut u.moves e ((s.move e).triggered n))).move e' = s.move e' :=
      fun e' he' => by
        have hne : e' ≠ e := fun h => (List.nodup_cons.mp hl).1 (h ▸ he')
        exact (tableGet_tablePut_ne _ _ _ _ hne).trans (hm e' (List.mem_cons_of_mem _ he'))
    rw [List.foldl_cons, List.foldl_cons, hstep, foldl_triggerNamed l (List.nodup_cons.mp hl).2 hrest hatts,
      foldl_missNotice_withMoves]
    rfl

/-! ### The expiry (R136, R138) -/

theorem expirePacer_def (n : Fin 4) (s : State) : expirePacer n s =
    let t := (List.finRange 16).foldl (triggerNamed n) s
    t.setPacer n { t.pacer n with count := (t.pacer n).period, due := false } := rfl

/-- The triggers of an expiry write the ports' queues and the move list. -/
theorem triggers_write (n : Fin 4) (s : State) : ∃ x v,
    (List.finRange 16).foldl (triggerNamed n) s = (s.withPorts x).withMoves v ∧
      x = ((List.finRange 16).foldl (s.missNotice n) s).ports ∧ ∀ e, tableGet v e = (s.move e).triggered n :=
  ⟨_, s.triggeredMoves n s.moves (List.finRange 16),
    (foldl_triggerNamed _ (List.nodup_finRange 16) (fun _ _ => rfl) rfl).trans
      (congrArg (State.withMoves · _) (foldl_missNotice_writes_ports _ s)),
    rfl, fun e => (tableGet_triggeredMoves e _ _).trans (if_pos (List.mem_finRange e))⟩

/-- An expiry writes its own pacer besides. -/
theorem expirePacer_writes (n : Fin 4) (s : State) : ∃ x v,
    expirePacer n s = ((s.withPorts x).withMoves v).setPacer n { s.pacer n with count := (s.pacer n).period, due := false } ∧
      x = ((List.finRange 16).foldl (s.missNotice n) s).ports ∧ ∀ e, tableGet v e = (s.move e).triggered n := by
  obtain ⟨x, v, hwrites, hx, hv⟩ := triggers_write n s
  refine ⟨x, v, ?_, hx, hv⟩
  rw [expirePacer_def, hwrites]
  rfl

theorem pacerDue_iff : s.pacerDue n = true ↔ (s.pacer n).enabled = true ∧ (s.pacer n).due = true := by
  simp [State.pacerDue]

/-- PACER_EXPIRY takes the outstanding lease expiries before its own (assumption 2). -/
theorem exec_pacerExpiry (hr : s.deviceReset = false) (hn : s.pacerDue n = true) :
    exec (.pacerExpiry n) s = .next (placeStartCheck (expirePacer n (settleExpiries s))) := by
  refine (dueAct_of_running _ hr).trans ?_
  rw [if_pos hn]

end

/-- Settles O6: the expiry written out; the start check after it writes the engine's request alone. -/
theorem pacerExpiryDeliversAndReloads : Obligations.PacerExpiryDeliversAndReloads := by
  intro s n hr hd he hdue
  obtain ⟨x, v, hwrites, hx, hv⟩ := expirePacer_writes n s
  obtain ⟨q, hq⟩ := placeStartCheck_eq_setMoveReq (expirePacer n s)
  refine ⟨(expirePacer n s).setMoveReq q, ?_, ?_⟩
  · rw [exec_pacerExpiry hr (pacerDue_iff.mpr ⟨he, hdue⟩), settleExpiries_of_none hd, hq]
  · rw [hwrites]
    refine ⟨State.pacer_setPacer_same _ _ _, fun m hm => ?_, hv, ?_, rfl, rfl, rfl, rfl, rfl, rfl, rfl, rfl, rfl, rfl, rfl, rfl⟩
    · exact (State.pacer_setPacer _ _ _ _).trans (if_neg hm)
    · exact hx

/-! ### SET_PACER (R137) -/

section
variable {s : State} {p : Port} {x : Args} {n : Fin 4}

theorem exec_setPacer (h : s.commandGranted p codeSetPacer) : exec (.setPacer p) s =
    .next (placeStartCheck (finishCommand p (runSetPacer (s.port p).cmd.argCopy (s.commandTaken p)))) := act_of_granted h

theorem runSetPacer_ok {enable : Bool} (hn : x.w1.toNat = n.val) (hp : x.w2 ≠ 0) (hf : flagOfWord x.w3 = some enable) :
    runSetPacer x s = ⟨s.setPacer n ((s.pacer n).program x.w2.toNat enable), .ok, ⟨0, 0, 0, 0⟩, none, none⟩ := by
  have hperiod : x.w2.toNat ≠ 0 := fun h => hp (BitVec.eq_of_toNat_eq h)
  rw [runSetPacer, hf]
  dsimp only
  rw [if_pos ⟨by omega, hperiod⟩, hn, Fin.ofNat_val_eq_self]
  rfl

theorem runSetPacer_badArg (h : 3 < x.w1.toNat ∨ x.w2 = 0 ∨ 1 < x.w3.toNat) : runSetPacer x s = failWith .badArg s := by
  unfold runSetPacer
  split
  · rfl
  · rename_i enable hf
    refine if_neg fun hargs => ?_
    rcases h with h | h | h
    · exact absurd hargs.1 (Nat.not_le.mpr h)
    · exact hargs.2 (by rw [h]; rfl)
    · rw [flagOfWord_none h] at hf
      exact Option.some_ne_none enable hf.symm

theorem program_disabled {y : Pacer} (h : y.enabled = false) (period : Nat) :
    y.program period true = ⟨true, period, period, false⟩ := by
  simp [Pacer.program, h]

theorem program_enabled {y : Pacer} (h : y.enabled = true) (period : Nat) :
    y.program period true = ⟨true, period, y.count, false⟩ := by
  simp [Pacer.program, h]

end

/-- Settles O46: `runSetPacer` by its operands, the pacer by its enable flag before. -/
theorem setPacerProgramsOnePacer : Obligations.SetPacerProgramsOnePacer := by
  intro s p hg x t answers
  have programmed : ∀ {n : Fin 4} {enable : Bool} {y : Pacer}, x.w1.toNat = n.val → x.w2 ≠ 0 → flagOfWord x.w3 = some enable →
      (s.pacer n).program x.w2.toNat enable = y → answers (t.setPacer n y) := fun hn hp hf hy => by
    refine (exec_setPacer hg).trans ?_
    rw [runSetPacer_ok (s := s.commandTaken p) hn hp hf, ← hy]
    rfl
  refine ⟨fun n hn hp => ⟨fun h3 he => ?_, fun h3 he => ?_, fun h3 => ?_⟩, fun h => ?_⟩
  · exact programmed hn hp (h3 ▸ flagOfWord_one) (program_disabled he _)
  · exact programmed hn hp (h3 ▸ flagOfWord_one) (program_enabled he _)
  · exact programmed hn hp (h3 ▸ flagOfWord_zero) rfl
  · rw [exec_setPacer hg, runSetPacer_badArg h]
    rfl

end Sys2Proof.Machine
end

