-- ==== Sys2Proof/Proofs/TimebaseAdvance.lean ====
section
/-! PROOF. The advance of the timebase (O4): what it moves, what it makes due, and how what is due is settled before a later act. -/

namespace Sys2Proof.Machine

section
variable {s u : State}

/-! ### What is due (R73, R135, R138, R159) -/

theorem stallDue_iff {p : ParPort} : s.stallDue p = true ↔ (s.parUnit p).cycleState = .waiting ∧ (s.parUnit p).stallTimer = 0 := by
  simp [State.stallDue]

theorem quiet_iff : s.quiet = true ↔ s.tickDue = false ∧ (∀ i, (s.att i).expired = false) ∧ (∀ n, s.pacerDue n = false) ∧
    ∀ p, s.stallDue p = false := by
  have hexpiry : s.dueExpiry.isNone = true ↔ ∀ i, (s.att i).expired = false := Option.isNone_iff_eq_none.trans find?_finRange_none
  have hstall : (∀ p, s.stallDue p = false) ↔ s.stallDue .a = false ∧ s.stallDue .b = false :=
    ⟨fun h => ⟨h .a, h .b⟩, fun h p => by cases p; exacts [h.1, h.2]⟩
  simp [State.quiet, hexpiry, hstall, and_assoc]

/-! ### Expiries one after another (R73) -/

/-- The next expiry is taken, where one is due. -/
def expireNext (u : State) : State :=
  match u.dueExpiry with
  | some i => expireLease i u
  | none => u

theorem takeExpiries_eq_iterate : ∀ (n : Nat) (s : State), takeExpiries n s = expireNext^[n] s
  | 0, _ => rfl
  | n + 1, s => by
    rw [Function.iterate_succ_apply, takeExpiries, expireNext]
    cases h : s.dueExpiry with
    | some i => exact takeExpiries_eq_iterate n _
    | none =>
      have hfixed : expireNext s = s := by rw [expireNext, h]
      exact (Function.iterate_fixed hfixed n).symm

/-! ### Everything that is due, in its order -/

theorem settlePacers_eq (s : State) : settlePacers s = (List.finRange 4).foldl
    (fun u n => if (u.pacer n).enabled = true ∧ (u.pacer n).due = true then expirePacer n u else u) s :=
  congrArg (fun f => (List.finRange 4).foldl f s) (funext₂ fun _ _ => if_congr pacerDue_iff rfl rfl)

theorem settleStall_eq (p : ParPort) (s : State) : settleStall p s =
    if (s.parUnit p).cycleState = .waiting ∧ (s.parUnit p).stallTimer = 0 then expireStall p s else s :=
  if_congr stallDue_iff rfl rfl

theorem exec_leaseExpiry_eq (hr : s.deviceReset = false) : exec .leaseExpiry s = .next (placeStartCheck (expireNext s)) := by
  unfold exec execLeaseExpiry
  exact dueAct_of_running _ hr

theorem exec_pacerExpiry_eq (hr : s.deviceReset = false) (n : Fin 4) : exec (.pacerExpiry n) s = .next (placeStartCheck
    (if (s.pacer n).enabled = true ∧ (s.pacer n).due = true then expirePacer n (settleExpiries s) else s)) := by
  refine (dueAct_of_running _ hr).trans ?_
  rw [if_congr pacerDue_iff rfl rfl]

/-- An expiry taken before the stall limit may itself end the access (R160). -/
theorem exec_stallTimeout_eq (hr : s.deviceReset = false) (p : ParPort) : exec (.stallTimeout p) s = .next (placeStartCheck
    (if (s.parUnit p).cycleState = .waiting ∧ (s.parUnit p).stallTimer = 0 then settleStall p (settleExpiries s) else s)) := by
  unfold exec execStallTimeout
  refine (dueAct_of_running _ hr).trans ?_
  rw [if_congr stallDue_iff rfl rfl]
  split
  · rfl
  · rename_i hdue
    rw [settleStall_eq, if_neg hdue]

/-! ### Later acts -/

theorem pinAct_of_running (pin f : State → State) (hr : s.deviceReset = false) :
    pinAct pin f s = .next (placeStartCheck (f (settle s))) := by
  simp [pinAct, hr]

/-- Every command but device reset's and those of the due events is an effect on what has settled. -/
theorem exists_settled {c : Instr} (hreset : c ≠ .deviceReset) (hrelease : c ≠ .deviceResetRelease) (htick : c ≠ .leaseTick)
    (hexpiry : c ≠ .leaseExpiry) (hpacer : ∀ n, c ≠ .pacerExpiry n) (hstall : ∀ p, c ≠ .stallTimeout p) :
    ∃ f : State → State, ∀ s, s.deviceReset = false → exec c s = .next (placeStartCheck (f (settle s))) := by
  cases runs c with
  | deviceReset => exact absurd rfl hreset
  | deviceResetRelease => exact absurd rfl hrelease
  | leaseTick => exact absurd rfl htick
  | leaseExpiry => exact absurd rfl hexpiry
  | pacerExpiry n => exact absurd rfl (hpacer n)
  | stallTimeout p => exact absurd rfl (hstall p)
  | settled exec_eq _ _ => exact ⟨_, fun s hr => (exec_eq s).trans (pinAct_of_running _ _ hr)⟩

/-! ### The advance (R133, R135, R136, R159) -/

theorem ParallelUnit.advanced_eq (x : ParallelUnit) :
    x.advanced = if x.cycleState = .waiting then { x with stallTimer := x.stallTimer - 1 } else x := by
  unfold ParallelUnit.advanced
  cases h : x.cycleState <;> rfl

/-- A tick that falls while an earlier one is still to be taken is the same tick due. -/
theorem advanceDivider_eq (s : State) : advanceDivider s =
    (s.setDivider (if s.divider < 999 then s.divider + 1 else 0)).setTickDue (s.tickDue || decide (999 ≤ s.divider)) := by
  unfold advanceDivider
  by_cases h : s.divider < 999
  · have hcounts : s.divider + 1 < Config.leaseTickPeriod := Nat.succ_lt_succ h
    rw [if_pos hcounts, if_pos h, decide_eq_false (Nat.not_le.mpr h), Bool.or_false]
    rfl
  · have hfalls : ¬s.divider + 1 < Config.leaseTickPeriod := fun hlt => h (Nat.lt_of_succ_lt_succ hlt)
    rw [if_neg hfalls, if_neg h, decide_eq_true (Nat.not_lt.mp h), Bool.or_true]

theorem advanceTime_eq (s : State) : advanceTime s =
    { s with
      timebase := s.timebase + 1
      divider := if s.divider < 999 then s.divider + 1 else 0
      tickDue := s.tickDue || decide (999 ≤ s.divider)
      pacers := s.pacers.map Pacer.advanced
      par := ⟨s.par.fst.advanced, s.par.snd.advanced⟩ } := by
  rw [advanceTime, advanceDivider_eq]
  simp only [State.setPar, State.setTimebase, State.setTickDue, State.setDivider, State.parUnit, Two.putPar, Two.getPar]

end

/-- Settles O4: what is due by `quiet_iff`, its order by `settle`, a later act by `exists_settled`, the advance written out. -/
theorem timebaseAdvanceMovesTheClocks : Obligations.TimebaseAdvanceMovesTheClocks := by
  refine ⟨fun s => ?_, ?_, ?_, ?_, fun s => ⟨fun hr => if_pos hr, fun hc => ?_⟩⟩
  · simp only [quiet_iff, ← Attachment.expired_eq_false, ← pacerDue_iff, ← stallDue_iff, Bool.not_eq_true]
  · intro s lapsed
    refine ⟨fun i => ?_, takeExpiries_eq_iterate 32 s⟩
    exact dueExpiry_eq_some.trans (and_congr expired_iff (forall₂_congr fun _ _ => Attachment.expired_eq_false))
  · intro s ticked tick pacers stall
    refine ⟨?_, fun hr => ⟨dueAct_of_running _ hr, exec_leaseExpiry_eq hr, exec_pacerExpiry_eq hr, fun p => ?_⟩⟩
    · unfold settle
      rw [settleStall_eq, settleStall_eq, settlePacers_eq]
      rfl
    · rw [exec_stallTimeout_eq hr, settleStall_eq]
  · intro c s hr hreset hrelease htick hexpiry hpacer hstall
    obtain ⟨f, hf⟩ := exists_settled hreset hrelease htick hexpiry hpacer hstall
    refine ⟨fun u hu h => ?_, fun hset hquiet => ?_⟩
    · rw [hf s hr, hf u hu, h]
    · rw [hf s hr, hf _ hset, settle_of_quiet hquiet]
  · have hcalm : exec .timebaseAdvance s = .next (placeStartCheck (advanceTime s)) := act_of_calm _ hc
    rw [hcalm, advanceTime_eq, (quiet_iff.mp hc.2).1, Bool.false_or, ParallelUnit.advanced_eq, ParallelUnit.advanced_eq]
    rfl

end Sys2Proof.Machine
end

