-- ==== Sys2Proof/Proofs/ControlWords.lean ====
section
/-! PROOF. The control words of a port (O29): what each reads, what a write of it stores, and when a host can reach them. -/

namespace Sys2Proof.Machine

section
variable {s : State} {p : Port}

/-! ### Accesses as commands of their own (assumption 4) -/

/-- An access of the control page that the host can make, with nothing due and no data request pending. -/
theorem State.Submits.act_control (h : s.Submits p) (f : State → State) :
    act (controlAccess p f) s = .next (placeStartCheck (f s)) := by
  rw [act_of_calm _ h.calm, controlAccess_of_open _ h.idle h.controlOpen]

theorem State.Submits.exec_timebaseLowRead (h : s.Submits p) :
    exec (.timebaseLowRead p) s = .next (placeStartCheck (latchHigh p (s.setDataOut p s.stampNow))) := h.act_control _

theorem State.Submits.exec_controlWordWrite (h : s.Submits p) (offset : BitVec 8) (v : Word) :
    exec (.controlWordWrite p offset v) s = .next (placeStartCheck (controlWriteAct p offset.toNat v s)) := h.act_control _

/-- The low word is driven and the high word of the same count latched, in one port unit (R134). -/
theorem latchHigh_setDataOut (p : Port) (s : State) : latchHigh p (s.setDataOut p s.stampNow) = s.setPort p
    { s.port p with dataOut := s.timebase.setWidth 16, latchedHigh := (s.timebase >>> 16).setWidth 16 } := by
  simp [latchHigh, State.setDataOut, State.stampNow]

/-- The host of a parallel port can make an access when the port takes a cycle (R155). -/
theorem controlOpen_parallel (s : State) (q : ParPort) : s.controlOpen q.toPort = (s.parUnit q).takesCycle := by
  cases q <;> rfl

theorem isData_iff (op : SerialOp) :
    op.isData = false ↔ op ≠ .streamRead ∧ op ≠ .streamWrite ∧ op ≠ .pageRead ∧ op ≠ .pageWrite := by
  cases op <;> simp [SerialOp.isData, opKind]

/-- The host of a serial port can make one outside a data frame (R170) and a withdrawn one (R177). -/
theorem controlOpen_serial (s : State) (q : SerPort) : s.controlOpen q.toPort = true ↔
    (s.serUnit q).withdrawn = false ∧ ∀ op, (s.serUnit q).op = some op → op.isData = false := by
  have hopen : s.controlOpen q.toPort = (!(s.serUnit q).withdrawn && match (s.serUnit q).op with
      | none => true
      | some op => !op.isData) := by
    cases q <;> rfl
  rw [hopen]
  cases (s.serUnit q).op <;> simp

/-! ### The window table's words (R140, R141, R188) -/

theorem windowOfOffset_eq (w : Fin 8) (k : Fin 4) : windowOfOffset (0x20 + 4 * w.val + k.val) = w := by
  apply Fin.ext
  simp only [windowOfOffset, Fin.val_ofNat]
  omega

theorem wordOfOffset_eq (w : Fin 8) (k : Fin 4) : (0x20 + 4 * w.val + k.val - 0x20) % 4 = k.val := by omega

theorem controlWord_window (s : State) (p : Port) (w : Fin 8) (k : Fin 4) :
    s.controlWord p (0x20 + 4 * w.val + k.val) = windowWord (s.window p w) k.val := by
  unfold State.controlWord
  dsimp only
  rw [if_pos ⟨by omega, by omega⟩, windowOfOffset_eq, wordOfOffset_eq]
  rfl

theorem controlWriteAct_window (s : State) (p : Port) (w : Fin 8) (k : Fin 4) (v : Word) :
    controlWriteAct p (0x20 + 4 * w.val + k.val) v s = s.setPort p
      { s.port p with windows := tablePut (s.port p).windows w (windowWrite (tableGet (s.port p).windows w) k.val v) } := by
  unfold controlWriteAct
  dsimp only
  rw [if_pos ⟨by omega, by omega⟩, writeWindow, windowOfOffset_eq, wordOfOffset_eq]

theorem windowWord_flags (x : Window) : windowWord x 2 = word ((if x.enabled = true then 1 else 0) +
    (if x.kind = .page then 2 else 0) + if x.waitPolicy = .nowait then 4 else 0) := by
  simp only [windowWord, flag]
  cases x.kind <;> cases x.waitPolicy <;> rfl

theorem windowWrite_place (x : Window) (v : Word) :
    windowWrite x 0 v = { x with base := v.setWidth 12, sizeExp := (v >>> 12).setWidth 4 } := by
  have hbase : BitVec.ofNat 12 (field v 0 12) = v.setWidth 12 := BitVec.eq_of_toNat_eq (by simp [field])
  have hsize : BitVec.ofNat 4 (field v 12 4) = (v >>> 12).setWidth 4 :=
    BitVec.eq_of_toNat_eq (by simp [field, Nat.shiftRight_eq_div_pow])
  rw [windowWrite, hbase, hsize]

/-! ### The other words that a host writes (R87, R164, R188) -/

theorem controlWriteAct_argument (s : State) (p : Port) {k : Nat} (h1 : 1 ≤ k) (h6 : k ≤ 6) (v : Word) :
    controlWriteAct p (0x10 + k) v s =
      s.setPort p { s.port p with cmd := { (s.port p).cmd with args := (s.port p).cmd.args.put k v } } := by
  unfold controlWriteAct
  dsimp only
  rw [if_neg (by omega), if_pos ⟨by omega, by omega⟩, writeArgument, Nat.add_sub_cancel_left]

theorem writeStallLimit_parallel (s : State) (q : ParPort) {v : Word} (h1 : 1 ≤ v.toNat) (h2 : v.toNat ≤ 1023) :
    writeStallLimit q.toPort v s = s.setPar q { s.parUnit q with stallLimit := v.toNat } := by
  cases q <;> exact if_pos ⟨h1, h2⟩

/-- A stall limit out of range, or of a serial port, is not stored (R164). -/
theorem writeStallLimit_ignored (s : State) {p : Port} {v : Word} (h : (v = 0 ∨ 1023 < v.toNat) ∨ p = .c ∨ p = .d) :
    writeStallLimit p v s = s := by
  rcases h with h | rfl | rfl
  · have hrange : ¬(1 ≤ v.toNat ∧ v.toNat ≤ 1023) := fun hv => by
      rcases h with rfl | h
      · exact absurd hv.1 (by decide)
      · omega
    unfold writeStallLimit
    split
    · exact if_neg hrange
    · rfl
  · rfl
  · rfl

/-- Where the map lists no word that a host writes, a write changes nothing (R188), nor from offset 256 (R176). -/
theorem controlWriteAct_unlisted (s : State) (p : Port) {n : Nat} (v : Word)
    (h : n < 0x04 ∨ (0x08 ≤ n ∧ n < 0x0C) ∨ (0x0D ≤ n ∧ n < 0x10) ∨ (0x17 ≤ n ∧ n < 0x20) ∨ 0x40 ≤ n) :
    controlWriteAct p n v s = s := by
  unfold controlWriteAct
  dsimp only
  rw [if_neg (by omega), if_neg (by omega)]
  split
  case h_7 => rfl
  all_goals omega

/-! ### What the words read (R184, R188, R190) -/

/-- Where the map lists no word that a host reads, the word reads 0 (R188), and from offset 256 (R176). -/
theorem controlWord_unlisted (s : State) (p : Port) {n : Nat}
    (h : (0x0D ≤ n ∧ n ≤ 0x0F) ∨ (0x1C ≤ n ∧ n ≤ 0x1F) ∨ n = 0x42 ∨ n = 0x43 ∨ 0x48 ≤ n) : s.controlWord p n = 0 := by
  unfold State.controlWord
  dsimp only
  rw [if_neg (by omega)]
  split
  case h_31 => rfl
  all_goals omega

theorem portStatusWord_eq {u : PortUnit} {k : Nat}
    (h : (u.cmd.state = .idle ∧ k = 0) ∨ (u.cmd.state = .inFlight ∧ k = 1) ∨ (u.cmd.state = .done ∧ k = 2)) :
    portStatusWord u = word (k + 256 * u.queue.length) := by
  have hcode : u.cmd.state.code = k := by
    rcases h with ⟨hs, rfl⟩ | ⟨hs, rfl⟩ | ⟨hs, rfl⟩ <;> rw [hs] <;> rfl
  rw [portStatusWord, hcode]

theorem stallLimitWord_parallel (s : State) (q : ParPort) : s.stallLimitWord q.toPort = word (s.parUnit q).stallLimit := by
  cases q <;> rfl

theorem stallLimitWord_serial (s : State) (h : p = .c ∨ p = .d) : s.stallLimitWord p = 0 := by
  rcases h with rfl | rfl <;> rfl

theorem handleWord_eq (h : Option Handle) : handleWord h = match h with
    | some h => word (32 * h.gen.val + h.index.val)
    | none => 0xFFFF := by
  cases h with
  | none => rfl
  | some h => exact word_handle h

theorem controlWord_pacer (s : State) (p : Port) : ∀ n : Fin 4, s.controlWord p (0x44 + n.val) = word (s.pacer n).period
  | 0 => rfl
  | 1 => rfl
  | 2 => rfl
  | 3 => rfl

end

/-- Settles O29: the access as a command by `act_control`, each word by the map of `controlWord` and `controlWriteAct`. -/
theorem controlWordsReadAndWrite : Obligations.ControlWordsReadAndWrite := by
  refine ⟨fun s p hc ho hq => ?_, ?_, ?_, fun s p n => ⟨rfl, ?_, ?_⟩, fun x v => ?_, rfl⟩
  · have hs : s.Submits p := ⟨hc, ho, hq⟩
    refine ⟨_, hs.exec_timebaseLowRead.trans (by rw [latchHigh_setDataOut]), rfl, ?_⟩
    exact congrArg PortUnit.latchedHigh (State.port_setPort_same _ _ _)
  · intro s p v hc ho hq u writes
    have hs : s.Submits p := ⟨hc, ho, hq⟩
    have written : ∀ {offset t}, controlWriteAct p offset.toNat v s = t → writes offset t := fun h =>
      ⟨h, h ▸ hs.exec_controlWordWrite _ _⟩
    have writtenAt : ∀ {n t}, n < 256 → controlWriteAct p n v s = t → writes (BitVec.ofNat 8 n) t := fun hn h =>
      written (by rw [BitVec.toNat_ofNat, Nat.mod_eq_of_lt hn]; exact h)
    refine ⟨written rfl, ?_, fun h => written (writeStallLimit_ignored s h), written rfl, written rfl,
      fun k h1 h6 => writtenAt (by omega) (controlWriteAct_argument s p h1 h6 v),
      fun w k => writtenAt (by omega) (controlWriteAct_window s p w k v), fun offset h => written (controlWriteAct_unlisted s p v h),
      fun n hn => ⟨controlWriteAct_unlisted s p v (by omega), controlWord_unlisted s p (by omega)⟩⟩
    rintro q rfl h1 h2
    exact written (writeStallLimit_parallel s q h1 h2)
  · intro s p u
    refine ⟨rfl, rfl, fun k h => portStatusWord_eq h, rfl, rfl, ?_, stallLimitWord_serial s, rfl, rfl, fun hq => ?_, fun x rest hq => ?_,
      rfl, rfl, ⟨rfl, rfl, rfl, rfl, rfl, rfl⟩, rfl, ⟨rfl, rfl, rfl, rfl⟩, controlWord_window s p, rfl, rfl, controlWord_pacer s p,
      fun n h => controlWord_unlisted s p h⟩
    · rintro q rfl
      exact stallLimitWord_parallel s q
    · have hhead : ∀ k, headWord u.queue k = headWord [] k := fun k => by rw [hq]
      exact ⟨hhead 0, hhead 1, hhead 2, hhead 3⟩
    · have hhead : ∀ k, headWord u.queue k = headWord (x :: rest) k := fun k => by rw [hq]
      exact ⟨hhead 0, (hhead 1).trans (handleWord_eq x.handle), hhead 2, hhead 3⟩
  · rintro q rfl
    rw [controlOpen_parallel]
  · rintro q rfl
    simp only [controlOpen_serial, isData_iff]
  · exact ⟨rfl, rfl, windowWord_flags x, rfl, windowWrite_place x v, rfl, rfl, rfl⟩

end Sys2Proof.Machine
end

