-- ==== Sys2Proof/Proofs/Windows.lean ====
section
/-! PROOF. Windows: the decode of a parallel port's address (O9), and the page accesses of a parallel port by their offset (O19). -/

namespace Sys2Proof.Machine

/-! ### Decode (R143) -/

section
variable {u : PortUnit} {addr : BitVec 12}

/-- A window contains an address when it is enabled, of a size exponent in use, and its base agrees above the low s bits. -/
theorem Window.contains_iff {x : Window} {n : Nat} : x.contains n = true ↔
    x.enabled = true ∧ x.sizeExp.toNat ≤ 11 ∧ n / 2 ^ x.sizeExp.toNat = x.base.toNat / 2 ^ x.sizeExp.toNat := by
  simp [Window.contains, and_assoc]

/-- The offset of an address from the rounded base of a window that contains it is the low s bits of the address. -/
theorem Window.sub_start_of_contains {x : Window} {n : Nat} (h : x.contains n = true) : n - x.start = n % 2 ^ x.sizeExp.toNat := by
  obtain ⟨-, -, hbase⟩ := Window.contains_iff.mp h
  rw [Window.start, ← hbase]
  have hsplit := Nat.div_add_mod' n (2 ^ x.sizeExp.toNat)
  omega

theorem decodeAddress_control (h : 0xF00 ≤ addr.toNat) : decodeAddress u addr = .control (addr.toNat - 0xF00) := if_pos h

/-- Below the control page, the lowest-numbered window that contains the address wins. -/
theorem decodeAddress_window {w : Fin 8} (h : addr.toNat < 0xF00) (hw : (tableGet u.windows w).contains addr.toNat = true)
    (hlow : ∀ v, v < w → (tableGet u.windows v).contains addr.toNat = false) :
    decodeAddress u addr = .window w (addr.toNat % 2 ^ (tableGet u.windows w).sizeExp.toNat) := by
  rw [decodeAddress, if_neg (by omega), find?_finRange.mpr ⟨hw, hlow⟩]
  exact congrArg (Decoded.window w) (Window.sub_start_of_contains hw)

theorem decodeAddress_unmapped (h : addr.toNat < 0xF00) (hnone : ∀ v, (tableGet u.windows v).contains addr.toNat = false) :
    decodeAddress u addr = .unmapped := by
  rw [decodeAddress, if_neg (by omega), find?_finRange_none.mpr hnone]

end

/-- Settles O9: the first window found is the lowest that contains the address (`decodeAddress_window`). -/
theorem decodeTakesTheLowestContainingWindow : Obligations.DecodeTakesTheLowestContainingWindow := by
  intro u addr
  refine ⟨decodeAddress_control, fun h w hlow hen hexp hbase => ?_, fun h hnone => ?_⟩
  · exact decodeAddress_window h (Window.contains_iff.mpr ⟨hen, hexp, hbase⟩)
      fun v hv => Bool.eq_false_iff.mpr fun hc => hlow v hv (Window.contains_iff.mp hc)
  · exact decodeAddress_unmapped h fun v => Bool.eq_false_iff.mpr fun hc => hnone v (Window.contains_iff.mp hc)

/-! ### PAGE accesses by their offset (R146, R147, R149, R150) -/

section
variable {s : State} {p : ParPort} {w : Fin 8} {acc : BusAccess} {offset : Nat} {i : Fin 32}

/-- The checks of a page access through a bound window, its role suiting: only the offset's is left (R146, check 5). -/
theorem checkAccess_page {q : Port} (hb : s.bound q w .page i) (hr : roleSuits (s.att i).role .page acc = true) :
    checkAccess q w .page acc offset s = if (s.ring (s.att i).ring).capacity ≤ offset then .error .outOfRing else .ok i := by
  obtain ⟨hen, -, hcur, hholder⟩ := hb
  simp [checkAccess, checkBinding, hen, hcur, hholder, hr]

/-- Either role may read through a PAGE window. -/
theorem roleSuits_pageRead (role : Role) : roleSuits role .page .read = true := by
  cases role <;> rfl

theorem judgeAccess_page_outOfRing {q : Port} (hb : s.bound q w .page i) (hr : roleSuits (s.att i).role .page acc = true)
    (hoff : (s.ring (s.att i).ring).capacity ≤ offset) : judgeAccess q w .page acc offset s = .fault .outOfRing := by
  rw [judgeAccess, checkAccess_page hb hr, if_pos hoff]

theorem judgeAccess_pageRead {q : Port} (hb : s.bound q w .page i) (hoff : offset < (s.ring (s.att i).ring).capacity) :
    judgeAccess q w .page .read offset s = .word i (s.ringWord (s.att i).ring offset) := by
  rw [judgeAccess, checkAccess_page hb (roleSuits_pageRead _), if_neg (by omega)]

theorem judgeAccess_pageWrite {q : Port} {d : Word} (hb : s.bound q w .page i) (hr : (s.att i).role = .producer)
    (hoff : offset < (s.ring (s.att i).ring).capacity) : judgeAccess q w .page (.write d) offset s = .stored i := by
  rw [judgeAccess, checkAccess_page hb (by rw [hr]; rfl), if_neg (by omega)]

/-- A current handle word names the attachment of its index at its generation (R20). -/
theorem handleOfWord_of_currentIndex {v : Word} (h : s.currentIndex v = some i) : handleOfWord v = some ⟨(s.att i).gen, i⟩ :=
  handleOfWord_iff.mpr (currentIndex_iff.mp h).2

/-- WINDOW_FAULT of a window whose handle word is current names its ring and its handle (R147). -/
theorem postWindowFault_of_bound {q : Port} {kind : WindowKind} (hb : s.bound q w kind i) (reason : WindowReason) :
    postWindowFault q w reason (s.dataTaken q) = post q .windowFault (some (s.att i).ring) (some ⟨(s.att i).gen, i⟩)
      (word (w.val + 256 * reason.code)) (s.dataTaken q) := by
  have hcur : (s.dataTaken q).currentIndex (s.window q w).handleWord = some i := hb.2.2.1
  rw [postWindowFault, window_dataTaken, hcur, handleOfWord_of_currentIndex hb.2.2.1]
  rfl

/-- A granted page access, as the grant of its answer. -/
theorem exec_page {c : Instr} (hg : s.accessGranted p.toPort w acc offset) (hb : s.bound p.toPort w .page i)
    (hc : (c = .pageWindowRead p.toPort ∧ acc = .read) ∨ (c = .pageWindowWrite p.toPort ∧ acc ≠ .read)) {answer : AccessAnswer}
    (hj : judgeAccess p.toPort w .page acc offset s = answer) :
    exec c s = .next (placeStartCheck (finishParallel p w acc (s.window p.toPort w).waitPolicy answer
      (applyAccess .page acc offset answer (s.dataTaken p.toPort)))) := by
  subst hj
  rw [exec_access (kind := .page) hg.1 (by simpa using hc), grantWhen_parallel hg hb.2.1]

/-- A granted page access at or above the capacity faults, and the fill word answers it. -/
theorem exec_page_outOfRing {c : Instr} (hg : s.accessGranted p.toPort w acc offset) (hb : s.bound p.toPort w .page i)
    (hc : (c = .pageWindowRead p.toPort ∧ acc = .read) ∨ (c = .pageWindowWrite p.toPort ∧ acc ≠ .read))
    (hr : roleSuits (s.att i).role .page acc = true) (hoff : (s.ring (s.att i).ring).capacity ≤ offset) :
    exec c s = .next (placeStartCheck (answerFill p acc (post p.toPort .windowFault (some (s.att i).ring)
      (some ⟨(s.att i).gen, i⟩) (word (w.val + 256 * 5)) (s.dataTaken p.toPort)))) := by
  rw [exec_page hg hb hc (judgeAccess_page_outOfRing hb hr hoff)]
  exact congrArg (fun t => Host.Outcome.next (placeStartCheck (answerFill p acc t))) (postWindowFault_of_bound hb .outOfRing)

end

/-- Settles O19: each command by its access's answer (`exec_page`), which the offset decides. -/
theorem parallelPageAccessByItsOffset : Obligations.ParallelPageAccessByItsOffset := by
  intro s p w offset i hb q r t renewed faulted
  refine ⟨fun hg hoff => ?_, fun hg hoff => ?_, fun d hg hr hoff => ?_, fun d hg hr hoff => ?_⟩
  · exact exec_page hg hb (.inl ⟨rfl, rfl⟩) (judgeAccess_pageRead hb hoff)
  · exact exec_page_outOfRing hg hb (.inl ⟨rfl, rfl⟩) (roleSuits_pageRead _) hoff
  · exact exec_page hg hb (.inr ⟨rfl, nofun⟩) (judgeAccess_pageWrite hb hr hoff)
  · exact exec_page_outOfRing hg hb (.inr ⟨rfl, nofun⟩) (by rw [hr]; rfl) hoff

end Sys2Proof.Machine
end

