-- ==== Sys2Proof/Proofs/ParallelBus.lean ====
section
/-! PROOF. The bus of a parallel port: a cycle begun (O8), ended by its host (O10), by its stall limit (O7) or by the port reset input
(O11). -/

namespace Sys2Proof.Machine

section
variable {s : State} {p : ParPort} {acc : BusAccess} {addr : BitVec 12}

/-! ### A cycle answered (R142, R155) -/

/-- Only an answered read holds a word. -/
theorem parUnit_answerCycle (p : ParPort) (acc : BusAccess) (d : Word) (s : State) : (answerCycle p acc d s).parUnit p =
    { s.parUnit p with cycleState := .answered, stallTimer := 0, answer := if acc = .read then some d else none } := by
  cases acc <;> exact State.parUnit_setPar_same _ _ _

/-- Only an answered read drives a word. -/
theorem port_answerCycle (p : ParPort) (acc : BusAccess) (d : Word) (s : State) : (answerCycle p acc d s).port p.toPort =
    { s.port p.toPort with dataOut := if acc = .read then d else (s.port p.toPort).dataOut } := by
  cases acc with
  | read => exact State.port_setPort_same _ _ _
  | write v => rfl

@[simp] theorem others_answerCycle (p : ParPort) (acc : BusAccess) (d : Word) (s : State) :
    (answerCycle p acc d s).others p.toPort = s.others p.toPort := by
  cases acc with
  | read => exact others_setDataOut _ _ _
  | write v => rfl

theorem ready_iff {u : ParallelUnit} : u.ready = true ↔ u.cycleState = .control ∨ u.cycleState = .answered := by
  unfold ParallelUnit.ready
  cases u.cycleState <;> simp

/-! ### A stall limit that expires (R159) -/

/-- The record of a waiting access that reached its stall limit. -/
def State.stallRecord (s : State) (x : WaitingAccess) : Event :=
  ⟨.stallTimeout, some (s.att x.handle.index).ring, some x.handle, word x.window.val, s.stampNow⟩

/-- The access leaves the list after its record is offered, and its cycle is answered with the fill word. -/
theorem expireStall_of_waiting {x : WaitingAccess} (h : s.waitingAt p = some x) : expireStall p s =
    answerCycle p x.acc (s.port p.toPort).fillWord
      ((s.setPort p.toPort (offered (s.port p.toPort) (s.stallRecord x))).setWaiting p none) := by
  obtain ⟨-, hfill, -⟩ := goesOn_offered (s.port p.toPort) (s.stallRecord x)
  rw [expireStall, h]
  change endWaiting p (s.setPort p.toPort (offered (s.port p.toPort) (s.stallRecord x))) = _
  rw [endWaiting, State.setPort_waitingAt, h]
  simp only [answerFill, State.setWaiting_port, State.port_setPort_same, hfill]

theorem parUnit_expireStall {x : WaitingAccess} (h : s.waitingAt p = some x) : (expireStall p s).parUnit p =
    { s.parUnit p with
      cycleState := .answered, stallTimer := 0, answer := if x.acc = .read then some (s.port p.toPort).fillWord else none } := by
  rw [expireStall_of_waiting h, parUnit_answerCycle]
  rfl

theorem port_expireStall {x : WaitingAccess} (h : s.waitingAt p = some x) : (expireStall p s).port p.toPort =
    { offered (s.port p.toPort) (s.stallRecord x) with
      dataOut := if x.acc = .read then (s.port p.toPort).fillWord
        else (offered (s.port p.toPort) (s.stallRecord x)).dataOut } := by
  rw [expireStall_of_waiting h, port_answerCycle, State.setWaiting_port, State.port_setPort_same]

theorem waitingAt_expireStall (p : ParPort) (s : State) : (expireStall p s).waitingAt p = none := by
  cases h : s.waitingAt p with
  | none =>
    rw [expireStall, h]
    exact h
  | some x =>
    rw [expireStall_of_waiting h, State.waitingAt, waiting_answerCycle]
    exact State.waitingAt_setWaiting_same _ _ _

@[simp] theorem inner_expireStall (p : ParPort) (s : State) : (expireStall p s).inner = s.inner := by
  cases h : s.waitingAt p with
  | none => rw [expireStall, h]
  | some x => simp [expireStall_of_waiting h]

@[simp] theorem others_expireStall (p : ParPort) (s : State) : (expireStall p s).others p.toPort = s.others p.toPort := by
  cases h : s.waitingAt p with
  | none => rw [expireStall, h]
  | some x => simp [expireStall_of_waiting h]

/-- With no expiry outstanding the stall limit of a waiting access is all that its command takes. -/
theorem exec_stallTimeout (hr : s.deviceReset = false) (hnone : s.dueExpiry = none) (hw : (s.parUnit p).cycleState = .waiting)
    (ht : (s.parUnit p).stallTimer = 0) : exec (.stallTimeout p) s = .next (placeStartCheck (expireStall p s)) := by
  rw [exec_stallTimeout_eq hr, if_pos ⟨hw, ht⟩, settleExpiries_of_none hnone, settleStall_eq, if_pos ⟨hw, ht⟩]

/-! ### A cycle begun (R143, R144, R155, R162) -/

theorem takesCycle_iff {u : ParallelUnit} :
    u.takesCycle = true ↔ u.cycleState = .idle ∧ u.strobeHeld = false ∧ u.resetHeld = false := by
  simp only [ParallelUnit.takesCycle, Bool.and_eq_true, Bool.not_eq_true', beq_iff_eq]
  exact and_comm

theorem exec_parallelCycleStart (hc : s.calm) (ht : (s.parUnit p).takesCycle = true) (acc : BusAccess) (addr : BitVec 12) :
    exec (.parallelCycleStart p acc addr) s = .next (placeStartCheck (startCycle p acc addr (setStrobe p true s))) := by
  change execParallelCycleStart p acc addr s = _
  rw [execParallelCycleStart, pinAct_of_calm _ _ hc, if_pos ht]

theorem startCycle_control {offset : Nat} (h : decodeAddress (s.port p.toPort) addr = .control offset) :
    startCycle p acc addr s = controlCycle p acc offset s := by
  rw [startCycle, h]

theorem startCycle_unmapped (h : decodeAddress (s.port p.toPort) addr = .unmapped) :
    startCycle p acc addr s = unmappedCycle p acc addr s := by
  rw [startCycle, h]

theorem startCycle_window {w : Fin 8} {offset : Nat} (h : decodeAddress (s.port p.toPort) addr = .window w offset) :
    startCycle p acc addr s = windowCycle p acc w offset s := by
  rw [startCycle, h]

/-- A window cycle is placed as the port's data request, when no withdrawal waits. -/
theorem windowCycle_placed (w : Fin 8) (offset : Nat) (h : s.withdrawalPending p.toPort = false) : windowCycle p acc w offset s =
    (s.setPar p { s.parUnit p with cycleState := .requested, cycle := some ⟨w, acc, offset⟩ }).setDataReq p.toPort
      (some (.access w acc offset)) := by
  simp [windowCycle, h]

/-- While a withdrawal waits for its grant it is answered at once. -/
theorem windowCycle_withdrawing (w : Fin 8) (offset : Nat) (h : s.withdrawalPending p.toPort = true) :
    windowCycle p acc w offset s =
      answerFill p acc (s.setPar p { s.parUnit p with cycleState := .requested, cycle := some ⟨w, acc, offset⟩ }) := by
  simp [windowCycle, h]

/-! ### The strobe's level -/

@[simp] theorem parUnit_setStrobe (p : ParPort) (held : Bool) (s : State) :
    (setStrobe p held s).parUnit p = { s.parUnit p with strobeHeld := held } := State.parUnit_setPar_same _ _ _

/-- A write of the cycle's unit after the strobe's level is one write. -/
@[simp] theorem setPar_setStrobe (p : ParPort) (held : Bool) (x : ParallelUnit) (s : State) :
    (setStrobe p held s).setPar p x = s.setPar p x := State.setPar_setPar _ _ _ _

/-- No control word reads the strobe. -/
theorem controlWord_setStrobe (p : ParPort) (held : Bool) (s : State) (q : Port) (offset : Nat) :
    (setStrobe p held s).controlWord q offset = s.controlWord q offset := by
  have hlimit : (setStrobe p held s).stallLimitWord q = s.stallLimitWord q := by cases p <;> cases q <;> rfl
  unfold State.controlWord
  rw [hlimit]
  rfl

/-! ### A cycle ended by its host (R155, R161) -/

theorem exec_strobeRelease (hc : s.calm) (p : ParPort) : exec (.strobeRelease p) s = .next (placeStartCheck (releaseStrobe p s)) :=
  pinAct_of_calm _ _ hc

theorem releaseStrobe_idle (h : (s.parUnit p).cycleState = .idle) : releaseStrobe p s = setStrobe p false s := by
  simp only [releaseStrobe, h]

theorem releaseStrobe_answered (h : (s.parUnit p).cycleState = .control ∨ (s.parUnit p).cycleState = .answered) :
    releaseStrobe p s = s.setPar p { (s.parUnit p).cycleEnded with strobeHeld := false } := by
  rcases h with h | h <;> simp only [releaseStrobe, h]

/-- The request of a cycle that has not been granted is withdrawn. -/
theorem releaseStrobe_requested {x : Cycle} (h : (s.parUnit p).cycleState = .requested) (hx : (s.parUnit p).cycle = some x) :
    releaseStrobe p s = post p.toPort .cycleAbandoned none none (word x.window.val)
      ((s.setPar p { (s.parUnit p).cycleEnded with strobeHeld := false }).setDataReq p.toPort none) := by
  simp only [releaseStrobe, h, ParallelUnit.cycleWindow, hx]

/-- The waiting access of a cycle leaves the list. -/
theorem releaseStrobe_waiting {x : WaitingAccess} (h : (s.parUnit p).cycleState = .waiting) (hx : s.waitingAt p = some x) :
    releaseStrobe p s = post p.toPort .cycleAbandoned (some (s.att x.handle.index).ring) (some x.handle) (word x.window.val)
      ((s.setPar p { (s.parUnit p).cycleEnded with strobeHeld := false }).setWaiting p none) := by
  simp only [releaseStrobe, h, abandonWaiting, State.setPar_waitingAt, hx, State.setPar_att]

/-! ### The port reset input (R69, R81, R94, R162, R163) -/

theorem parUnit_setResetPin (p : ParPort) (held : Bool) (s : State) :
    (setResetPin p held s).parUnit p = { s.parUnit p with resetHeld := held } := State.parUnit_setPar_same _ _ _

/-- A withdrawal that the port reset input causes keeps the command word, and joins one that is pending (R69, R94). -/
theorem atArising_reset (c : CommandUnit) : c.atArising false =
    { c with state := .inFlight, inFlight := .withdrawal (decide (c.inFlight = .withdrawal true)) } := by
  unfold CommandUnit.atArising
  cases c.inFlight <;> simp

/-- The port reset input ends a cycle in every state (R162). -/
theorem atArising_byReset (u : ParallelUnit) : u.atArising true = if u.cycleState = .idle then u else u.cycleEnded := by
  cases h : u.cycleState <;> simp [ParallelUnit.atArising, h]

theorem cycleState_byReset (u : ParallelUnit) : (u.atArising true).cycleState = .idle := by
  rw [atArising_byReset]
  split
  · assumption
  · rfl

/-- The unit keeps its stall limit and the levels of its pins. -/
theorem goesOn_byReset (u : ParallelUnit) : u.goesOn (u.atArising true) := by
  rw [atArising_byReset]
  split
  · exact ⟨rfl, rfl, rfl, .inl rfl⟩
  · exact ⟨rfl, rfl, rfl, .inr rfl⟩

theorem parUnit_ariseWithdrawal (p : ParPort) (asCommand byReset : Bool) (s : State) :
    (ariseWithdrawal p.toPort asCommand byReset s).parUnit p = (s.parUnit p).atArising byReset := by
  cases p <;> rfl

theorem waitingAt_ariseWithdrawal (p : ParPort) (asCommand byReset : Bool) (s : State) :
    (ariseWithdrawal p.toPort asCommand byReset s).waitingAt p = none := by
  cases p <;> rfl

/-- A withdrawal of a parallel port reaches no serial port unit. -/
theorem ser_ariseWithdrawal (p : ParPort) (asCommand byReset : Bool) (s : State) :
    (ariseWithdrawal p.toPort asCommand byReset s).ser = s.ser := by
  cases p <;> rfl

theorem exec_portReset (hc : s.calm) (h : (s.parUnit p).resetHeld = false) : exec (.portReset p) s = .next (placeStartCheck
    (ariseWithdrawal p.toPort false true (setResetPin p true s))) := by
  change execPortReset p s = _
  rw [execPortReset, pinAct_of_calm _ _ hc, if_neg (by simp [h])]

end

/-- Settles O7: `expireStall` on the port's own units, field by field; it reaches nothing behind them and no other port. -/
theorem stallTimeoutEndsTheWaitingAccess : Obligations.StallTimeoutEndsTheWaitingAccess := by
  intro s p x hr hnone hw ht hx
  obtain ⟨q, hq⟩ := placeStartCheck_eq_setMoveReq (expireStall p s)
  have hunit := parUnit_expireStall hx
  have hport := port_expireStall hx
  have hinner := inner_expireStall p s
  rw [exec_stallTimeout hr hnone hw ht, hq]
  exact ⟨_, rfl, waitingAt_expireStall p s, congrArg ParallelUnit.cycleState hunit, congrArg ParallelUnit.stallTimer hunit,
    congrArg ParallelUnit.answer hunit, fun hread => (congrArg PortUnit.dataOut hport).trans (if_pos hread),
    (congrArg PortUnit.queue hport :), (congrArg State.rings hinner :), (congrArg State.atts hinner :), (congrArg State.mem hinner :),
    (congrArg State.pageMap hinner :), (congrArg State.moves hinner :), (congrArg State.arb hinner :),
    (congrArg State.pacers hinner :), (congrArg State.timebase hinner :), (steps_expireStall (m := May.all true) p s).keeps.ser,
    fun q hq => port_of_others (others_expireStall p s) hq⟩

/-- Settles O8: the port takes the cycle (`exec_parallelCycleStart`), which goes on as its address decodes. -/
theorem parallelCycleStartByItsAddress : Obligations.ParallelCycleStartByItsAddress := by
  refine ⟨fun s p acc addr hc ht => ?_, fun s p d v => ⟨rfl, rfl, rfl, rfl⟩, fun u => ⟨takesCycle_iff, ready_iff⟩,
    fun s p => withdrawalPending_iff⟩
  have started : ∀ {t}, startCycle p acc addr (setStrobe p true s) = t →
      exec (.parallelCycleStart p acc addr) s = .next (placeStartCheck t) := fun h => h ▸ exec_parallelCycleStart hc ht acc addr
  refine ⟨?_, ?_, fun hd => started (startCycle_unmapped hd), fun w offset hd hp => started ?_, fun w offset hd hp => started ?_⟩
  · rintro offset hd rfl
    refine started ((startCycle_control (s := setStrobe p true s) hd).trans ?_)
    simp only [controlCycle, controlWord_setStrobe, parUnit_setStrobe, setPar_setStrobe]
  · rintro offset v hd rfl
    refine started ((startCycle_control (s := setStrobe p true s) hd).trans ?_)
    simp only [controlCycle, parUnit_setStrobe, setPar_setStrobe]
  · rw [startCycle_window (s := setStrobe p true s) hd, windowCycle_placed (s := setStrobe p true s) w offset hp,
      parUnit_setStrobe, setPar_setStrobe]
  · rw [startCycle_window (s := setStrobe p true s) hd, windowCycle_withdrawing (s := setStrobe p true s) w offset hp,
      parUnit_setStrobe, setPar_setStrobe]

/-- Settles O10: `releaseStrobe` by the state of the cycle. -/
theorem strobeReleaseEndsTheCycle : Obligations.StrobeReleaseEndsTheCycle := by
  intro s p hc u ended
  rw [exec_strobeRelease hc]
  refine ⟨fun h => ?_, fun h => ?_, fun x h hx => ?_, fun x h hx => ?_⟩
  · rw [releaseStrobe_idle h]
    rfl
  · rw [releaseStrobe_answered h]
    rfl
  · rw [releaseStrobe_requested h hx]
    rfl
  · rw [releaseStrobe_waiting h hx]
    rfl

/-- Settles O11: the withdrawal that arises ends the cycle in whatever state it is, and reaches its own port's units alone. -/
theorem portResetRaisesAWithdrawal : Obligations.PortResetRaisesAWithdrawal := by
  intro s p hc
  refine ⟨fun hheld => ?_, pinAct_of_calm _ _ hc⟩
  obtain ⟨q, hq⟩ := placeStartCheck_eq_setMoveReq (ariseWithdrawal p.toPort false true (setResetPin p true s))
  have hport := port_ariseWithdrawal p.toPort false true (setResetPin p true s)
  rw [atArising_reset] at hport
  have hunit := parUnit_ariseWithdrawal p false true (setResetPin p true s)
  rw [parUnit_setResetPin] at hunit
  obtain ⟨hlimit, hstrobe, hreset, -⟩ := goesOn_byReset { s.parUnit p with resetHeld := true }
  have hinner := inner_ariseWithdrawal (setResetPin p true s) p.toPort false true
  rw [exec_portReset hc hheld, hq]
  exact ⟨_, rfl, congrArg PortUnit.dataReq hport, waitingAt_ariseWithdrawal _ _ _ _,
    (congrArg ParallelUnit.cycleState hunit).trans (cycleState_byReset _), (congrArg ParallelUnit.resetHeld hunit).trans hreset,
    (congrArg ParallelUnit.strobeHeld hunit).trans hstrobe, (congrArg ParallelUnit.stallLimit hunit).trans hlimit,
    (congrArg (·.cmd.state) hport :), (congrArg (·.cmd.commandWord) hport :), (congrArg (·.cmd.inFlight) hport :),
    (congrArg PortUnit.queue hport :), (congrArg PortUnit.settings hport :),
    (congrArg State.rings hinner :), (congrArg State.atts hinner :), (congrArg State.mem hinner :), (congrArg State.moves hinner :),
    (congrArg State.arb hinner :), (congrArg State.timebase hinner :), (congrArg State.pacers hinner :), ser_ariseWithdrawal _ _ _ _,
    fun q hq => port_of_others (others_ariseWithdrawal (setResetPin p true s) p.toPort false true) hq⟩

end Sys2Proof.Machine
end

