-- ==== Sys2Proof/Proofs/SerialFrames.lean ====
section
/-! PROOF. The frames of a serial port: their opening and their headers (O12), their data words begun (O13) and whole (O14), and their
end (O15). -/

namespace Sys2Proof.Machine

/-! ### Writes of a serial port unit -/

section
variable {s : State} {p : SerPort}

@[simp] theorem State.setSer_serUnit (s : State) (p : SerPort) : s.setSer p (s.serUnit p) = s := by
  cases p <;> rfl

@[simp] theorem serUnit_setSelect (p : SerPort) (held : Bool) (s : State) :
    (setSelect p held s).serUnit p = { s.serUnit p with selectHeld := held } := State.serUnit_setSer_same _ _ _

/-- A write of the unit after the level of select is one write. -/
@[simp] theorem setSer_setSelect (p : SerPort) (held : Bool) (x : SerialUnit) (s : State) :
    (setSelect p held s).setSer p x = s.setSer p x := State.setSer_setSer _ _ _ _

/-! ### The conditions of a frame (R169, R172) -/

/-- The first condition of a frame stays (R169). -/
theorem SerialUnit.meet_eq (u : SerialUnit) (c : Condition) :
    u.meet c = { u with condition := if u.condition = .ok then c else u.condition } := by
  unfold SerialUnit.meet
  split <;> rfl

theorem SerialUnit.failed_eq (u : SerialUnit) (c : Condition) :
    u.failed c = { u with inert := true, condition := if u.condition = .ok then c else u.condition } := by
  rw [SerialUnit.failed, SerialUnit.meet_eq]

/-- The condition that a frame ends with: a read word cut short after data is TORN, if it is the first condition (R172). -/
def SerialUnit.endCondition (u : SerialUnit) : Condition :=
  if u.wordNow = .data ∧ u.condition = .ok then .torn else u.condition

/-- A serial port unit after the end of a frame whose header was whole, beside its port unit (R167, R169). -/
def SerialUnit.frameEnded (u : SerialUnit) (x : PortUnit) : SerialUnit :=
  { u with
    phase := .idle, op := none, wordNow := .none, withdrawn := false, condition := u.endCondition,
    status := ⟨u.endCondition, u.completed, !x.queue.isEmpty, x.cmd.state == .inFlight⟩ }

theorem SerialUnit.meet_torn (u : SerialUnit) :
    (if u.wordNow = .data then u.meet .torn else u) = { u with condition := u.endCondition } := by
  rw [SerialUnit.meet_eq, SerialUnit.endCondition, ite_and]
  split <;> rfl

/-- The end of a frame whose header was whole, or that a withdrawal has made inert, forms the status word (R167, R177). -/
theorem endFrame_formed (h : ¬((s.serUnit p).phase = .header ∧ (s.serUnit p).withdrawn = false)) :
    endFrame p s = s.setSer p ((s.serUnit p).frameEnded (s.port p.toPort)) := by
  rw [endFrame, SerialUnit.meet_torn]
  dsimp only
  rw [if_neg h]
  rfl

/-- The end of a frame whose header was not whole leaves the status word (R167). -/
theorem endFrame_early (h : (s.serUnit p).phase = .header) (hw : (s.serUnit p).withdrawn = false) (hn : (s.serUnit p).wordNow = .none) :
    endFrame p s = s.setSer p { s.serUnit p with phase := .idle, op := none } := by
  rw [endFrame, if_neg (by rw [hn]; decide)]
  dsimp only
  rw [if_pos ⟨h, hw⟩, ← hn, ← hw]

/-! ### Select released (R167) -/

theorem exec_serialFrameEnd (hc : s.calm) (p : SerPort) : exec (.serialFrameEnd p) s = .next (placeStartCheck (releaseSelect p s)) :=
  pinAct_of_calm _ _ hc

/-- With a request pending the frame goes on to its grant; with no frame there is none to end. -/
theorem releaseSelect_pin (h : (s.serUnit p).phase = .idle ∨ (s.port p.toPort).dataReq ≠ none) :
    releaseSelect p s = setSelect p false s := by
  rw [← Option.isSome_iff_ne_none] at h
  rcases h with h | h
  · simp [releaseSelect, endIfReleased, h]
  · exact if_pos h

theorem releaseSelect_frame (hq : (s.port p.toPort).dataReq = none) (h : (s.serUnit p).phase ≠ .idle) :
    releaseSelect p s = endFrame p (setSelect p false s) := by
  have hport : (setSelect p false s).port p.toPort = s.port p.toPort := rfl
  simp [releaseSelect, endIfReleased, hport, hq, h]

end

/-- The layout of the status word (R191). -/
theorem statusWordBits_eq (c : Condition) (completed : Nat) (eventPending commandBusy : Bool) :
    statusWordBits ⟨c, completed, eventPending, commandBusy⟩ =
      word (4096 * c.code + 4 * completed + (if eventPending = true then 2 else 0) + if commandBusy = true then 1 else 0) := by
  cases eventPending <;> rfl

/-- Settles O15: select released (`releaseSelect_frame`, `releaseSelect_pin`), and the frame's end by whether its header was whole. -/
theorem serialFrameEndFormsTheStatusWord : Obligations.SerialFrameEndFormsTheStatusWord := by
  refine ⟨fun s p hc => ?_, statusWordBits_eq, rfl⟩
  intro u q
  rw [exec_serialFrameEnd hc]
  refine ⟨fun hq hphase => ?_, fun hq hphase hw hn => ?_, fun h => ?_⟩
  · have hwhole : ¬(u.phase = .header ∧ u.withdrawn = false) := by
      rcases hphase with h | h | ⟨-, h⟩ <;> simp [h]
    have hframe : u.phase ≠ .idle := by
      rcases hphase with h | h | ⟨h, -⟩ <;> simp [h]
    rw [releaseSelect_frame hq hframe, endFrame_formed (by simpa using hwhole), serUnit_setSelect, setSer_setSelect]
    rfl
  · have hframe : u.phase ≠ .idle := by simp [hphase]
    rw [releaseSelect_frame hq hframe, endFrame_early (by simpa using hphase) (by simpa using hw) (by simpa using hn),
      serUnit_setSelect, setSer_setSelect]
  · rw [releaseSelect_pin h]
    rfl

/-! ### A header word by its fields (R191) -/

theorem SerialOp.code_le (op : SerialOp) : op.code ≤ 7 := by
  cases op <;> decide

theorem toNat_headerWord (op : SerialOp) (w : Fin 8) (count : BitVec 10) :
    (headerWord op w count).toNat = 8192 * op.code + 1024 * w.val + count.toNat := by
  have hop := SerialOp.code_le op
  simp only [headerWord, word, BitVec.toNat_ofNat]
  omega

theorem code_decodeHeader (v : Word) : (decodeHeader v).1.code = field v 13 3 := by
  have hlt : field v 13 3 < 8 := Nat.mod_lt _ (by decide)
  unfold decodeHeader
  dsimp only
  generalize field v 13 3 = n at hlt ⊢
  interval_cases n <;> rfl

/-- A word is the header word of the fields it reads as. -/
theorem headerWord_decodeHeader (v : Word) : headerWord (decodeHeader v).1 (decodeHeader v).2.1 (decodeHeader v).2.2 = v := by
  apply BitVec.eq_of_toNat_eq
  rw [toNat_headerWord, code_decodeHeader]
  simp only [decodeHeader, field, Fin.val_ofNat, BitVec.toNat_ofNat]
  omega

theorem decodeHeader_iff {v : Word} {op : SerialOp} {w : Fin 8} {count : BitVec 10} :
    decodeHeader v = (op, w, count) ↔ v.toNat = 8192 * op.code + 1024 * w.val + count.toNat := by
  rw [← toNat_headerWord]
  constructor
  · intro h
    have hv := headerWord_decodeHeader v
    rw [h] at hv
    rw [hv]
  · intro h
    rw [BitVec.eq_of_toNat_eq h, decodeHeader_headerWord]

/-! ### Headers (R167, R168, R170, R177) -/

/-- The command that clocks in the header of an op. -/
def SerialOp.command (p : SerPort) (w : Fin 8) (count : BitVec 10) : SerialOp → Instr
  | .statusOnly => .statusOnly p w count
  | .streamRead => .streamRead p w count
  | .streamWrite => .streamWrite p w count
  | .pageRead => .pageRead p w count
  | .pageWrite => .pageWrite p w count
  | .controlRead => .controlRead p w count
  | .controlWrite => .controlWrite p w count
  | .withdraw => .withdrawFrame p w count

section
variable {s : State} {p : SerPort} {w : Fin 8} {count : BitVec 10}

/-- The eight header commands are those of the eight ops. -/
theorem SerialOp.exists_command {c : Instr}
    (h : c = .statusOnly p w count ∨ c = .streamRead p w count ∨ c = .streamWrite p w count ∨ c = .pageRead p w count ∨
      c = .pageWrite p w count ∨ c = .controlRead p w count ∨ c = .controlWrite p w count ∨ c = .withdrawFrame p w count) :
    ∃ op : SerialOp, c = op.command p w count := by
  rcases h with h | h | h | h | h | h | h | h
  · exact ⟨.statusOnly, h⟩
  · exact ⟨.streamRead, h⟩
  · exact ⟨.streamWrite, h⟩
  · exact ⟨.pageRead, h⟩
  · exact ⟨.pageWrite, h⟩
  · exact ⟨.controlRead, h⟩
  · exact ⟨.controlWrite, h⟩
  · exact ⟨.withdraw, h⟩

theorem exec_header (op : SerialOp) (hc : s.calm) :
    exec (op.command p w count) s = .next (placeStartCheck (clockHeader p op w count s)) := by
  rw [← act_of_calm _ hc]
  cases op <;> rfl

theorem SerialUnit.takesHeader_iff {u : SerialUnit} : u.takesHeader = true ↔ u.phase = .header ∧ u.withdrawn = false := by
  simp [SerialUnit.takesHeader]

/-- A header that is ignored: select released, or the frame inert by a withdrawal. -/
theorem exec_header_ignored (op : SerialOp) (hc : s.calm)
    (h : (s.serUnit p).selectHeld = false ∨ (s.serUnit p).withdrawn = true) :
    exec (op.command p w count) s = .next (placeStartCheck s) := by
  rw [exec_header op hc, clockHeader_eq, if_neg]
  rw [SerialUnit.takesHeader_iff]
  rcases h with h | h <;> simp [h]

/-- A header that is taken: recorded, and what its op calls for. -/
theorem exec_header_taken (op : SerialOp) (hc : s.calm) (hs : (s.serUnit p).selectHeld = true) (hp : (s.serUnit p).phase = .header)
    (hw : (s.serUnit p).withdrawn = false) : exec (op.command p w count) s = .next (placeStartCheck
      (headerCalls p op (s.setSer p ((s.serUnit p).withHeader op w (op.countOf count))))) := by
  rw [exec_header op hc, clockHeader_eq, if_pos ⟨hs, SerialUnit.takesHeader_iff.mpr ⟨hp, hw⟩⟩]

/-- A window check placed behind a fresh header; NO_WINDOW while a withdrawal waits (R170, R177). -/
theorem placeCheck_setSer {x : SerialUnit} (hx : x.condition = .ok) : placeCheck p (s.setSer p x) =
    if s.withdrawalPending p.toPort = true then s.setSer p { x with condition := .noWindow, inert := true }
    else (s.setSer p x).setDataReq p.toPort (some .check) := by
  rw [placeCheck, State.serUnit_setSer_same, State.setSer_setSer, SerialUnit.failed_eq, if_pos hx]
  rfl

/-- The withdrawal that a header causes stands at the command requester (R69, R81). -/
theorem ariseWithdrawal_serial (p : SerPort) (s : State) : ariseWithdrawal p.toPort false false s = s.setPort p.toPort
    { s.port p.toPort with
      dataReq := none
      cmd := { (s.port p.toPort).cmd with
        state := .inFlight
        inFlight := .withdrawal (decide ((s.port p.toPort).cmd.inFlight = .withdrawal true)) } } := by
  rw [← atArising_reset]
  cases p <;> rfl

/-! ### The frame's start and the address word (R167) -/

theorem exec_serialFrameStart (hc : s.calm) (hs : (s.serUnit p).selectHeld = false) :
    exec (.serialFrameStart p) s = .next (placeStartCheck (beginFrame p (serve p s))) := by
  change execSerialFrameStart p s = _
  rw [execSerialFrameStart, pinAct_of_calm _ _ hc, if_neg (by simp [hs])]

theorem exec_serialAddressWord (hc : s.calm) (address : Word) :
    exec (.serialAddressWord p address) s = .next (placeStartCheck (clocked p (takeAddress p address) s)) := act_of_calm _ hc

/-- The address of a frame that goes on is recorded. -/
theorem takeAddress_recorded (address : Word) (hp : (s.serUnit p).phase = .address) (hw : (s.serUnit p).withdrawn = false) :
    takeAddress p address s = (s.setSer p { s.serUnit p with phase := .data, address := address }).setDataOut p.toPort 0 := by
  simp [takeAddress, hp, hw]

end

/-- Settles O12: the headers by op (`exec_header_taken`), and the layout by `decodeHeader_iff`. -/
theorem serialFrameOpens : Obligations.SerialFrameOpens := by
  refine ⟨fun s p hc => ⟨fun hs hp hq => ?_, fun address hs hp hw => ?_, fun address w count hs c hcmd => ?_⟩,
    fun s p w count hc hs hp hw => ?_, fun v n op w count hop => ?_⟩
  · rw [exec_serialFrameStart hc hs, serve_of_none hq, beginFrame, if_pos hp]
  · rw [exec_serialAddressWord hc, clocked_of_held _ hs, takeAddress_recorded address hp hw]
  · rcases hcmd with rfl | hcmd
    · rw [exec_serialAddressWord hc, clocked_of_released _ hs]
    · obtain ⟨op, rfl⟩ := SerialOp.exists_command hcmd
      exact exec_header_ignored op hc (.inl hs)
  · intro fresh checked
    have taken := fun op => exec_header_taken (w := w) (count := count) op hc hs hp hw
    have check := fun op (hop : headerCalls p op = placeCheck p) => by
      have h := taken op
      rw [hop, placeCheck_setSer rfl] at h
      exact h
    refine ⟨taken .statusOnly, check .streamRead rfl, check .streamWrite rfl, check .pageRead rfl, check .pageWrite rfl,
      taken .controlRead, taken .controlWrite, (taken .withdraw).trans ?_⟩
    exact congrArg (fun t => Host.Outcome.next (placeStartCheck t)) (ariseWithdrawal_serial p _)
  · have hcode : ∀ n : Fin 8, ∀ op ∈ [SerialOp.statusOnly, .streamRead, .streamWrite, .pageRead, .pageWrite, .controlRead,
        .controlWrite, .withdraw][n.val]?, op.code = n.val := by decide
    rw [decodeHeader_iff, hcode n op hop]

/-! ### Data words (R167, R171, R173 to R177) -/

section
variable {s : State} {p : SerPort}

theorem exec_serialDataWord (hc : s.calm) (hq : (s.port p.toPort).dataReq = none) (moment : DataBit) :
    exec (.serialDataWord p moment) s = .next (placeStartCheck (clocked p (dataWord p moment) s)) := by
  change execSerialDataWord p moment s = _
  rw [execSerialDataWord, act_of_calm _ hc, serve_of_none hq]

theorem exec_beyondCountWord (hc : s.calm) (hq : (s.port p.toPort).dataReq = none) :
    exec (.beyondCountWord p) s = .next (placeStartCheck (clocked p (beginBeyond p) s)) := by
  change execBeyondCountWord p s = _
  rw [execBeyondCountWord, act_of_calm _ hc, serve_of_none hq]

theorem dataWord_first (p : SerPort) : dataWord p .first = beginWord p := rfl

theorem dataWord_last (p : SerPort) (d : Word) : dataWord p (.last d) = completeWord p d := rfl

/-! ### A word begun -/

/-- In a frame that a withdrawal has made inert a word shifts 0x0000 and nothing follows (R177). -/
theorem beginWord_withdrawn (hp : (s.serUnit p).phase ≠ .idle) (hw : (s.serUnit p).withdrawn = true) :
    beginWord p s = s.setDataOut p.toPort 0 := if_pos ⟨hp, hw⟩

theorem beginBeyond_withdrawn (hp : (s.serUnit p).phase ≠ .idle) (hw : (s.serUnit p).withdrawn = true) :
    beginBeyond p s = s.setDataOut p.toPort 0 := if_pos ⟨hp, hw⟩

theorem takeAddress_withdrawn (address : Word) (hp : (s.serUnit p).phase ≠ .idle) (hw : (s.serUnit p).withdrawn = true) :
    takeAddress p address s = s.setDataOut p.toPort 0 := if_pos ⟨hp, hw⟩

/-- A word within the count is begun by the frame's op. -/
theorem beginWord_counted (hp : (s.serUnit p).phase = .data) (hw : (s.serUnit p).withdrawn = false)
    (hn : (s.serUnit p).wordNow = .none) (hi : (s.serUnit p).wordIndex < (s.serUnit p).count) :
    beginWord p s = beginCounted p s := by
  simp [beginWord, hp, hw, hn, hi]

/-- A word begun when the count is used up is beyond it, whichever command begins it (R175, assumption 22). -/
theorem beginWord_beyond (hp : (s.serUnit p).phase = .data) (hw : (s.serUnit p).withdrawn = false)
    (hn : (s.serUnit p).wordNow = .none) (hi : (s.serUnit p).count ≤ (s.serUnit p).wordIndex) : beginWord p s = beyondWord p s := by
  simp [beginWord, hp, hw, hn, hi]

theorem beginBeyond_beyond (hp : (s.serUnit p).phase = .data) (hw : (s.serUnit p).withdrawn = false)
    (hn : (s.serUnit p).wordNow = .none) (hi : (s.serUnit p).count ≤ (s.serUnit p).wordIndex) : beginBeyond p s = beyondWord p s := by
  simp [beginBeyond, hp, hw, hn, hi]

theorem beyondWord_eq (p : SerPort) (s : State) : beyondWord p s =
    (s.setSer p
      { s.serUnit p with
        wordIndex := (s.serUnit p).count + 1
        condition := if (s.serUnit p).condition = .ok then .overcount else (s.serUnit p).condition }).setDataOut p.toPort 0 := by
  rw [beyondWord, SerialUnit.meet_eq]

/-- The read words of stream and page frames, by their offset (R171, R174). -/
theorem beginCounted_read {op : SerialOp} (hop : (s.serUnit p).op = some op) (h : op = .streamRead ∨ op = .pageRead) :
    beginCounted p s =
      beginRead p (if op = .pageRead then (s.serUnit p).address.toNat + (s.serUnit p).wordIndex else 0) s := by
  rcases h with rfl | rfl <;> simp [beginCounted, hop]

theorem beginCounted_controlRead (hop : (s.serUnit p).op = some .controlRead) : beginCounted p s = beginControlRead p s := by
  simp [beginCounted, hop]

theorem beginCounted_write
    (h : (s.serUnit p).op = some .streamWrite ∨ (s.serUnit p).op = some .pageWrite ∨ (s.serUnit p).op = some .controlWrite) :
    beginCounted p s = beginWrite p s := by
  rcases h with h | h | h <;> simp [beginCounted, h]

/-- A read word of a frame that reaches its window places its request (R171, R174). -/
theorem beginRead_placed (offset : Nat) (hi : (s.serUnit p).inert = false) (hp : s.withdrawalPending p.toPort = false) :
    beginRead p offset s =
      (s.setSer p { s.serUnit p with wordIndex := (s.serUnit p).wordIndex + 1, wordNow := .noData }).setDataReq p.toPort
        (some (.access (s.serUnit p).window .read offset)) := if_neg (by simp [hi, hp])

/-- In an inert frame, or while a withdrawal waits, it shifts the fill word (R171, R175, R177). -/
theorem beginRead_inert (offset : Nat) (h : (s.serUnit p).inert = true ∨ s.withdrawalPending p.toPort = true) :
    beginRead p offset s =
      (s.setSer p { s.serUnit p with wordIndex := (s.serUnit p).wordIndex + 1, wordNow := .noData }).setDataOut p.toPort
        (s.port p.toPort).fillWord := if_pos (by simpa using h)

/-! ### A word whole -/

/-- The sixteenth bit of a word begun within the count is taken by the frame's op. -/
theorem completeWord_counted (hp : (s.serUnit p).phase = .data) (hw : (s.serUnit p).withdrawn = false)
    (hn : (s.serUnit p).wordNow ≠ .none) (d : Word) : completeWord p d s = completeCounted p d s := if_pos ⟨hp, hw, hn⟩

/-- Any other sixteenth bit is ignored (R167, R175, R177). -/
theorem clocked_completeWord_ignored (d : Word) (h : (s.serUnit p).selectHeld = false ∨ (s.serUnit p).withdrawn = true ∨
    (s.serUnit p).phase ≠ .data ∨ (s.serUnit p).wordNow = .none) : clocked p (completeWord p d) s = s := by
  rcases h with h | h
  · exact clocked_of_released _ h
  · have hignored : completeWord p d s = s := if_neg fun ⟨hp, hw, hn⟩ => by
      rcases h with h | h | h
      · simp [h] at hw
      · exact h hp
      · exact hn h
    rw [clocked, hignored, ite_self]

/-- The read words of every frame (R169, R171, R174, R176). -/
theorem completeCounted_read (d : Word)
    (h : (s.serUnit p).op = some .streamRead ∨ (s.serUnit p).op = some .pageRead ∨ (s.serUnit p).op = some .controlRead) :
    completeCounted p d s = completeRead p s := by
  rcases h with h | h | h <;> simp [completeCounted, h]

/-- The write words of stream and page frames, by their offset (R173, R174). -/
theorem completeCounted_write {op : SerialOp} (d : Word) (hop : (s.serUnit p).op = some op) (h : op = .streamWrite ∨ op = .pageWrite) :
    completeCounted p d s =
      completeWrite p d (if op = .pageWrite then (s.serUnit p).address.toNat + ((s.serUnit p).wordIndex - 1) else 0) s := by
  rcases h with rfl | rfl <;> simp [completeCounted, hop]

theorem completeCounted_controlWrite (d : Word) (hop : (s.serUnit p).op = some .controlWrite) :
    completeCounted p d s = completeControlWrite p d s := by
  simp [completeCounted, hop]

theorem completeWrite_placed (d : Word) (offset : Nat) (hi : (s.serUnit p).inert = false)
    (hp : s.withdrawalPending p.toPort = false) : completeWrite p d offset s =
      (s.setSer p { s.serUnit p with wordNow := .none }).setDataReq p.toPort
        (some (.access (s.serUnit p).window (.write d) offset)) := if_neg (by simp [hi, hp])

theorem completeWrite_inert (d : Word) (offset : Nat) (h : (s.serUnit p).inert = true ∨ s.withdrawalPending p.toPort = true) :
    completeWrite p d offset s = s.setSer p { s.serUnit p with wordNow := .none } := if_pos (by simpa using h)

/-! ### The grants that come first (R67, assumption 6) -/

/-- One grant, while the port has a request pending. -/
def serveNext (p : SerPort) (u : State) : State :=
  if (u.port p.toPort).dataReq = none then u
  else match u.nextGrant with
    | some q => placeStartCheck (grantRequest q u)
    | none => u

theorem serveNext_of_none (h : (s.port p.toPort).dataReq = none) : serveNext p s = s := if_pos h

theorem serveNext_of_pending (h : (s.port p.toPort).dataReq ≠ none) : serveNext p s = grantNext s := if_neg h

theorem serveFor_eq_iterate (p : SerPort) : ∀ (n : Nat) (s : State), serveFor p n s = (serveNext p)^[n] s
  | 0, _ => rfl
  | n + 1, s => by
    rw [Function.iterate_succ_apply, serveFor]
    by_cases h : (s.port p.toPort).dataReq = none
    · have hfixed := serveNext_of_none h
      rw [if_neg (by simp [h]), hfixed, Function.iterate_fixed hfixed n]
    · rw [if_pos (Option.isSome_iff_ne_none.mpr h), serveNext_of_pending h, serveFor_eq_iterate p n]

theorem serveBefore_toPort (p : SerPort) (s : State) : serveBefore p.toPort s = serve p s := by
  cases p <;> rfl

/-- An access of the control page makes those grants and goes on from there. -/
theorem controlAccess_serve (f : State → State) (h : ((serve p s).port p.toPort).dataReq = none) :
    controlAccess p.toPort f s = controlAccess p.toPort f (serve p s) := by
  simp only [controlAccess, serveBefore_toPort, serve_of_none h]

/-- A command that does the same on two states, with nothing due in either, is the same command. -/
theorem act_congr {t : State} {f : State → State} (hs : s.calm) (ht : t.calm) (h : f s = f t) : act f s = act f t := by
  rw [act_of_calm f hs, act_of_calm f ht, h]

end

/-- Settles O13: a word within the count by the frame's op (`beginWord_counted`), a word beyond it (`beyondWord_eq`), a withdrawn frame
and the grants made first. -/
theorem serialDataWordBegins : Obligations.SerialDataWordBegins := by
  refine ⟨fun s p hc hq hs hp hw hn hi => ?_, fun s p hc hq hs => ?_, fun s p hc hq hs hp hw hn hi => ?_,
    fun s p hc hs hp hw => ⟨fun c h => ?_, fun c w count h => ?_⟩, fun s p => serveFor_eq_iterate p 9 s, fun s p c hc => ?_⟩
  · intro u begun
    have begins : ∀ {t}, beginCounted p s = t → exec (.serialDataWord p .first) s = .next (placeStartCheck t) := by
      rintro t rfl
      rw [exec_serialDataWord hc hq, clocked_of_held _ hs, dataWord_first, beginWord_counted hp hw hn hi]
    refine ⟨fun op hop h hinert hpend => begins ?_, fun h hinert => begins ?_, fun h => begins (beginCounted_controlRead h),
      fun h => begins (beginCounted_write h)⟩
    · rw [beginCounted_read hop h, beginRead_placed _ hinert hpend]
    · rcases h with hop | hop
      · rw [beginCounted_read hop (.inl rfl), beginRead_inert _ hinert]
      · rw [beginCounted_read hop (.inr rfl), beginRead_inert _ hinert]
  · rw [exec_beyondCountWord hc hq, exec_serialDataWord hc hq, clocked_of_released _ hs, clocked_of_released _ hs]
    exact ⟨rfl, rfl⟩
  · intro u t
    rw [exec_beyondCountWord hc hq, exec_serialDataWord hc hq, clocked_of_held _ hs, clocked_of_held _ hs, dataWord_first,
      beginBeyond_beyond hp hw hn hi, beginWord_beyond hp hw hn hi, beyondWord_eq]
    exact ⟨rfl, rfl⟩
  · rcases h with ⟨rfl | rfl, hq⟩ | ⟨address, rfl⟩
    · rw [exec_beyondCountWord hc hq, clocked_of_held _ hs, beginBeyond_withdrawn hp hw]
    · rw [exec_serialDataWord hc hq, clocked_of_held _ hs, dataWord_first, beginWord_withdrawn hp hw]
    · rw [exec_serialAddressWord hc, clocked_of_held _ hs, takeAddress_withdrawn address hp hw]
  · obtain ⟨op, rfl⟩ := SerialOp.exists_command h
    exact exec_header_ignored op hc (.inr hw)
  · intro t ht hq h
    have served : serve p t = t := serve_of_none hq
    have word := fun f => act_congr (f := fun u => clocked p f (serve p u)) hc ht (by simp only [served, t])
    have control := fun f => act_congr hc ht (controlAccess_serve (s := s) f hq)
    rcases h with ⟨moment, rfl⟩ | rfl | rfl | ⟨v, rfl⟩ | ⟨offset, v, rfl⟩ | ⟨w, rfl⟩ | rfl | ⟨rfl, hs, hs'⟩
    · exact word _
    · exact word _
    · exact control _
    · exact control _
    · exact control _
    · exact control _
    · exact control _
    · rw [exec_serialFrameStart hc hs, exec_serialFrameStart ht hs', served]

/-- Settles O14: the sixteenth bit by the frame's op (`completeWord_counted`), or ignored. -/
theorem serialDataWordEnds : Obligations.SerialDataWordEnds := by
  intro s p d hc hq
  rw [exec_serialDataWord hc hq, dataWord_last]
  refine ⟨fun h => by rw [clocked_completeWord_ignored d h], fun hs hp hw hn => ?_⟩
  intro u whole
  rw [clocked_of_held _ hs, completeWord_counted hp hw hn]
  refine ⟨fun h => ?_, fun op hop h hinert hpend => ?_, fun h hinert => ?_, fun hop => ?_⟩
  · rw [completeCounted_read d h]
    rfl
  · rw [completeCounted_write d hop h, completeWrite_placed d _ hinert hpend]
  · rcases h with hop | hop
    · rw [completeCounted_write d hop (.inl rfl), completeWrite_inert d _ hinert]
    · rw [completeCounted_write d hop (.inr rfl), completeWrite_inert d _ hinert]
  · rw [completeCounted_controlWrite d hop]
    rfl

end Sys2Proof.Machine
end

