-- ==== Sys2Proof/Proofs/SerialGrants.lean ====
section
/-! PROOF. The grants of a serial port's data requester: the window check of a header (O16), and the accesses of its words by their answer
or fault (O20), each with the frame's end when select was released. -/

namespace Sys2Proof.Machine

/-! ### The frame's end at a grant (R167) -/

/-- A frame whose port unit has acted on its grant: it goes on, or, with select released, ends there. -/
def closeFrame (p : SerPort) (y : SerialUnit) (t : State) : State :=
  if y.selectHeld = true then t.setSer p y else t.setSer p (y.frameEnded (t.port p.toPort))

section
variable {s t : State} {p : SerPort} {w : Fin 8} {acc : BusAccess} {offset : Nat} {kind : WindowKind} {i : Fin 32}

/-- A unit in a frame whose header was whole. -/
def SerialUnit.inFrame (u : SerialUnit) : Prop := u.phase = .data ∨ u.phase = .address

theorem endIfReleased_setSer {y : SerialUnit} (h : y.inFrame) : endIfReleased p (t.setSer p y) = closeFrame p y t := by
  have hidle : y.phase ≠ .idle := by rcases h with h | h <;> simp [h]
  have hwhole : y.phase ≠ .header := by rcases h with h | h <;> simp [h]
  unfold endIfReleased closeFrame
  rw [State.serUnit_setSer_same]
  by_cases hs : y.selectHeld = true
  · rw [if_pos hs, if_neg (by simp [hs])]
  · rw [if_neg hs, if_pos ⟨Bool.eq_false_iff.mpr hs, hidle⟩, endFrame_formed (by simp [hwhole]), State.serUnit_setSer_same,
      State.setSer_setSer]
    rfl

theorem endIfReleased_eq (h : (t.serUnit p).inFrame) : endIfReleased p t = closeFrame p (t.serUnit p) t := by
  rw [← endIfReleased_setSer h, State.setSer_serUnit]

/-- A word that is shifted out goes with the end of the frame (R171). -/
theorem endIfReleased_shiftData (h : (t.serUnit p).inFrame) (d : Word) : endIfReleased p (shiftData p d t) =
    closeFrame p { t.serUnit p with wordNow := .data } (t.setDataOut p.toPort d) :=
  endIfReleased_setSer (t := t.setDataOut p.toPort d) h

/-- A word stored is completed (R169, R173). -/
theorem endIfReleased_completed (h : (t.serUnit p).inFrame) :
    endIfReleased p (t.setSer p { t.serUnit p with completed := (t.serUnit p).completed + 1 }) =
      closeFrame p { t.serUnit p with completed := (t.serUnit p).completed + 1 } t :=
  endIfReleased_setSer h

theorem endIfReleased_failed (h : (t.serUnit p).inFrame) (c : Condition) :
    endIfReleased p (t.setSer p ((t.serUnit p).failed c)) = closeFrame p
      { t.serUnit p with inert := true, condition := if (t.serUnit p).condition = .ok then c else (t.serUnit p).condition } t := by
  rw [SerialUnit.failed_eq]
  exact endIfReleased_setSer h

/-- A word not answered with data leaves its condition, and a read the fill word (R171, R173). -/
theorem endIfReleased_failWord (h : (t.serUnit p).inFrame) (acc : BusAccess) (c : Condition) :
    endIfReleased p (failWord p acc c t) = closeFrame p
      { t.serUnit p with inert := true, condition := if (t.serUnit p).condition = .ok then c else (t.serUnit p).condition }
      (if acc = .read then t.setDataOut p.toPort (t.port p.toPort).fillWord else t) := by
  cases acc with
  | read => exact endIfReleased_failed (t := t.setDataOut p.toPort (t.port p.toPort).fillWord) h c
  | write d => exact endIfReleased_failed h c

/-! ### The window check (R170) -/

theorem checkBinding_stale {q : Port} {x : Window} (hcur : s.currentIndex x.handleWord = none) :
    checkBinding q x kind acc s = .error .staleHandle := by
  simp [checkBinding, hcur]

theorem checkBinding_notHolder {q : Port} {x : Window} (hcur : s.currentIndex x.handleWord = some i) (hh : (s.att i).holder ≠ .port q) :
    checkBinding q x kind acc s = .error .notHolder := by
  simp [checkBinding, hcur, hh]

theorem checkBinding_wrongRole {q : Port} {x : Window} (hcur : s.currentIndex x.handleWord = some i) (hh : (s.att i).holder = .port q)
    (hr : roleSuits (s.att i).role kind acc = false) : checkBinding q x kind acc s = .error .wrongRole := by
  simp [checkBinding, hcur, hh, hr]

theorem checkBinding_ok {q : Port} {x : Window} (hcur : s.currentIndex x.handleWord = some i) (hh : (s.att i).holder = .port q)
    (hr : roleSuits (s.att i).role kind acc = true) : checkBinding q x kind acc s = .ok i := by
  simp [checkBinding, hcur, hh, hr]

section
variable {op : SerialOp} (hop : (s.serUnit p).op = some op) (hk : opKind op = some (kind, acc))
include hop hk

theorem judgeHeader_noWindow (hen : (s.window p.toPort (s.serUnit p).window).enabled = false) : judgeHeader p s = .noWindow := by
  simp [judgeHeader, hop, hk, hen]

theorem judgeHeader_badOp (hen : (s.window p.toPort (s.serUnit p).window).enabled = true)
    (hkind : (s.window p.toPort (s.serUnit p).window).kind ≠ kind) : judgeHeader p s = .badOp := by
  simp [judgeHeader, hop, hk, hen, hkind]

theorem judgeHeader_error {reason : WindowReason} (hen : (s.window p.toPort (s.serUnit p).window).enabled = true)
    (hkind : (s.window p.toPort (s.serUnit p).window).kind = kind)
    (hb : checkBinding p.toPort (s.window p.toPort (s.serUnit p).window) kind acc s = .error reason) :
    judgeHeader p s = reason.condition := by
  simp [judgeHeader, hop, hk, hen, hkind, hb]

theorem judgeHeader_ok (hen : (s.window p.toPort (s.serUnit p).window).enabled = true)
    (hkind : (s.window p.toPort (s.serUnit p).window).kind = kind)
    (hb : checkBinding p.toPort (s.window p.toPort (s.serUnit p).window) kind acc s = .ok i) : judgeHeader p s = .ok := by
  simp [judgeHeader, hop, hk, hen, hkind, hb]

end

/-- The grant of a header's window check is judged on the state as it stands. -/
theorem exec_serialWindowCheck (hc : s.calm) (hn : s.nextGrant = some (.data p.toPort))
    (hreq : (s.port p.toPort).dataReq = some .check) (h : (s.serUnit p).inFrame) :
    exec (.serialWindowCheck p) s = .next (placeStartCheck (closeFrame p
      (if judgeHeader p s = .ok then s.serUnit p
        else { s.serUnit p with
          inert := true, condition := if (s.serUnit p).condition = .ok then judgeHeader p s else (s.serUnit p).condition })
      (s.dataTaken p.toPort))) := by
  have hgrant : grantRequest (.data p.toPort) s = grantCheck p (s.setArb (.data p.toPort)) := by
    have hreq' : ((s.setArb (.data p.toPort)).port p.toPort).dataReq = some .check := hreq
    simp only [grantRequest, grantData, hreq']
    cases p <;> rfl
  refine (act_grantWhen hc hn (by simp [checkPending, hreq])).trans ?_
  rw [hgrant]
  have hjudge : judgeHeader p (s.setArb (.data p.toPort)) = judgeHeader p s := rfl
  refine congrArg (fun t => Host.Outcome.next (placeStartCheck t)) ?_
  unfold grantCheck
  rw [hjudge]
  by_cases hok : judgeHeader p s = .ok
  · simp only [if_pos hok]
    exact endIfReleased_eq (t := s.dataTaken p.toPort) h
  · simp only [if_neg hok]
    exact endIfReleased_failed (t := s.dataTaken p.toPort) h _

end

/-- The roles that suit an access (R146, check 4). -/
theorem roleSuits_iff (role : Role) (kind : WindowKind) (acc : BusAccess) : roleSuits role kind acc = true ↔
    (role = .producer ∧ (acc ≠ .read ∨ kind = .page)) ∨ (role ≠ .producer ∧ acc = .read) := by
  cases role with
  | producer => cases kind <;> cases acc <;> simp [roleSuits]
  | reader n => cases kind <;> cases acc <;> simp [roleSuits]

/-- Settles O16: the grant of the check (`exec_serialWindowCheck`) by what `judgeHeader` judges first. -/
theorem serialWindowCheckInItsOrder : Obligations.SerialWindowCheckInItsOrder := by
  refine ⟨fun s p op kind acc hc hn hreq hop hk hphase => ?_, roleSuits_iff,
    ⟨rfl, rfl, ⟨0, rfl⟩, ⟨0, rfl⟩, fun op h => by rcases h with rfl | rfl | rfl | rfl <;> rfl⟩⟩
  intro q u closed x answers fails
  have hexec := exec_serialWindowCheck hc hn hreq hphase
  have failing : ∀ {c}, c ≠ .ok → judgeHeader p s = c → fails c := by
    rintro c hne rfl
    rw [if_neg hne] at hexec
    exact hexec
  refine ⟨fun hen => failing nofun (judgeHeader_noWindow hop hk hen),
    fun hen hkind => failing nofun (judgeHeader_badOp hop hk hen hkind),
    fun hen hkind hcur => failing nofun (judgeHeader_error hop hk hen hkind (checkBinding_stale hcur)),
    fun i hen hkind hcur =>
      ⟨fun hh => failing nofun (judgeHeader_error hop hk hen hkind (checkBinding_notHolder hcur hh)),
        fun hh hr => failing nofun (judgeHeader_error hop hk hen hkind (checkBinding_wrongRole hcur hh hr)), fun hh hr => ?_⟩⟩
  rw [if_pos (judgeHeader_ok hop hk hen hkind (checkBinding_ok hcur hh hr))] at hexec
  exact hexec

/-! ### The access of a word (R171, R173, R174) -/

section
variable {s : State} {p : SerPort} {w : Fin 8} {acc : BusAccess} {offset : Nat} {kind : WindowKind} {i : Fin 32}

theorem requestKind_serial {op : SerialOp} (hop : (s.serUnit p).op = some op) (w : Fin 8) :
    s.requestKind p.toPort w = (opKind op).map (·.1) := by
  cases p <;> simp [State.requestKind, Port.split, SerPort.toPort, hop]

/-- A granted access is judged on the state as it stands, and carried out with the port's request taken (R66, R171). -/
theorem grantWhen_serial (hg : s.accessGranted p.toPort w acc offset) (hk : s.requestKind p.toPort w = some kind) :
    grantWhen (.data p.toPort) (accessPending p.toPort kind (storesWord acc)) s =
      endIfReleased p (finishSerial p acc (judgeAccess p.toPort w kind acc offset s)
        (applyAccess kind acc offset (judgeAccess p.toPort w kind acc offset s) (s.dataTaken p.toPort))) := by
  obtain ⟨-, hnext, hreq⟩ := hg
  have hreq' : ((s.setArb (.data p.toPort)).port p.toPort).dataReq = some (.access w acc offset) := hreq
  have hk' : (s.setArb (.data p.toPort)).requestKind p.toPort w = some kind := hk
  rw [grantWhen_of_next hnext (by simp [accessPending, hreq, hk])]
  simp only [grantRequest, grantData, hreq', hk']
  cases p <;> rfl

/-- The effects of an access leave the serial port units. -/
theorem serUnit_applyAccess (answer : AccessAnswer) (p : SerPort) :
    (applyAccess kind acc offset answer s).serUnit p = s.serUnit p := by
  have hsteps := steps_applyAccess (m := May.all true) (acc := acc) (.inl rfl) kind offset answer s (.inl rfl)
  exact congrArg (fun x => Two.getSer x p) hsteps.keeps.ser

/-- They leave the fill word of every port. -/
theorem fillWord_applyAccess (answer : AccessAnswer) (q : Port) :
    ((applyAccess kind acc offset answer s).port q).fillWord = (s.port q).fillWord := by
  have hsteps := steps_applyAccess (m := May.all true) (acc := acc) (.inl rfl) kind offset answer s (.inl rfl)
  obtain ⟨-, hfill, -⟩ := hsteps.keeps.port q
  exact hfill

/-- The request taken leaves the fill word. -/
theorem fillWord_dataTaken (s : State) (q : Port) : ((s.dataTaken q).port q).fillWord = (s.port q).fillWord := by
  rw [State.dataTaken, State.setDataReq, State.port_setPort_same]
  rfl

/-- A granted access of a word in a serial frame, with the command that is its grant. -/
structure State.WordAccess (s : State) (p : SerPort) (w : Fin 8) (acc : BusAccess) (offset : Nat) (kind : WindowKind) (c : Instr) :
    Prop where
  granted : s.accessGranted p.toPort w acc offset
  inFrame : (s.serUnit p).inFrame
  requestKind : s.requestKind p.toPort w = some kind
  command : (c = .pop p.toPort ∧ acc = .read ∧ kind = .stream) ∨ (c = .push p.toPort ∧ acc ≠ .read ∧ kind = .stream) ∨
    (c = .pageWindowRead p.toPort ∧ acc = .read ∧ kind = .page) ∨ (c = .pageWindowWrite p.toPort ∧ acc ≠ .read ∧ kind = .page)

variable {c : Instr} {answer : AccessAnswer}

/-- Each op of a data frame asks for its accesses through one command. -/
theorem State.WordAccess.of_op {op : SerialOp} (hg : s.accessGranted p.toPort w acc offset) (hphase : (s.serUnit p).phase = .data)
    (hop : (s.serUnit p).op = some op)
    (h : (c = .pop p.toPort ∧ op = .streamRead ∧ kind = .stream ∧ acc = .read) ∨
      (c = .push p.toPort ∧ op = .streamWrite ∧ kind = .stream ∧ acc ≠ .read) ∨
      (c = .pageWindowRead p.toPort ∧ op = .pageRead ∧ kind = .page ∧ acc = .read) ∨
      (c = .pageWindowWrite p.toPort ∧ op = .pageWrite ∧ kind = .page ∧ acc ≠ .read)) : s.WordAccess p w acc offset kind c := by
  have hkind := requestKind_serial hop w
  rcases h with ⟨rfl, rfl, rfl, rfl⟩ | ⟨rfl, rfl, rfl, hacc⟩ | ⟨rfl, rfl, rfl, rfl⟩ | ⟨rfl, rfl, rfl, hacc⟩
  · exact ⟨hg, .inl hphase, hkind, .inl ⟨rfl, rfl, rfl⟩⟩
  · exact ⟨hg, .inl hphase, hkind, .inr (.inl ⟨rfl, hacc, rfl⟩)⟩
  · exact ⟨hg, .inl hphase, hkind, .inr (.inr (.inl ⟨rfl, rfl, rfl⟩))⟩
  · exact ⟨hg, .inl hphase, hkind, .inr (.inr (.inr ⟨rfl, hacc, rfl⟩))⟩

/-- The access by its answer, opened up to the acts of the port unit. -/
theorem State.WordAccess.exec_finish (h : s.WordAccess p w acc offset kind c) (hj : judgeAccess p.toPort w kind acc offset s = answer) :
    exec c s = .next (placeStartCheck
      (endIfReleased p (finishSerial p acc answer (applyAccess kind acc offset answer (s.dataTaken p.toPort))))) := by
  subst hj
  rw [exec_access h.granted.1 h.command, grantWhen_serial h.granted h.requestKind]

/-- The serial port unit as the acts of the port unit find it. -/
theorem serUnit_accessed (s : State) (p : SerPort) (kind : WindowKind) (acc : BusAccess) (offset : Nat) (answer : AccessAnswer) :
    (applyAccess kind acc offset answer (s.dataTaken p.toPort)).serUnit p = s.serUnit p := serUnit_applyAccess answer p

/-- A word answered with data is shifted out. -/
theorem State.WordAccess.exec_word {d : Word} (h : s.WordAccess p w acc offset kind c)
    (hj : judgeAccess p.toPort w kind acc offset s = .word i d) : exec c s = .next (placeStartCheck
      (closeFrame p { s.serUnit p with wordNow := .data }
        ((applyAccess kind acc offset (.word i d) (s.dataTaken p.toPort)).setDataOut p.toPort d))) := by
  have hunit := serUnit_accessed s p kind acc offset (.word i d)
  rw [h.exec_finish hj, finishSerial, endIfReleased_shiftData (hunit ▸ h.inFrame), hunit]

/-- A word stored is completed. -/
theorem State.WordAccess.exec_stored (h : s.WordAccess p w acc offset kind c)
    (hj : judgeAccess p.toPort w kind acc offset s = .stored i) : exec c s = .next (placeStartCheck
      (closeFrame p { s.serUnit p with completed := (s.serUnit p).completed + 1 }
        (applyAccess kind acc offset (.stored i) (s.dataTaken p.toPort)))) := by
  have hunit := serUnit_accessed s p kind acc offset (.stored i)
  rw [h.exec_finish hj, finishSerial, endIfReleased_completed (hunit ▸ h.inFrame), hunit]

/-- The condition that an answer without data leaves (R169). -/
def AccessAnswer.condition : AccessAnswer → Option Condition
  | .word _ _ => none
  | .stored _ => none
  | .fault reason => some reason.condition
  | .empty _ => some .empty
  | .ended _ => some .ended
  | .blocked _ => some .full
  | .exhausted _ => some .exhausted

theorem finishSerial_failed {r : Condition} (ha : answer.condition = some r) (p : SerPort) (acc : BusAccess) (t : State) :
    finishSerial p acc answer t = failWord p acc r t := by
  cases answer with
  | word | stored => cases ha
  | fault | empty | ended | blocked | exhausted =>
    cases ha
    rfl

/-- Any other answer becomes the condition, and makes the frame inert; a read shifts the fill word. -/
theorem State.WordAccess.exec_failed {r : Condition} (h : s.WordAccess p w acc offset kind c)
    (hj : judgeAccess p.toPort w kind acc offset s = answer) (ha : answer.condition = some r) :
    exec c s = .next (placeStartCheck
      (closeFrame p
        { s.serUnit p with inert := true, condition := if (s.serUnit p).condition = .ok then r else (s.serUnit p).condition }
        (if acc = .read then
          (applyAccess kind acc offset answer (s.dataTaken p.toPort)).setDataOut p.toPort (s.port p.toPort).fillWord
        else applyAccess kind acc offset answer (s.dataTaken p.toPort)))) := by
  have hunit := serUnit_accessed s p kind acc offset answer
  rw [h.exec_finish hj, finishSerial_failed ha, endIfReleased_failWord (hunit ▸ h.inFrame), hunit, fillWord_applyAccess,
    fillWord_dataTaken]

/-! ### The window faults (R146) -/

/-- An access that passes the checks before the offset's, at or above the capacity of its ring. -/
theorem checkAccess_outOfRing {q : Port} (hen : (s.window q w).enabled = true)
    (hcur : s.currentIndex (s.window q w).handleWord = some i) (hh : (s.att i).holder = .port q)
    (hr : roleSuits (s.att i).role .page acc = true) (hoff : (s.ring (s.att i).ring).capacity ≤ offset) :
    checkAccess q w .page acc offset s = .error .outOfRing := by
  simp [checkAccess, hen, checkBinding_ok hcur hh hr, hoff]

theorem judgeAccess_fault {q : Port} {reason : WindowReason} (h : checkAccess q w kind acc offset s = .error reason) :
    judgeAccess q w kind acc offset s = .fault reason := by
  rw [judgeAccess, h]

/-- A serial access that fails a check is answered with the fault of that reason, by its condition. -/
theorem judgeAccess_of_condition {q : Port} {r : Condition}
    (h : (r = .noWindow ∧ (s.window q w).enabled = false) ∨
      (r = .staleHandle ∧ (s.window q w).enabled = true ∧ s.currentIndex (s.window q w).handleWord = none) ∨
      (∃ i, (s.window q w).enabled = true ∧ s.currentIndex (s.window q w).handleWord = some i ∧
        ((r = .notHolder ∧ (s.att i).holder ≠ .port q) ∨
          (r = .wrongRole ∧ (s.att i).holder = .port q ∧ roleSuits (s.att i).role kind acc = false) ∨
          (r = .outOfRing ∧ (s.att i).holder = .port q ∧ roleSuits (s.att i).role kind acc = true ∧ kind = .page ∧
            (s.ring (s.att i).ring).capacity ≤ offset)))) :
    ∃ reason : WindowReason, judgeAccess q w kind acc offset s = .fault reason ∧ reason.condition = r := by
  have fails := fun reason (h : s.failsWith q (s.window q w) kind acc reason) =>
    judgeAccess_fault (offset := offset) (checkAccess_of_fails h)
  rcases h with ⟨rfl, hen⟩ | ⟨rfl, hen, hcur⟩ | ⟨i, hen, hcur, ⟨rfl, hh⟩ | ⟨rfl, hh, hr⟩ | ⟨rfl, hh, hr, rfl, hoff⟩⟩
  · exact ⟨.noWindow, fails _ (.inl ⟨rfl, hen⟩), rfl⟩
  · exact ⟨.staleHandle, fails _ (.inr (.inl ⟨rfl, hen, hcur⟩)), rfl⟩
  · exact ⟨.notHolder, fails _ (.inr (.inr ⟨i, hen, hcur, .inl ⟨rfl, hh⟩⟩)), rfl⟩
  · exact ⟨.wrongRole, fails _ (.inr (.inr ⟨i, hen, hcur, .inr ⟨rfl, hh, hr⟩⟩)), rfl⟩
  · exact ⟨.outOfRing, judgeAccess_fault (checkAccess_outOfRing hen hcur hh hr hoff), rfl⟩

end

/-- Settles O20: the access of a word (`State.WordAccess`) by its answer, which the pop, the push, the offset or a failed check gives. -/
theorem serialWordAccessByItsAnswer : Obligations.SerialWordAccessByItsAnswer := by
  intro s p w offset hphase q u t closed shifted stored failed
  refine ⟨fun i hg hb hop hr => ?_, fun i d hg hb hop hr => ?_, fun i hg hb hop hoff => ?_, fun i d hg hb hop hr hoff => ?_,
    fun c op kind acc reason hg hop hcmd hfails => ?_⟩
  · obtain ⟨n, hr⟩ := hr
    have access := State.WordAccess.of_op hg hphase hop (.inl ⟨rfl, rfl, rfl, rfl⟩)
    have hjudge := judgeAccess_pop (offset := offset) hb hr
    have hsame : t.judgePop i = s.judgePop i := rfl
    refine ⟨fun d hj => ?_, fun hj => ?_, fun hj => ?_⟩
    · rw [hj] at hjudge
      exact access.exec_word hjudge
    · rw [hj] at hjudge
      rw [← popAct_of_empty (hsame.trans hj)]
      exact access.exec_failed hjudge rfl
    · rw [hj] at hjudge
      rw [← popAct_of_ended (hsame.trans hj)]
      exact access.exec_failed hjudge rfl
  · have access := State.WordAccess.of_op hg hphase hop (.inr (.inl ⟨rfl, rfl, rfl, nofun⟩))
    have hjudge := judgeAccess_push (offset := offset) (d := d) hb hr
    refine ⟨fun hj => ?_, fun hj => ?_, fun hj => ?_⟩
    · rw [hj] at hjudge
      exact access.exec_stored hjudge
    · rw [hj] at hjudge
      exact access.exec_failed hjudge rfl
    · rw [hj] at hjudge
      exact access.exec_failed hjudge rfl
  · exact (State.WordAccess.of_op hg hphase hop (.inr (.inr (.inl ⟨rfl, rfl, rfl, rfl⟩)))).exec_word (judgeAccess_pageRead hb hoff)
  · exact (State.WordAccess.of_op hg hphase hop (.inr (.inr (.inr ⟨rfl, rfl, rfl, nofun⟩)))).exec_stored
      (judgeAccess_pageWrite hb hr hoff)
  · obtain ⟨r, hjudge, rfl⟩ := judgeAccess_of_condition hfails
    exact (State.WordAccess.of_op hg hphase hop hcmd).exec_failed hjudge rfl

end Sys2Proof.Machine
end

