-- ==== Sys2Proof/Proofs/FrontCommand.lean ====
section
/-! PROOF. A step by the queue of commands it finds (O1). -/

namespace Sys2Proof.Machine

section
variable {s : State}

theorem step_of_pending {c : Instr} {rest : List Instr} (h : s.pending = c :: rest) : step s = exec c { s with pending := rest } := by
  rw [step, h]

theorem step_of_idle (h : s.pending = []) : step s = .next s := by
  rw [step, h]

end

/-- Settles O1: a step by the queue it finds. -/
theorem stepTakesTheFrontCommand : Obligations.StepTakesTheFrontCommand :=
  fun _ _ => ⟨step_of_pending rfl, fun _ h => step_of_pending h, step_of_idle⟩

end Sys2Proof.Machine
end

