-- ==== Sys2Proof/Proofs/EventQueues.lean ====
section
/-! PROOF. The event queue of a port: its acknowledge, the offer of a record, the mask and notify (O28). -/

namespace Sys2Proof.Machine

section
variable {u : PortUnit} {p : Port} {s : State}

/-! ### Subscription (R182, R190) -/

theorem EventKind.code_bounds (k : EventKind) : 1 ≤ k.code ∧ k.code ≤ 18 := by
  cases k <;> decide

theorem subscribed_eq (u : PortUnit) (k : EventKind) :
    u.subscribed k = if k.code ≤ 15 then u.mask0.getLsbD k.code else u.mask1.getLsbD (k.code - 16) :=
  if_congr Nat.lt_succ_iff rfl rfl

theorem notify_iff (u : PortUnit) : u.notify = true ↔ u.queue ≠ [] := by
  simp [PortUnit.notify]

/-! ### The offer (R182, R183) -/

theorem offered_eq (u : PortUnit) (e : Event) : offered u e =
    if u.subscribed e.kind = false then u
    else if u.queue.length < 16 then { u with queue := u.queue ++ [e] }
    else { u with lostCount := min (u.lostCount + 1) 65535 } := by
  unfold offered
  cases u.subscribed e.kind <;> rfl

/-! ### The acknowledge (R185) -/

theorem acknowledged_of_nil (h : u.queue = []) (stamp : Word) : acknowledged u stamp = u := by
  rw [acknowledged, h]

/-- The head goes, and the lost count returns to 0, with its record when there is one to give and the port takes it. -/
theorem acknowledged_of_cons {e : Event} {rest : List Event} (h : u.queue = e :: rest) (stamp : Word) : acknowledged u stamp =
    { u with
      queue := if 0 < u.lostCount ∧ u.mask1.getLsbD 2 = true then rest ++ [⟨.eventsLost, none, none, word u.lostCount, stamp⟩]
        else rest
      lostCount := 0 } := by
  have hmask : u.subscribed .eventsLost = u.mask1.getLsbD 2 := subscribed_eq u .eventsLost
  rw [acknowledged, h]
  dsimp only
  by_cases hlost : u.lostCount = 0
  · rw [if_pos hlost, if_neg fun hn => hn.1.ne' hlost, ← hlost]
  · rw [if_neg hlost, hmask, if_congr (and_iff_right (Nat.pos_of_ne_zero hlost)) rfl rfl]

theorem acknowledge_of_nil (h : (s.port p).queue = []) : acknowledge p s = s := by
  rw [acknowledge, acknowledged_of_nil h]
  simp [State.setPort, State.port]

theorem State.Submits.exec_eventAcknowledge (h : s.Submits p) (v : Word) :
    exec (.eventAcknowledge p v) s = .next (placeStartCheck (acknowledge p s)) := h.act_control _

end

/-- Settles O28: the acknowledge by what the queue holds (`acknowledged_of_cons`, `acknowledge_of_nil`), the offer by `offered_eq`, the
mask by the range of the codes. -/
theorem eventQueueOfferAndAcknowledge : Obligations.EventQueueOfferAndAcknowledge := by
  refine ⟨fun s p v e rest hc ho hq hqueue => ?_, fun s p v hc ho hq hqueue => ?_, fun s p k ring h d => ?_,
    fun u k => ⟨subscribed_eq u k, k.code_bounds⟩, notify_iff⟩
  · have hs : s.Submits p := ⟨hc, ho, hq⟩
    rw [hs.exec_eventAcknowledge, acknowledge, acknowledged_of_cons hqueue]
    rfl
  · have hs : s.Submits p := ⟨hc, ho, hq⟩
    rw [hs.exec_eventAcknowledge, acknowledge_of_nil hqueue]
  · rw [post, offered_eq]
    rfl

end Sys2Proof.Machine
end

