-- ==== Sys2Proof/Proofs/PortBounds.lean ====
section
/-! PROOF. The bounds of the port units and of the pacers, `State.legal`, taken apart, and the acts of the hosts and of the port units
that keep them. -/

namespace Sys2Proof.Machine

/-! ### The bounds of one unit (R136, R154, R183, R190) -/

theorem PortUnit.legal_iff {u : PortUnit} :
    u.legal = true ↔ u.queue.length ≤ 16 ∧ u.lostCount ≤ 65535 ∧ u.mask0 &&& 0x0001 = 0 ∧ u.mask1 &&& 0xFFF8 = 0 := by
  simp [PortUnit.legal, Config.queueDepth, and_assoc]

theorem ParallelUnit.legal_iff {u : ParallelUnit} :
    u.legal = true ↔ 1 ≤ u.stallLimit ∧ u.stallLimit ≤ 1023 ∧ u.stallTimer ≤ 1023 := by
  simp [ParallelUnit.legal, and_assoc]

theorem Pacer.legal_iff_of_enabled {x : Pacer} (h : x.enabled = true) :
    x.legal = true ↔ 1 ≤ x.period ∧ x.period ≤ 65535 ∧ 1 ≤ x.count ∧ x.count ≤ 65535 := by
  simp only [Pacer.legal, h, if_true, Bool.and_eq_true, decide_eq_true_eq]
  tauto

theorem Pacer.legal_iff_of_disabled {x : Pacer} (h : x.enabled = false) :
    x.legal = true ↔ 1 ≤ x.period ∧ x.period ≤ 65535 ∧ x.count = 0 ∧ x.due = false := by
  simp only [Pacer.legal, h, Bool.false_eq_true, if_false, Bool.and_eq_true, decide_eq_true_eq, beq_iff_eq, Bool.not_eq_true']
  constructor
  · rintro ⟨⟨⟨hp, hp'⟩, -⟩, hc, hd⟩
    exact ⟨hp, hp', hc, hd⟩
  · rintro ⟨hp, hp', hc, hd⟩
    exact ⟨⟨⟨hp, hp'⟩, hc ▸ Nat.zero_le _⟩, hc, hd⟩

/-- A cycle that is answered, goes on or ends keeps its unit within the bounds. -/
theorem ParallelUnit.legal_of_goesOn {u v : ParallelUnit} (h : u.legal = true) (hv : u.goesOn v) : v.legal = true := by
  obtain ⟨hlow, hhigh, htimer⟩ := legal_iff.mp h
  obtain ⟨hlimit, -, -, hv⟩ := hv
  refine legal_iff.mpr ⟨hlimit ▸ hlow, hlimit ▸ hhigh, ?_⟩
  rcases hv with hv | hv
  · exact hv ▸ htimer
  · exact hv ▸ Nat.zero_le _

theorem ParallelUnit.goesOn_cycleEnded (u : ParallelUnit) : u.goesOn u.cycleEnded := ⟨rfl, rfl, rfl, .inr rfl⟩

theorem ParallelUnit.goesOn_atArising (u : ParallelUnit) (byReset : Bool) : u.goesOn (u.atArising byReset) := by
  unfold ParallelUnit.atArising
  split
  · exact u.goesOn_refl
  · split
    · exact u.goesOn_cycleEnded
    · exact u.goesOn_refl
  all_goals exact u.goesOn_cycleEnded

/-- A stall timer only falls as time passes (R159). -/
theorem ParallelUnit.legal_advanced {u : ParallelUnit} (h : u.legal = true) : u.advanced.legal = true := by
  rw [advanced_eq]
  split
  · obtain ⟨hlow, hhigh, htimer⟩ := legal_iff.mp h
    exact legal_iff.mpr ⟨hlow, hhigh, (Nat.sub_le _ _).trans htimer⟩
  · exact h

/-- The count that a microsecond brings to 0 is reloaded with the period, which is never 0 (R136). -/
theorem Pacer.legal_advanced {x : Pacer} (h : x.legal = true) : x.advanced.legal = true := by
  cases he : x.enabled with
  | false => simpa [Pacer.advanced, he] using h
  | true =>
    obtain ⟨hp, hp', hc, hc'⟩ := (legal_iff_of_enabled he).mp h
    simp only [Pacer.advanced, he, if_true]
    split
    · exact (legal_iff_of_enabled rfl).mpr ⟨hp, hp', hp, hp'⟩
    · refine (legal_iff_of_enabled rfl).mpr ⟨hp, hp', ?_, ?_⟩ <;> dsimp only <;> omega

/-- A pacer that SET_PACER programs with a period within the range of its operand (R137). -/
theorem Pacer.legal_program {x : Pacer} (h : x.legal = true) {period : Nat} (hlow : 1 ≤ period) (hhigh : period ≤ 65535)
    (enable : Bool) : (x.program period enable).legal = true := by
  cases enable with
  | false => exact (legal_iff_of_disabled rfl).mpr ⟨hlow, hhigh, rfl, rfl⟩
  | true =>
    refine (legal_iff_of_enabled rfl).mpr ⟨hlow, hhigh, ?_⟩
    cases he : x.enabled with
    | false => simpa [Pacer.program, he] using ⟨hlow, hhigh⟩
    | true => simpa [Pacer.program, he] using ((legal_iff_of_enabled he).mp h).2.2

/-- The reload of a pacer that is enabled (R138). -/
theorem Pacer.legal_reloaded {x : Pacer} (h : x.legal = true) (he : x.enabled = true) :
    Pacer.legal { x with count := x.period, due := false } = true := by
  obtain ⟨hp, hp', -, -⟩ := (legal_iff_of_enabled he).mp h
  exact (legal_iff_of_enabled (by exact he)).mpr ⟨hp, hp', hp, hp'⟩

/-- An acknowledge takes a record out before it puts one in (R185). -/
theorem legal_acknowledged {u : PortUnit} (h : u.legal = true) (stamp : Word) : (acknowledged u stamp).legal = true := by
  cases hq : u.queue with
  | nil => rwa [acknowledged_of_nil hq]
  | cons e rest =>
    obtain ⟨hlength, -, hmask0, hmask1⟩ := PortUnit.legal_iff.mp h
    rw [hq, List.length_cons] at hlength
    rw [acknowledged_of_cons hq]
    refine PortUnit.legal_iff.mpr ⟨?_, Nat.zero_le _, hmask0, hmask1⟩
    dsimp only
    split
    · rw [List.length_append]
      exact hlength
    · omega

theorem legal_setMask0 {u : PortUnit} (h : u.legal = true) (v : Word) : PortUnit.legal { u with mask0 := v &&& 0xFFFE } = true := by
  obtain ⟨hlength, hlost, -, hmask1⟩ := PortUnit.legal_iff.mp h
  refine PortUnit.legal_iff.mpr ⟨hlength, hlost, ?_, hmask1⟩
  rw [BitVec.and_assoc]
  exact BitVec.and_zero

theorem legal_setMask1 {u : PortUnit} (h : u.legal = true) (v : Word) : PortUnit.legal { u with mask1 := v &&& 0x0007 } = true := by
  obtain ⟨hlength, hlost, hmask0, -⟩ := PortUnit.legal_iff.mp h
  refine PortUnit.legal_iff.mpr ⟨hlength, hlost, hmask0, ?_⟩
  rw [BitVec.and_assoc]
  exact BitVec.and_zero

theorem legal_afterWithdrawal (u : PortUnit) (asCommand : Bool) : (u.afterWithdrawal asCommand).legal = true := by
  have hcleared : PortUnit.cleared.legal = true := by decide
  exact hcleared

/-! ### The bounds of the part -/

/-- Every port unit and every pacer is within its bounds. -/
structure State.InBounds (s : State) : Prop where
  port : ∀ p, (s.port p).legal = true
  par : ∀ p, (s.parUnit p).legal = true
  pacer : ∀ n, (s.pacer n).legal = true

theorem State.legal_iff {s : State} : s.legal = true ↔ s.InBounds := by
  simp only [State.legal, Bool.and_eq_true, List.all_eq_true, List.mem_finRange, true_imp_iff]
  constructor
  · rintro ⟨⟨⟨⟨⟨⟨ha, hb⟩, hc⟩, hd⟩, hpa⟩, hpb⟩, hpacer⟩
    exact ⟨fun p => by cases p <;> assumption, fun p => by cases p <;> assumption, hpacer⟩
  · intro h
    exact ⟨⟨⟨⟨⟨⟨h.port .a, h.port .b⟩, h.port .c⟩, h.port .d⟩, h.par .a⟩, h.par .b⟩, h.pacer⟩

/-- An effect that keeps the bounds. -/
def KeepsBounds (f : State → State) : Prop := ∀ s, s.InBounds → (f s).InBounds

namespace State.InBounds

variable {m : May} {s t : State}

/-! ### Writes -/

theorem of_units (h : s.InBounds) (hports : t.ports = s.ports) (hpar : t.par = s.par) (hpacers : t.pacers = s.pacers) :
    t.InBounds where
  port p := by simpa only [State.port, hports] using h.port p
  par p := by simpa only [State.parUnit, hpar] using h.par p
  pacer n := by simpa only [State.pacer, hpacers] using h.pacer n

/-- A chain of the ring controller offers records and answers cycles. -/
theorem of_steps (h : s.InBounds) (hst : RingSteps m s t) : t.InBounds where
  port p := by
    obtain ⟨-, -, -, -, -, -, -, hlegal⟩ := hst.keeps.port p
    exact hlegal (h.port p)
  par p := ParallelUnit.legal_of_goesOn (h.par p) (hst.keeps.par p)
  pacer n := by simpa only [State.pacer, hst.keeps.pacers] using h.pacer n

theorem setPort (h : s.InBounds) {p : Port} {x : PortUnit} (hx : x.legal = true) : (s.setPort p x).InBounds where
  port q := by
    rw [State.port_setPort]
    split
    · exact hx
    · exact h.port q
  par := h.par
  pacer := h.pacer

theorem setPar (h : s.InBounds) {p : ParPort} {x : ParallelUnit} (hx : x.legal = true) : (s.setPar p x).InBounds where
  port := h.port
  par q := by
    rw [State.parUnit_setPar]
    split
    · exact hx
    · exact h.par q
  pacer := h.pacer

theorem setPacer (h : s.InBounds) {n : Fin 4} {x : Pacer} (hx : x.legal = true) : (s.setPacer n x).InBounds where
  port := h.port
  par := h.par
  pacer k := by
    rw [State.pacer_setPacer]
    split
    · exact hx
    · exact h.pacer k

theorem setSer (h : s.InBounds) (p : SerPort) (x : SerialUnit) : (s.setSer p x).InBounds := h.of_units rfl rfl rfl

theorem setWaiting (h : s.InBounds) (p : ParPort) (x : Option WaitingAccess) : (s.setWaiting p x).InBounds := h.of_units rfl rfl rfl

theorem setDataOut (h : s.InBounds) (p : Port) (w : Word) : (s.setDataOut p w).InBounds := h.setPort (h.port p)

theorem setDataReq (h : s.InBounds) (p : Port) (q : Option DataRequest) : (s.setDataReq p q).InBounds := h.setPort (h.port p)

theorem post (h : s.InBounds) (p : Port) (k : EventKind) (ring : Option (Fin 16)) (x : Option Handle) (d : Word) :
    (post p k ring x d s).InBounds := h.setPort (legal_offered _ (h.port p))

theorem answerFill (h : s.InBounds) (p : ParPort) (acc : BusAccess) : (answerFill p acc s).InBounds :=
  h.of_steps (steps_answerFill (m := May.all true) p acc s)

/-! ### A granted access, answered (R156, R170 to R174) -/

/-- The stall timer is loaded with the stall limit, and so within the limit's bound (R157). -/
theorem placeWaiting (h : s.InBounds) (p : ParPort) (w : Fin 8) (i : Fin 32) (acc : BusAccess) : (placeWaiting p w i acc s).InBounds := by
  obtain ⟨hlow, hhigh, -⟩ := ParallelUnit.legal_iff.mp (h.par p)
  exact (h.setWaiting p _).setPar (ParallelUnit.legal_iff.mpr ⟨hlow, hhigh, hhigh⟩)

theorem finishParallel (h : s.InBounds) (p : ParPort) (w : Fin 8) (acc : BusAccess) (policy : WaitPolicy) (a : AccessAnswer) :
    (finishParallel p w acc policy a s).InBounds := by
  cases a with
  | fault reason => exact (h.post _ _ _ _ _).answerFill p acc
  | exhausted i => exact (h.post _ _ _ _ _).answerFill p acc
  | ended i => exact h.answerFill p acc
  | word i d => exact h.of_steps (steps_answerCycle (m := May.all true) p acc d s)
  | stored i => exact h.of_steps (steps_answerCycle (m := May.all true) p acc 0 s)
  | empty i | blocked i =>
    cases policy with
    | wait => exact h.placeWaiting p w i acc
    | nowait => exact (h.post _ _ _ _ _).answerFill p acc

theorem endIfReleased (h : s.InBounds) (p : SerPort) : (endIfReleased p s).InBounds := by
  unfold Machine.endIfReleased
  split
  · exact h.setSer p _
  · exact h

theorem finishSerial (h : s.InBounds) (p : SerPort) (acc : BusAccess) (a : AccessAnswer) : (finishSerial p acc a s).InBounds := by
  have failed : ∀ c, (failWord p acc c s).InBounds := fun c => by
    cases acc with
    | read => exact (h.setSer p _).setDataOut _ _
    | write d => exact h.setSer p _
  cases a with
  | word i d => exact (h.setSer p _).setDataOut _ _
  | stored i => exact h.setSer p _
  | fault | empty | ended | blocked | exhausted => exact failed _

theorem grantCheck (h : s.InBounds) (p : SerPort) : (grantCheck p s).InBounds := by
  unfold Machine.grantCheck
  refine endIfReleased ?_ p
  split
  · exact h.setDataReq _ _
  · exact (h.setDataReq _ _).setSer p _

/-! ### Commands and withdrawals (R82, R88, R91) -/

theorem finishCommand {p : Port} {x : CommandAnswer} (h : x.after.InBounds) : (finishCommand p x).InBounds := by
  refine State.InBounds.post ?_ _ _ _ _ _
  exact h.setPort (h.port p)

theorem resetPrivate (h : s.InBounds) (p : Port) (asCommand : Bool) : (resetPrivate p asCommand s).InBounds := by
  have hport : (s.setPort p ((s.port p).afterWithdrawal asCommand)).InBounds := h.setPort (legal_afterWithdrawal _ _)
  have hpost : (if asCommand = true then
      Machine.post p .commandDone none none (detailCommandDone .ok codeWithdraw) (s.setPort p ((s.port p).afterWithdrawal asCommand))
      else s.setPort p ((s.port p).afterWithdrawal asCommand)).InBounds := by
    split
    · exact hport.post _ _ _ _ _
    · exact hport
  unfold Machine.resetPrivate
  dsimp only
  generalize (if asCommand = true then _ else _) = u at hpost ⊢
  split
  · rename_i q _
    obtain ⟨-, -, htimer⟩ := ParallelUnit.legal_iff.mp (hpost.par q)
    have hlimit : 1 ≤ Config.stallLimitReset ∧ Config.stallLimitReset ≤ 1023 := by decide
    exact hpost.setPar (ParallelUnit.legal_iff.mpr ⟨hlimit.1, hlimit.2, htimer⟩)
  · exact hpost.setSer _ _

theorem ariseWithdrawal (h : s.InBounds) (p : Port) (asCommand byReset : Bool) :
    (ariseWithdrawal p asCommand byReset s).InBounds := by
  unfold Machine.ariseWithdrawal
  dsimp only
  split
  · rename_i q _
    refine State.InBounds.setPar (State.InBounds.setWaiting ?_ q none) ?_
    · exact h.setPort (h.port p)
    · exact ParallelUnit.legal_of_goesOn (h.par q) (ParallelUnit.goesOn_atArising _ byReset)
  · exact h.setPort (h.port p)

theorem submit (h : s.InBounds) (p : Port) (w : Word) : (submit p w s).InBounds := by
  unfold Machine.submit refuseSubmit
  dsimp only
  split
  · split
    · exact h.ariseWithdrawal p true false
    · exact h.setPort (h.port p)
  · exact h.post _ _ _ _ _
  · split
    · exact h.setPort (h.port p)
    · exact h.post _ _ _ _ _

/-! ### The control page (R188) -/

theorem latchHigh (h : s.InBounds) (p : Port) : (latchHigh p s).InBounds := h.setPort (h.port p)

theorem acknowledge (h : s.InBounds) (p : Port) : (acknowledge p s).InBounds := h.setPort (legal_acknowledged (h.port p) _)

theorem controlReadAct (h : s.InBounds) (p : Port) (offset : Nat) : (controlReadAct p offset s).InBounds := by
  unfold Machine.controlReadAct
  split
  · exact h.latchHigh p
  · exact h

theorem writeStallLimit (h : s.InBounds) (p : Port) (v : Word) : (writeStallLimit p v s).InBounds := by
  unfold Machine.writeStallLimit
  split
  · rename_i q _
    split
    · rename_i hv
      obtain ⟨-, -, htimer⟩ := ParallelUnit.legal_iff.mp (h.par q)
      exact h.setPar (ParallelUnit.legal_iff.mpr ⟨hv.1, hv.2, htimer⟩)
    · exact h
  · exact h

theorem controlWriteAct (h : s.InBounds) (p : Port) (offset : Nat) (v : Word) : (controlWriteAct p offset v s).InBounds := by
  unfold Machine.controlWriteAct
  dsimp only
  split
  · exact h.setPort (h.port p)
  split
  · exact h.setPort (h.port p)
  split
  · exact h.setPort (h.port p)
  · exact h.writeStallLimit p v
  · exact h.setPort (legal_setMask0 (h.port p) v)
  · exact h.setPort (legal_setMask1 (h.port p) v)
  · exact h.acknowledge p
  · exact h.submit p v
  · exact h

/-! ### The bus of a parallel port (R155, R161) -/

theorem setStrobe (h : s.InBounds) (p : ParPort) (held : Bool) : (setStrobe p held s).InBounds := h.setPar (h.par p)

theorem setResetPin (h : s.InBounds) (p : ParPort) (held : Bool) : (setResetPin p held s).InBounds := h.setPar (h.par p)

theorem startCycle (h : s.InBounds) (p : ParPort) (acc : BusAccess) (addr : BitVec 12) : (startCycle p acc addr s).InBounds := by
  unfold Machine.startCycle
  split
  · cases acc with
    | read =>
      refine State.InBounds.controlReadAct (State.InBounds.setDataOut ?_ _ _) _ _
      exact h.setPar (h.par p)
    | write v =>
      refine State.InBounds.controlWriteAct ?_ _ _ _
      exact h.setPar (h.par p)
  · exact (h.post _ _ _ _ _).answerFill p acc
  · rename_i w offset _
    have hcycle : (s.setPar p { s.parUnit p with cycleState := .requested, cycle := some ⟨w, acc, offset⟩ }).InBounds :=
      h.setPar (h.par p)
    unfold windowCycle
    dsimp only
    split
    · exact hcycle.answerFill p acc
    · exact hcycle.setDataReq _ _

theorem abandonWaiting (h : s.InBounds) (p : ParPort) : (abandonWaiting p s).InBounds := by
  unfold Machine.abandonWaiting
  split
  · exact (h.setWaiting p none).post _ _ _ _ _
  · exact h

theorem releaseStrobe (h : s.InBounds) (p : ParPort) : (releaseStrobe p s).InBounds := by
  have hended : (s.setPar p { (s.parUnit p).cycleEnded with strobeHeld := false }).InBounds :=
    h.setPar (ParallelUnit.legal_of_goesOn (h.par p) (ParallelUnit.goesOn_cycleEnded _) :)
  unfold Machine.releaseStrobe
  dsimp only
  split
  · exact h.setStrobe p false
  · exact hended
  · exact hended
  · exact (hended.setDataReq _ _).post _ _ _ _ _
  · exact hended.abandonWaiting p

/-! ### The frames of a serial port (R167 to R176) -/

theorem setSelect (h : s.InBounds) (p : SerPort) (held : Bool) : (setSelect p held s).InBounds := h.setSer p _

theorem beginFrame (h : s.InBounds) (p : SerPort) : (beginFrame p s).InBounds := by
  unfold Machine.beginFrame
  dsimp only
  split
  · exact (h.setSer p _).setDataOut _ _
  · exact h.setSelect p true

theorem headerCalls (h : s.InBounds) (p : SerPort) (op : SerialOp) : (headerCalls p op s).InBounds := by
  have hcheck : (placeCheck p s).InBounds := by
    unfold placeCheck
    split
    · exact h.setSer p _
    · exact h.setDataReq _ _
  cases op with
  | statusOnly | controlRead | controlWrite => exact h
  | streamRead | streamWrite | pageRead | pageWrite => exact hcheck
  | withdraw => exact h.ariseWithdrawal p.toPort false false

theorem clockHeader (h : s.InBounds) (p : SerPort) (op : SerialOp) (w : Fin 8) (count : BitVec 10) :
    (clockHeader p op w count s).InBounds := by
  rw [clockHeader_eq]
  split
  · exact (h.setSer p _).headerCalls p op
  · exact h

theorem takeAddress (h : s.InBounds) (p : SerPort) (address : Word) : (takeAddress p address s).InBounds := by
  unfold Machine.takeAddress
  dsimp only
  split
  · exact h.setDataOut _ _
  split
  · exact (h.setSer p _).setDataOut _ _
  · exact h

theorem beyondWord (h : s.InBounds) (p : SerPort) : (beyondWord p s).InBounds := (h.setSer p _).setDataOut _ _

theorem beginCounted (h : s.InBounds) (p : SerPort) : (beginCounted p s).InBounds := by
  have hread : ∀ offset, (beginRead p offset s).InBounds := fun offset => by
    unfold beginRead
    dsimp only
    split
    · exact (h.setSer p _).setDataOut _ _
    · exact (h.setSer p _).setDataReq _ _
  have hcontrol : (beginControlRead p s).InBounds := ((h.setSer p _).setDataOut _ _).controlReadAct _ _
  have hwrite : (beginWrite p s).InBounds := (h.setSer p _).setDataOut _ _
  unfold Machine.beginCounted
  dsimp only
  split
  · exact h
  · exact h
  · exact h
  · exact hread 0
  · exact hread _
  · exact hcontrol
  all_goals exact hwrite

theorem completeCounted (h : s.InBounds) (p : SerPort) (w : Word) : (completeCounted p w s).InBounds := by
  have hread : (completeRead p s).InBounds := h.setSer p _
  have hwrite : ∀ offset, (completeWrite p w offset s).InBounds := fun offset => by
    unfold completeWrite
    dsimp only
    split
    · exact h.setSer p _
    · exact (h.setSer p _).setDataReq _ _
  unfold Machine.completeCounted
  dsimp only
  split
  · exact h
  · exact h
  · exact h
  · exact hread
  · exact hread
  · exact hread
  · exact hwrite 0
  · exact hwrite _
  · exact (h.setSer p _).controlWriteAct _ _ _

theorem dataWord (h : s.InBounds) (p : SerPort) (moment : DataBit) : (dataWord p moment s).InBounds := by
  cases moment with
  | first =>
    simp only [Machine.dataWord, beginWord]
    split
    · exact h.setDataOut _ _
    split
    · split
      · exact h.beyondWord p
      · exact h.beginCounted p
    · exact h
  | last w =>
    simp only [Machine.dataWord, completeWord]
    split
    · exact h.completeCounted p w
    · exact h

theorem beginBeyond (h : s.InBounds) (p : SerPort) : (beginBeyond p s).InBounds := by
  unfold Machine.beginBeyond
  dsimp only
  split
  · exact h.setDataOut _ _
  split
  · exact h.beyondWord p
  · exact h

theorem releaseSelect (h : s.InBounds) (p : SerPort) : (releaseSelect p s).InBounds := by
  unfold Machine.releaseSelect
  dsimp only
  split
  · exact h.setSelect p false
  · exact (h.setSelect p false).endIfReleased p

theorem clocked (h : s.InBounds) (p : SerPort) {f : State → State} (hf : KeepsBounds f) : (clocked p f s).InBounds := by
  unfold Machine.clocked
  split
  · exact hf s h
  · exact h

end State.InBounds

end Sys2Proof.Machine
end

