-- ==== Sys2Proof/Proofs/LegalSteps.lean ====
section
/-! PROOF. Every step keeps the port units and the pacers within their bounds (O55): the grants and what falls due are chains of the ring
controller with writes of the move engine between them, and every command is made of these and of the acts of the ports. -/

namespace Sys2Proof.Machine

namespace State.InBounds

variable {s : State}

theorem placeStartCheck (h : s.InBounds) : (placeStartCheck s).InBounds := by
  obtain ⟨x, hx⟩ := placeStartCheck_eq_setMoveReq s
  rw [hx]
  exact h.of_units rfl rfl rfl

/-! ### The grant of a data requester (R156, R170 to R174) -/

theorem applyAccess (h : s.InBounds) (kind : WindowKind) (acc : BusAccess) (offset : Nat) (a : AccessAnswer) :
    (applyAccess kind acc offset a s).InBounds :=
  h.of_steps (steps_applyAccess (m := May.all true) (.inl rfl) kind offset a s (.inl rfl))

theorem grantData (h : s.InBounds) (p : Port) : (grantData p s).InBounds := by
  unfold Machine.grantData
  split
  · exact h
  · split
    · exact h.setDataReq _ _
    · exact h.grantCheck _
  · split
    · exact ((h.setDataReq _ _).applyAccess _ _ _ _).finishParallel _ _ _ _ _
    · split
      · exact (((h.setDataReq _ _).applyAccess _ _ _ _).finishSerial _ _ _).endIfReleased _
      · exact h.setDataReq _ _

/-! ### The grant of the move engine (R126 to R128, R132) -/

theorem examineEntry {acc : State × Bool} (h : acc.1.InBounds) (e : Fin 16) : (examineEntry acc e).1.InBounds := by
  unfold Machine.examineEntry
  dsimp only
  split
  · exact h
  split
  · exact h
  split
  · unfold startFrame
    dsimp only
    split <;> exact h.of_units rfl rfl rfl
  · exact h.of_units rfl rfl rfl

theorem startCheckAct (h : s.InBounds) : (startCheckAct s).InBounds :=
  List.foldlRecOn (motive := fun acc : State × Bool => acc.1.InBounds) _ _ (h.of_units rfl rfl rfl)
    fun _ hacc e _ => hacc.examineEntry e

theorem frameEnd (h : s.InBounds) (e : Fin 16) : (frameEnd e s).InBounds := by
  have hmove : ∀ x, (((s.setFrame none).setMoveReq none).setMove e x).InBounds := fun x => h.of_units rfl rfl rfl
  unfold Machine.frameEnd
  split
  · exact h.of_units rfl rfl rfl
  dsimp only
  split
  · exact (hmove _).of_steps (steps_postMove (m := May.all true) _ _ _ _)
  split
  · exact (hmove _).of_steps (steps_haltEntry (m := May.all true) _ _ _)
  · exact (hmove _).of_steps (steps_sourceEndedCheck (m := May.all true) rfl _ _ (.inl rfl))

theorem advanceFrame (h : s.InBounds) (e : Fin 16) (position : Nat) : (advanceFrame e position s).InBounds := by
  unfold Machine.advanceFrame
  split
  · exact h.frameEnd e
  · exact h.of_units rfl rfl rfl

theorem framePopAct (h : s.InBounds) : (framePopAct s).InBounds := by
  unfold Machine.framePopAct
  split
  · exact h
  split
  · exact h
  rename_i src _
  have hpop : (popAct src.index s).InBounds := h.of_steps (steps_popAct (m := May.all true) src.index s (.inl rfl))
  split
  · dsimp only
    split
    · exact hpop.of_units rfl rfl rfl
    · exact hpop.advanceFrame _ _
  · exact h
  · exact h

theorem framePushAct (h : s.InBounds) : (framePushAct s).InBounds := by
  unfold Machine.framePushAct
  split
  · exact h
  split
  · exact (h.of_steps (steps_pushAct (m := May.all true) rfl _ _ _ _)).advanceFrame _ _
  · exact h

theorem unloadAct (h : s.InBounds) : (unloadAct s).InBounds := by
  unfold Machine.unloadAct
  split
  · exact h.of_units rfl rfl rfl
  · exact (h.of_steps (steps_unloadWithdrawn (m := May.all true) rfl _ _ s (.inl rfl))).of_units rfl rfl rfl

theorem grantMove (h : s.InBounds) : (grantMove s).InBounds := by
  unfold Machine.grantMove
  split
  · exact h
  · exact h.startCheckAct
  · exact h.framePopAct
  · exact h.framePushAct
  · exact h.unloadAct

/-! ### The grant of a command requester (R69, R90) -/

/-- SET_PACER takes a period word that is not 0 (R137). -/
theorem runSetPacer (h : s.InBounds) (x : Args) : (runSetPacer x s).after.InBounds := by
  unfold Machine.runSetPacer
  split
  · exact h
  split
  · rename_i enable _ hargs
    exact h.setPacer (Pacer.legal_program (h.pacer _) (Nat.pos_of_ne_zero hargs.2) (Nat.le_of_lt_succ x.w2.isLt) enable)
  · exact h

theorem runCommand (h : s.InBounds) (p : Port) (w : Word) (x : Args) : (runCommand p w x s).after.InBounds := by
  have choose : ∀ {c : Prop} [Decidable c] {a b : CommandAnswer}, a.after.InBounds → b.after.InBounds →
      (if c then a else b).after.InBounds := fun ha hb => by
    split
    · exact ha
    · exact hb
  have chain : ∀ {a : CommandAnswer}, RingSteps (May.all true) s a.after → a.after.InBounds := h.of_steps
  have hring : (runQueryRing x s).after.InBounds := by
    unfold runQueryRing
    split <;> exact h
  have hattach : (runQueryAttach p x s).after.InBounds := by
    unfold runQueryAttach
    split <;> exact h
  have hq : Quietly (May.all true) s := .inl rfl
  exact choose (chain (steps_runCreateRing rfl hq p x)) <|
    choose (chain (steps_runAttach rfl hq p x)) <|
    choose (chain (steps_runDetach rfl hq p x)) <|
    choose (chain (steps_runRenew hq p x)) <|
    choose (chain (steps_runSetThreshold p x)) <|
    choose hring <|
    choose hattach <|
    choose (chain (steps_runLoadMove rfl hq p x)) <|
    choose (chain (steps_runStartMove rfl hq p x)) <|
    choose (chain (steps_runFireMove p x)) <|
    choose (chain (steps_runStopMove p x)) <|
    choose (chain (steps_runUnloadMove rfl hq p x)) <|
    choose (h.runSetPacer x) <|
    h

theorem grantCommand (h : s.InBounds) (p : Port) : (grantCommand p s).InBounds := by
  unfold Machine.grantCommand
  split
  · exact h
  · exact finishCommand (h.runCommand p _ _)
  · exact (h.of_steps (steps_withdrawn s p)).resetPrivate p _

/-! ### Grants, and the requests served before a word of a serial port (R65, R67) -/

theorem grantRequest (h : s.InBounds) (x : Requester) : (grantRequest x s).InBounds := by
  have harb : (s.setArb x).InBounds := h.of_units rfl rfl rfl
  cases x with
  | data p => exact harb.grantData p
  | move => exact harb.grantMove
  | command p => exact harb.grantCommand p

theorem grantNext (h : s.InBounds) : (grantNext s).InBounds := by
  unfold Machine.grantNext
  split
  · exact (h.grantRequest _).placeStartCheck
  · exact h

theorem serveFor (p : SerPort) : ∀ (n : Nat) {s : State}, s.InBounds → (serveFor p n s).InBounds
  | 0, _, h => h
  | n + 1, _, h => by
    unfold Machine.serveFor
    split
    · exact serveFor p n h.grantNext
    · exact h

theorem serve (h : s.InBounds) (p : SerPort) : (serve p s).InBounds := serveFor p 9 h

theorem controlAccess (h : s.InBounds) (p : Port) {f : State → State} (hf : KeepsBounds f) : (controlAccess p f s).InBounds := by
  have hserved : (serveBefore p s).InBounds := by
    unfold serveBefore
    split
    · exact h
    · exact h.serve _
  unfold Machine.controlAccess
  split
  · exact hf _ hserved
  · exact hserved

/-! ### What falls due (R72, R73, R138, R159) -/

theorem settleExpiries (h : s.InBounds) : (settleExpiries s).InBounds :=
  h.of_steps (steps_settleExpiries (m := May.all true) rfl s (.inl rfl))

theorem takeTick (h : s.InBounds) : (takeTick s).InBounds := h.of_units rfl rfl rfl

theorem settleTick (h : s.InBounds) : (settleTick s).InBounds := by
  unfold Machine.settleTick
  split
  · exact h.takeTick.settleExpiries
  · exact h

/-- The triggers of an expiry are a chain, so the pacer that is reloaded is the one whose expiry it is. -/
theorem expirePacer (h : s.InBounds) {n : Fin 4} (hn : (s.pacer n).enabled = true) : (expirePacer n s).InBounds := by
  have triggers : RingSteps (May.all true) s ((List.finRange 16).foldl (triggerNamed n) s) := by
    refine steps_foldl _ (fun t e _ => ?_) _ s (.inl rfl)
    unfold triggerNamed
    split
    · exact steps_deliverTrigger e t
    · exact .refl t
  have hpacers := triggers.keeps.pacers
  rw [expirePacer_def]
  refine (h.of_steps triggers).setPacer (Pacer.legal_reloaded ((h.of_steps triggers).pacer n) ?_)
  simpa only [State.pacer, hpacers] using hn

theorem settlePacers (h : s.InBounds) : (settlePacers s).InBounds := by
  refine List.foldlRecOn (motive := State.InBounds) _ _ h fun t ht n _ => ?_
  split
  · rename_i hn
    exact ht.expirePacer (pacerDue_iff.mp hn).1
  · exact ht

theorem settleStall (h : s.InBounds) (p : ParPort) : (settleStall p s).InBounds :=
  h.of_steps (steps_settleStall (m := May.all true) p s)

theorem settle (h : s.InBounds) : (settle s).InBounds := by
  unfold Machine.settle
  split
  · exact h
  · exact ((h.settleExpiries.settleTick.settlePacers.settleStall .a).settleStall .b).placeStartCheck

theorem answerWaiting (h : s.InBounds) (p : ParPort) : (answerWaiting p s).InBounds := by
  have hq : Quietly (May.all true) s := .inl rfl
  unfold Machine.answerWaiting
  split
  · exact h.of_steps ((steps_examineWaiting _ p s hq).trans (steps_reexamine _ _ (.inl rfl)))
  · exact h

/-- A microsecond moves the stall timers and the pacers' counts (R136, R159). -/
theorem advanceTime (h : s.InBounds) : (advanceTime s).InBounds := by
  rw [advanceTime_eq]
  refine ⟨h.port, fun p => ?_, fun n => ?_⟩
  · cases p with
    | a => exact ParallelUnit.legal_advanced (h.par .a)
    | b => exact ParallelUnit.legal_advanced (h.par .b)
  · have hn : tableGet (s.pacers.map Pacer.advanced) n = (s.pacer n).advanced := Vector.getElem_map _ _
    exact (congrArg Pacer.legal hn).trans (Pacer.legal_advanced (h.pacer n))

/-- Device reset gives every unit its reset values, within the bounds; the levels of the pins are not bounded (R18, R136, R154). -/
theorem resetAll (s : State) : (resetAll s).InBounds := by
  have hreset := State.legal_iff.mp reset_legal
  refine ⟨hreset.port, fun p => ?_, hreset.pacer⟩
  cases p with
  | a => exact hreset.par .a
  | b => exact hreset.par .b

end State.InBounds

/-! ### Every command -/

/-- A next state within the bounds. -/
def EndsInBounds (o : Out) : Prop := ∀ t, o = .next t → t.InBounds

section
variable {s t : State} {f : State → State}

theorem State.InBounds.endsInBounds (h : t.InBounds) : EndsInBounds (.next t) := fun _ ht => Host.Outcome.next.inj ht ▸ h

theorem KeepsBounds.dueAct (hf : KeepsBounds f) (h : s.InBounds) : EndsInBounds (dueAct f s) := by
  unfold Machine.dueAct
  split
  · exact h.endsInBounds
  · exact (hf s h).placeStartCheck.endsInBounds

theorem KeepsBounds.pinAct (hf : KeepsBounds f) {pin : State → State} (hpin : KeepsBounds pin) (h : s.InBounds) :
    EndsInBounds (pinAct pin f s) := by
  unfold Machine.pinAct
  split
  · exact (hpin s h).endsInBounds
  · exact (hf _ h.settle).placeStartCheck.endsInBounds

/-- An act is one of a pin that has no level. -/
theorem KeepsBounds.act (hf : KeepsBounds f) (h : s.InBounds) : EndsInBounds (act f s) :=
  KeepsBounds.pinAct (pin := fun s => s) hf (fun _ h => h) h

theorem keepsBounds_grantWhen (x : Requester) (sort : State → Bool) : KeepsBounds (grantWhen x sort) := fun s h => by
  unfold grantWhen
  split
  · exact h.grantRequest x
  · exact h

theorem endsInBounds_exec (h : s.InBounds) (c : Instr) : EndsInBounds (exec c s) := by
  have grant : ∀ {x sort}, EndsInBounds (act (grantWhen x sort) s) := (keepsBounds_grantWhen _ _).act h
  have header : ∀ {p op w count}, EndsInBounds (act (clockHeader p op w count) s) :=
    KeepsBounds.act (fun _ ht => ht.clockHeader _ _ _ _) h
  have control : ∀ {p} {f : State → State}, KeepsBounds f → EndsInBounds (act (controlAccess p f) s) :=
    fun hf => KeepsBounds.act (fun _ ht => ht.controlAccess _ hf) h
  have word : ∀ {p} {f : State → State}, KeepsBounds f → EndsInBounds (act (fun t => clocked p f (serve p t)) s) :=
    fun hf => KeepsBounds.act (fun _ ht => (ht.serve _).clocked _ hf) h
  cases c with
  | deviceReset => exact (State.InBounds.resetAll s).endsInBounds
  | deviceResetRelease => exact State.InBounds.endsInBounds (h.of_units rfl rfl rfl)
  | timebaseAdvance => exact KeepsBounds.act (fun _ ht => ht.advanceTime) h
  | leaseTick =>
    unfold exec execLeaseTick
    refine KeepsBounds.dueAct (fun t ht => ?_) h
    split
    · exact ht.settleExpiries.takeTick
    · exact ht
  | leaseExpiry =>
    unfold exec execLeaseExpiry
    refine KeepsBounds.dueAct (fun t ht => ?_) h
    split
    · exact ht.of_steps (steps_expireLease (m := May.all true) rfl _ t (.inl rfl))
    · exact ht
  | pacerExpiry n =>
    unfold exec execPacerExpiry
    refine KeepsBounds.dueAct (fun t ht => ?_) h
    split
    · rename_i hn
      have hpacers := (steps_settleExpiries (m := May.all true) rfl t (.inl rfl)).keeps.pacers
      refine ht.settleExpiries.expirePacer ?_
      simpa only [State.pacer, hpacers] using (pacerDue_iff.mp hn).1
    · exact ht
  | stallTimeout p =>
    unfold exec execStallTimeout
    refine KeepsBounds.dueAct (fun t ht => State.InBounds.settleStall ?_ p) h
    split
    · exact ht.settleExpiries
    · exact ht
  | parallelCycleStart p acc addr =>
    unfold exec execParallelCycleStart
    refine KeepsBounds.pinAct (fun t ht => ?_) (fun _ ht => ht.setStrobe p true) h
    split
    · exact (ht.setStrobe p true).startCycle p acc addr
    · exact ht.setStrobe p true
  | strobeRelease p => exact KeepsBounds.pinAct (fun _ ht => ht.releaseStrobe p) (fun _ ht => ht.setStrobe p false) h
  | portReset p =>
    unfold exec execPortReset
    refine KeepsBounds.pinAct (fun t ht => ?_) (fun _ ht => ht.setResetPin p true) h
    split
    · exact ht
    · exact (ht.setResetPin p true).ariseWithdrawal _ _ _
  | portResetRelease p => exact KeepsBounds.pinAct (fun _ ht => ht.setResetPin p false) (fun _ ht => ht.setResetPin p false) h
  | serialFrameStart p =>
    unfold exec execSerialFrameStart
    refine KeepsBounds.pinAct (fun t ht => ?_) (fun _ ht => ht.setSelect p true) h
    split
    · exact ht
    · exact (ht.serve p).beginFrame p
  | serialFrameEnd p => exact KeepsBounds.pinAct (fun _ ht => ht.releaseSelect p) (fun _ ht => ht.setSelect p false) h
  | serialAddressWord p address => exact KeepsBounds.act (fun _ ht => ht.clocked p fun _ hu => hu.takeAddress p address) h
  | serialDataWord p moment => exact word fun _ ht => ht.dataWord p moment
  | beyondCountWord p => exact word fun _ ht => ht.beginBeyond p
  | waitingAccessAnswer p => exact KeepsBounds.act (fun _ ht => ht.answerWaiting p) h
  | timebaseLowRead p => exact control fun _ ht => (ht.setDataOut p _).latchHigh p
  | eventAcknowledge p _ => exact control fun _ ht => ht.acknowledge p
  | controlWordWrite p offset v => exact control fun _ ht => ht.controlWriteAct p offset.toNat v
  | commandSubmit p w => exact control fun _ ht => ht.submit p w
  | withdraw p => exact control fun _ ht => ht.submit p codeWithdraw
  | statusOnly | streamRead | streamWrite | pageRead | pageWrite | controlRead | controlWrite | withdrawFrame => exact header
  | serialWindowCheck | push | pop | pageWindowRead | pageWindowWrite | withdrawal | badCommand | createRing | attach | detach | renew
  | setThreshold | queryRing | queryAttach | loadMove | startMove | fireMove | stopMove | unloadMove | setPacer | startCheck
  | moveFramePop | moveFramePush | deferredUnload => exact grant

end

/-- Settles O55: every command ends within the bounds, and a step runs one command or none. -/
theorem everyStepKeepsThePortsLegal : Obligations.EveryStepKeepsThePortsLegal := by
  intro s t hs ht
  have h := State.legal_iff.mp hs
  refine State.legal_iff.mpr ?_
  cases hp : s.pending with
  | nil => exact h.endsInBounds t ((step_of_idle hp).symm.trans ht)
  | cons c rest =>
    have hrest : State.InBounds { s with pending := rest } := h.of_units rfl rfl rfl
    exact endsInBounds_exec hrest c t ((step_of_pending hp).symm.trans ht)

end Sys2Proof.Machine
end
